-- ==== Sys2Proof/Word.lean ====
section
/-!
DEFINITION. The plain data types of PXM's values: words, float bit patterns, four-lane pixels
and per-channel triples (spec 00_scope.md R10, R11, R14, R19).
-/
namespace Sys2Proof

/-- One byte of memory (20_memory.md R70). -/
abbrev Byte := BitVec 8

/-- A 32-bit register, command word or error information value (00_scope.md R10). -/
abbrev Word := BitVec 32

/-- A binary32 bit pattern (00_scope.md R14: `asF32`/`bits32` are the identity on these). -/
abbrev F32 := BitVec 32

/-- A binary64 bit pattern; descriptor values only (00_scope.md R14). -/
abbrev F64 := BitVec 64

/-- A binary16 bit pattern (00_scope.md R14). -/
abbrev F16 := BitVec 16

/-- Four values in the order R, G, B, A (00_scope.md R11, R19: "alpha always last"). -/
structure Lanes (α : Type) where
  r : α
  g : α
  b : α
  a : α
deriving DecidableEq, Repr, Inhabited

/-- The contents of one vector register, or one pixel: lane 0 = R … lane 3 = A (10_state.md R31). -/
abbrev Quad := Lanes F32

/-- Three values, one for each colour channel c ∈ 0..2 (R, G, B). -/
structure Rgb (α : Type) where
  r : α
  g : α
  b : α
deriving DecidableEq, Repr, Inhabited

def Lanes.map {α β : Type} (f : α → β) (x : Lanes α) : Lanes β := ⟨f x.r, f x.g, f x.b, f x.a⟩

def Lanes.map2 {α β γ : Type} (f : α → β → γ) (x : Lanes α) (y : Lanes β) : Lanes γ :=
  ⟨f x.r y.r, f x.g y.g, f x.b y.b, f x.a y.a⟩

/-- The four values in channel order 0 to 3. -/
def Lanes.toList {α : Type} (x : Lanes α) : List α := [x.r, x.g, x.b, x.a]

def Rgb.map {α β : Type} (f : α → β) (x : Rgb α) : Rgb β := ⟨f x.r, f x.g, f x.b⟩

def Rgb.map2 {α β γ : Type} (f : α → β → γ) (x : Rgb α) (y : Rgb β) : Rgb γ :=
  ⟨f x.r y.r, f x.g y.g, f x.b y.b⟩

/-- The three values in channel order 0 to 2. -/
def Rgb.toList {α : Type} (x : Rgb α) : List α := [x.r, x.g, x.b]

/-- A colour channel index c ∈ 0..2. -/
inductive Chan where
  | r | g | b
deriving DecidableEq, Repr, Inhabited

def Rgb.get {α : Type} (x : Rgb α) : Chan → α
  | .r => x.r
  | .g => x.g
  | .b => x.b

def Rgb.set {α : Type} (x : Rgb α) (c : Chan) (v : α) : Rgb α :=
  match c with
  | .r => { x with r := v }
  | .g => { x with g := v }
  | .b => { x with b := v }

/-- The colour channels of a pixel, alpha dropped. -/
def Lanes.rgb {α : Type} (x : Lanes α) : Rgb α := ⟨x.r, x.g, x.b⟩

/-- A pixel from its colour channels and an alpha. -/
def Rgb.withAlpha {α : Type} (x : Rgb α) (a : α) : Lanes α := ⟨x.r, x.g, x.b, a⟩

/-- The bit depths of a pixel element (30_encoding.md R120). -/
inductive BitDepth where
  | u8 | u10 | u12 | u16 | f16 | f32
deriving DecidableEq, Repr, Inhabited

end Sys2Proof
end

