-- ==== Sys2Proof/Syntax.lean ====
section
/-!
DEFINITION. The commands of PXM: one constructor per row of spec/opcode_table.json, in the
table's order (30_encoding.md R103, R104).
-/
namespace Sys2Proof

/-- A vector register number, 0 to 15 (30_encoding.md R102). -/
abbrev VReg := Fin 16

/-- A command. Operand names are the fields of 30_encoding.md R101; `imm` is IMM14 and `cfg` is
IMM14[3:0] (R102, R122). -/
inductive Instr where
  /-- `NOP` (47_control.md R443). -/
  | nop
  /-- `HALT` (47_control.md R444). -/
  | halt
  /-- `WRCFG cfg, vA` (41_bitdepth_pixel_io.md R204). -/
  | wrcfg (va : VReg) (cfg : BitVec 4)
  /-- `VLD vD, imm` (41_bitdepth_pixel_io.md R202). -/
  | vld (vd : VReg) (imm : BitVec 14)
  /-- `VST vA, imm` (41_bitdepth_pixel_io.md R203). -/
  | vst (va : VReg) (imm : BitVec 14)
  /-- `VLOG2 vD, vA` (40_simd_math.md R143). -/
  | vlog2 (vd va : VReg)
  /-- `VEXP2 vD, vA` (40_simd_math.md R146). -/
  | vexp2 (vd va : VReg)
  /-- `VPOW vD, vA, vB`: base in vA, exponent in vB (40_simd_math.md R149). -/
  | vpow (vd va vb : VReg)
  /-- `VSIN vD, vA` (40_simd_math.md R159). -/
  | vsin (vd va : VReg)
  /-- `VCOS vD, vA` (40_simd_math.md R156). -/
  | vcos (vd va : VReg)
  /-- `VSINCOS vD, vB, vA`: sine to vD, cosine to vB, angle in vA (40_simd_math.md R160). -/
  | vsincos (vd va vb : VReg)
  /-- `VATAN vD, vA` (40_simd_math.md R151). -/
  | vatan (vd va : VReg)
  /-- `VATAN2 vD, vA, vB`: y in vA, x in vB (40_simd_math.md R154). -/
  | vatan2 (vd va vb : VReg)
  /-- `UPD.MAT` (42_matrix.md R232). -/
  | updMat
  /-- `APPLY.MAT` (42_matrix.md R237). -/
  | applyMat
  /-- `VMAT vD, vA` (42_matrix.md R238). -/
  | vmat (vd va : VReg)
  /-- `UPD.LOG` (43_log.md R265). -/
  | updLog
  /-- `APPLY.LOG` (43_log.md R273). -/
  | applyLog
  /-- `VLOGK vD, vA` (43_log.md R274). -/
  | vlogk (vd va : VReg)
  /-- `UPD.LUT` (44_lut1d_forward.md R303). -/
  | updLut
  /-- `APPLY.LUT` (44_lut1d_forward.md R314). -/
  | applyLut
  /-- `VLUT vD, vA` (44_lut1d_forward.md R315). -/
  | vlut (vd va : VReg)
  /-- `UPD.CRV` (46_tone_curves.md R401). -/
  | updCrv
  /-- `APPLY.CRV` (46_tone_curves.md R413). -/
  | applyCrv
  /-- `VCRV vD, vA` (46_tone_curves.md R414). -/
  | vcrv (vd va : VReg)
deriving DecidableEq, Repr, Inhabited

end Sys2Proof
end

