-- ==== Sys2Proof/WellFormed.lean ====
section
/-!
DEFINITION. Which command terms have an encoding. Register numbers and IMM14 are bounded by their
types; the one check left is WRCFG's index (30_encoding.md R105, R122).
-/
namespace Sys2Proof

/-- The operand check of 30_encoding.md R105: a `WRCFG` index is 0 to 5. -/
def Instr.wellFormed : Instr → Bool
  | .wrcfg _ cfg => cfg.toNat ≤ 5
  | .nop | .halt | .vld _ _ | .vst _ _ | .vlog2 _ _ | .vexp2 _ _ | .vpow _ _ _ | .vsin _ _
  | .vcos _ _ | .vsincos _ _ _ | .vatan _ _ | .vatan2 _ _ _ | .updMat | .applyMat | .vmat _ _
  | .updLog | .applyLog | .vlogk _ _ | .updLut | .applyLut | .vlut _ _ | .updCrv | .applyCrv
  | .vcrv _ _ => true

end Sys2Proof
end

