-- ==== Sys2Proof/Decode.lean ====
section
/-!
DEFINITION. The decoder (30_encoding.md R100 to R107), total on any word and on any bytes, and
after it the encoder written from the same tables.
-/
namespace Sys2Proof

/-- Why a word is no legal command; every reason is `ERR_ILLEGAL(w)` (30_encoding.md R105 to R107). -/
inductive Illegal where
  /-- OP is not in the opcode map (R106). -/
  | reservedOpcode
  /-- A bit is set where the format requires zero (R105). -/
  | reservedField
  /-- A WRCFG index above 5 (R105, R122). -/
  | reservedCfgIndex
deriving DecidableEq, Repr

/-- The command formats (30_encoding.md R103). -/
inductive Format where
  | z | r1 | r2 | sc | ld | st | wc
deriving DecidableEq, Repr

/-- The fixed bits of each format (30_encoding.md R103). -/
def Format.mask : Format → Word
  | .z => 0xFFFFFFFF#32
  | .r1 => 0xFC03FFFF#32
  | .r2 => 0xFC003FFF#32
  | .sc => 0xFC003FFF#32
  | .ld => 0xFC3FC000#32
  | .st => 0xFFC3C000#32
  | .wc => 0xFFC3FFF0#32

/-- The fields of a command word (30_encoding.md R101). -/
structure Fields where
  vd : VReg
  va : VReg
  vb : VReg
  imm : BitVec 14
deriving DecidableEq, Repr

def opOf (w : Word) : BitVec 6 := w.extractLsb' 26 6

def fieldsOf (w : Word) : Fields where
  vd := (w.extractLsb' 22 4).toFin
  va := (w.extractLsb' 18 4).toFin
  vb := (w.extractLsb' 14 4).toFin
  imm := w.extractLsb' 0 14

/-- The opcode map (30_encoding.md R104): the format of an OP and the command its fields make. -/
def opcodeMap (op : BitVec 6) (f : Fields) : Option (Format × Instr) :=
  match op.toNat with
  | 0x01 => some (.z, .nop)
  | 0x02 => some (.z, .halt)
  | 0x03 => some (.wc, .wrcfg f.va (f.imm.extractLsb' 0 4))
  | 0x04 => some (.ld, .vld f.vd f.imm)
  | 0x05 => some (.st, .vst f.va f.imm)
  | 0x10 => some (.r1, .vlog2 f.vd f.va)
  | 0x11 => some (.r1, .vexp2 f.vd f.va)
  | 0x12 => some (.r2, .vpow f.vd f.va f.vb)
  | 0x13 => some (.r1, .vsin f.vd f.va)
  | 0x14 => some (.r1, .vcos f.vd f.va)
  | 0x15 => some (.sc, .vsincos f.vd f.va f.vb)
  | 0x16 => some (.r1, .vatan f.vd f.va)
  | 0x17 => some (.r2, .vatan2 f.vd f.va f.vb)
  | 0x20 => some (.z, .updMat)
  | 0x21 => some (.z, .applyMat)
  | 0x22 => some (.r1, .vmat f.vd f.va)
  | 0x24 => some (.z, .updLog)
  | 0x25 => some (.z, .applyLog)
  | 0x26 => some (.r1, .vlogk f.vd f.va)
  | 0x28 => some (.z, .updLut)
  | 0x29 => some (.z, .applyLut)
  | 0x2A => some (.r1, .vlut f.vd f.va)
  | 0x2C => some (.z, .updCrv)
  | 0x2D => some (.z, .applyCrv)
  | 0x2E => some (.r1, .vcrv f.vd f.va)
  | _ => none

/-- `match` of an OP: the word with every used field zero (30_encoding.md R104). -/
def matchWord (op : BitVec 6) : Word := op ++ 0#26

/-- Decoding, as a total function of the word (30_encoding.md R107). -/
def decode (w : Word) : Except Illegal Instr :=
  match opcodeMap (opOf w) (fieldsOf w) with
  | none => .error .reservedOpcode
  | some (fmt, i) =>
    if w &&& fmt.mask = matchWord (opOf w) then
      if i.wellFormed then .ok i else .error .reservedCfgIndex
    else .error .reservedField

/-- Bytes as one little-endian number: the first byte is the least significant (20_memory.md R72). -/
def leNat : List Byte → Nat
  | [] => 0
  | b :: bs => b.toNat + 256 * leNat bs

/-- The `n` low bytes of `v`, least significant first (20_memory.md R72). -/
def leBytes : Nat → Nat → List Byte
  | 0, _ => []
  | n + 1, v => BitVec.ofNat 8 v :: leBytes n (v / 256)

/-- The command at the head of a byte stream and the bytes after it; `none` where fewer than four
bytes are there or the word is illegal (30_encoding.md R100: every command is four bytes). -/
def decodeBytes (bs : List Byte) : Option (Instr × List Byte) :=
  if bs.length < 4 then none
  else
    match decode (BitVec.ofNat 32 (leNat (bs.take 4))) with
    | .ok i => some (i, bs.drop 4)
    | .error _ => none

/-- A command word from its fields (30_encoding.md R101, R108); absent fields are 0. -/
def word (op : BitVec 6) (vd va vb : VReg := 0) (imm : BitVec 14 := 0#14) : Word :=
  op ++ (BitVec.ofFin vd : BitVec 4) ++ (BitVec.ofFin va : BitVec 4) ++
    (BitVec.ofFin vb : BitVec 4) ++ imm

/-- The encoder (30_encoding.md R104, R108). -/
def encode : Instr → Word
  | .nop => word 0x01#6
  | .halt => word 0x02#6
  | .wrcfg va cfg => word 0x03#6 (va := va) (imm := 0#10 ++ cfg)
  | .vld vd imm => word 0x04#6 (vd := vd) (imm := imm)
  | .vst va imm => word 0x05#6 (va := va) (imm := imm)
  | .vlog2 vd va => word 0x10#6 (vd := vd) (va := va)
  | .vexp2 vd va => word 0x11#6 (vd := vd) (va := va)
  | .vpow vd va vb => word 0x12#6 (vd := vd) (va := va) (vb := vb)
  | .vsin vd va => word 0x13#6 (vd := vd) (va := va)
  | .vcos vd va => word 0x14#6 (vd := vd) (va := va)
  | .vsincos vd va vb => word 0x15#6 (vd := vd) (va := va) (vb := vb)
  | .vatan vd va => word 0x16#6 (vd := vd) (va := va)
  | .vatan2 vd va vb => word 0x17#6 (vd := vd) (va := va) (vb := vb)
  | .updMat => word 0x20#6
  | .applyMat => word 0x21#6
  | .vmat vd va => word 0x22#6 (vd := vd) (va := va)
  | .updLog => word 0x24#6
  | .applyLog => word 0x25#6
  | .vlogk vd va => word 0x26#6 (vd := vd) (va := va)
  | .updLut => word 0x28#6
  | .applyLut => word 0x29#6
  | .vlut vd va => word 0x2A#6 (vd := vd) (va := va)
  | .updCrv => word 0x2C#6
  | .applyCrv => word 0x2D#6
  | .vcrv vd va => word 0x2E#6 (vd := vd) (va := va)

/-- The bytes of an encoded command in memory order. -/
def encodeBytes (i : Instr) : List Byte := leBytes 4 (encode i).toNat

/-- The host's question (the package's fixed name): the command the decoder reads from `nbits` low
bits of `w`, laid out as the hardware stores them. -/
def decodeTableWord (nbits w : Nat) : Option Instr :=
  (decodeBytes (leBytes 4 (w % 2 ^ nbits))).map Prod.fst

end Sys2Proof
end

