-- ==== Sys2Proof/Machine/Units.lean ====
section
/-!
DEFINITION. The state of the four configurable units MAT, LOG, LUT and CRV, and of the STATUS and
CFG registers, as plain data (10_state.md R39, R43 to R51).
-/
namespace Sys2Proof.Machine

/-- A set of byte addresses as a list of half-open ranges `[lo, hi)`; the operations are in
Machine/Ops.lean. -/
abbrev Ranges := List (Nat × Nat)

/-- The fields of `STATUS` that can be non-zero (10_state.md R39); the register's word is
`Status.word` in Flags.lean. -/
structure Status where
  busy : Bool
  done : Bool
  err : Bool
  errCode : BitVec 8
deriving DecidableEq, Repr, Inhabited

/-- The CFG data registers, CFG indices 0 to 5 (10_state.md R37, R43 to R45). -/
structure Cfg where
  inPtr : Word
  outPtr : Word
  nPix : Word
  inBd : Word
  outBd : Word
  opdataPtr : Word
deriving DecidableEq, Repr, Inhabited

/-- The four specialisations of the matrix unit (42_matrix.md R230). -/
inductive MatKind where
  | diag | diagOff | full | fullOff
deriving DecidableEq, Repr, Inhabited

/-- MAT unit state (10_state.md R46, R47): `c` holds one row per output channel. -/
structure MatUnit where
  valid : Bool
  inBd : BitDepth
  outBd : BitDepth
  kind : MatKind
  c : Lanes (Lanes F32)
  o : Lanes F32
deriving DecidableEq, Repr, Inhabited

/-- The six kernels of the logarithm unit (43_log.md R261). -/
inductive LogKernel where
  | log | antilog | lin2log | log2lin | camLin2log | camLog2lin
deriving DecidableEq, Repr, Inhabited

/-- The per-channel constants of the logarithm unit (10_state.md R48). -/
structure LogChannel where
  m : F32
  b : F32
  k : F32
  kinv : F32
  logOff : F32
  linBreak : F32
  logBreak : F32
  linearSlope : F32
  linearOffset : F32
deriving DecidableEq, Repr, Inhabited

/-- LOG unit state (10_state.md R46, R48). -/
structure LogUnit where
  valid : Bool
  inBd : BitDepth
  outBd : BitDepth
  kernel : LogKernel
  logScale : F32
  log2Base : F32
  ch : Rgb LogChannel
deriving DecidableEq, Repr, Inhabited

/-- `LUT.hue` (10_state.md R49). -/
inductive HueMode where
  | none | dw3
deriving DecidableEq, Repr, Inhabited

/-- The inverse data of one channel in the normal domain (10_state.md R50, 45_lut1d_inverse.md
R352 to R354); `u` is the monotonised copy. -/
structure NormalInverse where
  isIncreasing : Bool
  flip : F32
  startDomain : Nat
  endDomain : Nat
  bisectPoint : F32
  u : List F32
deriving DecidableEq, Repr, Inhabited

/-- The inverse data of one channel in the half domain (10_state.md R50, 45_lut1d_inverse.md R354
to R357); the negative domain is held as codes, 0x8000 + index. -/
structure HalfInverse where
  isIncreasing : Bool
  flip : F32
  startDomain : Nat
  endDomain : Nat
  negStartDomain : Nat
  negEndDomain : Nat
  bisectPoint : F32
  uP : List F32
  uQ : List F32
deriving DecidableEq, Repr, Inhabited

/-- The inverse data of the three channels, by domain. -/
inductive InverseData where
  | normal (ch : Rgb NormalInverse)
  | half (ch : Rgb HalfInverse)
deriving DecidableEq, Repr, Inhabited

/-- The resampled forward table of the fast inverse: `LUT.fN`, `LUT.fhalf`, `LUT.fv`
(10_state.md R49). -/
structure FastTable where
  fN : Nat
  fhalf : Bool
  fv : Rgb (List F32)
deriving DecidableEq, Repr, Inhabited

/-- `LUT.mode` with the derived data that exists in that mode only (10_state.md R49, R50): FWD,
INV_EXACT, INV_FAST. -/
inductive LutMode where
  | fwd
  | invExact (inv : InverseData)
  | invFast (inv : InverseData) (fast : FastTable)
deriving DecidableEq, Repr, Inhabited

/-- LUT unit state (10_state.md R46, R49): `v` holds each channel's table `LUT.v[·][c]`. -/
structure LutUnit where
  valid : Bool
  inBd : BitDepth
  outBd : BitDepth
  mode : LutMode
  n : Nat
  half : Bool
  hue : HueMode
  v : Rgb (List F32)
deriving DecidableEq, Repr, Inhabited

/-- The curve styles (30_encoding.md R119), in the order of their codes 0 to 10. -/
inductive CurveStyle where
  | darkToDimFwd | darkToDimInv | rec2100Fwd | rec2100Inv | linToPq | pqToLin
  | linToGammaLog | gammaLogToLin | linToDoubleLog | doubleLogToLin | tonescale
deriving DecidableEq, Repr, Inhabited

/-- CRV unit state (10_state.md R46, R51): `p[0..12]`. -/
structure CrvUnit where
  valid : Bool
  inBd : BitDepth
  outBd : BitDepth
  style : CurveStyle
  p : Vector F32 13
deriving DecidableEq, Repr, Inhabited

end Sys2Proof.Machine
end

