-- ==== Sys2Proof/Machine/State.lean ====
section
/-!
DEFINITION. The state of the machine as plain data (10_state.md R30 to R54, 20_memory.md R70, R71),
its fault and refusal reasons, and its state after reset (70_reset_and_hazards.md R501).
-/
namespace Sys2Proof.Machine

/-- Memory as (address, byte) pairs in canonical form (`Memory.wf` in Ops.lean); an unlisted
address reads 0. -/
abbrev Memory := List Host.Cell

/-- The moves of the host (60_exceptions.md R479). A read changes nothing; `hostRead` and
`hostReadByte` in HostPort.lean say what it gives. -/
inductive HostMove where
  /-- Write a 32-bit value to the register at offset 4·index of the block (R479(a)). -/
  | writeReg (index : Fin 64) (value : Word)
  /-- Read the register at offset 4·index of the block (R479(b)). -/
  | readReg (index : Fin 64)
  /-- Write one byte of memory (R479(c)). -/
  | writeMem (addr : Word) (value : Byte)
  /-- Read one byte of memory (R479(c)). -/
  | readMem (addr : Word)
  /-- Assert reset (R479(d)): between two commands, or (`mid`) while the command at `cp` executes
  (70_reset_and_hazards.md R500). -/
  | reset (mid : Bool)
deriving DecidableEq, Repr

/-- Who acts in a coming step (00_scope.md R8: the engine and the host). -/
inductive Input where
  | engine
  | host (move : HostMove)
deriving DecidableEq, Repr

/-- The state of one PXM instance with the memory it shares (10_state.md R30). INVENTORY.md lists
each field's rule. -/
structure State where
  v : Vector Quad 16
  vw : Vector Bool 16
  cp : BitVec 33
  status : Status
  cmdPtr : Word
  errCp : Word
  errInfo : Word
  cfg : Cfg
  mat : MatUnit
  log : LogUnit
  lut : LutUnit
  crv : CrvUnit
  ws : Ranges
  footprint : Ranges
  mem : Memory
  memMap : Ranges
  free : Nat
  inputs : List Input
deriving DecidableEq, Repr

/-- Why the machine stops with a fault. No command does: every hardware error is a next state
(60_exceptions.md R470). -/
inductive Fault where
  /-- A host write or read of a byte that is not in MEM_MAP; raised by the host moves `writeMem` and
  `readMem`. DESIGN CHOICE (log entry 7), safe: the model stops where the spec says nothing. -/
  | hostAddressAbsent (addr : Word)
deriving DecidableEq, Repr

/-- Why the machine refuses to go on. -/
inductive Refusal where
  /-- A command without a meaning; raised by exec's arms only. Safe. -/
  | notModelled (mnemonic : String)
  /-- The host writes a byte that the run in progress may access, a breach of its duty
  (20_memory.md R80, 93_implementation_defined.md V14 and V15); raised by the host move `writeMem`.
  Safe. -/
  | hostWritesDuringRun (addr : Word)
  /-- The host reads such a byte (R80, V14); raised by the host move `readMem`. Safe. -/
  | hostReadsDuringRun (addr : Word)
deriving DecidableEq, Repr

/-- Unit fields at reset are unspecified by the spec and unreadable while `valid` is 0
(70_reset_and_hazards.md R501); the values here are named in log entry 2. -/
def MatUnit.reset : MatUnit :=
  ⟨false, .u8, .u8, .diag, ⟨⟨0, 0, 0, 0⟩, ⟨0, 0, 0, 0⟩, ⟨0, 0, 0, 0⟩, ⟨0, 0, 0, 0⟩⟩, ⟨0, 0, 0, 0⟩⟩

def LogUnit.reset : LogUnit :=
  let ch : LogChannel := ⟨0, 0, 0, 0, 0, 0, 0, 0, 0⟩
  ⟨false, .u8, .u8, .log, 0, 0, ⟨ch, ch, ch⟩⟩

def LutUnit.reset : LutUnit := ⟨false, .u8, .u8, .fwd, 0, false, .none, ⟨[], [], []⟩⟩

def CrvUnit.reset : CrvUnit := ⟨false, .u8, .u8, .darkToDimFwd, Vector.replicate 13 0⟩

/-- The machine right after reset (70_reset_and_hazards.md R501). DESIGN CHOICE, unsafe: the lanes
of `v` (log entry 1), the unit fields (2), the memory contents (3) and the map (4). -/
def State.reset : State where
  v := Vector.replicate 16 ⟨0, 0, 0, 0⟩
  vw := Vector.replicate 16 false
  cp := 0
  status := ⟨false, false, false, 0⟩
  cmdPtr := 0
  errCp := 0
  errInfo := 0
  cfg := ⟨0, 0, 0, 0, 0, 0⟩
  mat := MatUnit.reset
  log := LogUnit.reset
  lut := LutUnit.reset
  crv := CrvUnit.reset
  ws := []
  footprint := []
  mem := []
  memMap := [(0, 2 ^ 32)]
  free := 0
  inputs := []

end Sys2Proof.Machine
end

