-- ==== Sys2Proof/Machine/Flags.lean ====
section
/-!
DEFINITION. The status bits. PXM has no flags or condition codes and no command sets one
(10_state.md R36); its only status bits are those of STATUS: the register's word, the
write-one-to-clear of DONE and ERR, and the values that START, HALT and error entry give them
(10_state.md R39, 47_control.md R441, R444, 60_exceptions.md R470).
-/
namespace Sys2Proof.Machine

/-- The word a host read of STATUS gives (10_state.md R39). -/
def Status.word (st : Status) : Word :=
  0#16 ++ st.errCode ++ 0#5 ++ BitVec.ofBool st.err ++ BitVec.ofBool st.done ++ BitVec.ofBool st.busy

/-- A host write to STATUS: a 1 in bit 1 clears DONE, a 1 in bit 2 clears ERR and ERRCODE, a 0
leaves its bit (10_state.md R39). -/
def Status.clearBits (st : Status) (v : Word) : Status :=
  { busy := st.busy
    done := st.done && !v.getLsbD 1
    err := st.err && !v.getLsbD 2
    errCode := if v.getLsbD 2 then 0 else st.errCode }

/-- STATUS after START (47_control.md R441). -/
def Status.started : Status := ⟨true, false, false, 0⟩

/-- STATUS after HALT (47_control.md R444). -/
def Status.halted (st : Status) : Status := { st with busy := false, done := true }

/-- STATUS after error entry; DONE stays as it is (60_exceptions.md R470). -/
def Status.failed (st : Status) (code : BitVec 8) : Status :=
  { st with errCode := code, err := true, busy := false }

end Sys2Proof.Machine
end

