-- ==== Sys2Proof/Machine/Format.lean ====
section
/-!
DEFINITION. The IEEE 754 formats binary16, binary32 and binary64: the exact rational value of a
code, and rounding an exact rational to a code with round-to-nearest-even (00_scope.md R14, R15).
Everything is computed exactly in ℚ and narrowed once.
-/
namespace Sys2Proof.Machine

/-- `2^e` for an integer exponent. -/
def pow2 : Int → ℚ
  | .ofNat n => ((2 ^ n : Nat) : ℚ)
  | .negSucc n => mkRat 1 (2 ^ (n + 1))

/-- An IEEE 754 binary interchange format. -/
structure FloatFormat where
  expBits : Nat
  fracBits : Nat
deriving DecidableEq, Repr

def binary16 : FloatFormat := ⟨5, 10⟩
def binary32 : FloatFormat := ⟨8, 23⟩
def binary64 : FloatFormat := ⟨11, 52⟩

namespace FloatFormat

def bias (f : FloatFormat) : Nat := 2 ^ (f.expBits - 1) - 1

/-- The exponent of the smallest normal number. -/
def minExp (f : FloatFormat) : Int := 1 - (f.bias : Int)

/-- The code of +Inf, one above the largest finite code. -/
def infCode (f : FloatFormat) : Nat := (2 ^ f.expBits - 1) * 2 ^ f.fracBits

end FloatFormat

/-- What a float code stands for: a NaN, an infinity, or `(−1)^neg · mag` with `mag ≥ 0` (a zero
keeps its sign in `neg`). -/
inductive FloatVal where
  | nan
  | inf (neg : Bool)
  | fin (neg : Bool) (mag : ℚ)
deriving DecidableEq, Repr

/-- The exact value of a code (00_scope.md R14). -/
def FloatFormat.value (f : FloatFormat) (code : Nat) : FloatVal :=
  let frac := code % 2 ^ f.fracBits
  let ex := code / 2 ^ f.fracBits % 2 ^ f.expBits
  let neg := code / 2 ^ (f.fracBits + f.expBits) % 2 == 1
  if ex = 2 ^ f.expBits - 1 then
    if frac = 0 then .inf neg else .nan
  else if ex = 0 then
    .fin neg ((frac : ℚ) * pow2 (f.minExp - f.fracBits))
  else
    .fin neg (((2 ^ f.fracBits + frac : Nat) : ℚ) * pow2 ((ex : Int) - f.bias - f.fracBits))

/-- The nearest integer to `q ≥ 0`, ties to even (00_scope.md R17). -/
def roundTiesEven (q : ℚ) : Nat :=
  let k := q.num.natAbs / q.den
  let rem := q.num.natAbs % q.den
  if 2 * rem < q.den then k
  else if q.den < 2 * rem then k + 1
  else if k % 2 = 0 then k else k + 1

/-- `floor(log2 q)` for `q > 0`. -/
def floorLog2 (q : ℚ) : Int :=
  let e : Int := (q.num.natAbs.log2 : Int) - (q.den.log2 : Int)
  if q < pow2 e then e - 1 else e

/-- The sign-free code nearest to `q ≥ 0`, ties to even, with gradual underflow and overflow to
the infinity code (00_scope.md R14, R15). -/
def FloatFormat.roundMag (f : FloatFormat) (q : ℚ) : Nat :=
  if q = 0 then 0
  else
    let e := max (floorLog2 q) f.minExp
    let k := roundTiesEven (q / pow2 (e - f.fracBits))
    min ((e - f.minExp).toNat * 2 ^ f.fracBits + k) f.infCode

/-- The signed rational value of a finite binary32; 0 for a NaN or an infinity, which callers
exclude. -/
def ratOf (x : F32) : ℚ :=
  match binary32.value x.toNat with
  | .fin neg mag => if neg then -mag else mag
  | .inf _ | .nan => 0

/-- The largest finite binary32 value. -/
def maxFinite : ℚ := (2 ^ 24 - 1) * 2 ^ 104

/-- Whether a binary32 is neither NaN nor infinite. -/
def isFinite (x : F32) : Bool := x.extractLsb' 23 8 != 0xFF#8

/-- `isNaN` acts on bits and never rounds (00_scope.md R15). -/
def isNaN (x : F32) : Bool := x.extractLsb' 23 8 == 0xFF#8 && x.extractLsb' 0 23 != 0#23

/-- `signbit` is bit 31 (00_scope.md R15). -/
def signbit (x : F32) : Bool := x.getLsbD 31

/-- The bits of a non-NaN binary32 as an integer in value order: −Inf lowest, +Inf highest, and
−0 equal to +0. -/
def key (x : F32) : Int :=
  if signbit x then -((x.toNat % 2 ^ 31 : Nat) : Int) else ((x.toNat % 2 ^ 31 : Nat) : Int)

/-- A normal binary32: exponent field neither 0 nor 255. -/
def isNormal (x : F32) : Bool := isFinite x && x.extractLsb' 23 8 != 0#8

end Sys2Proof.Machine
end

