-- ==== Sys2Proof/Config.lean ====
section
/-!
DEFINITION. What an implementation of PXM fixes (the OPEN parameters of 00_scope.md R9) and the
free values (what the spec leaves unspecified). An `opaque` here has no body, so no proof can see
its value; a `def` beside it narrows it to what the spec allows. `MEM_MAP` is not here: it is plain
data and stands in `State.memMap`.
-/
namespace Sys2Proof.Config

open Sys2Proof.Machine

/-! ## NaN patterns -/

opaque qnanBits : BitVec 32

/-- `QNAN`: any quiet binary32 NaN (00_scope.md R9, R15). -/
def qnan : F32 := (qnanBits &&& 0x803FFFFF#32) ||| 0x7FC00000#32

opaque qnan16Bits : BitVec 16

/-- `QNAN16`: any quiet binary16 NaN (00_scope.md R9, R14). -/
def qnan16 : F16 := (qnan16Bits &&& 0x81FF#16) ||| 0x7E00#16

opaque halfNanBits : F16 → BitVec 32

/-- The binary32 NaN that a binary16 NaN code converts to. 41_bitdepth_pixel_io.md R191 says only
that it is a NaN, so it is any NaN, chosen per code. -/
def halfNan (h : F16) : F32 :=
  let raw := halfNanBits h
  (raw &&& 0x80000000#32) ||| 0x7F800000#32 |||
    (if raw &&& 0x007FFFFF#32 = 0#32 then 0x00400000#32 else raw &&& 0x007FFFFF#32)

/-! ## Configuration fields -/

/-- A configuration field: any one value of its type. The type holds what the spec asks of the field
(Approx.lean, RefMath.lean), so a proof knows that of it and nothing more. The instance argument
shows that the type has a value at all; it says nothing of which one this is. -/
opaque choose {α : Type} [Inhabited α] : α

/-! ## Parameters of the tone curves (46_tone_curves.md R404 to R409) -/

/-- A weight triple: numbers, so each rounds to a finite value (log entry 11). -/
def FiniteRgb (w : Rgb F32) : Prop := isFinite w.r = true ∧ isFinite w.g = true ∧ isFinite w.b = true

/-- `DTD_W`, `R2100_W` (as `fl32` of each weight), `Y_FLOOR` (a number) and `PQ_NORM`: `none` is the
default of 00_scope.md R9. -/
opaque dtdWeights : Option { w : Rgb F32 // FiniteRgb w }
opaque r2100Weights : Option { w : Rgb F32 // FiniteRgb w }
opaque yFloorValue : Option { x : F32 // isFinite x = true }
opaque pqNormValue : Option F32

/-! ## Platform parameters -/

/-- `MMIO_BASE`: where the host sees the register block (10_state.md R37). -/
opaque mmioBase : Word

/-- How reset can be asserted (70_reset_and_hazards.md R500). -/
inductive ResetSource where
  | powerOn | hostLine | platform
deriving DecidableEq, Repr, Inhabited

/-- `RESET_SOURCE`: only the effect of reset is specified, whichever the source. -/
opaque resetSource : ResetSource

/-! ## Free values: what the spec leaves unspecified. Each is applied to `State.free`, a counter
the machine advances, so that two uses are unrelated. -/

/-- The fields of a unit after a failed `UPD` (10_state.md R46). -/
opaque unspecMat : Nat → MatUnit
opaque unspecLog : Nat → LogUnit
opaque unspecLut : Nat → LutUnit
opaque unspecCrv : Nat → CrvUnit

/-- A unit parameter that the selected kernel or style does not define: second argument, which. -/
opaque unspecF32 : Nat → Nat → F32

/-- A byte that the command executing at the time of a reset could write (70_reset_and_hazards.md
R500); second argument, its address. -/
opaque unspecByte : Nat → Nat → Byte

/-- What the 32-bit `ERR_CP` and `ERR_INFO` hold for a fetch at 2^32, one past the last address
(10_state.md R35: `cp` never wraps). -/
opaque cpBeyondTop : Word

/-- A computed logarithm constant whose operands include a NaN or an infinity, for which
43_log.md R264 has no real value: which constant, then BASE and the channel's five values. -/
opaque logConstOpen : Nat → F64 → List F64 → F32

/-- Whether the camera check of 43_log.md R263(d) passes when its exact value is +∞, by an infinite
operand: slope, break, offset. -/
opaque breakOpen : F64 → F64 → F64 → Bool

/-- A derived logarithm constant whose rounding the interval arithmetic of RealConst.lean does not
decide at its last precision, which no descriptor needs (log entry 14): the two ends of the last
interval. -/
opaque roundingOpen : ℚ → ℚ → F32

end Sys2Proof.Config
end

