-- ==== Sys2Proof/Machine/Float.lean ====
section
/-!
DEFINITION. The binary32 operations of 00_scope.md R14 to R18: exact arithmetic in ℚ, one rounding
to nearest even, subnormals kept, no fusion, NaN results equal to QNAN, IEEE comparisons; and the
NaN-collapsing selections and conversions.
-/
namespace Sys2Proof.Machine

/-- The value of a binary32 pattern. -/
def val (x : F32) : FloatVal := binary32.value x.toNat

/-- A binary32 from a sign and a sign-free code. -/
def signed (neg : Bool) (mag : Nat) : F32 := BitVec.ofNat 32 (if neg then 2 ^ 31 + mag else mag)

/-- Round a signed magnitude to binary32 (00_scope.md R15). -/
def roundSigned (neg : Bool) (mag : ℚ) : F32 := signed neg (binary32.roundMag mag)

/-- `fl32(r)` of an exact real given as a rational; `fl32(0) = +0` (00_scope.md R14). -/
def fl32 (q : ℚ) : F32 := roundSigned (q < 0) |q|

/-- `fl32` of an integer: exact for the counts and exponents the rules use. -/
def fl32Int (n : Int) : F32 := fl32 n

/-- ±Inf. -/
def infinity (neg : Bool) : F32 := signed neg 0x7F800000

/-! ### Arithmetic (00_scope.md R15) -/

def fneg (x : F32) : F32 := x ^^^ 0x80000000#32

/-- `|x|` clears bit 31. -/
def fabs (x : F32) : F32 := x &&& 0x7FFFFFFF#32

/-- `copysign(m, s)`: bit 31 of m replaced by bit 31 of s. -/
def copysign (m s : F32) : F32 := (m &&& 0x7FFFFFFF#32) ||| (s &&& 0x80000000#32)

/-- Bit 31 of m set to a given sign. -/
def withSign (m : F32) (neg : Bool) : F32 := if neg then fabs m ||| 0x80000000#32 else fabs m

/-- An exact sum rounded; an exact zero is −0 only when both operands are negative. -/
def roundSum (n₁ : Bool) (m₁ : ℚ) (n₂ : Bool) (m₂ : ℚ) : F32 :=
  let sum := (if n₁ then -m₁ else m₁) + (if n₂ then -m₂ else m₂)
  if sum = 0 then roundSigned (n₁ && n₂) 0 else fl32 sum

def fadd (x y : F32) : F32 :=
  match val x, val y with
  | .nan, _ | _, .nan => Config.qnan
  | .inf n₁, .inf n₂ => if n₁ = n₂ then infinity n₁ else Config.qnan
  | .inf n₁, .fin _ _ => infinity n₁
  | .fin _ _, .inf n₂ => infinity n₂
  | .fin n₁ m₁, .fin n₂ m₂ => roundSum n₁ m₁ n₂ m₂

def fsub (x y : F32) : F32 := fadd x (fneg y)

def fmul (x y : F32) : F32 :=
  match val x, val y with
  | .nan, _ | _, .nan => Config.qnan
  | .inf n₁, .inf n₂ => infinity (n₁ != n₂)
  | .inf n₁, .fin n₂ m₂ => if m₂ = 0 then Config.qnan else infinity (n₁ != n₂)
  | .fin n₁ m₁, .inf n₂ => if m₁ = 0 then Config.qnan else infinity (n₁ != n₂)
  | .fin n₁ m₁, .fin n₂ m₂ => roundSigned (n₁ != n₂) (m₁ * m₂)

def fdiv (x y : F32) : F32 :=
  match val x, val y with
  | .nan, _ | _, .nan => Config.qnan
  | .inf _, .inf _ => Config.qnan
  | .inf n₁, .fin n₂ _ => infinity (n₁ != n₂)
  | .fin n₁ _, .inf n₂ => roundSigned (n₁ != n₂) 0
  | .fin n₁ m₁, .fin n₂ m₂ =>
    if m₂ = 0 then (if m₁ = 0 then Config.qnan else infinity (n₁ != n₂))
    else roundSigned (n₁ != n₂) (m₁ / m₂)

/-- The bits of the integer square root of `n` from bit `i − 1` down, above `r`. -/
def isqrtFrom (n : Nat) : Nat → Nat → Nat
  | 0, r => r
  | i + 1, r =>
    let t := r + 2 ^ i
    isqrtFrom n i (if t * t ≤ n then t else r)

/-- `floor(sqrt n)`. -/
def isqrt (n : Nat) : Nat := isqrtFrom n (n.log2 / 2 + 1) 0

/-- A rational on the same side of every binary32 rounding boundary as `sqrt q`: the root of
`q = n/d` is `sqrt(n·d)/d`, taken to 40 more bits, with a sticky half unit when it is inexact. -/
def sqrtApprox (q : ℚ) : ℚ :=
  let big := q.num.natAbs * q.den * 4 ^ 40
  let root := isqrt big
  let sticky := if root * root = big then 0 else 1
  mkRat (2 * root + sticky : Nat) (2 * q.den * 2 ^ 40)

def fsqrt (x : F32) : F32 :=
  match val x with
  | .nan => Config.qnan
  | .inf neg => if neg then Config.qnan else infinity false
  | .fin neg mag =>
    if mag = 0 then roundSigned neg 0
    else if neg then Config.qnan
    else roundSigned false (sqrtApprox mag)

/-! ### Comparisons (00_scope.md R15): false with a NaN operand, +0 == −0 -/

def flt (x y : F32) : Bool := !isNaN x && !isNaN y && decide (key x < key y)

def fle (x y : F32) : Bool := !isNaN x && !isNaN y && decide (key x ≤ key y)

def feq (x y : F32) : Bool := !isNaN x && !isNaN y && decide (key x = key y)

/-! ### Selections (00_scope.md R16) -/

def maxf (lo t : F32) : F32 := if flt lo t then t else lo

def minf (t hi : F32) : F32 := if flt t hi then t else hi

def clampf (t lo hi : F32) : F32 := if flt lo t then (if flt t hi then t else hi) else lo

/-! ### Integer helpers (00_scope.md R17) -/

/-- `floor(x)` of a finite binary32. -/
def ffloor (x : F32) : Int := (ratOf x).floor

/-- `roundTiesEven(x)` of a finite binary32. -/
def fround (x : F32) : Int :=
  if ratOf x < 0 then -(roundTiesEven (-ratOf x) : Int) else roundTiesEven (ratOf x)

/-- `horner(C, t)`: from the last coefficient down, one product and one sum each. -/
def horner : List F32 → F32 → F32
  | [], _ => 0
  | [c], _ => c
  | c :: cs, t => fadd (fmul (horner cs t) t) c

/-! ### Named constants (00_scope.md R18) -/

def pi32 : F32 := 0x40490FDB#32
def pio2 : F32 := 0x3FC90FDB#32
def invPi32 : F32 := 0x3EA2F983#32
def halfMax : F32 := 0x477FE000#32
def minFloat : F32 := 0x00800000#32
def one : F32 := 0x3F800000#32
def zero : F32 := 0x00000000#32

/-! ### Conversions (00_scope.md R14) -/

/-- `f16_to_f32`: exact; a NaN code gives some NaN (Config.halfNan). -/
def f16ToF32 (h : F16) : F32 :=
  match binary16.value h.toNat with
  | .nan => Config.halfNan h
  | .inf neg => infinity neg
  | .fin neg mag => roundSigned neg mag

/-- `f32_to_f16`: round to nearest even, ±Inf on overflow, QNAN16 for a NaN. -/
def f32ToF16 (x : F32) : F16 :=
  match val x with
  | .nan => Config.qnan16
  | .inf neg => BitVec.ofNat 16 (if neg then 0xFC00 else 0x7C00)
  | .fin neg mag =>
    let code := binary16.roundMag mag
    BitVec.ofNat 16 (if neg then 2 ^ 15 + code else code)

/-- The value of a binary64 pattern. -/
def val64 (x : F64) : FloatVal := binary64.value x.toNat

/-- `fl32` of a binary64 value: one rounding, overflow to ±Inf, a NaN becomes QNAN
(42_matrix.md R232). DESIGN CHOICE: a −0.0 stays −0 (log entry 20). -/
def fl32OfF64 (x : F64) : F32 :=
  match val64 x with
  | .nan => Config.qnan
  | .inf neg => infinity neg
  | .fin neg mag => roundSigned neg mag

/-- The exact rational of a finite binary64. -/
def ratOfF64 (x : F64) : Option ℚ :=
  match val64 x with
  | .fin neg mag => some (if neg then -mag else mag)
  | .nan | .inf _ => none

/-- `x == r` for a binary64 and a rational; a NaN or an infinity equals none. -/
def f64Eq (x : F64) (r : ℚ) : Bool := ratOfF64 x == some r

end Sys2Proof.Machine
end

