-- ==== Sys2Proof/Machine/Ops.lean ====
section
/-!
DEFINITION. The named operations over memory, address ranges and registers; the checks and the
errors they raise; error entry (PXM's one exception) and what follows it: there is no return from
error, only the host's clear of ERR and a new START (60_exceptions.md R460 to R473).
-/
namespace Sys2Proof.Machine

/-- What a step answers. -/
abbrev Result := Host.Outcome State Fault Refusal

/-! ### Address ranges (MEM_MAP and WS) -/

/-- Whether an address is in the set. -/
def Ranges.mem (r : Ranges) (x : Nat) : Bool := r.any fun p => p.1 ≤ x && x < p.2

/-- Add `[lo, hi)` with `lo < hi`, merging the ranges it touches, so that rising ranges with gaps
between them stay so. -/
def Ranges.insert (lo hi : Nat) : Ranges → Ranges
  | [] => [(lo, hi)]
  | (a, b) :: t =>
    if hi < a then (lo, hi) :: (a, b) :: t
    else if b < lo then (a, b) :: Ranges.insert lo hi t
    else Ranges.insert (min lo a) (max hi b) t

/-- The union with `[lo, hi)`; nothing where it is empty. -/
def Ranges.add (r : Ranges) (lo hi : Nat) : Ranges := if lo < hi then Ranges.insert lo hi r else r

/-- The canonical form of a set: non-empty ranges, rising, with a gap between neighbours. -/
def Ranges.wf : Ranges → Bool
  | [] => true
  | [(a, b)] => a < b
  | (a, b) :: (c, d) :: t => a < b && b < c && Ranges.wf ((c, d) :: t)

/-- The same set in canonical form, from any list. -/
def Ranges.canon (r : Ranges) : Ranges := r.foldl (fun acc p => Ranges.add acc p.1 p.2) []

/-- Whether every address of `[lo, hi)` is in the set: in canonical form one range holds them all. -/
def Ranges.covers (r : Ranges) (lo hi : Nat) : Bool :=
  hi ≤ lo || (Ranges.canon r).any fun p => p.1 ≤ lo && hi ≤ p.2

/-- Whether some address of `[lo, hi)` is in the set. -/
def Ranges.meets (r : Ranges) (lo hi : Nat) : Bool := r.any fun p => max p.1 lo < min p.2 hi

/-! ### Memory (20_memory.md R70, R72) -/

/-- What an address that no write has changed since power-on reads as. DESIGN CHOICE (log entry 3). -/
def unlistedByte : Byte := 0

/-- The byte at an address. -/
def Memory.byte : Memory → Nat → Byte
  | [], _ => unlistedByte
  | (k, b) :: t, a => if k = a then b else Memory.byte t a

/-- Put an entry before the first one at a higher address. -/
def Memory.place (a : Nat) (b : Byte) : Memory → Memory
  | [] => [(a, b)]
  | (k, c) :: t => if a < k then (a, b) :: (k, c) :: t else (k, c) :: Memory.place a b t

/-- Store one byte. The entry of the address is removed, and put back unless the byte is what an
unlisted address reads as. -/
def Memory.setByte (m : Memory) (a : Nat) (b : Byte) : Memory :=
  let rest := m.filter fun c => c.1 != a
  if b = unlistedByte then rest else Memory.place a b rest

/-- The canonical form: addresses strictly rising and below 2^32, no entry equal to what an
unlisted address reads as. -/
def Memory.wfFrom : Nat → Memory → Bool
  | _, [] => true
  | lo, (k, b) :: t => lo ≤ k && k < 2 ^ 32 && b != unlistedByte && Memory.wfFrom (k + 1) t

def Memory.wf (m : Memory) : Bool := Memory.wfFrom 0 m

/-- The bytes of an `n`-byte region in address order. -/
def Memory.bytes (m : Memory) (a n : Nat) : List Byte :=
  (List.range n).map fun i => m.byte (a + i)

/-- Store bytes at rising addresses. -/
def Memory.setBytes (m : Memory) (a : Nat) : List Byte → Memory
  | [] => m
  | b :: bs => Memory.setBytes (m.setByte a b) (a + 1) bs

/-- `MemRead(addr, n)` after its checks: the little-endian number (00_scope.md R12). -/
def memRead (m : Memory) (a n : Nat) : Nat := leNat (m.bytes a n)

/-- `MemWrite(addr, n, v)` after its checks (00_scope.md R12). -/
def memWrite (m : Memory) (a n v : Nat) : Memory := m.setBytes a (leBytes n v)

/-- `ReadU32`, `ReadF32` (00_scope.md R12). -/
def readWord (m : Memory) (a : Nat) : Word := BitVec.ofNat 32 (memRead m a 4)

/-- `ReadF64` (00_scope.md R12). -/
def readF64 (m : Memory) (a : Nat) : F64 := BitVec.ofNat 64 (memRead m a 8)

/-! ### Registers -/

/-- `V[i]` as an operand (10_state.md R32). A register that no command has written since reset
reads its reset value (log entry 1). -/
def State.vreg (s : State) (i : VReg) : Quad := s.v[i]

/-- `V[i] <- q`, which sets the written bit (10_state.md R33). -/
def State.setVreg (s : State) (i : VReg) (q : Quad) : State :=
  { s with v := s.v.set i q, vw := s.vw.set i true }

/-- The six CFG data registers, by index (30_encoding.md R122); `none` for 6 to 15. -/
def Cfg.set (c : Cfg) (index : Nat) (w : Word) : Option Cfg :=
  match index with
  | 0 => some { c with inPtr := w }
  | 1 => some { c with outPtr := w }
  | 2 => some { c with nPix := w }
  | 3 => some { c with inBd := w }
  | 4 => some { c with outBd := w }
  | 5 => some { c with opdataPtr := w }
  | _ => none

/-- `cp <- cp + 4` after a command that does not end the run (10_state.md R35). -/
def State.advance (s : State) : State := { s with cp := s.cp + 4 }

/-! ### Errors (60_exceptions.md R461 to R464) -/

/-- The error names of R461. -/
inductive ErrName where
  | illegal | align | bus | npix | overlap | unsupported | finalizeNotCalled | invalidOpdata
  | notConfigured | codeRange | smc
deriving DecidableEq, Repr

/-- The code of each error (R461). -/
def ErrName.code : ErrName → BitVec 8
  | .illegal => 0x01
  | .align => 0x02
  | .bus => 0x03
  | .npix => 0x04
  | .overlap => 0x05
  | .unsupported => 0x06
  | .finalizeNotCalled => 0x07
  | .invalidOpdata => 0x08
  | .notConfigured => 0x09
  | .codeRange => 0x0B
  | .smc => 0x0C

/-- `raise ERR_X(info)` (00_scope.md R13). -/
structure Error where
  name : ErrName
  info : Word
deriving DecidableEq, Repr

/-- A check that passes with a value or raises. -/
abbrev Check (α : Type) := Except Error α

/-- The configurable units and their ids (60_exceptions.md R464). -/
inductive UnitId where
  | mat | log | lut | crv
deriving DecidableEq, Repr

def UnitId.word : UnitId → Word
  | .mat => 1
  | .log => 2
  | .lut => 3
  | .crv => 4

/-- Raise unless a condition holds. -/
def require (ok : Bool) (name : ErrName) (info : Word) : Check Unit :=
  if ok then .ok () else .error ⟨name, info⟩

/-- The alignment check (20_memory.md R75); the error carries the address mod 2^32. -/
def checkAlign (addr align : Nat) : Check Unit :=
  require (addr % align == 0) .align (BitVec.ofNat 32 addr)

/-- The bounds check over a whole region (20_memory.md R76). -/
def inBounds (map : Ranges) (addr n : Nat) : Bool :=
  addr + n ≤ 2 ^ 32 && map.covers addr (addr + n)

def checkBounds (map : Ranges) (addr n : Nat) : Check Unit :=
  require (inBounds map addr n) .bus (BitVec.ofNat 32 addr)

/-! ### Error entry (60_exceptions.md R470) and after -/

/-- `cp` as a 32-bit register value. At 2^32, one past the last command of the space, the spec
gives no 32-bit value and it is free (log entry 13). -/
def cpWord (cp : BitVec 33) : Word :=
  if cp.toNat < 2 ^ 32 then cp.setWidth 32 else Config.cpBeyondTop

/-- Error entry at a given address: STATUS, ERR_CP and ERR_INFO are written and the run is over;
nothing else changes (60_exceptions.md R470). -/
def errorEntryAt (at_ : Word) (e : Error) (s : State) : State :=
  { s with status := s.status.failed e.name.code, errCp := at_, errInfo := e.info }

/-- Error entry of the command at `cp`. -/
def errorEntry (e : Error) (s : State) : State := errorEntryAt (cpWord s.cp) e s

/-- A checked command: its effect with `cp` advanced, or error entry with no effect
(60_exceptions.md R470). -/
def finish (c : Check State) (s : State) : Result :=
  match c with
  | .ok t => .next t.advance
  | .error e => .next (errorEntry e s)

/-- START (47_control.md R441): what follows an error, and the only way a run begins. -/
def start (s : State) : State :=
  let s := { s with status := Status.started, ws := [] }
  if s.cmdPtr.toNat % 4 = 0 then { s with cp := s.cmdPtr.setWidth 33 }
  else errorEntryAt s.cmdPtr ⟨.align, s.cmdPtr⟩ s

/-- There is no return from error: the host clears ERR by writing 1 to STATUS bit 2
(60_exceptions.md R472), which ends nothing and resumes nothing. -/
def clearStatus (v : Word) (s : State) : State := { s with status := s.status.clearBits v }

/-- A failed `UPD.<unit>`: error entry with `U.valid <- 0` and the unit's other fields unspecified
(10_state.md R46, 60_exceptions.md R470). -/
def failMat (e : Error) (s : State) : State :=
  errorEntry e { s with mat := { Config.unspecMat s.free with valid := false }, free := s.free + 1 }

def failLog (e : Error) (s : State) : State :=
  errorEntry e { s with log := { Config.unspecLog s.free with valid := false }, free := s.free + 1 }

def failLut (e : Error) (s : State) : State :=
  errorEntry e { s with lut := { Config.unspecLut s.free with valid := false }, free := s.free + 1 }

def failCrv (e : Error) (s : State) : State :=
  errorEntry e { s with crv := { Config.unspecCrv s.free with valid := false }, free := s.free + 1 }

/-! ### Command fetch (47_control.md R442, 20_memory.md R83) -/

def fetch (s : State) : Check Word := do
  let a := s.cp.toNat
  require (inBounds s.memMap a 4) .bus (cpWord s.cp)
  require (!s.ws.meets a (a + 4)) .smc (cpWord s.cp)
  return readWord s.mem a

end Sys2Proof.Machine
end

