-- ==== Sys2Proof/Machine/Control.lean ====
section
/-!
DEFINITION. NOP and HALT (47_control.md R443, R444).
-/
namespace Sys2Proof.Machine

/-- `NOP` (R443): no effect; the run continues. -/
def execNop (s : State) : Result := .next s.advance

/-- `HALT` (R444): the run ends with DONE; `cp` is not advanced. -/
def execHalt (s : State) : Result := .next { s with status := s.status.halted }

end Sys2Proof.Machine
end

