-- ==== Sys2Proof/Machine/Operands.lean ====
section
/-!
DEFINITION. Every operand form: the effective addresses of VLD and VST, bit-depth tags and their
attributes, pixel elements in memory with their normalisation and output cast, and descriptor
fields (30_encoding.md R102, R110 to R123; 41_bitdepth_pixel_io.md R190 to R195, R202, R203).
-/
namespace Sys2Proof.Machine

/-! ### Effective addresses -/

/-- `CFG.IN_PTR + 16·zext(IMM14)`, a mathematical sum (41_bitdepth_pixel_io.md R202). -/
def loadAddr (s : State) (imm : BitVec 14) : Nat := s.cfg.inPtr.toNat + 16 * imm.toNat

/-- `CFG.OUT_PTR + 16·zext(IMM14)`, a mathematical sum (41_bitdepth_pixel_io.md R203). -/
def storeAddr (s : State) (imm : BitVec 14) : Nat := s.cfg.outPtr.toNat + 16 * imm.toNat

/-- The 16 bytes of a vector access as four raw lanes (20_memory.md R72). -/
def readQuad (m : Memory) (a : Nat) : Quad :=
  ⟨readWord m a, readWord m (a + 4), readWord m (a + 8), readWord m (a + 12)⟩

def writeQuad (m : Memory) (a : Nat) (q : Quad) : Memory :=
  memWrite (memWrite (memWrite (memWrite m a 4 q.r.toNat) (a + 4) 4 q.g.toNat)
    (a + 8) 4 q.b.toNat) (a + 12) 4 q.a.toNat

/-! ### Bit depths (30_encoding.md R120, 41_bitdepth_pixel_io.md R190) -/

/-- A bit-depth tag; `none` where a bit of 31:4 is set or the tag is reserved (R120). -/
def bitDepthOf (w : Word) : Option BitDepth :=
  match w.toNat with
  | 0 => some .u8
  | 1 => some .u10
  | 2 => some .u12
  | 3 => some .u16
  | 4 => some .f16
  | 5 => some .f32
  | _ => none

end Sys2Proof.Machine

namespace Sys2Proof

def BitDepth.esize : BitDepth → Nat
  | .u8 => 1
  | .u10 | .u12 | .u16 | .f16 => 2
  | .f32 => 4

def BitDepth.isFloat : BitDepth → Bool
  | .u8 | .u10 | .u12 | .u16 => false
  | .f16 | .f32 => true

/-- `range(bd)`. -/
def BitDepth.range : BitDepth → Nat
  | .u8 => 255
  | .u10 => 1023
  | .u12 => 4095
  | .u16 => 65535
  | .f16 | .f32 => 1

/-- Whether the depth has unused upper bits in its container that must be 0
(41_bitdepth_pixel_io.md R196 step 7). -/
def BitDepth.checked : BitDepth → Bool
  | .u10 | .u12 => true
  | .u8 | .u16 | .f16 | .f32 => false

end Sys2Proof

namespace Sys2Proof.Machine

/-- The two depths `UPD.*` latches, from CFG (step 1 of every `UPD`, 60_exceptions.md R463). -/
def latchedDepths (s : State) : Check (BitDepth × BitDepth) :=
  match bitDepthOf s.cfg.inBd with
  | none => .error ⟨.unsupported, 1⟩
  | some ib =>
    match bitDepthOf s.cfg.outBd with
    | none => .error ⟨.unsupported, 1⟩
    | some ob => .ok (ib, ob)

/-! ### Pixel elements -/

/-- `normalise(bd, element)` (41_bitdepth_pixel_io.md R191). -/
def normalise (bd : BitDepth) (element : Nat) : F32 :=
  match bd with
  | .u8 | .u16 => fl32 ((element : ℚ) / bd.range)
  | .u10 | .u12 => fl32 (((element % (bd.range + 1) : Nat) : ℚ) / bd.range)
  | .f16 => f16ToF32 (BitVec.ofNat 16 element)
  | .f32 => BitVec.ofNat 32 element

/-- The saturating cast of an integer depth (41_bitdepth_pixel_io.md R193). -/
def castInt (range : Nat) (z : F32) : Nat :=
  if isNaN z then 0 else (fround (clampf z zero (fl32Int range))).toNat

/-- `cast(bd, z)` (41_bitdepth_pixel_io.md R193). -/
def castTo (bd : BitDepth) (z : F32) : Nat :=
  match bd with
  | .u8 | .u10 | .u12 | .u16 => castInt bd.range z
  | .f16 => (f32ToF16 z).toNat
  | .f32 => z.toNat

/-- One channel of a unit's result: a normalised value `y`, or an already scaled value `z`
(41_bitdepth_pixel_io.md R192). -/
inductive ChanOut where
  | norm (y : F32)
  | scaled (z : F32)
deriving DecidableEq, Repr, Inhabited

/-- The binary32 of a channel result, whichever form it has: what the vector commands write
(41_bitdepth_pixel_io.md R201). -/
def ChanOut.bits : ChanOut → F32
  | .norm y => y
  | .scaled z => z

/-- `store(od, ·)` (41_bitdepth_pixel_io.md R195). -/
def storeElement (od : BitDepth) (o : ChanOut) : Nat :=
  match o with
  | .scaled z => castTo od z
  | .norm y => castTo od (if od.isFloat then y else fmul y (fl32Int od.range))

/-- The address of channel c of pixel p (30_encoding.md R123). -/
def elementAddr (base esize p c : Nat) : Nat := base + (4 * p + c) * esize

/-- The four input elements of a pixel. -/
def readElements (m : Memory) (base esize p : Nat) : Lanes Nat :=
  ⟨memRead m (elementAddr base esize p 0) esize, memRead m (elementAddr base esize p 1) esize,
    memRead m (elementAddr base esize p 2) esize, memRead m (elementAddr base esize p 3) esize⟩

/-- Write the four output elements of a pixel. -/
def writeElements (m : Memory) (base esize p : Nat) (e : Lanes Nat) : Memory :=
  memWrite (memWrite (memWrite (memWrite m
    (elementAddr base esize p 0) esize e.r) (elementAddr base esize p 1) esize e.g)
    (elementAddr base esize p 2) esize e.b) (elementAddr base esize p 3) esize e.a

/-! ### Descriptor fields (30_encoding.md R110 to R118) -/

/-- The checks and the header read of every descriptor: alignment 8, bounds of 8 bytes, then the
two header words (30_encoding.md R121 steps 1 and 2). -/
def readHeader (s : State) : Check (Word × Word) := do
  let a := s.cfg.opdataPtr.toNat
  checkAlign a 8
  checkBounds s.memMap a 8
  return (readWord s.mem a, readWord s.mem (a + 4))

/-- The bounds check over the whole descriptor (30_encoding.md R121 step 4). -/
def checkDescriptor (s : State) (size : Nat) : Check Unit :=
  checkBounds s.memMap s.cfg.opdataPtr.toNat size

/-- The binary64 field at an offset of the descriptor. -/
def descF64 (s : State) (offset : Nat) : F64 := readF64 s.mem (s.cfg.opdataPtr.toNat + offset)

/-- The 32-bit field at an offset of the descriptor. -/
def descWord (s : State) (offset : Nat) : Word := readWord s.mem (s.cfg.opdataPtr.toNat + offset)

end Sys2Proof.Machine
end

