-- ==== Sys2Proof/Machine/PixelIO.lean ====
section
/-!
DEFINITION. The frame that every `APPLY.<unit>` shares, the vector form of the unit commands, and
VLD, VST and WRCFG (41_bitdepth_pixel_io.md R196 to R204).
-/
namespace Sys2Proof.Machine

/-! ### The APPLY frame (R196) -/

/-- What the frame needs of a unit: its id, its `valid`, and its latched depths. -/
structure UnitInfo where
  id : UnitId
  valid : Bool
  inBd : BitDepth
  outBd : BitDepth
deriving DecidableEq, Repr

/-- `[a, a + la)` and `[b, b + lb)` have a byte in common. -/
def overlaps (a la b lb : Nat) : Bool := max a b < min (a + la) (b + lb)

/-- The overlap check (R198): disjoint, or the exact alias with equal element sizes. -/
def overlapOk (inP li outP lo ei eo : Nat) : Bool :=
  !overlaps inP li outP lo || (inP == outP && ei == eo)

/-- The first of `count` elements from index `i` that has a bit outside the code mask (step 7). -/
def badElement (m : Memory) (base range : Nat) : Nat → Nat → Option Nat
  | 0, _ => none
  | count + 1, i =>
    if range < memRead m (base + 2 * i) 2 then some (base + 2 * i)
    else badElement m base range count (i + 1)

/-- Step 7 of R196. -/
def checkCodes (m : Memory) (bd : BitDepth) (base n : Nat) : Check Unit :=
  if bd.checked then
    match badElement m base bd.range (4 * n) 0 with
    | some a => .error ⟨.codeRange, BitVec.ofNat 32 a⟩
    | none => .ok ()
  else .ok ()

/-- Steps 4 to 7 of R196, for n > 0 pixels. -/
def checkBuffers (u : UnitInfo) (s : State) (n : Nat) : Check Unit := do
  let inP := s.cfg.inPtr.toNat
  let outP := s.cfg.outPtr.toNat
  let ei := u.inBd.esize
  let eo := u.outBd.esize
  checkAlign inP ei
  checkAlign outP eo
  checkBounds s.memMap inP (4 * n * ei)
  checkBounds s.memMap outP (4 * n * eo)
  require (overlapOk inP (4 * n * ei) outP (4 * n * eo) ei eo) .overlap s.cfg.outPtr
  checkCodes s.mem u.inBd inP n

/-- Steps 1 to 7 of R196: the pixel count, all checks passed. -/
def applyChecks (u : UnitInfo) (s : State) : Check Nat := do
  require u.valid .notConfigured u.id.word
  require (0 ≤ s.cfg.nPix.toInt) .npix s.cfg.nPix
  let n := s.cfg.nPix.toNat
  if n = 0 then return 0
  checkBuffers u s n
  return n

/-- One pixel of step 8: all four elements are read before any is written (R197). -/
def applyPixel (u : UnitInfo) (f : Quad → Lanes ChanOut) (inP outP p : Nat) (m : Memory) : Memory :=
  let x := (readElements m inP u.inBd.esize p).map (normalise u.inBd)
  writeElements m outP u.outBd.esize p ((f x).map (storeElement u.outBd))

/-- Step 8 of R196 for `count` pixels from pixel p up, in increasing order (R200 leaves the order
free). -/
def applyPixels (u : UnitInfo) (f : Quad → Lanes ChanOut) (inP outP : Nat) :
    Nat → Nat → Memory → Memory
  | 0, _, m => m
  | count + 1, p, m => applyPixels u f inP outP count (p + 1) (applyPixel u f inP outP p m)

/-- The whole frame with its result state (R196); n = 0 touches nothing. -/
def applyFrame (u : UnitInfo) (f : Quad → Lanes ChanOut) (s : State) : Check State := do
  let n ← applyChecks u s
  let inP := s.cfg.inPtr.toNat
  let outP := s.cfg.outPtr.toNat
  return { s with
    mem := applyPixels u f inP outP n 0 s.mem
    ws := s.ws.add outP (outP + 4 * n * u.outBd.esize) }

/-- The vector form of a unit command: one pixel from a register, f32 in and out (R201). -/
def unitVector (u : UnitInfo) (f : Quad → Lanes ChanOut) (vd va : VReg) (s : State) : Check State := do
  require u.valid .notConfigured u.id.word
  return s.setVreg vd ((f (s.vreg va)).map ChanOut.bits)

/-! ### VLD, VST, WRCFG -/

def loadVector (vd : VReg) (imm : BitVec 14) (s : State) : Check State := do
  let a := loadAddr s imm
  checkAlign a 4
  checkBounds s.memMap a 16
  return s.setVreg vd (readQuad s.mem a)

/-- `VLD vD, imm` (R202). -/
def execVld (vd : VReg) (imm : BitVec 14) (s : State) : Result := finish (loadVector vd imm s) s

def storeVector (va : VReg) (imm : BitVec 14) (s : State) : Check State := do
  let a := storeAddr s imm
  checkAlign a 4
  checkBounds s.memMap a 16
  return { s with mem := writeQuad s.mem a (s.vreg va), ws := s.ws.add a (a + 16) }

/-- `VST vA, imm` (R203). -/
def execVst (va : VReg) (imm : BitVec 14) (s : State) : Result := finish (storeVector va imm s) s

def writeCfg (va : VReg) (cfg : BitVec 4) (s : State) : Check State :=
  match s.cfg.set cfg.toNat (s.vreg va).r with
  | some c => .ok { s with cfg := c }
  | none => .error ⟨.illegal, encode (.wrcfg va cfg)⟩

/-- `WRCFG cfg, vA` (R204): the raw bits of lane 0. An index above 5 is illegal (30_encoding.md
R105); the decoder gives none. -/
def execWrcfg (va : VReg) (cfg : BitVec 4) (s : State) : Result := finish (writeCfg va cfg s) s

end Sys2Proof.Machine
end

