-- ==== Sys2Proof/Laws/Format.lean ====
section
/-!
SUPPORT. Rounding to an IEEE format: the value of each finite code, that rounding it gives the code
back, that rounding is monotone, and the order of binary32 codes against the order of their values.
-/
namespace Sys2Proof.Machine

/-! ### Powers of two and the binary logarithm -/

theorem pow2_eq (e : Int) : pow2 e = (2 : ℚ) ^ e := by
  cases e with
  | ofNat n => simp [pow2]
  | negSucc n =>
    simp only [pow2, Rat.mkRat_eq_div, zpow_negSucc]
    push_cast
    rw [one_div]

theorem pow2_pos (e : Int) : 0 < pow2 e := by rw [pow2_eq]; positivity

theorem pow2_add (a b : Int) : pow2 (a + b) = pow2 a * pow2 b := by
  simp only [pow2_eq]
  exact zpow_add₀ (by norm_num) a b

theorem pow2_le (a b : Int) (h : a ≤ b) : pow2 a ≤ pow2 b := by
  simp only [pow2_eq]
  exact zpow_le_zpow_right₀ (by norm_num) h

theorem pow2_natCast (n : Nat) : pow2 n = (2 : ℚ) ^ n := by
  rw [pow2_eq]; exact zpow_natCast 2 n

theorem floorLog2_spec (q : ℚ) (hq : 0 < q) :
    pow2 (floorLog2 q) ≤ q ∧ q < pow2 (floorLog2 q + 1) := by
  have hn : q.num.natAbs ≠ 0 := by simpa using hq.ne'
  have hd : q.den ≠ 0 := q.den_nz
  have hnum : (q.num.natAbs : ℚ) = q.num := by
    rw [Nat.cast_natAbs, abs_of_pos (Rat.num_pos.2 hq)]
  have hqe : q = (q.num.natAbs : ℚ) / q.den := by rw [hnum]; exact (Rat.num_div_den q).symm
  have h1 : ((2 ^ q.num.natAbs.log2 : Nat) : ℚ) ≤ q.num.natAbs :=
    Nat.cast_le.2 (Nat.log2_self_le hn)
  have h2 : (q.num.natAbs : ℚ) < ((2 ^ (q.num.natAbs.log2 + 1) : Nat) : ℚ) :=
    Nat.cast_lt.2 Nat.lt_log2_self
  have h3 : ((2 ^ q.den.log2 : Nat) : ℚ) ≤ q.den := Nat.cast_le.2 (Nat.log2_self_le hd)
  have h4 : (q.den : ℚ) < ((2 ^ (q.den.log2 + 1) : Nat) : ℚ) := Nat.cast_lt.2 Nat.lt_log2_self
  have hdpos : (0 : ℚ) < q.den := by exact_mod_cast q.den_pos
  set a := q.num.natAbs.log2
  set b := q.den.log2
  have hup : q < pow2 ((a : Int) - b + 1) := by
    rw [hqe, div_lt_iff₀ hdpos, pow2_eq,
      show ((a : Int) - b + 1) = ((a + 1 : Nat) : Int) - (b : Nat) by push_cast; ring,
      zpow_sub₀ (by norm_num), zpow_natCast, zpow_natCast]
    push_cast at *
    calc (q.num.natAbs : ℚ) < 2 ^ (a + 1) := h2
      _ = 2 ^ (a + 1) / 2 ^ b * 2 ^ b := by field_simp
      _ ≤ 2 ^ (a + 1) / 2 ^ b * q.den := by gcongr
  have hlo : pow2 ((a : Int) - b - 1) ≤ q := by
    rw [hqe, le_div_iff₀ hdpos, pow2_eq,
      show ((a : Int) - b - 1) = (a : Int) - ((b + 1 : Nat) : Int) by push_cast; ring,
      zpow_sub₀ (by norm_num), zpow_natCast, zpow_natCast]
    push_cast at *
    calc (2 : ℚ) ^ a / 2 ^ (b + 1) * q.den ≤ 2 ^ a / 2 ^ (b + 1) * 2 ^ (b + 1) := by gcongr
      _ = 2 ^ a := by field_simp
      _ ≤ q.num.natAbs := h1
  unfold floorLog2
  simp only
  split
  · next h => exact ⟨hlo, by simpa using h⟩
  · next h => exact ⟨not_lt.1 h, hup⟩

theorem floorLog2_unique (q : ℚ) (e : Int) (hq : 0 < q) (h1 : pow2 e ≤ q) (h2 : q < pow2 (e + 1)) :
    floorLog2 q = e := by
  obtain ⟨h3, h4⟩ := floorLog2_spec q hq
  rw [pow2_eq] at *
  have a1 : e < floorLog2 q + 1 := (zpow_lt_zpow_iff_right₀ (by norm_num : (1 : ℚ) < 2)).1
    (lt_of_le_of_lt h1 h4)
  have a2 : floorLog2 q < e + 1 := (zpow_lt_zpow_iff_right₀ (by norm_num : (1 : ℚ) < 2)).1
    (lt_of_le_of_lt h3 h2)
  omega

theorem floorLog2_mono (q r : ℚ) (hq : 0 < q) (h : q ≤ r) : floorLog2 q ≤ floorLog2 r := by
  obtain ⟨h3, -⟩ := floorLog2_spec q hq
  obtain ⟨-, h4⟩ := floorLog2_spec r (lt_of_lt_of_le hq h)
  rw [pow2_eq] at *
  have := (zpow_lt_zpow_iff_right₀ (by norm_num : (1 : ℚ) < 2)).1
    (lt_of_le_of_lt (h3.trans h) h4)
  omega

/-! ### Rounding to an integer -/

/-- `q` between the two integers around it, and which one `roundTiesEven` takes. -/
theorem roundTiesEven_spec (q : ℚ) (hq : 0 ≤ q) :
    ∃ k : Nat, (k : ℚ) ≤ q ∧ q < k + 1 ∧
      ((q - k < 1 / 2 ∧ roundTiesEven q = k) ∨ (1 / 2 < q - k ∧ roundTiesEven q = k + 1) ∨
        (q - k = 1 / 2 ∧ k % 2 = 0 ∧ roundTiesEven q = k) ∨
        (q - k = 1 / 2 ∧ k % 2 = 1 ∧ roundTiesEven q = k + 1)) := by
  have hnum : (q.num.natAbs : ℚ) = q.num := by
    rw [Nat.cast_natAbs, abs_of_nonneg (Rat.num_nonneg.2 hq)]
  have hqe : q = (q.num.natAbs : ℚ) / q.den := by rw [hnum]; exact (Rat.num_div_den q).symm
  have hdpos : (0 : ℚ) < q.den := by exact_mod_cast q.den_pos
  have hdm : (q.num.natAbs : ℚ) = q.den * (q.num.natAbs / q.den : Nat) + (q.num.natAbs % q.den : Nat) := by
    exact_mod_cast (Nat.div_add_mod q.num.natAbs q.den).symm
  have hlt : ((q.num.natAbs % q.den : Nat) : ℚ) < q.den := by
    exact_mod_cast Nat.mod_lt _ q.den_pos
  set k := q.num.natAbs / q.den with hk
  set r := q.num.natAbs % q.den with hr
  have hfrac : q - k = (r : ℚ) / q.den := by
    rw [eq_div_iff hdpos.ne', sub_mul]
    nth_rewrite 1 [hqe]
    rw [div_mul_cancel₀ _ hdpos.ne', hdm]; ring
  have hf0 : (0 : ℚ) ≤ (r : ℚ) / q.den := by positivity
  have hf1 : (r : ℚ) / q.den < 1 := by rw [div_lt_one hdpos]; exact hlt
  refine ⟨k, by linarith, by linarith, ?_⟩
  unfold roundTiesEven
  simp only [← hk, ← hr]
  rcases lt_trichotomy (2 * r) q.den with h | h | h
  · left
    refine ⟨?_, by rw [if_pos h]⟩
    rw [hfrac, div_lt_iff₀ hdpos]
    have : (2 * r : ℚ) < q.den := by exact_mod_cast h
    linarith
  · right; right
    have he : q - k = 1 / 2 := by
      rw [hfrac, div_eq_iff hdpos.ne']
      have : (2 * r : ℚ) = q.den := by exact_mod_cast h
      linarith
    rw [if_neg (by omega), if_neg (by omega)]
    rcases Nat.mod_two_eq_zero_or_one k with h2 | h2
    · left; exact ⟨he, h2, by rw [if_pos h2]⟩
    · right; exact ⟨he, h2, by rw [if_neg (by omega)]⟩
  · right; left
    refine ⟨?_, by rw [if_neg (by omega), if_pos h]⟩
    rw [hfrac, lt_div_iff₀ hdpos]
    have : (q.den : ℚ) < 2 * r := by exact_mod_cast h
    linarith

@[simp] theorem roundTiesEven_natCast (n : Nat) : roundTiesEven (n : ℚ) = n := by
  obtain ⟨k, h1, h2, h⟩ := roundTiesEven_spec n (by positivity)
  have hkn : k = n := by
    have a : k ≤ n := by exact_mod_cast h1
    have b : n < k + 1 := by exact_mod_cast h2
    omega
  subst hkn
  rcases h with ⟨-, h⟩ | ⟨h, -⟩ | ⟨h, -⟩ | ⟨h, -⟩
  · exact h
  all_goals norm_num at h

theorem roundTiesEven_mono (q r : ℚ) (hq : 0 ≤ q) (h : q ≤ r) :
    roundTiesEven q ≤ roundTiesEven r := by
  obtain ⟨k, h1, h2, hk⟩ := roundTiesEven_spec q hq
  obtain ⟨l, h3, h4, hl⟩ := roundTiesEven_spec r (hq.trans h)
  have hkl : k ≤ l := by
    have : (k : ℚ) < l + 1 := by linarith
    have : k < l + 1 := by exact_mod_cast this
    omega
  rcases Nat.lt_or_ge k l with hlt | hge
  · omega
  · have he : k = l := by omega
    subst he
    rcases hk with ⟨a, b⟩ | ⟨a, b⟩ | ⟨a, c, b⟩ | ⟨a, c, b⟩ <;>
      rcases hl with ⟨a', b'⟩ | ⟨a', b'⟩ | ⟨a', c', b'⟩ | ⟨a', c', b'⟩ <;>
      first
        | omega
        | (exfalso; linarith)

theorem roundTiesEven_near (q : ℚ) (hq : 0 ≤ q) :
    |(roundTiesEven q : ℚ) - q| ≤ 1 / 2 ∧
      (|(roundTiesEven q : ℚ) - q| = 1 / 2 → roundTiesEven q % 2 = 0) := by
  obtain ⟨k, h1, h2, h⟩ := roundTiesEven_spec q hq
  rcases h with ⟨a, b⟩ | ⟨a, b⟩ | ⟨a, c, b⟩ | ⟨a, c, b⟩
  · rw [b, abs_of_nonpos (by linarith)]
    exact ⟨by linarith, fun h => by linarith⟩
  · rw [b]; push_cast
    rw [abs_of_nonneg (by linarith)]
    exact ⟨by linarith, fun h => by linarith⟩
  · rw [b, abs_of_nonpos (by linarith)]
    exact ⟨by linarith, fun _ => c⟩
  · rw [b]; push_cast
    rw [abs_of_nonneg (by linarith)]
    exact ⟨by linarith, fun _ => by omega⟩

/-! ### The finite codes of a format -/

namespace FloatFormat

/-- The magnitude of a sign-free finite code, in units of the smallest positive value. -/
def units (f : FloatFormat) (c : Nat) : Nat :=
  if c / 2 ^ f.fracBits = 0 then c % 2 ^ f.fracBits
  else (2 ^ f.fracBits + c % 2 ^ f.fracBits) * 2 ^ (c / 2 ^ f.fracBits - 1)

/-- The exponent of the smallest positive value. -/
def ulpExp (f : FloatFormat) : Int := f.minExp - f.fracBits

/-- The magnitude of a sign-free finite code. -/
def mag (f : FloatFormat) (c : Nat) : ℚ := (f.units c : ℚ) * pow2 f.ulpExp

theorem units_zero (f : FloatFormat) : f.units 0 = 0 := by simp [units]

theorem mag_zero (f : FloatFormat) : f.mag 0 = 0 := by simp [mag, units_zero]

theorem units_lt_succ (f : FloatFormat) (c : Nat) : f.units c < f.units (c + 1) := by
  unfold units
  generalize hb : 2 ^ f.fracBits = b
  have hbpos : 0 < b := by rw [← hb]; positivity
  by_cases h : c % b + 1 < b
  · have hc : c + 1 = c % b + 1 + b * (c / b) := by have := Nat.div_add_mod c b; omega
    have h1 : (c + 1) / b = c / b := by
      rw [hc, Nat.add_mul_div_left _ _ hbpos, Nat.div_eq_of_lt h, Nat.zero_add]
    have h2 : (c + 1) % b = c % b + 1 := by
      rw [hc, Nat.add_mul_mod_self_left, Nat.mod_eq_of_lt h]
    rw [h1, h2]
    split
    · omega
    · exact Nat.mul_lt_mul_of_pos_right (by omega) (by positivity)
  · have hm : c % b = b - 1 := by have := Nat.mod_lt c hbpos; omega
    have hc : c + 1 = b * (c / b + 1) := by
      have := Nat.div_add_mod c b
      rw [Nat.mul_add]; omega
    have h1 : (c + 1) / b = c / b + 1 := by rw [hc, Nat.mul_div_cancel_left _ hbpos]
    have h2 : (c + 1) % b = 0 := by rw [hc, Nat.mul_mod_right]
    rw [h1, h2, if_neg (Nat.succ_ne_zero _), hm]
    split
    · next h0 =>
      rw [h0]
      simp only [Nat.zero_add, Nat.sub_self, pow_zero, Nat.mul_one, Nat.add_zero]
      omega
    · next h0 =>
      obtain ⟨e, he⟩ := Nat.exists_eq_succ_of_ne_zero h0
      rw [he]
      simp only [Nat.succ_eq_add_one, Nat.add_sub_cancel, Nat.add_zero]
      rw [pow_succ, ← Nat.mul_assoc, Nat.mul_right_comm]
      exact Nat.mul_lt_mul_of_pos_right (by omega) (by positivity)

theorem units_strictMono (f : FloatFormat) : StrictMono f.units :=
  strictMono_nat_of_lt_succ f.units_lt_succ

theorem mag_strictMono (f : FloatFormat) : StrictMono f.mag := by
  intro a b h
  have : (f.units a : ℚ) < f.units b := by exact_mod_cast f.units_strictMono h
  exact mul_lt_mul_of_pos_right this (pow2_pos _)

theorem mag_nonneg (f : FloatFormat) (c : Nat) : 0 ≤ f.mag c :=
  mul_nonneg (by positivity) (pow2_pos _).le

theorem mag_pos (f : FloatFormat) (c : Nat) (h : 0 < c) : 0 < f.mag c := by
  have := f.mag_strictMono h
  rwa [mag_zero] at this

theorem mag_eq_zero (f : FloatFormat) (c : Nat) : f.mag c = 0 ↔ c = 0 := by
  constructor
  · intro h
    by_contra hc
    exact (f.mag_pos c (Nat.pos_of_ne_zero hc)).ne' h
  · rintro rfl; exact f.mag_zero

/-- The magnitude of a normal code. -/
theorem mag_normal (f : FloatFormat) (c : Nat) (h : c / 2 ^ f.fracBits ≠ 0) :
    f.mag c = ((2 ^ f.fracBits + c % 2 ^ f.fracBits : Nat) : ℚ) *
      pow2 ((c / 2 ^ f.fracBits : Nat) - 1 + f.ulpExp) := by
  unfold mag units
  rw [if_neg h, Nat.cast_mul, pow2_add,
    show (((c / 2 ^ f.fracBits : Nat) : Int) - 1) = ((c / 2 ^ f.fracBits - 1 : Nat) : Int) by
      rw [Nat.cast_sub (Nat.pos_of_ne_zero h)]; rfl,
    pow2_natCast]
  push_cast
  ring

/-- The value of a finite code. -/
theorem value_finite (f : FloatFormat) (neg : Bool) (c : Nat) (h : c < f.infCode) :
    f.value ((if neg then 2 ^ (f.fracBits + f.expBits) else 0) + c) = .fin neg (f.mag c) := by
  have hB : 0 < 2 ^ f.fracBits := by positivity
  have hE : 0 < 2 ^ f.expBits := by positivity
  have hex : c / 2 ^ f.fracBits < 2 ^ f.expBits - 1 := by
    rw [Nat.div_lt_iff_lt_mul hB]; exact h
  have hc : c < 2 ^ f.fracBits * 2 ^ f.expBits := by
    calc c < (2 ^ f.expBits - 1) * 2 ^ f.fracBits := h
      _ ≤ 2 ^ f.expBits * 2 ^ f.fracBits := Nat.mul_le_mul_right _ (by omega)
      _ = _ := Nat.mul_comm _ _
  have e1 : ((if neg then 2 ^ (f.fracBits + f.expBits) else 0) + c) % 2 ^ f.fracBits =
      c % 2 ^ f.fracBits := by
    cases neg
    · simp
    · simp [pow_add]
  have e2 : ((if neg then 2 ^ (f.fracBits + f.expBits) else 0) + c) / 2 ^ f.fracBits
      % 2 ^ f.expBits = c / 2 ^ f.fracBits := by
    cases neg
    · simp only [Bool.false_eq_true, if_false, Nat.zero_add]
      exact Nat.mod_eq_of_lt (by omega)
    · simp only [if_true, pow_add, Nat.mul_add_div hB, Nat.add_mod_left]
      exact Nat.mod_eq_of_lt (by omega)
  have e3 : ((if neg then 2 ^ (f.fracBits + f.expBits) else 0) + c) / 2 ^ (f.fracBits + f.expBits)
      % 2 = if neg then 1 else 0 := by
    rw [pow_add]
    cases neg
    · simp [Nat.div_eq_of_lt hc]
    · simp only [if_true]
      rw [Nat.add_div_left _ (by positivity), Nat.div_eq_of_lt hc]
  unfold value
  simp only [e1, e2, e3]
  rw [if_neg (by omega)]
  have hneg : ((if neg then 1 else 0) == 1) = neg := by cases neg <;> rfl
  rw [hneg]
  split
  · next h0 => simp only [mag, units, h0, if_true, ulpExp]
  · next h0 =>
    rw [mag_normal f c h0]
    congr 3
    unfold ulpExp minExp
    ring

theorem value_inf (f : FloatFormat) (neg : Bool) :
    f.value ((if neg then 2 ^ (f.fracBits + f.expBits) else 0) + f.infCode) = .inf neg := by
  have hB : 0 < 2 ^ f.fracBits := by positivity
  have hE : 0 < 2 ^ f.expBits := by positivity
  have hlt : f.infCode < 2 ^ f.fracBits * 2 ^ f.expBits := by
    unfold infCode
    rw [Nat.mul_comm]
    exact Nat.mul_lt_mul_of_pos_left (by omega) hB
  have e0 : f.infCode / 2 ^ f.fracBits = 2 ^ f.expBits - 1 := Nat.mul_div_cancel _ hB
  have e1 : ((if neg then 2 ^ (f.fracBits + f.expBits) else 0) + f.infCode) % 2 ^ f.fracBits = 0 := by
    cases neg
    · simp [infCode]
    · simp [pow_add, infCode]
  have e2 : ((if neg then 2 ^ (f.fracBits + f.expBits) else 0) + f.infCode) / 2 ^ f.fracBits
      % 2 ^ f.expBits = 2 ^ f.expBits - 1 := by
    cases neg
    · simp only [Bool.false_eq_true, if_false, Nat.zero_add, e0]
      exact Nat.mod_eq_of_lt (by omega)
    · simp only [if_true, pow_add, Nat.mul_add_div hB, Nat.add_mod_left, e0]
      exact Nat.mod_eq_of_lt (by omega)
  have e3 : ((if neg then 2 ^ (f.fracBits + f.expBits) else 0) + f.infCode) /
      2 ^ (f.fracBits + f.expBits) % 2 = if neg then 1 else 0 := by
    rw [pow_add]
    cases neg
    · simp [Nat.div_eq_of_lt hlt]
    · simp only [if_true]
      rw [Nat.add_div_left _ (by positivity), Nat.div_eq_of_lt hlt]
  unfold value
  simp only [e1, e2, e3, if_true]
  cases neg <;> rfl

/-! ### Rounding -/

theorem roundMag_zero (f : FloatFormat) : f.roundMag 0 = 0 := by simp [roundMag]

/-- Rounding the value of a finite code gives the code. -/
theorem roundMag_mag (f : FloatFormat) (c : Nat) (h : c < f.infCode) : f.roundMag (f.mag c) = c := by
  by_cases h0 : c = 0
  · subst h0; rw [mag_zero, roundMag_zero]
  have hB : 0 < 2 ^ f.fracBits := by positivity
  have hpos := f.mag_pos c (Nat.pos_of_ne_zero h0)
  unfold roundMag
  rw [if_neg hpos.ne']
  by_cases hE : c / 2 ^ f.fracBits = 0
  · have hc : c < 2 ^ f.fracBits := by
      by_contra hge
      have := Nat.div_pos (not_lt.1 hge) hB
      omega
    have hm : f.mag c = (c : ℚ) * pow2 f.ulpExp := by
      simp [mag, units, hE, Nat.mod_eq_of_lt hc]
    have hlog : floorLog2 (f.mag c) < f.minExp := by
      have hlt : f.mag c < pow2 f.minExp := by
        rw [hm, show f.minExp = (f.fracBits : Int) + f.ulpExp by unfold ulpExp; ring, pow2_add,
          pow2_natCast]
        have : (c : ℚ) < 2 ^ f.fracBits := by exact_mod_cast hc
        exact mul_lt_mul_of_pos_right this (pow2_pos _)
      have := (floorLog2_spec _ hpos).1
      by_contra hge
      exact absurd (this.trans_lt hlt) (not_lt.2 (pow2_le _ _ (not_lt.1 hge)))
    simp only [max_eq_right hlog.le, sub_self, Int.toNat_zero, Nat.zero_mul, Nat.zero_add]
    rw [hm, show f.minExp - (f.fracBits : Int) = f.ulpExp from rfl,
      mul_div_cancel_right₀ _ (pow2_pos _).ne', roundTiesEven_natCast]
    exact min_eq_left h.le
  · have hm := f.mag_normal c hE
    have hfr : c % 2 ^ f.fracBits < 2 ^ f.fracBits := Nat.mod_lt _ hB
    set E := c / 2 ^ f.fracBits with hEdef
    set fr := c % 2 ^ f.fracBits with hfrdef
    have hE1 : 1 ≤ E := Nat.one_le_iff_ne_zero.2 hE
    clear_value E fr
    have hlog : floorLog2 (f.mag c) = f.minExp + ((E : Int) - 1) := by
      apply floorLog2_unique _ _ hpos
      · rw [hm, show f.minExp + ((E : Int) - 1) = (f.fracBits : Int) + ((E : Int) - 1 + f.ulpExp) by
          unfold ulpExp; ring, pow2_add, pow2_natCast]
        apply mul_le_mul_of_nonneg_right _ (pow2_pos _).le
        push_cast
        have : (0 : ℚ) ≤ fr := by positivity
        linarith
      · rw [hm, show f.minExp + ((E : Int) - 1) + 1 =
          ((f.fracBits + 1 : Nat) : Int) + ((E : Int) - 1 + f.ulpExp) by
          unfold ulpExp; push_cast; ring, pow2_add ((f.fracBits + 1 : Nat) : Int), pow2_natCast]
        apply mul_lt_mul_of_pos_right _ (pow2_pos _)
        have : 2 ^ f.fracBits + fr < 2 ^ (f.fracBits + 1) := by rw [pow_succ]; omega
        exact_mod_cast this
    have hmax : max (floorLog2 (f.mag c)) f.minExp = f.minExp + ((E : Int) - 1) := by
      rw [hlog]; exact max_eq_left (by omega)
    simp only [hmax]
    rw [show f.minExp + ((E : Int) - 1) - (f.fracBits : Int) = (E : Int) - 1 + f.ulpExp by
      unfold ulpExp; ring, hm, mul_div_cancel_right₀ _ (pow2_pos _).ne', roundTiesEven_natCast,
      show (f.minExp + ((E : Int) - 1) - f.minExp).toNat = E - 1 by omega]
    have hc : (E - 1) * 2 ^ f.fracBits + (2 ^ f.fracBits + fr) = c := by
      have := Nat.div_add_mod c (2 ^ f.fracBits)
      rw [← hEdef, ← hfrdef, Nat.mul_comm] at this
      obtain ⟨e, he⟩ : ∃ e, E = e + 1 := ⟨E - 1, by omega⟩
      rw [he] at this ⊢
      rw [Nat.add_sub_cancel, ← this]
      ring
    rw [hc]
    exact min_eq_left h.le

/-- Rounding a magnitude is monotone. -/
theorem roundMag_mono (f : FloatFormat) (q r : ℚ) (hq : 0 ≤ q) (h : q ≤ r) :
    f.roundMag q ≤ f.roundMag r := by
  rcases hq.eq_or_lt with rfl | hq
  · rw [roundMag_zero]; exact Nat.zero_le _
  have hr := hq.trans_le h
  unfold roundMag
  rw [if_neg hq.ne', if_neg hr.ne']
  simp only
  set e := max (floorLog2 q) f.minExp with he
  set d := max (floorLog2 r) f.minExp with hd
  have hed : e ≤ d := max_le_max (floorLog2_mono q r hq h) le_rfl
  have hme : f.minExp ≤ e := le_max_right _ _
  have hscale : ∀ (x : ℚ) (z : Int), 0 < x → 0 ≤ x / pow2 z := fun x z hx =>
    div_nonneg hx.le (pow2_pos _).le
  apply min_le_min _ le_rfl
  rcases hed.eq_or_lt with heq | hlt
  · rw [← heq]
    apply Nat.add_le_add_left
    exact roundTiesEven_mono _ _ (hscale _ _ hq) (div_le_div_of_nonneg_right h (pow2_pos _).le)
  · have hup : roundTiesEven (q / pow2 (e - f.fracBits)) ≤ 2 ^ (f.fracBits + 1) := by
      have : q / pow2 (e - f.fracBits) ≤ ((2 ^ (f.fracBits + 1) : Nat) : ℚ) := by
        rw [div_le_iff₀ (pow2_pos _)]
        have hq2 := (floorLog2_spec q hq).2.le
        refine hq2.trans ((pow2_le _ (e + 1) (by have := le_max_left (floorLog2 q) f.minExp; omega)).trans ?_)
        rw [show e + 1 = ((f.fracBits + 1 : Nat) : Int) + (e - f.fracBits) by push_cast; ring, pow2_add,
          pow2_natCast]
        push_cast
        exact le_rfl
      have := roundTiesEven_mono _ _ (hscale _ _ hq) this
      rwa [roundTiesEven_natCast] at this
    have hdn : 2 ^ f.fracBits ≤ roundTiesEven (r / pow2 (d - f.fracBits)) := by
      have hdl : d = floorLog2 r := by
        rw [hd]; apply max_eq_left; by_contra hh
        have : d = f.minExp := by rw [hd]; exact max_eq_right (by omega)
        omega
      have : ((2 ^ f.fracBits : Nat) : ℚ) ≤ r / pow2 (d - f.fracBits) := by
        rw [le_div_iff₀ (pow2_pos _)]
        have hr1 := (floorLog2_spec r hr).1
        rw [← hdl] at hr1
        refine le_trans ?_ hr1
        push_cast
        rw [← pow2_natCast, ← pow2_add]
        exact pow2_le _ _ (by omega)
      have := roundTiesEven_mono _ _ (by positivity) this
      rwa [roundTiesEven_natCast] at this
    obtain ⟨j, hj⟩ : ∃ j : Nat, d = e + (j + 1) := ⟨(d - e - 1).toNat, by omega⟩
    have ht : (d - f.minExp).toNat = (e - f.minExp).toNat + (j + 1) := by omega
    rw [ht, Nat.add_mul, Nat.add_assoc]
    apply Nat.add_le_add_left
    calc roundTiesEven (q / pow2 (e - f.fracBits)) ≤ 2 ^ (f.fracBits + 1) := hup
      _ = 1 * 2 ^ f.fracBits + 2 ^ f.fracBits := by rw [pow_succ]; omega
      _ ≤ (j + 1) * 2 ^ f.fracBits + roundTiesEven (r / pow2 (d - f.fracBits)) :=
        Nat.add_le_add (Nat.mul_le_mul_right _ (by omega)) hdn

theorem roundMag_le_inf (f : FloatFormat) (q : ℚ) : f.roundMag q ≤ f.infCode := by
  unfold roundMag
  split
  · exact Nat.zero_le _
  · exact min_le_right _ _

end FloatFormat

end Sys2Proof.Machine
end

