-- ==== Sys2Proof/Laws/Float.lean ====
section
/-!
SUPPORT. Binary32 patterns: which are finite, infinite or NaN, their sign-free codes, the comparisons
as the order of `key`, values that round to themselves, and the operations at exact points.
-/
namespace Sys2Proof.Machine

/-! ### Codes -/

/-- The sign-free code of a pattern. -/
def low (x : F32) : Nat := x.toNat % 2 ^ 31

theorem low_lt (x : F32) : low x < 2 ^ 31 := Nat.mod_lt _ (by norm_num)

theorem signbit_eq (x : F32) : signbit x = decide (2 ^ 31 ≤ x.toNat) := by
  have hx := x.isLt
  unfold signbit
  rw [← BitVec.msb_eq_getLsbD_last, BitVec.msb_eq_decide]

theorem toNat_eq (x : F32) : x.toNat = (if signbit x then 2 ^ 31 else 0) + low x := by
  have hx := x.isLt
  rw [signbit_eq]
  unfold low
  simp only [decide_eq_true_eq]
  split <;> omega

theorem exponent_toNat (x : F32) : (x.extractLsb' 23 8).toNat = low x / 2 ^ 23 := by
  have hx := x.isLt
  simp only [BitVec.extractLsb'_toNat, Nat.shiftRight_eq_div_pow, low]
  omega

theorem fraction_toNat (x : F32) : (x.extractLsb' 0 23).toNat = low x % 2 ^ 23 := by
  have hx := x.isLt
  simp only [BitVec.extractLsb'_toNat, Nat.shiftRight_eq_div_pow, low]
  omega

theorem isFinite_iff (x : F32) : isFinite x = true ↔ low x < 0x7F800000 := by
  have h := exponent_toNat x
  have hl := low_lt x
  unfold isFinite
  rw [bne_iff_ne, ne_eq, ← BitVec.toNat_inj, h]
  simp only [BitVec.toNat_ofNat]
  omega

theorem isNaN_iff (x : F32) : isNaN x = true ↔ 0x7F800000 < low x := by
  have h := exponent_toNat x
  have h' := fraction_toNat x
  have hl := low_lt x
  unfold isNaN
  rw [Bool.and_eq_true, beq_iff_eq, bne_iff_ne, ne_eq, ← BitVec.toNat_inj, ← BitVec.toNat_inj, h, h']
  simp only [BitVec.toNat_ofNat]
  omega

theorem not_isNaN_iff (x : F32) : isNaN x = false ↔ low x ≤ 0x7F800000 := by
  rw [← Bool.not_eq_true, isNaN_iff]; omega

theorem isNaN_of_isFinite (x : F32) (h : isFinite x = true) : isNaN x = false := by
  rw [not_isNaN_iff]; rw [isFinite_iff] at h; omega

/-- A pattern from its sign and its sign-free code. -/
theorem eq_signed (x : F32) : x = signed (signbit x) (low x) := by
  apply BitVec.eq_of_toNat_eq
  have hx := x.isLt
  have h := toNat_eq x
  unfold signed
  rw [BitVec.toNat_ofNat]
  cases hs : signbit x <;> simp only [hs, if_true, if_false, Bool.false_eq_true] at h ⊢ <;> omega

theorem signed_toNat (neg : Bool) (c : Nat) (h : c < 2 ^ 31) :
    (signed neg c).toNat = (if neg then 2 ^ 31 else 0) + c := by
  unfold signed
  rw [BitVec.toNat_ofNat]
  cases neg <;> simp <;> omega

@[simp] theorem low_signed (neg : Bool) (c : Nat) (h : c < 2 ^ 31) : low (signed neg c) = c := by
  unfold low
  rw [signed_toNat neg c h]
  cases neg <;> simp <;> omega

@[simp] theorem signbit_signed (neg : Bool) (c : Nat) (h : c < 2 ^ 31) :
    signbit (signed neg c) = neg := by
  rw [signbit_eq, signed_toNat neg c h]
  cases neg <;> simp; omega

theorem ext_low (x y : F32) (h1 : signbit x = signbit y) (h2 : low x = low y) : x = y := by
  rw [eq_signed x, eq_signed y, h1, h2]

theorem key_eq (x : F32) : key x = if signbit x then -(low x : Int) else low x := rfl

/-! ### Values -/

theorem infCode_eq : binary32.infCode = 0x7F800000 := rfl

theorem val_finite (x : F32) (h : isFinite x = true) :
    val x = .fin (signbit x) (binary32.mag (low x)) := by
  rw [isFinite_iff] at h
  unfold val
  rw [toNat_eq x]
  exact binary32.value_finite (signbit x) (low x) h

theorem val_infinite (x : F32) (h : low x = 0x7F800000) : val x = .inf (signbit x) := by
  unfold val
  rw [toNat_eq x, h]
  exact binary32.value_inf (signbit x)

theorem val_nan (x : F32) (h : isNaN x = true) : val x = .nan := by
  have hx := x.isLt
  rw [isNaN_iff] at h
  have hl := low_lt x
  unfold low at h hl
  unfold val FloatFormat.value
  have e1 : x.toNat / 2 ^ binary32.fracBits % 2 ^ binary32.expBits = 2 ^ binary32.expBits - 1 := by
    show x.toNat / 2 ^ 23 % 2 ^ 8 = 2 ^ 8 - 1
    omega
  have e2 : x.toNat % 2 ^ binary32.fracBits ≠ 0 := by
    show x.toNat % 2 ^ 23 ≠ 0
    omega
  simp only [e1, e2, if_true, if_false]

theorem ratOf_finite (x : F32) (h : isFinite x = true) :
    ratOf x = if signbit x then -binary32.mag (low x) else binary32.mag (low x) := by
  have := val_finite x h
  unfold val at this
  unfold ratOf
  rw [this]

/-- A pattern is finite, infinite or a NaN. -/
theorem class_cases (x : F32) :
    isFinite x = true ∨ low x = 0x7F800000 ∨ isNaN x = true := by
  rw [isFinite_iff, isNaN_iff]; omega

/-- The order of finite patterns is the order of their values. -/
theorem key_le_iff (x y : F32) (hx : isFinite x = true) (hy : isFinite y = true) :
    key x ≤ key y ↔ ratOf x ≤ ratOf y := by
  rw [ratOf_finite x hx, ratOf_finite y hy, key_eq, key_eq]
  have hm := binary32.mag_strictMono
  have h0 := binary32.mag_nonneg
  cases signbit x <;> cases signbit y <;> simp only [if_true, if_false, Bool.false_eq_true]
  · rw [hm.le_iff_le]; omega
  · constructor
    · intro h
      have h1 : low x = 0 := by omega
      have h2 : low y = 0 := by omega
      simp [h1, h2, FloatFormat.mag_zero]
    · intro h
      have h1 := h0 (low x)
      have h2 := h0 (low y)
      have e1 : binary32.mag (low x) = 0 := by linarith
      have e2 : binary32.mag (low y) = 0 := by linarith
      rw [FloatFormat.mag_eq_zero] at e1 e2
      omega
  · have h1 := h0 (low x)
    have h2 := h0 (low y)
    constructor
    · intro _; linarith
    · intro _; omega
  · rw [neg_le_neg_iff, neg_le_neg_iff, hm.le_iff_le]; omega

theorem key_lt_iff (x y : F32) (hx : isFinite x = true) (hy : isFinite y = true) :
    key x < key y ↔ ratOf x < ratOf y := by
  rw [← not_le, key_le_iff y x hy hx, not_le]

theorem flt_iff (x y : F32) :
    flt x y = true ↔ isNaN x = false ∧ isNaN y = false ∧ key x < key y := by
  simp [flt, and_assoc]

theorem fle_iff (x y : F32) :
    fle x y = true ↔ isNaN x = false ∧ isNaN y = false ∧ key x ≤ key y := by
  simp [fle, and_assoc]

theorem feq_iff (x y : F32) :
    feq x y = true ↔ isNaN x = false ∧ isNaN y = false ∧ key x = key y := by
  simp [feq, and_assoc]

/-! ### Rounding -/

theorem roundMag_lt (q : ℚ) : binary32.roundMag q < 2 ^ 31 :=
  lt_of_le_of_lt (binary32.roundMag_le_inf q) (by rw [infCode_eq]; norm_num)

@[simp] theorem low_roundSigned (neg : Bool) (q : ℚ) :
    low (roundSigned neg q) = binary32.roundMag q := low_signed _ _ (roundMag_lt q)

@[simp] theorem signbit_roundSigned (neg : Bool) (q : ℚ) : signbit (roundSigned neg q) = neg :=
  signbit_signed _ _ (roundMag_lt q)

@[simp] theorem isNaN_roundSigned (neg : Bool) (q : ℚ) : isNaN (roundSigned neg q) = false := by
  rw [not_isNaN_iff, low_roundSigned, ← infCode_eq]
  exact binary32.roundMag_le_inf q

@[simp] theorem isNaN_fl32 (q : ℚ) : isNaN (fl32 q) = false := isNaN_roundSigned _ _

/-- Rounding the magnitude of a finite pattern with its sign gives the pattern. -/
theorem roundSigned_mag (x : F32) (h : isFinite x = true) :
    roundSigned (signbit x) (binary32.mag (low x)) = x := by
  rw [isFinite_iff] at h
  unfold roundSigned
  rw [FloatFormat.roundMag_mag _ _ h]
  exact (eq_signed x).symm

/-- Rounding the value of a finite pattern gives the pattern, but for −0. -/
theorem fl32_ratOf (x : F32) (h : isFinite x = true) (h0 : low x ≠ 0 ∨ signbit x = false) :
    fl32 (ratOf x) = x := by
  have hx := roundSigned_mag x h
  have hn := binary32.mag_nonneg (low x)
  have hr := ratOf_finite x h
  unfold fl32
  cases hs : signbit x
  · rw [hs] at hr hx
    simp only [Bool.false_eq_true, if_false] at hr
    rw [hr, abs_of_nonneg hn, decide_eq_false (not_lt.2 hn), hx]
  · rw [hs] at hr hx
    have hl : low x ≠ 0 := by simpa [hs] using h0
    have hp := binary32.mag_pos (low x) (Nat.pos_of_ne_zero hl)
    simp only [if_true] at hr
    rw [hr, abs_neg, abs_of_nonneg hn, decide_eq_true (by linarith), hx]

/-- `fl32` is monotone in the order of patterns. -/
theorem key_fl32_mono (q r : ℚ) (h : q ≤ r) : key (fl32 q) ≤ key (fl32 r) := by
  rw [key_eq, key_eq]
  unfold fl32
  simp only [signbit_roundSigned, low_roundSigned, decide_eq_true_eq]
  by_cases hq : q < 0 <;> by_cases hr : r < 0
  · rw [if_pos hq, if_pos hr]
    have := binary32.roundMag_mono |r| |q| (abs_nonneg r)
      (by rw [abs_of_neg hq, abs_of_neg hr]; linarith)
    omega
  · rw [if_pos hq, if_neg hr]; omega
  · exact absurd (h.trans_lt hr) hq
  · rw [if_neg hq, if_neg hr]
    have := binary32.roundMag_mono |q| |r| (abs_nonneg q)
      (by rwa [abs_of_nonneg (not_lt.1 hq), abs_of_nonneg (not_lt.1 hr)])
    omega

/-- A magnitude `m·2^z` with at most 24 significant bits, in range, is the value of a finite code. -/
theorem exists_code (m : Nat) (z : Int) (hm : m < 2 ^ 24) (hz : -149 ≤ z) (hz' : z ≤ 104) :
    ∃ c, c < 0x7F800000 ∧ binary32.mag c = (m : ℚ) * pow2 z := by
  rcases Nat.eq_zero_or_pos m with rfl | hm0
  · exact ⟨0, by norm_num, by simp [FloatFormat.mag_zero]⟩
  have h1 := Nat.log2_self_le hm0.ne'
  have h2 : m < 2 ^ (m.log2 + 1) := Nat.lt_log2_self
  have he : m.log2 < 24 := (Nat.log2_lt hm0.ne').2 hm
  set e := m.log2
  have hu : binary32.ulpExp = -149 := rfl
  by_cases hn : -126 ≤ (e : Int) + z
  · -- a normal code
    have hfr1 : 2 ^ 23 ≤ m * 2 ^ (23 - e) := by
      calc 2 ^ 23 = 2 ^ e * 2 ^ (23 - e) := by rw [← pow_add]; congr 1; omega
        _ ≤ _ := Nat.mul_le_mul_right _ h1
    have hfr2 : m * 2 ^ (23 - e) < 2 ^ 24 := by
      calc m * 2 ^ (23 - e) < 2 ^ (e + 1) * 2 ^ (23 - e) :=
            Nat.mul_lt_mul_of_pos_right h2 (by positivity)
        _ = 2 ^ 24 := by rw [← pow_add]; congr 1; omega
    obtain ⟨E, hE⟩ : ∃ E : Nat, (E : Int) = (e : Int) + z + 127 :=
      ⟨((e : Int) + z + 127).toNat, Int.toNat_of_nonneg (by omega)⟩
    have hE1 : 1 ≤ E := by omega
    have hE2 : E ≤ 254 := by omega
    refine ⟨E * 2 ^ 23 + (m * 2 ^ (23 - e) - 2 ^ 23), by omega, ?_⟩
    have hdiv : (E * 2 ^ 23 + (m * 2 ^ (23 - e) - 2 ^ 23)) / 2 ^ binary32.fracBits = E := by
      show (E * 2 ^ 23 + (m * 2 ^ (23 - e) - 2 ^ 23)) / 2 ^ 23 = E
      omega
    have hmod : (E * 2 ^ 23 + (m * 2 ^ (23 - e) - 2 ^ 23)) % 2 ^ binary32.fracBits =
        m * 2 ^ (23 - e) - 2 ^ 23 := by
      show (E * 2 ^ 23 + (m * 2 ^ (23 - e) - 2 ^ 23)) % 2 ^ 23 = _
      omega
    rw [FloatFormat.mag_normal _ _ (by rw [hdiv]; omega), hdiv, hmod, hu,
      show (2 ^ binary32.fracBits + (m * 2 ^ (23 - e) - 2 ^ 23) : Nat) = m * 2 ^ (23 - e) by
        show (2 ^ 23 + (m * 2 ^ (23 - e) - 2 ^ 23) : Nat) = m * 2 ^ (23 - e)
        omega]
    have hk : pow2 ((23 - e : Nat) : Int) * pow2 ((E : Int) - 1 + -149) = pow2 z := by
      rw [← pow2_add]; exact congrArg pow2 (by omega)
    push_cast
    rw [mul_assoc, ← pow2_natCast, hk]
  · -- a subnormal code
    obtain ⟨j, hj⟩ : ∃ j : Nat, (j : Int) = z + 149 := ⟨(z + 149).toNat, Int.toNat_of_nonneg (by omega)⟩
    have hlt : m * 2 ^ j < 2 ^ 23 := by
      calc m * 2 ^ j < 2 ^ (e + 1) * 2 ^ j := Nat.mul_lt_mul_of_pos_right h2 (by positivity)
        _ = 2 ^ (e + 1 + j) := (pow_add _ _ _).symm
        _ ≤ 2 ^ 23 := Nat.pow_le_pow_right (by norm_num) (by omega)
    refine ⟨m * 2 ^ j, by omega, ?_⟩
    have hdiv : m * 2 ^ j / 2 ^ binary32.fracBits = 0 := Nat.div_eq_of_lt hlt
    have hmod : m * 2 ^ j % 2 ^ binary32.fracBits = m * 2 ^ j := Nat.mod_eq_of_lt hlt
    unfold FloatFormat.mag FloatFormat.units
    rw [if_pos hdiv, hmod, hu]
    have hk : pow2 (j : Int) * pow2 (-149) = pow2 z := by
      rw [← pow2_add]; exact congrArg pow2 (by omega)
    push_cast
    rw [mul_assoc, ← pow2_natCast, hk]

/-- A signed magnitude with at most 24 significant bits is rounded to a pattern of that value. -/
theorem roundSigned_exact (neg : Bool) (m : Nat) (z : Int) (hm : m < 2 ^ 24) (hz : -149 ≤ z)
    (hz' : z ≤ 104) :
    isFinite (roundSigned neg ((m : ℚ) * pow2 z)) = true ∧
      binary32.mag (low (roundSigned neg ((m : ℚ) * pow2 z))) = (m : ℚ) * pow2 z := by
  obtain ⟨c, hc, he⟩ := exists_code m z hm hz hz'
  rw [isFinite_iff, low_roundSigned, ← he, FloatFormat.roundMag_mag _ _ hc]
  exact ⟨hc, rfl⟩

/-- Integers of at most 24 bits are exact. -/
theorem fl32Int_exact (n : Int) (h : n.natAbs < 2 ^ 24) :
    isFinite (fl32Int n) = true ∧ ratOf (fl32Int n) = n := by
  have hr := roundSigned_exact (decide ((n : ℚ) < 0)) n.natAbs 0 h (by norm_num) (by norm_num)
  have hp : pow2 0 = 1 := by simp [pow2_eq]
  have ha : |(n : ℚ)| = (n.natAbs : ℚ) := by rw [Nat.cast_natAbs]; push_cast; rfl
  rw [hp, mul_one] at hr
  unfold fl32Int fl32
  rw [ha]
  refine ⟨hr.1, ?_⟩
  rw [ratOf_finite _ hr.1, hr.2, signbit_roundSigned]
  by_cases hn : (n : ℚ) < 0
  · rw [decide_eq_true hn, if_pos rfl, ← ha, abs_of_neg hn, neg_neg]
  · rw [decide_eq_false hn, if_neg (by simp), ← ha, abs_of_nonneg (not_lt.1 hn)]

/-! ### Constants and NaNs -/

theorem isNaN_qnan : isNaN Config.qnan = true := by
  unfold isNaN Config.qnan
  generalize Config.qnanBits = b
  have h1 : ((b &&& 0x803FFFFF#32) ||| 0x7FC00000#32).extractLsb' 23 8 = 0xFF#8 := by
    ext i hi
    have : i < 8 := hi
    interval_cases i <;> simp
  have h2 : ((b &&& 0x803FFFFF#32) ||| 0x7FC00000#32).extractLsb' 0 23 ≠ 0#23 := by
    intro h
    have := congrArg (fun v => v.getLsbD 22) h
    simp at this
  rw [h1]
  simp [h2]

theorem isFinite_zero : isFinite zero = true := by decide
theorem isFinite_one : isFinite one = true := by decide

theorem ratOf_zero : ratOf zero = 0 := by
  rw [ratOf_finite _ isFinite_zero]
  have : low zero = 0 := by decide
  rw [this, FloatFormat.mag_zero]
  simp

theorem mag_one : binary32.mag (low one) = 1 := by
  have h : low one = 127 * 2 ^ 23 := by decide
  have hd : 127 * 2 ^ 23 / 2 ^ binary32.fracBits = 127 := by decide
  have hm : 127 * 2 ^ 23 % 2 ^ binary32.fracBits = 0 := by decide
  rw [h, FloatFormat.mag_normal _ _ (by rw [hd]; norm_num), hd, hm,
    show binary32.ulpExp = -149 from rfl, pow2_eq, show binary32.fracBits = 23 from rfl]
  norm_num

theorem ratOf_one : ratOf one = 1 := by
  rw [ratOf_finite _ isFinite_one, mag_one]
  have : signbit one = false := by decide
  rw [this]; simp

/-! ### Exact products -/

theorem fmul_nan_left (x y : F32) (h : isNaN x = true) : fmul x y = Config.qnan := by
  unfold fmul; rw [val_nan x h]

theorem fmul_nan_right (x y : F32) (h : isNaN y = true) : fmul x y = Config.qnan := by
  unfold fmul; rw [val_nan y h]; cases val x <;> rfl

/-- The product of finite patterns is one rounding of the exact product. -/
theorem fmul_finite (x y : F32) (hx : isFinite x = true) (hy : isFinite y = true) :
    fmul x y = roundSigned (signbit x != signbit y) (binary32.mag (low x) * binary32.mag (low y)) := by
  unfold fmul; rw [val_finite x hx, val_finite y hy]

theorem fmul_one_left (x : F32) (h : isNaN x = false) : fmul one x = x := by
  have hs : signbit one = false := by decide
  rcases class_cases x with hf | hi | hn
  · rw [fmul_finite _ _ isFinite_one hf, mag_one, one_mul, hs]
    simpa using roundSigned_mag x hf
  · unfold fmul
    rw [val_finite _ isFinite_one, val_infinite x hi, mag_one, hs]
    simp only [one_ne_zero, if_false, Bool.false_bne]
    rw [eq_signed x, hi]
    simp only [infinity]
    rw [signbit_signed _ _ (by norm_num)]
  · rw [h] at hn; simp at hn

theorem fmul_one_right (x : F32) (h : isNaN x = false) : fmul x one = x := by
  have hs : signbit one = false := by decide
  rcases class_cases x with hf | hi | hn
  · rw [fmul_finite _ _ hf isFinite_one, mag_one, mul_one, hs]
    simpa using roundSigned_mag x hf
  · unfold fmul
    rw [val_finite _ isFinite_one, val_infinite x hi, mag_one, hs]
    simp only [one_ne_zero, if_false, Bool.bne_false]
    rw [eq_signed x, hi]
    simp only [infinity]
    rw [signbit_signed _ _ (by norm_num)]
  · rw [h] at hn; simp at hn

theorem fmul_neg_one_left (x : F32) (h : isNaN x = false) :
    fmul (fneg one) x = signed (!signbit x) (low x) := by
  have hs : signbit (fneg one) = true := by decide
  have hf1 : isFinite (fneg one) = true := by decide
  have hm : binary32.mag (low (fneg one)) = 1 := by
    rw [show low (fneg one) = low one by decide, mag_one]
  rcases class_cases x with hf | hi | hn
  · rw [fmul_finite _ _ hf1 hf, hm, one_mul, hs]
    unfold roundSigned
    rw [FloatFormat.roundMag_mag _ _ ((isFinite_iff x).1 hf)]
    simp
  · unfold fmul
    rw [val_finite _ hf1, val_infinite x hi, hm, hs, hi]
    simp [infinity]
  · rw [h] at hn; simp at hn

/-- A product with a finite factor and a zero is a zero. -/
theorem fmul_zero_right (x y : F32) (hx : isFinite x = true) (hy : low y = 0) :
    fmul x y = signed (signbit x != signbit y) 0 := by
  have hf : isFinite y = true := by rw [isFinite_iff, hy]; norm_num
  rw [fmul_finite _ _ hx hf, hy, FloatFormat.mag_zero, mul_zero]
  unfold roundSigned
  rw [FloatFormat.roundMag_zero]

/-! ### Exact sums -/

theorem fadd_finite (x y : F32) (hx : isFinite x = true) (hy : isFinite y = true) :
    fadd x y = if ratOf x + ratOf y = 0 then signed (signbit x && signbit y) 0
      else fl32 (ratOf x + ratOf y) := by
  unfold fadd
  rw [val_finite x hx, val_finite y hy, ratOf_finite x hx, ratOf_finite y hy]
  simp only [roundSum]
  split
  · unfold roundSigned; rw [FloatFormat.roundMag_zero]
  · rfl

theorem ratOf_eq_zero (x : F32) (h : low x = 0) : isFinite x = true ∧ ratOf x = 0 := by
  have hf : isFinite x = true := by rw [isFinite_iff, h]; norm_num
  refine ⟨hf, ?_⟩
  rw [ratOf_finite x hf, h, FloatFormat.mag_zero]
  simp

theorem ratOf_ne_zero (x : F32) (hf : isFinite x = true) (h : low x ≠ 0) : ratOf x ≠ 0 := by
  rw [ratOf_finite x hf]
  have := binary32.mag_pos (low x) (Nat.pos_of_ne_zero h)
  split <;> linarith

/-- Adding a zero to a finite non-zero pattern changes nothing. -/
theorem fadd_zero_left (z x : F32) (hz : low z = 0) (hf : isFinite x = true) (hx : low x ≠ 0) :
    fadd z x = x := by
  obtain ⟨hzf, hz0⟩ := ratOf_eq_zero z hz
  rw [fadd_finite z x hzf hf, hz0, zero_add, if_neg (ratOf_ne_zero x hf hx)]
  exact fl32_ratOf x hf (.inl hx)

/-- The sum of two zeros is a zero, negative only if both are. -/
theorem fadd_zeros (x y : F32) (hx : low x = 0) (hy : low y = 0) :
    fadd x y = signed (signbit x && signbit y) 0 := by
  obtain ⟨hxf, hx0⟩ := ratOf_eq_zero x hx
  obtain ⟨hyf, hy0⟩ := ratOf_eq_zero y hy
  rw [fadd_finite x y hxf hyf, hx0, hy0, if_pos (by norm_num)]

theorem fneg_low (x : F32) : low (fneg x) = low x := by
  have hx := x.isLt
  unfold low fneg
  rw [BitVec.toNat_xor]
  apply Nat.eq_of_testBit_eq
  intro i
  rw [Nat.testBit_mod_two_pow, Nat.testBit_mod_two_pow, Nat.testBit_xor]
  by_cases h : i < 31
  · have : (0x80000000#32).toNat = 2 ^ 31 := rfl
    rw [this, Nat.testBit_two_pow_of_ne (by omega)]
    simp
  · simp [h]

theorem fneg_signbit (x : F32) : signbit (fneg x) = !signbit x := by
  simp [signbit, fneg]

/-- A finite pattern less itself is +0. -/
theorem fsub_self (x : F32) (hx : isFinite x = true) : fsub x x = zero := by
  have hf : isFinite (fneg x) = true := by rw [isFinite_iff, fneg_low]; exact (isFinite_iff x).1 hx
  unfold fsub
  rw [fadd_finite x _ hx hf, ratOf_finite _ hf, ratOf_finite x hx, fneg_signbit, fneg_low]
  cases signbit x <;> simp [signed, zero]

/-! ### Selections -/

theorem maxf_not_nan (lo t : F32) (h : isNaN lo = false) : isNaN (maxf lo t) = false := by
  unfold maxf
  split
  · next hlt => exact ((flt_iff lo t).1 hlt).2.1
  · exact h

theorem clampf_of_nan (t lo hi : F32) (h : isNaN t = true) : clampf t lo hi = lo := by
  have : flt lo t = false := by simp [flt, h]
  simp [clampf, this]

/-- A clamp to bounds that are not NaN lies between them. -/
theorem clampf_bounds (t lo hi : F32) (hlo : isNaN lo = false) (hhi : isNaN hi = false)
    (h : key lo ≤ key hi) :
    isNaN (clampf t lo hi) = false ∧ key lo ≤ key (clampf t lo hi) ∧ key (clampf t lo hi) ≤ key hi := by
  unfold clampf
  split
  · next h1 =>
    obtain ⟨-, ht, hk⟩ := (flt_iff _ _).1 h1
    split
    · next h2 => exact ⟨ht, hk.le, ((flt_iff _ _).1 h2).2.2.le⟩
    · exact ⟨hhi, h, le_rfl⟩
  · exact ⟨hlo, le_rfl, h⟩

/-! ### Rounding errors -/


/-- The magnitude of a code from its exponent step and its 24-bit significand. -/
theorem mag_code (j k : Nat) (hk : k ≤ 2 ^ 24) (h : 2 ^ 23 ≤ k ∨ j = 0) :
    binary32.mag (j * 2 ^ 23 + k) = (k : ℚ) * pow2 (j - 149) := by
  have hu : binary32.units (j * 2 ^ 23 + k) = k * 2 ^ j := by
    unfold FloatFormat.units
    have hf : (2 : Nat) ^ binary32.fracBits = 2 ^ 23 := rfl
    rw [hf]
    rcases Nat.lt_or_ge k (2 ^ 23) with h1 | h1
    · have hj : j = 0 := by omega
      subst hj
      rw [if_pos (by omega), pow_zero, Nat.mul_one]; omega
    · rcases Nat.lt_or_ge k (2 ^ 24) with h2 | h2
      · have hd : (j * 2 ^ 23 + k) / 2 ^ 23 = j + 1 := by omega
        have hm : (j * 2 ^ 23 + k) % 2 ^ 23 = k - 2 ^ 23 := by omega
        rw [hd, hm, if_neg (by omega), Nat.add_sub_cancel, Nat.add_sub_cancel' h1]
      · have hd : (j * 2 ^ 23 + k) / 2 ^ 23 = j + 2 := by omega
        have hm : (j * 2 ^ 23 + k) % 2 ^ 23 = 0 := by omega
        have hk' : k = 2 ^ 24 := by omega
        rw [hd, hm, if_neg (by omega), hk', show j + 2 - 1 = j + 1 by omega, pow_succ]
        ring
  unfold FloatFormat.mag
  rw [hu, show binary32.ulpExp = -149 from rfl, Nat.cast_mul, mul_assoc,
    show ((j : Int) - 149) = (j : Int) + (-149) by ring, pow2_add, pow2_natCast]
  push_cast
  rfl

/-- Rounding a positive magnitude that stays finite moves it by at most half a unit in the last
place. -/
theorem roundMag_error (q : ℚ) (hq : 0 < q) (h : binary32.roundMag q < 0x7F800000) :
    |binary32.mag (binary32.roundMag q) - q| ≤ pow2 (max (floorLog2 q) (-126) - 24) := by
  set e := max (floorLog2 q) (-126) with he
  have hmin : binary32.minExp = -126 := rfl
  have hf : (binary32.fracBits : Int) = 23 := rfl
  set k := roundTiesEven (q / pow2 (e - 23)) with hk
  have hup := pow2_pos (e - 23)
  have hpos : 0 ≤ q / pow2 (e - 23) := (div_pos hq hup).le
  have hr : binary32.roundMag q = (e + 126).toNat * 2 ^ 23 + k := by
    have : binary32.roundMag q = min ((e + 126).toNat * 2 ^ 23 + k) 0x7F800000 := by
      unfold FloatFormat.roundMag
      rw [if_neg hq.ne', hmin, hf, infCode_eq]
      simp only [← he, ← hk, sub_neg_eq_add]
      rfl
    rw [this] at h ⊢
    omega
  have hspec := floorLog2_spec q hq
  have hk24 : k ≤ 2 ^ 24 := by
    have hle : q / pow2 (e - 23) ≤ ((2 ^ 24 : Nat) : ℚ) := by
      rw [div_le_iff₀ hup, show ((2 ^ 24 : Nat) : ℚ) = pow2 24 by rw [show (24 : Int) = (24 : Nat) from rfl, pow2_natCast]; norm_num,
        ← pow2_add]
      exact hspec.2.le.trans (pow2_le _ _ (by omega))
    have := roundTiesEven_mono _ _ hpos hle
    rwa [roundTiesEven_natCast] at this
  have hk23 : 2 ^ 23 ≤ k ∨ (e + 126).toNat = 0 := by
    by_cases hs : (-126 : Int) < floorLog2 q
    · left
      have hle : ((2 ^ 23 : Nat) : ℚ) ≤ q / pow2 (e - 23) := by
        rw [le_div_iff₀ hup, show ((2 ^ 23 : Nat) : ℚ) = pow2 23 by rw [show (23 : Int) = (23 : Nat) from rfl, pow2_natCast]; norm_num,
          ← pow2_add]
        exact (pow2_le _ _ (by omega)).trans hspec.1
      have := roundTiesEven_mono _ _ (by positivity) hle
      rwa [roundTiesEven_natCast] at this
    · right; omega
  rw [hr, mag_code _ _ hk24 hk23, show (((e + 126).toNat : Nat) : Int) - 149 = e - 23 by omega]
  have hn := (roundTiesEven_near _ hpos).1
  rw [← hk] at hn
  have : (k : ℚ) * pow2 (e - 23) - q = (k - q / pow2 (e - 23)) * pow2 (e - 23) := by
    field_simp
  rw [this, abs_mul, abs_of_pos hup, show e - 24 = (e - 23) + (-1) by ring, pow2_add,
    show pow2 (-1) = 1 / 2 by rw [pow2_eq]; norm_num]
  nlinarith

theorem mag_maxFinite : binary32.mag 0x7F7FFFFF = maxFinite := by
  have := mag_code 253 (2 ^ 24 - 1) (by norm_num) (by norm_num)
  rw [show (0x7F7FFFFF : Nat) = 253 * 2 ^ 23 + (2 ^ 24 - 1) by norm_num, this, maxFinite,
    show ((253 : Nat) : Int) - 149 = (104 : Nat) by norm_num, pow2_natCast]
  norm_num

theorem roundMag_finite (q : ℚ) (h0 : 0 ≤ q) (h : q ≤ maxFinite) :
    binary32.roundMag q < 0x7F800000 := by
  have := binary32.roundMag_mono q _ h0 (h.trans mag_maxFinite.ge)
  rw [FloatFormat.roundMag_mag _ _ (by rw [infCode_eq]; norm_num)] at this
  omega

/-- `fl32` of a rational in range: finite, and within half a unit in the last place. -/
theorem roundMag_near (q : ℚ) (h0 : 0 ≤ q) (h : q ≤ maxFinite) :
    |binary32.mag (binary32.roundMag q) - q| ≤ q / 2 ^ 24 + 1 / 2 ^ 150 := by
  rcases h0.eq_or_lt with rfl | hq
  · rw [FloatFormat.roundMag_zero, FloatFormat.mag_zero]; norm_num
  have he := roundMag_error q hq (roundMag_finite q h0 h)
  refine he.trans ?_
  have h1 := (floorLog2_spec q hq).1
  have hz : pow2 (-24) = 1 / 2 ^ 24 := by rw [pow2_eq]; norm_num
  have hy : pow2 (-150) = 1 / 2 ^ 150 := by rw [pow2_eq]; norm_num
  rcases le_total (floorLog2 q) (-126) with hl | hl
  · rw [max_eq_right hl, show (-126 - 24 : Int) = -150 by norm_num, hy]
    have : 0 < q / 2 ^ 24 := by positivity
    linarith
  · rw [max_eq_left hl, sub_eq_add_neg, pow2_add, hz]
    have : pow2 (floorLog2 q) * (1 / 2 ^ 24) ≤ q * (1 / 2 ^ 24) :=
      mul_le_mul_of_nonneg_right h1 (by norm_num)
    have h5 : (0 : ℚ) < 1 / 2 ^ 150 := by positivity
    linarith

theorem fl32_near (q : ℚ) (h : |q| ≤ maxFinite) :
    isFinite (fl32 q) = true ∧ |ratOf (fl32 q) - q| ≤ |q| / 2 ^ 24 + 1 / 2 ^ 150 := by
  have hf : isFinite (fl32 q) = true := by
    rw [isFinite_iff]; unfold fl32; rw [low_roundSigned]
    exact roundMag_finite _ (abs_nonneg q) h
  refine ⟨hf, ?_⟩
  have hn := roundMag_near |q| (abs_nonneg q) h
  rw [ratOf_finite _ hf]
  unfold fl32
  rw [low_roundSigned, signbit_roundSigned]
  by_cases hq : q < 0
  · rw [decide_eq_true hq, if_pos rfl, ← abs_neg]
    rw [abs_of_neg hq] at hn ⊢
    convert hn using 2
    ring
  · rw [decide_eq_false hq, if_neg (by simp)]
    rw [abs_of_nonneg (not_lt.1 hq)] at hn ⊢
    exact hn

end Sys2Proof.Machine
end

