-- ==== Sys2Proof/Machine/Reference.lean ====
section
/-!
DEFINITION. The reference instances of the approximators (40_simd_math.md R142 to R160), each a
function of its coefficient vectors, and what the spec asks of every instance (R162, R163).
-/
namespace Sys2Proof.Machine

/-- A coefficient vector: n finite numbers (00_scope.md R9). -/
structure Coeffs (n : Nat) where
  vec : Vector F32 n
  finite : ∀ i : Fin n, isFinite vec[i] = true

/-- The polynomial of a coefficient vector, `horner(C, t)` (00_scope.md R17). -/
def Coeffs.eval {n : Nat} (k : Coeffs n) (t : F32) : F32 := horner k.vec.toList t

/-! ### log2 -/

/-- `refLog2` (R142). -/
def refLog2 (cLog2 : Coeffs 6) (x : F32) : F32 :=
  let e : Int := ((x.extractLsb' 23 8).toNat : Int) - 127
  let m : F32 := (x &&& 0x007FFFFF#32) ||| 0x3F800000#32
  fadd (fl32Int e) (cLog2.eval m)

/-! ### exp2 -/

/-- The binary32 `2^n` for −126 ≤ n ≤ 127. -/
def pow2F32 (n : Int) : F32 := BitVec.ofNat 32 ((n + 127).toNat * 2 ^ 23)

/-- 128.0, the overflow boundary of exp2 (R145). -/
def exp2Hi : F32 := 0x43000000#32

/-- −126.0, the underflow boundary of exp2 (R145). -/
def exp2Lo : F32 := 0xC2FC0000#32

/-- The part of `refExp2` below its clamps (R145). -/
def refExp2Core (cExp2 : Coeffs 5) (x : F32) : F32 :=
  let ip := ffloor x
  let f := fsub x (fl32Int ip)
  fmul (cExp2.eval f) (pow2F32 ip)

/-- `refExp2` (R145). -/
def refExp2 (cExp2 : Coeffs 5) (x : F32) : F32 :=
  if isNaN x then zero
  else if fle exp2Hi x then infinity false
  else if flt x exp2Lo then zero
  else refExp2Core cExp2 x

/-! ### atan and atan2 -/

/-- `refAtan` (R150). -/
def refAtan (cAtanP : Coeffs 6) (cAtanQ : Coeffs 7) (x : F32) : F32 :=
  let a := fabs x
  let inv := flt one a
  let t := if inv then fdiv one a else a
  let r := fdiv (cAtanP.eval t) (cAtanQ.eval t)
  copysign (if inv then fsub pio2 r else r) x

/-- `atan2(y, x)` over an atan (R153): quadrants by sign bits. -/
def atan2With (atan : F32 → F32) (y x : F32) : F32 :=
  if feq y zero && feq x zero then zero
  else
    let r := atan (fdiv y x)
    if signbit x then (if signbit y then fsub r pi32 else fadd r pi32) else r

/-! ### cos, sin, sincos -/

/-- The reduced angle of R155: the cycle count `k`, `r = x − k·π` and `s = r²`. -/
structure Reduced where
  k : Int
  r : F32
  s : F32
deriving DecidableEq, Repr

def reduceAngle (x : F32) : Reduced :=
  let k := fround (fmul x invPi32)
  let r := fsub x (fmul (fl32Int k) pi32)
  ⟨k, r, fmul r r⟩

def Reduced.odd (a : Reduced) : Bool := a.k % 2 != 0

/-- `refCos` (R155). -/
def refCos (cCos : Coeffs 6) (x : F32) : F32 :=
  if !isFinite x then Config.qnan
  else
    let a := reduceAngle x
    let c := cCos.eval a.s
    if a.odd then fneg c else c

/-- The threshold 2^-14 of R160. -/
def sincosThreshold : F32 := 0x38800000#32

/-- The sign that every instance gives the sine of a finite angle (R160, R162(f)). -/
def sineSign (x : F32) : Bool :=
  let a := reduceAngle x
  signbit a.r != a.odd

/-- The magnitude of the sine of `refSincos` (R160). -/
def refSineMag (cCos : Coeffs 6) (x : F32) : F32 :=
  let a := reduceAngle x
  let c := cCos.eval a.s
  if flt sincosThreshold a.s then fsqrt (maxf zero (fsub one (fmul c c))) else fabs a.r

/-- The sine of `refSincos` (R160). -/
def refSine (cCos : Coeffs 6) (x : F32) : F32 :=
  if !isFinite x then Config.qnan else withSign (refSineMag cCos x) (sineSign x)

/-- `refSincos`: sine and cosine (R160). -/
def refSincos (cCos : Coeffs 6) (x : F32) : F32 × F32 := (refSine cCos x, refCos cCos x)

/-! ### What every instance keeps (R162, R163) -/

/-- The error bound of R163: `|y − f| ≤ 2^-14 · max(1, |f|)`, with y finite. -/
def Near (y : F32) (f : ℝ) : Prop :=
  isFinite y = true ∧ |((ratOf y : ℚ) : ℝ) - f| ≤ (1 / 2 ^ 14) * max 1 |f|

/-- A polynomial value within a bound of a number. -/
def Within (y : F32) (bound f : ℝ) : Prop :=
  isFinite y = true ∧ |((ratOf y : ℚ) : ℝ) - f| ≤ bound

/-- R163 for log2: normal x > 0. -/
def Log2Precise (f : F32 → F32) : Prop :=
  ∀ x, isNormal x = true → 0 < ratOf x → Near (f x) (Real.logb 2 (ratOf x))

/-- R163 for exp2: −126 ≤ x < 128. -/
def Exp2Precise (f : F32 → F32) : Prop :=
  ∀ x, isFinite x = true → -126 ≤ ratOf x → ratOf x < 128 → Near (f x) (2 ^ ((ratOf x : ℚ) : ℝ))

/-- R163 for atan: every finite x. -/
def AtanPrecise (f : F32 → F32) : Prop :=
  ∀ x, isFinite x = true → Near (f x) (Real.arctan (ratOf x))

/-- R162(d): monotonic non-decreasing over all non-NaN inputs (−Inf < finite < +Inf, the order of
`key`). -/
def AtanMonotone (f : F32 → F32) : Prop :=
  ∀ x y, isNaN x = false → isNaN y = false → key x ≤ key y →
    isNaN (f x) = false ∧ isNaN (f y) = false ∧ key (f x) ≤ key (f y)

/-- What R153 states of every atan2, that a NaN in either operand and a quotient of infinities give a NaN:
the quotient is then QNAN, so the atan gives a NaN there. At another NaN pattern, which no quotient is,
R162(g) leaves it open. -/
def AtanKeepsNaN (f : F32 → F32) : Prop := isNaN (f Config.qnan) = true

/-- R163 for the atan2 that an atan gives: finite operands not both zero. The point y = −0, x < 0 is
left out: there R153 gives −π, the value of the angle from below, where the function of real numbers
has π (log entry 10). -/
def Atan2Precise (f : F32 → F32) : Prop :=
  ∀ y x : F32, isFinite y = true → isFinite x = true → (ratOf y ≠ 0 ∨ ratOf x ≠ 0) →
    ¬(ratOf y = 0 ∧ signbit y = true ∧ ratOf x < 0) →
    Near (atan2With f y x) (Complex.arg ⟨ratOf x, ratOf y⟩)

/-- R163 for cos: |x| ≤ TRIG_MAX. -/
def CosPrecise (trigMax : F32) (f : F32 → F32) : Prop :=
  ∀ x, isFinite x = true → |ratOf x| ≤ ratOf trigMax → Near (f x) (Real.cos (ratOf x))

/-- R163 for a sine: |x| ≤ TRIG_MAX. -/
def SinPrecise (trigMax : F32) (f : F32 → F32) : Prop :=
  ∀ x, isFinite x = true → |ratOf x| ≤ ratOf trigMax → Near (f x) (Real.sin (ratOf x))

/-- The target of R163 for the coefficients of log2: 2^-15 on [1, 2). -/
def Log2Target (c : Coeffs 6) : Prop :=
  ∀ m : F32, isFinite m = true → 1 ≤ ratOf m → ratOf m < 2 →
    Within (c.eval m) (1 / 2 ^ 15) (Real.logb 2 (ratOf m))

/-- The target of R163 for the coefficients of exp2: 2^-14 relative on [0, 1]. -/
def Exp2Target (c : Coeffs 5) : Prop :=
  ∀ f : F32, isFinite f = true → 0 ≤ ratOf f → ratOf f ≤ 1 →
    Within (c.eval f) (1 / 2 ^ 14 * 2 ^ ((ratOf f : ℚ) : ℝ)) (2 ^ ((ratOf f : ℚ) : ℝ))

/-- The target of R163 for the coefficients of atan: 2^-14 on [0, 1]. -/
def AtanTarget (p : Coeffs 6) (q : Coeffs 7) : Prop :=
  ∀ t : F32, isFinite t = true → 0 ≤ ratOf t → ratOf t ≤ 1 →
    Within (fdiv (p.eval t) (q.eval t)) (1 / 2 ^ 14) (Real.arctan (ratOf t))

/-- The target of R163 for the coefficients of cos: 2^-17 on [0, (π/2)²]. -/
def CosTarget (c : Coeffs 6) : Prop :=
  ∀ s : F32, isFinite s = true → 0 ≤ ratOf s → ((ratOf s : ℚ) : ℝ) ≤ (Real.pi / 2) ^ 2 →
    Within (c.eval s) (1 / 2 ^ 17) (Real.cos (Real.sqrt (ratOf s)))

/-! ### What the reference functions of the tone curves keep (46_tone_curves.md R403) -/

/-- The power: for finite x > 0 and finite y, within 2^-20 relative of `x^y`, or an overflow or an
underflow where `x^y` has one. -/
def PowPrecise (f : F32 → F32 → F32) : Prop :=
  ∀ x y, isFinite x = true → 0 < ratOf x → isFinite y = true →
    let v : ℝ := ((ratOf x : ℚ) : ℝ) ^ ((ratOf y : ℚ) : ℝ)
    Within (f x y) (1 / 2 ^ 20 * v) v ∨
      ((maxFinite : ℝ) < v ∧ f x y = infinity false) ∨
      (v < 1 / 2 ^ 126 ∧ isFinite (f x y) = true ∧ signbit (f x y) = false ∧ ratOf (f x y) ≤ 1 / 2 ^ 126)

/-- `RPOW` with what R403 states exactly: `RPOW(x, 0) = 1.0` for finite x, `RPOW(+0, y) = +0` for
y > 0; and `RPOW(+Inf, 0) = 1.0`, which R416(b) needs of a pixel of infinite luminance (DEDUCED, log
entry 12). -/
def exactPow (pow : F32 → F32 → F32) (x y : F32) : F32 :=
  if feq y zero && (isFinite x || x == infinity false) then one
  else if x = zero && flt zero y then zero
  else pow x y

/-- `y` approximates `v`: within 2^-20 where binary32 has a value that near, and in any case within
2^-20 or one unit in the last place, whichever is more (log entry 12). -/
def Approximates (y : F32) (v : ℝ) : Prop :=
  Within y (max (1 / 2 ^ 20) (|v| / 2 ^ 23)) v ∧
    ((∃ z, Within z (1 / 2 ^ 20) v) → Within y (1 / 2 ^ 20) v)

/-- A logarithm: for finite x > 0, an approximation of the exact one. -/
def LogPrecise (exact : ℝ → ℝ) (f : F32 → F32) : Prop :=
  ∀ x, isFinite x = true → 0 < ratOf x → Approximates (f x) (exact (ratOf x))

end Sys2Proof.Machine
end

