-- ==== Sys2Proof/Laws/Witness.lean ====
section
/-!
SUPPORT. That the types of the configuration fields have values: for each approximator and each
reference function one function that meets all that the spec asks of it (40_simd_math.md R162, R163;
46_tone_curves.md R403). Approx.lean and RefMath.lean cite these to state their fields; no step
computes them and no proof can tell that a field is one of them.
-/
namespace Sys2Proof.Machine

/-- A signed rounding in range: finite, and within half a unit in the last place. -/
theorem roundSigned_near (neg : Bool) (m : ℚ) (h0 : 0 ≤ m) (h : m ≤ maxFinite) :
    isFinite (roundSigned neg m) = true ∧
      |ratOf (roundSigned neg m) - (if neg then -m else m)| ≤ m / 2 ^ 24 + 1 / 2 ^ 150 := by
  have hf : isFinite (roundSigned neg m) = true := by
    rw [isFinite_iff, low_roundSigned]; exact roundMag_finite m h0 h
  refine ⟨hf, ?_⟩
  have hn := roundMag_near m h0 h
  rw [ratOf_finite _ hf, low_roundSigned, signbit_roundSigned]
  cases neg
  · simpa using hn
  · rw [if_pos rfl, if_pos rfl, ← abs_neg]
    convert hn using 2
    ring

/-! ### The power of a positive rational to a rational, from below -/

/-- The exponent of `b ^ y`. -/
def powExp (b y : ℚ) : Int := Int.log 2 (b ^ y.num) / y.den

/-- 24 bits of `b ^ y`. -/
def powSig (b y : ℚ) : Nat :=
  Nat.findGreatest (fun k => ((k : ℚ) * 2 ^ (powExp b y - 23)) ^ y.den ≤ b ^ y.num) (2 ^ 24)

def powApprox (b y : ℚ) : ℚ := powSig b y * 2 ^ (powExp b y - 23)

theorem rpow_den (b y : ℚ) (hb : 0 < b) :
    ((b : ℝ) ^ (y : ℝ)) ^ y.den = ((b ^ y.num : ℚ) : ℝ) := by
  have hb' : (0 : ℝ) < b := by exact_mod_cast hb
  rw [← Real.rpow_natCast, ← Real.rpow_mul hb'.le]
  have : (y : ℝ) * (y.den : ℝ) = (y.num : ℝ) := by exact_mod_cast Rat.mul_den_eq_num y
  rw [this, Real.rpow_intCast]
  push_cast
  rfl

theorem powExp_spec (b y : ℚ) (hb : 0 < b) :
    (2 : ℝ) ^ powExp b y ≤ (b : ℝ) ^ (y : ℝ) ∧ (b : ℝ) ^ (y : ℝ) < (2 : ℝ) ^ (powExp b y + 1) := by
  have hb' : (0 : ℝ) < b := by exact_mod_cast hb
  have hv : (0 : ℝ) < (b : ℝ) ^ (y : ℝ) := Real.rpow_pos_of_pos hb' _
  have hw : (0 : ℚ) < b ^ y.num := zpow_pos hb _
  have hd : (0 : Int) < y.den := by exact_mod_cast y.den_pos
  have hdn : y.den ≠ 0 := y.den_nz
  have l1 : (2 : ℚ) ^ Int.log 2 (b ^ y.num) ≤ b ^ y.num := by
    exact_mod_cast Int.zpow_log_le_self (b := 2) (by norm_num) hw
  have l2 : b ^ y.num < (2 : ℚ) ^ (Int.log 2 (b ^ y.num) + 1) := by
    exact_mod_cast Int.lt_zpow_succ_log_self (b := 2) (by norm_num) (b ^ y.num)
  have e1 : powExp b y * y.den ≤ Int.log 2 (b ^ y.num) := Int.ediv_mul_le _ hd.ne'
  have e2 : Int.log 2 (b ^ y.num) + 1 ≤ (powExp b y + 1) * y.den := by
    have := Int.lt_ediv_add_one_mul_self (Int.log 2 (b ^ y.num)) hd
    unfold powExp; omega
  constructor
  · apply le_of_pow_le_pow_left₀ hdn hv.le
    rw [rpow_den b y hb, ← zpow_natCast, ← zpow_mul]
    have : ((2 : ℚ) ^ (powExp b y * y.den)) ≤ b ^ y.num :=
      (zpow_le_zpow_right₀ (by norm_num) e1).trans l1
    have := (Rat.cast_le (K := ℝ)).2 this
    push_cast at this ⊢
    exact this
  · apply lt_of_pow_lt_pow_left₀ y.den (by positivity)
    rw [rpow_den b y hb, ← zpow_natCast, ← zpow_mul]
    have : b ^ y.num < ((2 : ℚ) ^ ((powExp b y + 1) * y.den)) :=
      l2.trans_le (zpow_le_zpow_right₀ (by norm_num) e2)
    have := (Rat.cast_lt (K := ℝ)).2 this
    push_cast at this ⊢
    exact this

theorem powSig_iff (b y : ℚ) (hb : 0 < b) (k : Nat) :
    ((k : ℚ) * 2 ^ (powExp b y - 23)) ^ y.den ≤ b ^ y.num ↔
      (k : ℝ) * 2 ^ (powExp b y - 23) ≤ (b : ℝ) ^ (y : ℝ) := by
  have hb' : (0 : ℝ) < b := by exact_mod_cast hb
  have hv : (0 : ℝ) < (b : ℝ) ^ (y : ℝ) := Real.rpow_pos_of_pos hb' _
  have hx : (0 : ℝ) ≤ (k : ℝ) * 2 ^ (powExp b y - 23) := by positivity
  rw [← pow_le_pow_iff_left₀ hx hv.le y.den_nz, rpow_den b y hb, ← Rat.cast_le (K := ℝ)]
  push_cast
  rfl

/-- The approximation is below the power, by less than 2^-23 of it. -/
theorem powApprox_spec (b y : ℚ) (hb : 0 < b) :
    ((powApprox b y : ℚ) : ℝ) ≤ (b : ℝ) ^ (y : ℝ) ∧
      (b : ℝ) ^ (y : ℝ) - powApprox b y ≤ (b : ℝ) ^ (y : ℝ) / 2 ^ 23 ∧ powSig b y < 2 ^ 24 := by
  obtain ⟨h1, h2⟩ := powExp_spec b y hb
  have hP0 : ((0 : Nat) : ℝ) * 2 ^ (powExp b y - 23) ≤ (b : ℝ) ^ (y : ℝ) := by
    simp; positivity
  have hs := Nat.findGreatest_spec (P := fun k : Nat => ((k : ℚ) * 2 ^ (powExp b y - 23)) ^ y.den ≤ b ^ y.num)
    (Nat.zero_le (2 ^ 24)) ((powSig_iff b y hb 0).2 hP0)
  have hlow := (powSig_iff b y hb (powSig b y)).1 hs
  have hz : (2 : ℝ) ^ (powExp b y + 1) = 2 ^ 24 * 2 ^ (powExp b y - 23) := by
    rw [show ((2 : ℝ) ^ 24) = 2 ^ (24 : Int) by norm_num, ← zpow_add₀ (by norm_num)]; congr 1; ring
  have hz' : (2 : ℝ) ^ (powExp b y) = 2 ^ 23 * 2 ^ (powExp b y - 23) := by
    rw [show ((2 : ℝ) ^ 23) = 2 ^ (23 : Int) by norm_num, ← zpow_add₀ (by norm_num)]; congr 1; ring
  have hp : (0 : ℝ) < 2 ^ (powExp b y - 23) := by positivity
  have hlt : powSig b y < 2 ^ 24 := by
    have : (powSig b y : ℝ) * 2 ^ (powExp b y - 23) < 2 ^ 24 * 2 ^ (powExp b y - 23) := by
      rw [← hz]; exact hlow.trans_lt h2
    exact_mod_cast lt_of_mul_lt_mul_right this hp.le
  have hup : (b : ℝ) ^ (y : ℝ) < (powSig b y + 1) * 2 ^ (powExp b y - 23) := by
    by_contra hc
    have hc := not_lt.1 hc
    have := (powSig_iff b y hb (powSig b y + 1)).2 (by push_cast; exact hc)
    exact absurd (Nat.findGreatest_is_greatest (P := fun k : Nat => ((k : ℚ) * 2 ^ (powExp b y - 23)) ^ y.den ≤ b ^ y.num)
      (Nat.lt_succ_self (powSig b y)) (by omega)) (not_not.2 this)
  have hcast : ((powApprox b y : ℚ) : ℝ) = (powSig b y : ℝ) * 2 ^ (powExp b y - 23) := by
    unfold powApprox; push_cast; rfl
  rw [hcast]
  refine ⟨hlow, ?_, hlt⟩
  rw [hz'] at h1
  rw [le_div_iff₀ (by norm_num)]
  nlinarith

theorem finite_bounds (x : F32) (hf : isFinite x = true) (h0 : 0 < ratOf x) :
    (2 : ℚ) ^ (-149 : Int) ≤ ratOf x ∧ ratOf x ≤ maxFinite := by
  have hr := ratOf_finite x hf
  have hl := (isFinite_iff x).1 hf
  have hs : signbit x = false := by
    cases h : signbit x
    · rfl
    · rw [h] at hr; simp only [if_true] at hr
      have := binary32.mag_nonneg (low x); linarith
  rw [hs] at hr
  simp only [Bool.false_eq_true, if_false] at hr
  have hlow : low x ≠ 0 := by
    intro h; rw [hr, h, FloatFormat.mag_zero] at h0; exact lt_irrefl _ h0
  rw [hr]
  constructor
  · have h1 := binary32.mag_strictMono.monotone (show 1 ≤ low x by omega)
    have : binary32.mag 1 = (2 : ℚ) ^ (-149 : Int) := by
      have := mag_code 0 1 (by norm_num) (Or.inr rfl)
      rw [show 0 * 2 ^ 23 + 1 = 1 by norm_num] at this
      rw [this, pow2_eq]; norm_num
    rwa [this] at h1
  · rw [← mag_maxFinite]
    exact binary32.mag_strictMono.monotone (show low x ≤ 0x7F7FFFFF by omega)

/-! ### Powers -/

/-- A power within R403. -/
def powWitness (b y : ℚ) : F32 :=
  if 128 ≤ powExp b y then infinity false
  else if powExp b y < -126 then zero
  else fl32 (powApprox b y)

theorem maxFinite_lt : ((maxFinite : ℚ) : ℝ) < 2 ^ (128 : Int) := by
  unfold maxFinite; push_cast; norm_num

theorem powWitness_near (b y : ℚ) (hb : 0 < b) (h1 : -126 ≤ powExp b y) (h2 : powExp b y < 128) :
    Within (powWitness b y) (1 / 2 ^ 22 * (b : ℝ) ^ (y : ℝ)) ((b : ℝ) ^ (y : ℝ)) := by
  obtain ⟨ha, hd, hk⟩ := powApprox_spec b y hb
  obtain ⟨he, -⟩ := powExp_spec b y hb
  have hv : (2 : ℝ) ^ (-126 : Int) ≤ (b : ℝ) ^ (y : ℝ) :=
    (zpow_le_zpow_right₀ (by norm_num) h1).trans he
  have hpos : 0 ≤ powApprox b y := by unfold powApprox; positivity
  have hmax : |powApprox b y| ≤ maxFinite := by
    rw [abs_of_nonneg hpos]
    unfold powApprox maxFinite
    have e1 : (powSig b y : ℚ) ≤ 2 ^ 24 - 1 := by
      have : (powSig b y : ℚ) + 1 ≤ 2 ^ 24 := by exact_mod_cast hk
      linarith
    have e2 : (2 : ℚ) ^ (powExp b y - 23) ≤ 2 ^ (104 : Int) :=
      zpow_le_zpow_right₀ (by norm_num) (by omega)
    have e3 : (2 : ℚ) ^ (104 : Int) = 2 ^ 104 := by norm_num
    rw [← e3]
    exact mul_le_mul e1 e2 (by positivity) (by norm_num)
  obtain ⟨hf, hn⟩ := fl32_near (powApprox b y) hmax
  have hw : powWitness b y = fl32 (powApprox b y) := by
    unfold powWitness; rw [if_neg (by omega), if_neg (by omega)]
  rw [hw]
  refine ⟨hf, ?_⟩
  rw [abs_of_nonneg hpos] at hn
  have hn' := (Rat.cast_le (K := ℝ)).2 hn
  push_cast at hn'
  set v := (b : ℝ) ^ (y : ℝ)
  have hz : (2 : ℝ) ^ (-126 : Int) = 2 ^ 24 / 2 ^ 150 := by norm_num
  rw [hz] at hv
  rw [abs_le] at hn' ⊢
  constructor <;> nlinarith [hn'.1, hn'.2]

theorem powWitness_precise : PowPrecise (fun x y => powWitness (ratOf x) (ratOf y)) := by
  intro x y hx h0 hy v
  obtain ⟨he, he'⟩ := powExp_spec (ratOf x) (ratOf y) h0
  have hx0 : (0 : ℝ) < ratOf x := by exact_mod_cast h0
  have hv : (0 : ℝ) < v := Real.rpow_pos_of_pos hx0 _
  by_cases h1 : 128 ≤ powExp (ratOf x) (ratOf y)
  · right; left
    refine ⟨maxFinite_lt.trans_le ((zpow_le_zpow_right₀ (by norm_num) h1).trans he), ?_⟩
    show powWitness _ _ = _
    unfold powWitness; rw [if_pos h1]
  · by_cases h2 : powExp (ratOf x) (ratOf y) < -126
    · right; right
      have hw : powWitness (ratOf x) (ratOf y) = zero := by
        unfold powWitness; rw [if_neg h1, if_pos h2]
      show _ ∧ isFinite (powWitness _ _) = true ∧ signbit (powWitness _ _) = false ∧
        ratOf (powWitness _ _) ≤ _
      rw [hw, ratOf_zero]
      refine ⟨he'.trans_le ?_, by decide, by decide, by positivity⟩
      calc (2 : ℝ) ^ (powExp (ratOf x) (ratOf y) + 1) ≤ 2 ^ (-126 : Int) :=
            zpow_le_zpow_right₀ (by norm_num) (by omega)
        _ = _ := by norm_num
    · left
      obtain ⟨hf, hn⟩ := powWitness_near (ratOf x) (ratOf y) h0 (by omega) (by omega)
      refine ⟨hf, hn.trans ?_⟩
      show 1 / 2 ^ 22 * v ≤ 1 / 2 ^ 20 * v
      nlinarith

/-- The points that `exactPow` fixes agree with the bound. -/
theorem exactPow_precise (f : F32 → F32 → F32) (h : PowPrecise f) : PowPrecise (exactPow f) := by
  intro x y hx h0 hy v
  have hx0 : x ≠ zero := by rintro rfl; rw [ratOf_zero] at h0; exact lt_irrefl _ h0
  show Within (exactPow f x y) _ _ ∨ (_ ∧ exactPow f x y = _) ∨
    (_ ∧ isFinite (exactPow f x y) = true ∧ signbit (exactPow f x y) = false ∧ ratOf (exactPow f x y) ≤ _)
  unfold exactPow
  rw [if_neg (show ¬((decide (x = zero) && flt zero y) = true) by simp [hx0])]
  split
  · next hc =>
    simp only [Bool.and_eq_true, feq_iff] at hc
    have hl : low y = 0 := by
      have hk := hc.1.2.2
      rw [key_eq, key_eq, show low zero = 0 by decide] at hk
      split at hk <;> simp at hk <;> omega
    have hv : v = 1 := by
      show ((ratOf x : ℚ) : ℝ) ^ ((ratOf y : ℚ) : ℝ) = 1
      rw [(ratOf_eq_zero y hl).2]; simp
    left
    refine ⟨isFinite_one, ?_⟩
    rw [hv, ratOf_one]; simp
  · exact h x y hx h0 hy

theorem exp2Witness_precise : Exp2Precise (fun x => powWitness 2 (ratOf x)) := by
  intro x hx h1 h2
  obtain ⟨he, he'⟩ := powExp_spec 2 (ratOf x) (by norm_num)
  have h1' : ((-126 : Int) : ℝ) ≤ (ratOf x : ℝ) := by exact_mod_cast h1
  have h2' : (ratOf x : ℝ) < ((128 : Int) : ℝ) := by exact_mod_cast h2
  have lo : (2 : ℝ) ^ (-126 : Int) ≤ (2 : ℝ) ^ ((ratOf x : ℚ) : ℝ) := by
    rw [← Real.rpow_intCast]; exact Real.rpow_le_rpow_of_exponent_le (by norm_num) h1'
  have hi : (2 : ℝ) ^ ((ratOf x : ℚ) : ℝ) < (2 : ℝ) ^ (128 : Int) := by
    rw [← Real.rpow_intCast]; exact Real.rpow_lt_rpow_of_exponent_lt (by norm_num) h2'
  have c2 : ((2 : ℚ) : ℝ) = 2 := by norm_num
  rw [c2] at he he'
  have b1 : -126 ≤ powExp 2 (ratOf x) := by
    have := (zpow_lt_zpow_iff_right₀ (by norm_num : (1 : ℝ) < 2)).1 (lo.trans_lt he'); omega
  have b2 : powExp 2 (ratOf x) < 128 :=
    (zpow_lt_zpow_iff_right₀ (by norm_num : (1 : ℝ) < 2)).1 (he.trans_lt hi)
  obtain ⟨hf, hn⟩ := powWitness_near 2 (ratOf x) (by norm_num) b1 b2
  rw [c2] at hn
  refine ⟨hf, hn.trans ?_⟩
  have hv : (0 : ℝ) < (2 : ℝ) ^ ((ratOf x : ℚ) : ℝ) := by positivity
  rw [abs_of_pos hv]
  have := le_max_right 1 ((2 : ℝ) ^ ((ratOf x : ℚ) : ℝ))
  nlinarith

/-! ### Logarithms -/

/-- 30 bits of log2 of a positive rational. -/
def log2Approx (q : ℚ) : ℚ := Int.log 2 (q ^ 2 ^ 30) / 2 ^ 30

theorem log2Approx_spec (q : ℚ) (hq : 0 < q) :
    ((log2Approx q : ℚ) : ℝ) ≤ Real.logb 2 q ∧ Real.logb 2 q ≤ log2Approx q + 1 / 2 ^ 30 := by
  have hq' : (0 : ℝ) < q := by exact_mod_cast hq
  unfold log2Approx
  generalize hN : (2 ^ 30 : Nat) = N
  have hNq : (2 : ℚ) ^ 30 = N := by rw [← hN]; norm_num
  have hN0 : (0 : ℝ) < N := by rw [← hN]; norm_num
  rw [hNq]
  have l1 : (2 : ℚ) ^ Int.log 2 (q ^ N) ≤ q ^ N := by
    exact_mod_cast Int.zpow_log_le_self (b := 2) (by norm_num) (pow_pos hq N)
  have l2 : q ^ N < (2 : ℚ) ^ (Int.log 2 (q ^ N) + 1) := by
    exact_mod_cast Int.lt_zpow_succ_log_self (b := 2) (by norm_num) (q ^ N)
  generalize Int.log 2 (q ^ N) = k at l1 l2 ⊢
  have l1' := (Rat.cast_le (K := ℝ)).2 l1
  have l2' := (Rat.cast_lt (K := ℝ)).2 l2
  push_cast at l1' l2' ⊢
  have e : Real.logb 2 ((q : ℝ) ^ N) = N * Real.logb 2 q := by
    rw [← Real.rpow_natCast, Real.logb_rpow_eq_mul_logb_of_pos hq']
  have b1 : (k : ℝ) ≤ N * Real.logb 2 q := by
    rw [← e, Real.le_logb_iff_rpow_le (by norm_num) (by positivity), Real.rpow_intCast]; exact l1'
  have b2 : N * Real.logb 2 q ≤ k + 1 := by
    rw [← e, Real.logb_le_iff_le_rpow (by norm_num) (by positivity)]
    have : ((k : ℝ) + 1) = ((k + 1 : Int) : ℝ) := by push_cast; rfl
    rw [this, Real.rpow_intCast]; exact l2'.le
  have hNr : (2 : ℝ) ^ 30 = N := by rw [← hN]; norm_num
  rw [hNr, ← add_div]
  exact ⟨by rw [div_le_iff₀ hN0]; linarith, by rw [le_div_iff₀ hN0]; linarith⟩

theorem logb_bound (x : F32) (hf : isFinite x = true) (h0 : 0 < ratOf x) :
    |Real.logb 2 (ratOf x)| ≤ 149 := by
  obtain ⟨h1, h2⟩ := finite_bounds x hf h0
  have hx : (0 : ℝ) < ratOf x := by exact_mod_cast h0
  have h1' : (2 : ℝ) ^ (-149 : Int) ≤ ratOf x := by
    have := (Rat.cast_le (K := ℝ)).2 h1
    push_cast at this; exact this
  have h2' : ((ratOf x : ℚ) : ℝ) ≤ 2 ^ (128 : Int) := (Rat.cast_le.2 h2).trans maxFinite_lt.le
  rw [abs_le]
  constructor
  · rw [Real.le_logb_iff_rpow_le (by norm_num) hx]
    rw [← Real.rpow_intCast] at h1'
    exact_mod_cast h1'
  · rw [Real.logb_le_iff_le_rpow (by norm_num) hx]
    refine h2'.trans ?_
    rw [← Real.rpow_intCast]
    exact Real.rpow_le_rpow_of_exponent_le (by norm_num) (by norm_num)

/-- An approximation of a bounded number, rounded once. -/
theorem fl32_within (a : ℚ) (v : ℝ) (hv : |v| ≤ 149) (h : |(a : ℝ) - v| ≤ |v| / 2 ^ 30 + 1 / 2 ^ 29) :
    Within (fl32 a) (max (1 / 2 ^ 20) (|v| / 2 ^ 23)) v := by
  have ha : |(a : ℝ)| ≤ |v| + |v| / 2 ^ 30 + 1 / 2 ^ 29 := by
    have := abs_add_le ((a : ℝ) - v) v
    rw [sub_add_cancel] at this; linarith
  have hm : |a| ≤ maxFinite := by
    have : |(a : ℝ)| ≤ 200 := by linarith
    have : ((|a| : ℚ) : ℝ) ≤ ((200 : ℚ) : ℝ) := by push_cast; exact this
    exact (Rat.cast_le.1 this).trans (by unfold maxFinite; norm_num)
  obtain ⟨hf, hn⟩ := fl32_near a hm
  refine ⟨hf, ?_⟩
  have hn' := (Rat.cast_le (K := ℝ)).2 hn
  push_cast at hn'
  have hs : |((ratOf (fl32 a) : ℚ) : ℝ) - v| ≤ |v| / 2 ^ 24 + |v| / 2 ^ 29 + 1 / 2 ^ 28 := by
    have := abs_add_le (((ratOf (fl32 a) : ℚ) : ℝ) - a) ((a : ℝ) - v)
    rw [sub_add_sub_cancel] at this
    have h5 : (1 : ℝ) / 2 ^ 150 ≤ 1 / 2 ^ 40 := by norm_num
    have h6 := abs_nonneg v
    linarith
  refine hs.trans ?_
  rcases le_total |v| 8 with h8 | h8
  · exact (show _ ≤ (1 : ℝ) / 2 ^ 20 by linarith).trans (le_max_left _ _)
  · exact (show _ ≤ |v| / 2 ^ 23 by linarith).trans (le_max_right _ _)

def log2Witness (x : F32) : F32 := fl32 (log2Approx (ratOf x))

theorem log2Witness_within (x : F32) (hf : isFinite x = true) (h0 : 0 < ratOf x) :
    Within (log2Witness x) (max (1 / 2 ^ 20) (|Real.logb 2 (ratOf x)| / 2 ^ 23))
      (Real.logb 2 (ratOf x)) := by
  obtain ⟨h1, h2⟩ := log2Approx_spec (ratOf x) h0
  apply fl32_within _ _ (logb_bound x hf h0)
  rw [abs_sub_comm, abs_of_nonneg (by linarith)]
  have := abs_nonneg (Real.logb 2 (ratOf x))
  linarith

theorem log2Witness_precise : Log2Precise log2Witness := by
  intro x hn h0
  have hf : isFinite x = true := by
    unfold isNormal at hn; simp only [Bool.and_eq_true] at hn; exact hn.1
  obtain ⟨h, h'⟩ := log2Witness_within x hf h0
  refine ⟨h, h'.trans ?_⟩
  have := logb_bound x hf h0
  have := le_max_left 1 |Real.logb 2 (ratOf x)|
  apply max_le <;> linarith

/-- The witness of the natural logarithm: log2 times ten digits of ln 2. -/
def lnWitness (x : F32) : F32 := fl32 (log2Approx (ratOf x) * (6931471805 / 10 ^ 10))

theorem lnWitness_within (x : F32) (hf : isFinite x = true) (h0 : 0 < ratOf x) :
    Within (lnWitness x) (max (1 / 2 ^ 20) (|Real.log (ratOf x)| / 2 ^ 23)) (Real.log (ratOf x)) := by
  obtain ⟨h1, h2⟩ := log2Approx_spec (ratOf x) h0
  have hb := logb_bound x hf h0
  have l1 := Real.log_two_gt_d9
  have l2 := Real.log_two_lt_d9
  have he : Real.log (ratOf x) = Real.logb 2 (ratOf x) * Real.log 2 := by
    rw [Real.logb, div_mul_cancel₀]
    exact (Real.log_pos (by norm_num)).ne'
  rw [he]
  generalize Real.logb 2 (ratOf x) = t at h1 h2 hb ⊢
  generalize Real.log 2 = l at l1 l2 ⊢
  have hl : (0 : ℝ) < l := by linarith
  have ht := abs_nonneg t
  have hd : |((log2Approx (ratOf x) * (6931471805 / 10 ^ 10) : ℚ) : ℝ) - t * l| ≤
      |t * l| / 2 ^ 30 + 1 / 2 ^ 29 := by
    push_cast
    have e : (log2Approx (ratOf x) : ℝ) * (6931471805 / 10 ^ 10) - t * l =
        ((log2Approx (ratOf x) : ℝ) - t) * (6931471805 / 10 ^ 10) + t * (6931471805 / 10 ^ 10 - l) := by
      ring
    rw [e]
    refine (abs_add_le _ _).trans ?_
    rw [abs_mul, abs_mul, abs_mul, abs_of_pos hl]
    have a1 : |(log2Approx (ratOf x) : ℝ) - t| ≤ 1 / 2 ^ 30 := by
      rw [abs_sub_comm, abs_of_nonneg (by linarith)]; linarith
    have a2 : |(6931471805 / 10 ^ 10 : ℝ) - l| ≤ 1 / 2 ^ 31 := by
      rw [abs_le]; constructor <;> norm_num <;> linarith
    have a3 : |(6931471805 / 10 ^ 10 : ℝ)| ≤ 1 := by rw [abs_of_pos] <;> norm_num
    have b1 : |(log2Approx (ratOf x) : ℝ) - t| * |(6931471805 / 10 ^ 10 : ℝ)| ≤ 1 / 2 ^ 30 * 1 :=
      mul_le_mul a1 a3 (abs_nonneg _) (by norm_num)
    have b2 : |t| * |(6931471805 / 10 ^ 10 : ℝ) - l| ≤ |t| * (1 / 2 ^ 31) :=
      mul_le_mul_of_nonneg_left a2 ht
    have b3 : |t| * (1 / 2) ≤ |t| * l := mul_le_mul_of_nonneg_left (by linarith) ht
    linarith
  apply fl32_within _ _ _ hd
  rw [abs_mul, abs_of_pos hl]
  nlinarith

/-- From a value within the wider bound everywhere, a function that is within 2^-20 wherever some value
is. -/
theorem exists_logPrecise (exact : ℝ → ℝ) (g : F32 → F32)
    (hg : ∀ x, isFinite x = true → 0 < ratOf x →
      Within (g x) (max (1 / 2 ^ 20) (|exact (ratOf x)| / 2 ^ 23)) (exact (ratOf x))) :
    ∃ f, LogPrecise exact f := by
  suffices h : ∀ x, ∃ y, isFinite x = true → 0 < ratOf x → Approximates y (exact (ratOf x)) by
    obtain ⟨f, hf⟩ := Classical.axiomOfChoice h
    exact ⟨f, hf⟩
  intro x
  by_cases h : ∃ z, Within z (1 / 2 ^ 20) (exact (ratOf x))
  · obtain ⟨z, hz⟩ := h
    exact ⟨z, fun _ _ => ⟨⟨hz.1, hz.2.trans (le_max_left _ _)⟩, fun _ => hz⟩⟩
  · exact ⟨g x, fun hf h0 => ⟨hg x hf h0, fun hz => absurd hz h⟩⟩

/-! ### Arctangent -/

/-- A sum that follows the integral of `1/(1 + t²)` in steps of 2^-16. -/
def atanSum : Nat → ℚ
  | 0 => 0
  | i + 1 => atanSum i + 1 / 2 ^ 16 / (1 + (i / 2 ^ 16 : ℚ) ^ 2)

theorem arctan_step (a b : ℝ) (h0 : 0 ≤ a) (h : a < b) :
    (b - a) / (1 + b ^ 2) ≤ Real.arctan b - Real.arctan a ∧
      Real.arctan b - Real.arctan a ≤ (b - a) / (1 + a ^ 2) := by
  obtain ⟨c, ⟨hc1, hc2⟩, hc⟩ := exists_deriv_eq_slope Real.arctan h Real.continuous_arctan.continuousOn
    Real.differentiable_arctan.differentiableOn
  rw [Real.deriv_arctan, eq_div_iff (by linarith)] at hc
  rw [← hc, div_eq_mul_one_div, div_eq_mul_one_div (b - a), mul_comm (1 / (1 + c ^ 2))]
  have hd : 0 ≤ b - a := by linarith
  constructor
  · apply mul_le_mul_of_nonneg_left _ hd
    apply one_div_le_one_div_of_le (by positivity)
    nlinarith
  · apply mul_le_mul_of_nonneg_left _ hd
    apply one_div_le_one_div_of_le (by positivity)
    nlinarith

theorem arctan_lipschitz (a b : ℝ) (h0 : 0 ≤ a) (h : a ≤ b) :
    Real.arctan b - Real.arctan a ≤ b - a := by
  rcases h.eq_or_lt with rfl | h
  · simp
  · refine (arctan_step a b h0 h).2.trans (div_le_self (by linarith) ?_)
    nlinarith [sq_nonneg a]

theorem atanSum_spec (i : Nat) :
    Real.arctan (i / 2 ^ 16) ≤ (atanSum i : ℚ) ∧
      ((atanSum i : ℚ) : ℝ) ≤ Real.arctan (i / 2 ^ 16) + 1 / 2 ^ 16 * (1 - 1 / (1 + (i / 2 ^ 16) ^ 2)) := by
  induction i with
  | zero => simp [atanSum]
  | succ i ih =>
    obtain ⟨h1, h2⟩ := arctan_step ((i : ℝ) / 2 ^ 16) ((i + 1 : Nat) / 2 ^ 16) (by positivity)
      (by push_cast; rw [div_lt_div_iff_of_pos_right (by norm_num)]; linarith)
    have hd : ((i + 1 : Nat) : ℝ) / 2 ^ 16 - (i : ℝ) / 2 ^ 16 = 1 / 2 ^ 16 := by push_cast; ring
    rw [hd] at h1 h2
    have e : ((atanSum (i + 1) : ℚ) : ℝ) =
        (atanSum i : ℚ) + 1 / 2 ^ 16 / (1 + ((i : ℝ) / 2 ^ 16) ^ 2) := by
      simp only [atanSum]; push_cast; rfl
    rw [e]
    constructor
    · linarith [ih.1]
    · have h3 : (1 : ℝ) / 2 ^ 16 / (1 + ((i : ℝ) / 2 ^ 16) ^ 2) =
          1 / 2 ^ 16 * (1 / (1 + ((i : ℝ) / 2 ^ 16) ^ 2)) := by rw [div_eq_mul_one_div]
      have h4 : (1 : ℝ) / 2 ^ 16 / (1 + (((i + 1 : Nat) : ℝ) / 2 ^ 16) ^ 2) =
          1 / 2 ^ 16 * (1 / (1 + (((i + 1 : Nat) : ℝ) / 2 ^ 16) ^ 2)) := by rw [div_eq_mul_one_div]
      rw [h4] at h1
      rw [h3]
      linarith [ih.2]

theorem atanSum_near (i : Nat) :
    Real.arctan (i / 2 ^ 16) ≤ (atanSum i : ℚ) ∧
      ((atanSum i : ℚ) : ℝ) ≤ Real.arctan (i / 2 ^ 16) + 1 / 2 ^ 16 := by
  obtain ⟨h1, h2⟩ := atanSum_spec i
  refine ⟨h1, h2.trans ?_⟩
  have : (0 : ℝ) ≤ 1 / (1 + ((i : ℝ) / 2 ^ 16) ^ 2) := by positivity
  linarith

theorem atanSum_mono : Monotone atanSum := by
  apply monotone_nat_of_le_succ
  intro i
  simp only [atanSum]
  have : (0 : ℚ) ≤ 1 / 2 ^ 16 / (1 + (i / 2 ^ 16 : ℚ) ^ 2) := by positivity
  linarith

/-- The last step of the grid, at 2^16. -/
def gridTop : Nat := 2 ^ 32

def atanMag (q : ℚ) : ℚ := atanSum (min ⌊q * 2 ^ 16⌋₊ gridTop)

theorem gridTop_real : ((gridTop : Nat) : ℝ) / 2 ^ 16 = 2 ^ 16 := by
  unfold gridTop; norm_num

theorem arctan_top (t : ℝ) (h : 2 ^ 16 ≤ t) : Real.pi / 2 - 1 / 2 ^ 16 ≤ Real.arctan t := by
  have ht : 0 < t := lt_of_lt_of_le (by norm_num) h
  have h1 := Real.arctan_inv_of_pos ht
  have h2 := arctan_lipschitz 0 t⁻¹ le_rfl (by positivity)
  rw [Real.arctan_zero, sub_zero, sub_zero, h1] at h2
  have h3 : t⁻¹ ≤ 1 / 2 ^ 16 := by
    rw [inv_eq_one_div]; exact one_div_le_one_div_of_le (by norm_num) h
  linarith

/-- The grid's value is within a step of the arctangent. -/
theorem atanMag_near (q : ℚ) (hq : 0 ≤ q) :
    |((atanMag q : ℚ) : ℝ) - Real.arctan q| ≤ 1 / 2 ^ 16 := by
  have hq' : (0 : ℝ) ≤ q := by exact_mod_cast hq
  have f1 : ((⌊q * 2 ^ 16⌋₊ : Nat) : ℝ) ≤ q * 2 ^ 16 := by
    have := Nat.floor_le (a := q * 2 ^ 16) (by positivity)
    have := (Rat.cast_le (K := ℝ)).2 this
    push_cast at this; exact this
  have f2 : (q : ℝ) * 2 ^ 16 < (⌊q * 2 ^ 16⌋₊ : Nat) + 1 := by
    have := Nat.lt_floor_add_one (q * 2 ^ 16)
    have := (Rat.cast_lt (K := ℝ)).2 this
    push_cast at this; exact this
  unfold atanMag
  generalize ⌊q * 2 ^ 16⌋₊ = i at f1 f2 ⊢
  rcases Nat.lt_or_ge i gridTop with h | h
  · rw [min_eq_left h.le]
    obtain ⟨s1, s2⟩ := atanSum_near i
    have a1 : (i : ℝ) / 2 ^ 16 ≤ q := by rw [div_le_iff₀ (by norm_num)]; exact f1
    have a2 : (q : ℝ) - i / 2 ^ 16 ≤ 1 / 2 ^ 16 := by
      rw [sub_le_iff_le_add, ← add_div, le_div_iff₀ (by norm_num)]; linarith
    have a3 := arctan_lipschitz _ _ (by positivity) a1
    have a4 := Real.arctan_mono a1
    rw [abs_le]; constructor <;> linarith
  · rw [min_eq_right h]
    obtain ⟨s1, s2⟩ := atanSum_near gridTop
    rw [gridTop_real] at s1 s2
    have hq16 : (2 : ℝ) ^ 16 ≤ q := by
      have : ((gridTop : Nat) : ℝ) ≤ i := by exact_mod_cast h
      have e : ((gridTop : Nat) : ℝ) = 2 ^ 16 * 2 ^ 16 := by unfold gridTop; norm_num
      rw [e] at this
      nlinarith
    have b1 := arctan_top _ le_rfl
    have b2 := arctan_top _ hq16
    have b3 := Real.arctan_lt_pi_div_two (2 ^ 16)
    have b4 := Real.arctan_lt_pi_div_two q
    have b5 := Real.arctan_mono hq16
    generalize Real.arctan (2 ^ 16) = top at *
    rw [abs_le]; constructor <;> linarith

theorem atanTop_near : |((atanSum gridTop : ℚ) : ℝ) - Real.pi / 2| ≤ 1 / 2 ^ 16 := by
  obtain ⟨s1, s2⟩ := atanSum_near gridTop
  rw [gridTop_real] at s1 s2
  have b1 := arctan_top _ le_rfl
  have b3 := Real.arctan_lt_pi_div_two (2 ^ 16)
  generalize Real.arctan (2 ^ 16) = top at *
  rw [abs_le]; constructor <;> linarith

/-- The magnitude of the witness at a sign-free code. -/
def atanCode (c : Nat) : ℚ := if c < 0x7F800000 then atanMag (binary32.mag c) else atanSum gridTop

/-- The exact arctangent of a sign-free code; π/2 at the infinity. -/
noncomputable def arctanCode (c : Nat) : ℝ :=
  if c < 0x7F800000 then Real.arctan (binary32.mag c) else Real.pi / 2

theorem atanCode_near (c : Nat) : |((atanCode c : ℚ) : ℝ) - arctanCode c| ≤ 1 / 2 ^ 16 := by
  unfold atanCode arctanCode
  split
  · exact atanMag_near _ (binary32.mag_nonneg c)
  · exact atanTop_near

theorem atanCode_mono : Monotone atanCode := by
  intro a b h
  unfold atanCode
  split <;> split
  · apply atanSum_mono
    apply min_le_min _ le_rfl
    apply Nat.floor_le_floor
    exact mul_le_mul_of_nonneg_right (binary32.mag_strictMono.monotone h) (by norm_num)
  · exact atanSum_mono (min_le_right _ _)
  · omega
  · exact le_rfl

theorem arctanCode_bounds (c : Nat) : 0 ≤ arctanCode c ∧ arctanCode c ≤ Real.pi / 2 := by
  unfold arctanCode
  split
  · exact ⟨Real.arctan_nonneg.2 (by exact_mod_cast binary32.mag_nonneg c),
      (Real.arctan_lt_pi_div_two _).le⟩
  · exact ⟨by have := Real.pi_pos; linarith, le_rfl⟩

theorem atanCode_nonneg (c : Nat) : 0 ≤ atanCode c :=
  le_trans (by unfold atanCode; rw [if_pos (by norm_num), FloatFormat.mag_zero]; simp [atanMag, atanSum])
    (atanCode_mono (Nat.zero_le c))

theorem atanCode_le (c : Nat) : atanCode c ≤ maxFinite := by
  have h := atanCode_near c
  have := (arctanCode_bounds c).2
  have := Real.pi_lt_d2
  rw [abs_le] at h
  have : ((atanCode c : ℚ) : ℝ) ≤ ((2 : ℚ) : ℝ) := by push_cast; linarith
  exact (Rat.cast_le.1 this).trans (by unfold maxFinite; norm_num)

/-- The witness of the arctangent. -/
def atanWitness (x : F32) : F32 := roundSigned (signbit x) (atanCode (low x))

theorem atanWitness_near (x : F32) :
    isFinite (atanWitness x) = true ∧
      |((ratOf (atanWitness x) : ℚ) : ℝ) - (if signbit x then -arctanCode (low x) else arctanCode (low x))| ≤
        1 / 2 ^ 16 + 1 / 2 ^ 22 := by
  obtain ⟨hf, hn⟩ := roundSigned_near (signbit x) (atanCode (low x)) (atanCode_nonneg _) (atanCode_le _)
  refine ⟨hf, ?_⟩
  have hn' := (Rat.cast_le (K := ℝ)).2 hn
  have hc := atanCode_near (low x)
  have hb := (arctanCode_bounds (low x)).2
  have hp := Real.pi_lt_d2
  have h2 : ((atanCode (low x) : ℚ) : ℝ) ≤ 2 := by rw [abs_le] at hc; linarith
  have h150 : (1 : ℝ) / 2 ^ 150 ≤ 1 / 2 ^ 40 := by norm_num
  unfold atanWitness
  cases hs : signbit x
  · rw [hs] at hn'
    simp only [Bool.false_eq_true, if_false] at hn' ⊢
    push_cast at hn'
    rw [abs_le] at hn' hc ⊢
    constructor <;> linarith
  · rw [hs] at hn'
    simp only [if_true] at hn' ⊢
    push_cast at hn'
    rw [abs_le] at hn' hc ⊢
    constructor <;> linarith

theorem arctan_ratOf (x : F32) (hf : isFinite x = true) :
    Real.arctan (ratOf x) = if signbit x then -arctanCode (low x) else arctanCode (low x) := by
  have hl := (isFinite_iff x).1 hf
  rw [ratOf_finite x hf]
  unfold arctanCode
  rw [if_pos hl]
  cases signbit x
  · simp
  · simp only [if_true]
    push_cast
    exact Real.arctan_neg _

theorem atanWitness_precise : AtanPrecise atanWitness := by
  intro x hf
  obtain ⟨h1, h2⟩ := atanWitness_near x
  rw [← arctan_ratOf x hf] at h2
  refine ⟨h1, h2.trans ?_⟩
  have := le_max_left 1 |Real.arctan (ratOf x)|
  linarith

theorem atanWitness_monotone : AtanMonotone atanWitness := by
  intro x y _ _ h
  refine ⟨isNaN_roundSigned _ _, isNaN_roundSigned _ _, ?_⟩
  rw [key_eq, key_eq] at h
  rw [key_eq, key_eq]
  unfold atanWitness
  simp only [signbit_roundSigned, low_roundSigned]
  have z : atanCode 0 = 0 := by
    unfold atanCode; rw [if_pos (by norm_num), FloatFormat.mag_zero]; simp [atanMag, atanSum]
  cases hx : signbit x <;> cases hy : signbit y <;>
    simp only [hx, hy, Bool.false_eq_true, if_false, if_true] at h ⊢
  · have := binary32.roundMag_mono _ _ (atanCode_nonneg (low x)) (atanCode_mono (show low x ≤ low y by omega))
    omega
  · have h1 : low x = 0 := by omega
    have h2 : low y = 0 := by omega
    rw [h1, h2, z, FloatFormat.roundMag_zero]; simp
  · omega
  · have := binary32.roundMag_mono _ _ (atanCode_nonneg (low y)) (atanCode_mono (show low y ≤ low x by omega))
    omega

/-! ### The atan2 of the witness -/

/-- Rounding the argument moves the arctangent by little. -/
theorem arctan_perturb (a r : ℝ) (ha : 0 ≤ a) (hr : 0 ≤ r) (h : |a - r| ≤ r / 2 ^ 24 + 1 / 2 ^ 150) :
    |Real.arctan a - Real.arctan r| ≤ 1 / 2 ^ 22 := by
  have key : ∀ s t : ℝ, 0 ≤ s → 0 ≤ t → |Real.arctan s - Real.arctan t| ≤ |s - t| := by
    intro s t hs ht
    rcases le_total s t with hst | hst
    · rw [abs_sub_comm, abs_of_nonneg (sub_nonneg.2 (Real.arctan_mono hst)), abs_sub_comm,
        abs_of_nonneg (sub_nonneg.2 hst)]
      exact arctan_lipschitz s t hs hst
    · rw [abs_of_nonneg (sub_nonneg.2 (Real.arctan_mono hst)), abs_of_nonneg (sub_nonneg.2 hst)]
      exact arctan_lipschitz t s ht hst
  have h150 : (1 : ℝ) / 2 ^ 150 ≤ 1 / 2 ^ 40 := by norm_num
  rcases le_total r 1 with h1 | h1
  · exact (key a r ha hr).trans (h.trans (by linarith))
  · have hr0 : 0 < r := by linarith
    have ha2 : r / 2 ≤ a := by rw [abs_le] at h; linarith
    have ha0 : 0 < a := by linarith
    have e1 := Real.arctan_inv_of_pos ha0
    have e2 := Real.arctan_inv_of_pos hr0
    have e3 : Real.arctan a - Real.arctan r = Real.arctan r⁻¹ - Real.arctan a⁻¹ := by linarith
    rw [e3]
    refine (key _ _ (by positivity) (by positivity)).trans ?_
    have e4 : r⁻¹ - a⁻¹ = (a - r) / (r * a) := by field_simp
    rw [e4, abs_div, abs_of_pos (mul_pos hr0 ha0), div_le_iff₀ (mul_pos hr0 ha0)]
    have e5 : r / 2 ^ 24 + 1 / 2 ^ 150 ≤ r / 2 ^ 23 := by linarith
    have e6 : r * (1 / 2) ≤ r * a := mul_le_mul_of_nonneg_left (by linarith) hr0.le
    linarith

/-- The exact arctangent of a quotient of two magnitudes; π/2 where the second is 0. -/
noncomputable def arctanQuot (m n : ℝ) : ℝ := if n = 0 then Real.pi / 2 else Real.arctan (m / n)

/-- The arctangent of a rounded quotient of finite operands that are not both zero. -/
theorem arctan_fdiv (y x : F32) (hy : isFinite y = true) (hx : isFinite x = true)
    (h : low y ≠ 0 ∨ low x ≠ 0) :
    signbit (fdiv y x) = (signbit y != signbit x) ∧
      |arctanCode (low (fdiv y x)) - arctanQuot (binary32.mag (low y)) (binary32.mag (low x))| ≤ 1 / 2 ^ 22 := by
  have hz := binary32.mag_eq_zero (low x)
  have hzy := binary32.mag_eq_zero (low y)
  unfold fdiv
  rw [val_finite y hy, val_finite x hx]
  simp only
  by_cases hx0 : low x = 0
  · have hm : binary32.mag (low x) = 0 := hz.2 hx0
    have hmy : binary32.mag (low y) ≠ 0 := by rw [Ne, hzy]; omega
    rw [if_pos hm, if_neg hmy]
    unfold infinity
    rw [low_signed _ _ (by norm_num), signbit_signed _ _ (by norm_num)]
    refine ⟨rfl, ?_⟩
    unfold arctanCode arctanQuot
    rw [if_neg (by norm_num), hm]
    simp
  · have hm : binary32.mag (low x) ≠ 0 := by rw [Ne, hz]; exact hx0
    rw [if_neg hm, signbit_roundSigned, low_roundSigned]
    refine ⟨rfl, ?_⟩
    have hxp : 0 < binary32.mag (low x) := lt_of_le_of_ne (binary32.mag_nonneg _) (Ne.symm hm)
    have hr : 0 ≤ binary32.mag (low y) / binary32.mag (low x) :=
      div_nonneg (binary32.mag_nonneg _) hxp.le
    have hq : arctanQuot (binary32.mag (low y)) (binary32.mag (low x)) =
        Real.arctan ((binary32.mag (low y) / binary32.mag (low x) : ℚ) : ℝ) := by
      unfold arctanQuot
      rw [if_neg (by exact_mod_cast hm)]; push_cast; rfl
    rw [hq]
    generalize binary32.mag (low y) / binary32.mag (low x) = r at hr ⊢
    rcases le_or_gt r maxFinite with hle | hgt
    · have hn := roundMag_near r hr hle
      unfold arctanCode
      rw [if_pos (roundMag_finite r hr hle)]
      apply arctan_perturb _ _ (by exact_mod_cast binary32.mag_nonneg _) (by exact_mod_cast hr)
      have := (Rat.cast_le (K := ℝ)).2 hn
      push_cast at this
      exact this
    · have hmono := binary32.roundMag_mono maxFinite r (by unfold maxFinite; norm_num) hgt.le
      rw [← mag_maxFinite, FloatFormat.roundMag_mag _ _ (by rw [infCode_eq]; norm_num)] at hmono
      have big : ∀ t : ℝ, ((maxFinite : ℚ) : ℝ) ≤ t →
          Real.pi / 2 - 1 / 2 ^ 23 ≤ Real.arctan t ∧ Real.arctan t ≤ Real.pi / 2 := by
        intro t ht
        have hmx : (2 : ℝ) ^ 23 ≤ t := by
          refine le_trans ?_ ht
          unfold maxFinite; push_cast; norm_num
        have ht0 : 0 < t := lt_of_lt_of_le (by norm_num) hmx
        have h1 := Real.arctan_inv_of_pos ht0
        have h2 := arctan_lipschitz 0 t⁻¹ le_rfl (by positivity)
        rw [Real.arctan_zero, sub_zero, sub_zero, h1] at h2
        have h3 : t⁻¹ ≤ 1 / 2 ^ 23 := by
          rw [inv_eq_one_div]; exact one_div_le_one_div_of_le (by norm_num) hmx
        exact ⟨by linarith, (Real.arctan_lt_pi_div_two t).le⟩
      have b1 := big r (by exact_mod_cast hgt.le)
      have b2 : Real.pi / 2 - 1 / 2 ^ 23 ≤ arctanCode (binary32.roundMag r) ∧
          arctanCode (binary32.roundMag r) ≤ Real.pi / 2 := by
        unfold arctanCode
        split
        · apply big
          rw [← mag_maxFinite]
          exact_mod_cast binary32.mag_strictMono.monotone hmono
        · exact ⟨by linarith [show (0 : ℝ) ≤ 1 / 2 ^ 23 by norm_num], le_rfl⟩
      rw [abs_le]
      constructor <;> linarith [b1.1, b1.2, b2.1, b2.2]

/-- The argument of a point off the origin by the signs of its coordinates. -/
theorem arg_cases (m n : ℝ) (hm : 0 ≤ m) (hn : 0 ≤ n) (h : m ≠ 0 ∨ n ≠ 0) :
    Complex.arg ⟨n, m⟩ = arctanQuot m n ∧ Complex.arg ⟨n, -m⟩ = -arctanQuot m n ∧
      Complex.arg ⟨-n, m⟩ = Real.pi - arctanQuot m n ∧
      ((m ≠ 0 ∨ n = 0) → Complex.arg ⟨-n, -m⟩ = arctanQuot m n - Real.pi) := by
  have first : ∀ a b : ℝ, 0 < b → Complex.arg ⟨b, a⟩ = Real.arctan (a / b) := by
    intro a b hb
    have ht := Complex.tan_arg ⟨b, a⟩
    have hr := Complex.abs_arg_lt_pi_div_two_iff.2 (Or.inl hb : 0 < (⟨b, a⟩ : ℂ).re ∨ (⟨b, a⟩ : ℂ) = 0)
    rw [abs_lt] at hr
    exact (Real.arctan_eq_of_tan_eq ht ⟨by linarith [hr.1], hr.2⟩).symm
  unfold arctanQuot
  rcases hn.eq_or_lt with hn0 | hn0
  · subst hn0
    have hmp : 0 < m := lt_of_le_of_ne hm (by rcases h with h | h; exact h.symm; exact absurd rfl h)
    have e1 : Complex.arg ⟨0, m⟩ = Real.pi / 2 := Complex.arg_eq_pi_div_two_iff.2 ⟨rfl, hmp⟩
    have e2 : Complex.arg ⟨0, -m⟩ = -(Real.pi / 2) :=
      Complex.arg_eq_neg_pi_div_two_iff.2 ⟨rfl, by show -m < 0; linarith⟩
    simp only [if_true, neg_zero, e1, e2]
    refine ⟨trivial, trivial, by ring, fun _ => by ring⟩
  · rw [if_neg hn0.ne']
    refine ⟨first m n hn0, ?_, ?_, ?_⟩
    · rw [first _ _ hn0, neg_div, Real.arctan_neg]
    · rcases hm.eq_or_lt with hm0 | hm0
      · subst hm0
        rw [zero_div, Real.arctan_zero, sub_zero]
        exact Complex.arg_eq_pi_iff.2 ⟨by show -n < 0; linarith, rfl⟩
      · have e := Complex.arg_neg_eq_arg_add_pi_of_im_neg (x := ⟨n, -m⟩) (by show -m < 0; linarith)
        have hneg : (-(⟨n, -m⟩ : ℂ)) = ⟨-n, m⟩ := by
          apply Complex.ext <;> simp
        rw [hneg, first _ _ hn0, neg_div, Real.arctan_neg] at e
        rw [e]; ring
    · intro h'
      have hm0 : 0 < m := lt_of_le_of_ne hm (by rcases h' with h' | h'; exact h'.symm; exact absurd h' hn0.ne')
      have e := Complex.arg_neg_eq_arg_sub_pi_of_im_pos (x := ⟨n, m⟩) hm0
      have hneg : (-(⟨n, m⟩ : ℂ)) = ⟨-n, -m⟩ := by apply Complex.ext <;> simp
      rw [hneg, first _ _ hn0] at e
      exact e

theorem ratOf_pi32 : isFinite pi32 = true ∧ ratOf pi32 = 13176795 / 2 ^ 22 ∧ signbit pi32 = false := by
  refine ⟨by decide, ?_, by decide⟩
  rw [ratOf_finite _ (by decide), show signbit pi32 = false by decide]
  simp only [Bool.false_eq_true, if_false]
  have := mag_code 127 13176795 (by norm_num) (by norm_num)
  rw [show low pi32 = 127 * 2 ^ 23 + 13176795 by decide, this, pow2_eq]
  norm_num

/-- A sum with ±PI32 is near the exact one. -/
theorem fadd_near (a b : F32) (ha : isFinite a = true) (hb : isFinite b = true)
    (h : |ratOf a + ratOf b| ≤ 8) :
    isFinite (fadd a b) = true ∧ |ratOf (fadd a b) - (ratOf a + ratOf b)| ≤ 1 / 2 ^ 20 := by
  rw [fadd_finite a b ha hb]
  split
  · next h0 =>
    have hl : low (signed (signbit a && signbit b) 0) = 0 := low_signed _ _ (by norm_num)
    obtain ⟨h1, h2⟩ := ratOf_eq_zero _ hl
    exact ⟨h1, by rw [h2, h0]; norm_num⟩
  · obtain ⟨h1, h2⟩ := fl32_near (ratOf a + ratOf b) (h.trans (by unfold maxFinite; norm_num))
    refine ⟨h1, h2.trans ?_⟩
    have : (1 : ℚ) / 2 ^ 150 ≤ 1 / 2 ^ 40 := by norm_num
    linarith

theorem atan2Witness_precise : Atan2Precise atanWitness := by
  intro y x hy hx hne hex
  have hly : ratOf y ≠ 0 → low y ≠ 0 := fun h h' => h (ratOf_eq_zero y h').2
  have hlx : ratOf x ≠ 0 → low x ≠ 0 := fun h h' => h (ratOf_eq_zero x h').2
  have hl : low y ≠ 0 ∨ low x ≠ 0 := hne.imp hly hlx
  have hfy := ratOf_finite y hy
  have hfx := ratOf_finite x hx
  obtain ⟨hs, hq⟩ := arctan_fdiv y x hy hx hl
  obtain ⟨hrf, hr⟩ := atanWitness_near (fdiv y x)
  rw [hs] at hr
  have hm0 : (0 : ℝ) ≤ binary32.mag (low y) := by exact_mod_cast binary32.mag_nonneg _
  have hn0 : (0 : ℝ) ≤ binary32.mag (low x) := by exact_mod_cast binary32.mag_nonneg _
  have hmz : ((binary32.mag (low y) : ℚ) : ℝ) = 0 ↔ low y = 0 := by
    rw [← binary32.mag_eq_zero (low y)]; exact_mod_cast Iff.rfl
  have hnz : ((binary32.mag (low x) : ℚ) : ℝ) = 0 ↔ low x = 0 := by
    rw [← binary32.mag_eq_zero (low x)]; exact_mod_cast Iff.rfl
  have hmn : ((binary32.mag (low y) : ℚ) : ℝ) ≠ 0 ∨ ((binary32.mag (low x) : ℚ) : ℝ) ≠ 0 := by
    rw [Ne, Ne, hmz, hnz]; exact hl
  obtain ⟨a1, a2, a3, a4⟩ := arg_cases _ _ hm0 hn0 hmn
  have hbounds : 0 ≤ arctanQuot (binary32.mag (low y)) (binary32.mag (low x)) ∧
      arctanQuot (binary32.mag (low y)) (binary32.mag (low x)) ≤ Real.pi / 2 := by
    unfold arctanQuot
    have := Real.pi_pos
    split
    · exact ⟨by linarith, le_rfl⟩
    · exact ⟨Real.arctan_nonneg.2 (div_nonneg hm0 hn0), (Real.arctan_lt_pi_div_two _).le⟩
  have hfeq : (feq y zero && feq x zero) = false := by
    have hz : ∀ w : F32, isFinite w = true → low w ≠ 0 → feq w zero = false := by
      intro w hw h
      rw [Bool.eq_false_iff, Ne, feq_iff]
      rintro ⟨-, -, hk⟩
      rw [key_eq, key_eq, show low zero = 0 by decide] at hk
      split at hk <;> simp at hk <;> omega
    rcases hl with h | h
    · rw [hz y hy h]; rfl
    · rw [hz x hx h, Bool.and_false]
  have hpi := ratOf_pi32
  have p1 := Real.pi_gt_d6
  have p2 := Real.pi_lt_d6
  unfold atan2With
  rw [hfeq]
  simp only [Bool.false_eq_true, if_false]
  rw [hfy, hfx]
  set w := atanWitness (fdiv y x)
  set θ := arctanQuot (binary32.mag (low y)) (binary32.mag (low x))
  generalize arctanCode (low (fdiv y x)) = t at hq hr
  have near : ∀ (z : F32) (f : ℝ), isFinite z = true → |((ratOf z : ℚ) : ℝ) - f| ≤ 1 / 2 ^ 14 → Near z f := by
    intro z f hz h
    refine ⟨hz, h.trans ?_⟩
    have := le_max_left 1 |f|
    linarith
  rw [abs_le] at hq
  have hw2 : |((ratOf w : ℚ) : ℝ)| ≤ 4 := by
    rw [abs_le] at hr ⊢
    split at hr <;> constructor <;> linarith
  have hsum : ∀ c : F32, isFinite c = true → |ratOf c| ≤ 4 →
      isFinite (fadd w c) = true ∧
        |((ratOf (fadd w c) : ℚ) : ℝ) - ((ratOf w : ℝ) + (ratOf c : ℝ))| ≤ 1 / 2 ^ 20 := by
    intro c hc h4
    have hw2' : |ratOf w| ≤ 4 := by exact_mod_cast hw2
    obtain ⟨f1, f2⟩ := fadd_near w c hrf hc ((abs_add_le _ _).trans (by linarith))
    refine ⟨f1, ?_⟩
    have := (Rat.cast_le (K := ℝ)).2 f2
    push_cast at this
    exact this
  have hpr : ((ratOf pi32 : ℚ) : ℝ) = 13176795 / 2 ^ 22 := by rw [hpi.2.1]; push_cast; rfl
  cases hsx : signbit x <;> cases hsy : signbit y <;>
    simp only [hsx, hsy, Bool.false_eq_true, if_false, if_true, bne_self_eq_false,
      Bool.bne_true, Bool.bne_false, Bool.not_false] at hr hex hfx ⊢
  · rw [a1]
    apply near _ _ hrf
    rw [abs_le] at hr ⊢
    constructor <;> linarith
  · push_cast
    rw [a2]
    apply near _ _ hrf
    rw [abs_le] at hr ⊢
    constructor <;> linarith
  · push_cast
    rw [a3]
    obtain ⟨f1, f2⟩ := hsum pi32 hpi.1 (by rw [hpi.2.1]; norm_num)
    apply near _ _ f1
    rw [hpr] at f2
    rw [abs_le] at hr f2 ⊢
    constructor <;> linarith
  · have hcase : ((binary32.mag (low y) : ℚ) : ℝ) ≠ 0 ∨ ((binary32.mag (low x) : ℚ) : ℝ) = 0 := by
      rw [Ne, hmz, hnz]
      by_contra hcon
      push Not at hcon
      obtain ⟨c1, c2⟩ := hcon
      apply hex
      refine ⟨(ratOf_eq_zero y c1).2, trivial, ?_⟩
      have := binary32.mag_pos (low x) (Nat.pos_of_ne_zero c2)
      linarith
    push_cast
    rw [a4 hcase]
    have hneg : isFinite (fneg pi32) = true ∧ ratOf (fneg pi32) = -(13176795 / 2 ^ 22) := by
      have hf : isFinite (fneg pi32) = true := by decide
      refine ⟨hf, ?_⟩
      have e := ratOf_finite _ hpi.1
      rw [hpi.2.2, hpi.2.1] at e
      simp only [Bool.false_eq_true, if_false] at e
      rw [ratOf_finite _ hf, fneg_signbit, fneg_low, hpi.2.2, ← e]
      simp
    obtain ⟨f1, f2⟩ := hsum (fneg pi32) hneg.1 (by rw [hneg.2]; norm_num)
    show Near (fadd w (fneg pi32)) _
    apply near _ _ f1
    have hpr' : ((ratOf (fneg pi32) : ℚ) : ℝ) = -(13176795 / 2 ^ 22) := by
      rw [hneg.2]; push_cast; rfl
    rw [hpr'] at f2
    rw [abs_le] at hr f2 ⊢
    constructor <;> linarith

/-! ### Cosine and sine on the domain of zeros -/

/-- An atan with QNAN for every NaN. -/
def withNaN (f : F32 → F32) (x : F32) : F32 := if isNaN x then Config.qnan else f x

theorem withNaN_of_number (f : F32 → F32) (x : F32) (h : isNaN x = false) : withNaN f x = f x := by
  simp [withNaN, h]

theorem withNaN_keepsNaN (f : F32 → F32) : AtanKeepsNaN (withNaN f) := by
  simp [AtanKeepsNaN, withNaN, isNaN_qnan]

theorem withNaN_precise (f : F32 → F32) (h : AtanPrecise f) : AtanPrecise (withNaN f) := by
  intro x hx
  rw [withNaN_of_number f x (isNaN_of_isFinite x hx)]
  exact h x hx

theorem withNaN_monotone (f : F32 → F32) (h : AtanMonotone f) : AtanMonotone (withNaN f) := by
  intro x y hx hy hk
  rw [withNaN_of_number f x hx, withNaN_of_number f y hy]
  exact h x y hx hy hk

/-- A quotient of finite operands that are not both zero is no NaN. -/
theorem isNaN_fdiv (y x : F32) (hy : isFinite y = true) (hx : isFinite x = true)
    (h : low y ≠ 0 ∨ low x ≠ 0) : isNaN (fdiv y x) = false := by
  have hz := binary32.mag_eq_zero (low x)
  have hzy := binary32.mag_eq_zero (low y)
  unfold fdiv
  rw [val_finite y hy, val_finite x hx]
  simp only
  split
  · next h0 =>
    rw [if_neg (fun h1 => h.elim (fun h => h (hzy.1 h1)) fun h => h (hz.1 h0))]
    cases (signbit y != signbit x) <;> decide
  · exact isNaN_roundSigned _ _

theorem withNaN_precise2 (f : F32 → F32) (h : Atan2Precise f) : Atan2Precise (withNaN f) := by
  intro y x hy hx hne hex
  have hl : low y ≠ 0 ∨ low x ≠ 0 :=
    hne.imp (fun h h' => h (ratOf_eq_zero y h').2) fun h h' => h (ratOf_eq_zero x h').2
  have e : atan2With (withNaN f) y x = atan2With f y x := by
    simp only [atan2With, withNaN_of_number f _ (isNaN_fdiv y x hy hx hl)]
  rw [e]
  exact h y x hy hx hne hex

theorem low_of_ratOf_zero (x : F32) (hf : isFinite x = true) (h : ratOf x = 0) : low x = 0 := by
  by_contra hl
  exact ratOf_ne_zero x hf hl h

/-- A cosine that is right at the zeros and gives 0 at PIO2_32. -/
def cosWitness (x : F32) : F32 := if low x = 0 then one else zero

theorem zero_cases (x : F32) (hf : isFinite x = true) (h : |ratOf x| ≤ ratOf zero) :
    ratOf x = 0 ∧ (x = 0x00000000#32 ∨ x = 0x80000000#32) := by
  rw [ratOf_zero] at h
  have h0 := abs_nonpos_iff.1 h
  have hl := low_of_ratOf_zero x hf h0
  refine ⟨h0, ?_⟩
  rw [eq_signed x, hl]
  cases signbit x
  · left; rfl
  · right; rfl

theorem cosWitness_precise : CosPrecise zero cosWitness := by
  intro x hf h
  obtain ⟨h0, -⟩ := zero_cases x hf h
  have hc : cosWitness x = one := by unfold cosWitness; rw [if_pos (low_of_ratOf_zero x hf h0)]
  rw [hc, h0]
  refine ⟨isFinite_one, ?_⟩
  rw [ratOf_one]
  simp

theorem cosWitness_sin : SinPrecise zero (fun x => cosWitness (fsub pio2 x)) := by
  intro x hf h
  obtain ⟨h0, hx⟩ := zero_cases x hf h
  have hc : cosWitness (fsub pio2 x) = zero := by
    rcases hx with rfl | rfl <;> decide +kernel
  show Near (cosWitness (fsub pio2 x)) _
  rw [hc, h0]
  refine ⟨isFinite_zero, ?_⟩
  rw [ratOf_zero]
  simp

theorem sineWitness_precise : SinPrecise zero (fun x => withSign zero (sineSign x)) := by
  intro x hf h
  obtain ⟨h0, -⟩ := zero_cases x hf h
  have hl : low (withSign zero (sineSign x)) = 0 := by
    cases sineSign x <;> decide
  obtain ⟨h1, h2⟩ := ratOf_eq_zero _ hl
  refine ⟨h1, ?_⟩
  rw [h2, h0]
  simp

/-- A coefficient vector of one number. -/
def Coeffs.const (n : Nat) (x : F32) (h : isFinite x = true) : Coeffs n :=
  ⟨Vector.replicate n x, fun i => by simp [h]⟩

end Sys2Proof.Machine
end

