-- ==== Sys2Proof/Machine/RefMath.lean ====
section
/-!
DEFINITION. The reference functions of the tone curves and the OPEN curve functions, each a
configuration field with all that the spec asks of it (46_tone_curves.md R403, R408 to R411, R416);
and the PQ curve over any power.
-/
namespace Sys2Proof.Machine

/-- 10^-5, the bound of the round trips (R410, R416(a)). -/
def roundTripBound : ℚ := 1 / 10 ^ 5

/-- A number that a round trip brings back to within the bound, absolutely (log entry 8). -/
def ReturnsTo (y x : F32) : Prop := isFinite y = true ∧ |ratOf y - ratOf x| ≤ roundTripBound

/-! ### PQ over a power function (R408, R409) -/

def pqM1 : F32 := fl32 (1593017578125 / 10000000000000)
def pqM2 : F32 := fl32 (7884375 / 100000)
def pqC1 : F32 := fl32 (8359375 / 10000000)
def pqC2 : F32 := fl32 (188515625 / 10000000)
def pqC3 : F32 := fl32 (186875 / 10000)
def pqIm1 : F32 := fl32 (10000000000000 / 1593017578125)
def pqIm2 : F32 := fl32 (100000 / 7884375)

/-- `PQ_NORM`, by default 100.0. -/
def pqNorm : F32 := Config.pqNormValue.getD 0x42C80000#32

/-- LIN_TO_PQ of one channel (R408). -/
def linToPqWith (pow : F32 → F32 → F32) (x : F32) : F32 :=
  let l := fdiv (fabs x) pqNorm
  let lm := pow l pqM1
  let y := pow (fdiv (fadd pqC1 (fmul pqC2 lm)) (fadd one (fmul pqC3 lm))) pqM2
  copysign y x

/-- PQ_TO_LIN of one channel (R409). -/
def pqToLinWith (pow : F32 → F32 → F32) (x : F32) : F32 :=
  let t := pow (fabs x) pqIm2
  let l := pow (fdiv (maxf zero (fsub t pqC1)) (fsub pqC2 (fmul pqC3 t))) pqIm1
  copysign (fmul l pqNorm) x

/-! ### REFMATH (R403) -/

/-- `RPOW` of `REFMATH = (RPOW, RLOG2, RLOG)` with the bound of R403, and the documented domain of the
PQ curves, on which one returns what the other is given (R416(a)). The spec does not give that domain:
it is as OPEN as the function (log entry 12). -/
structure RefMath where
  rpow : F32 → F32 → F32
  pqDomain : F32 → Bool
  powPrecise : PowPrecise (exactPow rpow)
  pqRoundTrip : ∀ x, pqDomain x = true →
    ReturnsTo (pqToLinWith (exactPow rpow) (linToPqWith (exactPow rpow) x)) x

def refMath : RefMath :=
  @Config.choose RefMath
    ⟨⟨fun x y => powWitness (ratOf x) (ratOf y), fun _ => false,
      exactPow_precise _ powWitness_precise, nofun⟩⟩

/-- `RLOG2` and `RLOG` of `REFMATH` with the bounds of R403. No curve with a formula uses them, so no
step depends on them, and their field need not be computable. -/
structure RefLogs where
  rlog2 : F32 → F32
  rlog : F32 → F32
  log2Precise : LogPrecise (Real.logb 2) rlog2
  logPrecise : LogPrecise Real.log rlog

noncomputable def refLogs : RefLogs :=
  @Config.choose RefLogs
    ⟨⟨_, _, (exists_logPrecise _ _ log2Witness_within).choose_spec,
      (exists_logPrecise _ _ lnWitness_within).choose_spec⟩⟩

/-- `RPOW` (R403). -/
def refPow (x y : F32) : F32 := exactPow refMath.rpow x y

/-- LIN_TO_PQ and PQ_TO_LIN of one channel (R408, R409). -/
def linToPq (x : F32) : F32 := linToPqWith refPow x
def pqToLin (x : F32) : F32 := pqToLinWith refPow x

/-! ### The OPEN curves (R410, R411) -/

/-- A curve with np parameters and its inverse, on a documented domain of parameters and inputs
that the spec does not give (log entry 8). -/
structure CurvePair (np : Nat) where
  fwd : List F32 → F32 → F32
  inv : List F32 → F32 → F32
  domain : List F32 → F32 → Bool
  roundTrip : ∀ p x, p.length = np → domain p x = true → ReturnsTo (inv p (fwd p x)) x

/-- Curves that meet the constraint on every finite number: two identities. -/
def CurvePair.identity (np : Nat) : CurvePair np :=
  ⟨fun _ x => x, fun _ x => x, fun _ x => isFinite x,
    fun _ x _ h => ⟨h, by rw [sub_self, abs_zero]; unfold roundTripBound; norm_num⟩⟩

/-- `CRV_GLOG_FWD` and `CRV_GLOG_INV`. They are supplied, so no evaluation is
`model_fault(OPEN_CURVE)` (log entry 8). -/
def gammaLog : CurvePair 10 := @Config.choose (CurvePair 10) ⟨.identity 10⟩

/-- `CRV_DLOG_FWD` and `CRV_DLOG_INV`, as `gammaLog`. -/
def doubleLog : CurvePair 13 := @Config.choose (CurvePair 13) ⟨.identity 13⟩

end Sys2Proof.Machine
end

