-- ==== Sys2Proof/Machine/Curves.lean ====
section
/-!
DEFINITION. The tone-curve unit: UPD.CRV, APPLY.CRV, VCRV (46_tone_curves.md).
-/
namespace Sys2Proof.Machine

/-! ### Styles (30_encoding.md R119) -/

def styleOf (w : Word) : Option CurveStyle :=
  match w.toNat with
  | 0 => some .darkToDimFwd
  | 1 => some .darkToDimInv
  | 2 => some .rec2100Fwd
  | 3 => some .rec2100Inv
  | 4 => some .linToPq
  | 5 => some .pqToLin
  | 6 => some .linToGammaLog
  | 7 => some .gammaLogToLin
  | 8 => some .linToDoubleLog
  | 9 => some .doubleLogToLin
  | 10 => some .tonescale
  | _ => none

/-- `nparams(STYLE)`. -/
def nparams : CurveStyle → Nat
  | .darkToDimFwd | .darkToDimInv | .linToPq | .pqToLin => 0
  | .rec2100Fwd | .rec2100Inv => 1
  | .linToGammaLog | .gammaLogToLin => 10
  | .linToDoubleLog | .doubleLogToLin => 13
  | .tonescale => 5

/-! ### Configuration (46_tone_curves.md R401, R402) -/

/-- Descriptor parameter k. -/
def curveParam (s : State) (k : Nat) : F64 := descF64 s (8 + 8 * k)

/-- `P[k]` finite and above 0. -/
def positiveFinite (x : F64) : Bool :=
  match ratOfF64 x with
  | some q => 0 < q
  | none => false

/-- The validation column of R402. -/
def curveParamsOk (style : CurveStyle) (p : List F64) : Bool :=
  match style with
  | .rec2100Fwd | .rec2100Inv => positiveFinite (p.getD 0 0)
  | .tonescale => p.all (fun x => (ratOfF64 x).isSome) && positiveFinite (p.getD 1 0)
  | .darkToDimFwd | .darkToDimInv | .linToPq | .pqToLin | .linToGammaLog | .gammaLogToLin
  | .linToDoubleLog | .doubleLogToLin => true

/-- The derived parameters of R402, in order; `fl32` of exact real values. A parameter that is one
descriptor value keeps a -0, a NaN and an infinity (log entries 14 and 20). -/
def curveDerived (style : CurveStyle) (p : List F64) : List F32 :=
  match style with
  | .darkToDimFwd => [fl32 (9811 / 10000 - 1)]
  | .darkToDimInv => [fl32 (10193 / 10000 - 1)]
  | .rec2100Fwd => [fl32 ((ratOfF64 (p.getD 0 0)).getD 1 - 1)]
  | .rec2100Inv => [fl32 (1 / (ratOfF64 (p.getD 0 0)).getD 1 - 1)]
  | .linToPq | .pqToLin => []
  | .linToGammaLog | .gammaLogToLin | .linToDoubleLog | .doubleLogToLin | .tonescale =>
    p.map fl32OfF64

/-- `CRV.p[0..12]`: the derived parameters, and free values where the style defines none
(log entry 6). -/
def curveRegs (derived : List F32) (free : Nat) : Vector F32 13 :=
  Vector.ofFn fun k => derived.getD k.val (Config.unspecF32 free k.val)

/-- Steps 1 to 10 of `UPD.CRV` (R401). -/
def configureCrv (s : State) : Check CrvUnit := do
  let (ib, ob) ← latchedDepths s
  let (styleWord, np) ← readHeader s
  match styleOf styleWord with
  | none => .error ⟨.unsupported, 2⟩
  | some style => do
    require (np.toNat == nparams style) .invalidOpdata 11
    checkDescriptor s (8 + 8 * nparams style)
    let p := (List.range (nparams style)).map (curveParam s)
    require (curveParamsOk style p) .invalidOpdata 14
    return {
      valid := true
      inBd := ib
      outBd := ob
      style := style
      p := curveRegs (curveDerived style p) s.free }

/-- `UPD.CRV` (R401). -/
def execUpdCrv (s : State) : Result :=
  match configureCrv s with
  | .ok u => .next { s with crv := u, free := s.free + 1 }.advance
  | .error e => .next (failCrv e s)

/-! ### Parameters (00_scope.md R9) -/

/-- `DTD_W` and `R2100_W` with the defaults of 00_scope.md R9. -/
def dtdW : Rgb F32 :=
  match Config.dtdWeights with
  | none =>
    ⟨fl32 (2722287168 / 10000000000), fl32 (6740817658 / 10000000000), fl32 (536895174 / 10000000000)⟩
  | some w => w.1

def r2100W : Rgb F32 :=
  match Config.r2100Weights with
  | none => ⟨fl32 (2627 / 10000), fl32 (6780 / 10000), fl32 (593 / 10000)⟩
  | some w => w.1

/-- `Y_FLOOR`, by default MIN_FLOAT. -/
def yFloor : F32 :=
  match Config.yFloorValue with
  | none => minFloat
  | some x => x.1

/-! ### Surround curves (R404 to R407) -/

/-- The floored luminance. -/
def luminance (w : Rgb F32) (x : Rgb F32) : F32 :=
  maxf yFloor (fadd (fadd (fmul w.r x.r) (fmul w.g x.g)) (fmul w.b x.b))

/-- The three channels scaled by a power of the luminance. -/
def surround (w : Rgb F32) (exponent : F32) (x : Rgb F32) : Rgb F32 :=
  let fac := refPow (luminance w x) exponent
  x.map fun c => fmul c fac

/-! ### Tonescale (R412) -/

/-- The tonescale of one channel: m2, s2, g, t1, n_r. -/
def tonescale (m2 s2 g t1 nr x : F32) : F32 :=
  let y := maxf zero x
  let q := fdiv y (fadd y s2)
  let f := fmul m2 (refPow q g)
  let r := fdiv (fmul f f) (fadd f t1)
  fmul (maxf zero r) nr

/-! ### Evaluation and commands -/

/-- The first n parameters, as the OPEN curves take them. -/
def CrvUnit.params (u : CrvUnit) (n : Nat) : List F32 := u.p.toList.take n

/-- The curve on R, G, B (R404 to R412). -/
def curveRgb (u : CrvUnit) (x : Rgb F32) : Rgb F32 :=
  match u.style with
  | .darkToDimFwd | .darkToDimInv => surround dtdW u.p[0] x
  | .rec2100Fwd | .rec2100Inv => surround r2100W u.p[0] x
  | .linToPq => x.map linToPq
  | .pqToLin => x.map pqToLin
  | .linToGammaLog => x.map (gammaLog.fwd (u.params 10))
  | .gammaLogToLin => x.map (gammaLog.inv (u.params 10))
  | .linToDoubleLog => x.map (doubleLog.fwd (u.params 13))
  | .doubleLogToLin => x.map (doubleLog.inv (u.params 13))
  | .tonescale => x.map (tonescale u.p[0] u.p[1] u.p[2] u.p[3] u.p[4])

/-- `F_CRV`: alpha untouched (R400). -/
def curveEval (u : CrvUnit) (x : Quad) : Quad := (curveRgb u x.rgb).withAlpha x.a

def curveFun (u : CrvUnit) (x : Quad) : Lanes ChanOut := (curveEval u x).map .norm

def CrvUnit.info (u : CrvUnit) : UnitInfo := ⟨.crv, u.valid, u.inBd, u.outBd⟩

/-- `APPLY.CRV` (R413). -/
def execApplyCrv (s : State) : Result := finish (applyFrame s.crv.info (curveFun s.crv) s) s

/-- `VCRV vD, vA` (R414). -/
def execVcrv (vd va : VReg) (s : State) : Result :=
  finish (unitVector s.crv.info (curveFun s.crv) vd va s) s

end Sys2Proof.Machine
end

