-- ==== Sys2Proof/Machine/Approx.lean ====
section
/-!
DEFINITION. The approximators: the configuration fields F_log2, F_exp2, F_atan, F_cos and F_sincos
(40_simd_math.md R141), each the reference instance of some coefficient vector or a function in its
place, with all that R162 and R163 ask of it; and the primitives composed of them. A field is any
value of its type (`Config.choose`): a proof knows of it what the type says (log entry 10).
-/
namespace Sys2Proof.Machine

/-! ### log2 -/

/-- `F_log2`: with no replacement the reference instance of coefficients that meet their target. DESIGN
CHOICE: the round trip of AntiLog and Log (43_log.md R275(e), Scenario B) is an acceptance property of an
instance and no part of the field; the bound of R163 does not imply it (log entry 10). -/
structure Log2Field where
  cLog2 : Coeffs 6
  replacement : Option (F32 → F32)
  target : replacement = none → Log2Target cLog2
  precise : Log2Precise (replacement.getD (refLog2 cLog2))

def log2Field : Log2Field :=
  @Config.choose Log2Field
    ⟨⟨.const 6 zero isFinite_zero, some log2Witness, nofun, log2Witness_precise⟩⟩

/-- `F_log2` (R141). -/
def fLog2 (x : F32) : F32 := log2Field.replacement.getD (refLog2 log2Field.cLog2) x

/-! ### exp2 and pow -/

/-- `F_exp2`, as `Log2Field`, in the round trip of 43_log.md R275(e) too; `C_EXP2[0] = 1.0` (R146). -/
structure Exp2Field where
  cExp2 : Coeffs 5
  replacement : Option (F32 → F32)
  first : cExp2.vec[0] = one
  target : replacement = none → Exp2Target cExp2
  precise : Exp2Precise (replacement.getD (refExp2 cExp2))

def exp2Field : Exp2Field :=
  @Config.choose Exp2Field
    ⟨⟨.const 5 one isFinite_one, some fun x => powWitness 2 (ratOf x), by simp [Coeffs.const], nofun,
      exp2Witness_precise⟩⟩

/-- What every instance of exp2 gives at the points that R162(a) and (g) fix: +0 for a NaN and
below −126, +Inf from 128 up, and exactly `2^x` at an integer; `none` elsewhere. -/
def exp2Fixed (x : F32) : Option F32 :=
  if isNaN x then some zero
  else if fle exp2Hi x then some (infinity false)
  else if flt x exp2Lo then some zero
  else if ((ffloor x : Int) : ℚ) = ratOf x then some (pow2F32 (ffloor x))
  else none

/-- `F_exp2` (R141, R162). -/
def fExp2 (x : F32) : F32 :=
  match exp2Fixed x with
  | some y => y
  | none => exp2Field.replacement.getD (refExp2 exp2Field.cExp2) x

/-- `pow(x, y)` (R148): +0 for every base ≤ 0, and for a NaN base by 93_implementation_defined.md U5.
DESIGN CHOICE: there U5 is followed, and not R148's sentence that a NaN base goes through `F_log2` (log
entry 21). -/
def tuPow (x y : F32) : F32 := if isNaN x || fle x zero then zero else fExp2 (fmul y (fLog2 x))

/-! ### atan and atan2 -/

/-- `F_atan`, as `Log2Field`: precise, monotonic, and precise in the atan2 composed of it (R162(d),
R163); `C_ATAN_P[0] = 0.0` and `C_ATAN_Q[0] ≠ 0` (R150); a NaN at the quotient of
an atan2 that is a NaN (R153). -/
structure AtanField where
  cAtanP : Coeffs 6
  cAtanQ : Coeffs 7
  replacement : Option (F32 → F32)
  firstP : cAtanP.vec[0] = zero
  firstQ : feq cAtanQ.vec[0] zero = false
  target : replacement = none → AtanTarget cAtanP cAtanQ
  precise : AtanPrecise (replacement.getD (refAtan cAtanP cAtanQ))
  monotone : AtanMonotone (replacement.getD (refAtan cAtanP cAtanQ))
  precise2 : Atan2Precise (replacement.getD (refAtan cAtanP cAtanQ))
  keepsNaN : AtanKeepsNaN (replacement.getD (refAtan cAtanP cAtanQ))

def atanField : AtanField :=
  @Config.choose AtanField
    ⟨⟨.const 6 zero isFinite_zero, .const 7 one isFinite_one, some (withNaN atanWitness), by simp [Coeffs.const],
      by simp only [Coeffs.const, Vector.getElem_replicate]; decide, nofun,
      withNaN_precise _ atanWitness_precise, withNaN_monotone _ atanWitness_monotone,
      withNaN_precise2 _ atan2Witness_precise, withNaN_keepsNaN _⟩⟩

/-- `F_atan` (R141). -/
def fAtan (x : F32) : F32 :=
  atanField.replacement.getD (refAtan atanField.cAtanP atanField.cAtanQ) x

/-- `atan2(y, x)` (R153); a NaN where an operand is one or both are infinite, by `AtanField.keepsNaN`. -/
def tuAtan2 (y x : F32) : F32 := atan2With fAtan y x

/-! ### cos, sin, sincos -/

/-- `F_cos` and the sine of `F_sincos`, with TRIG_MAX and the coefficients that both reference
instances share. TRIG_MAX is a number at or above 0 (log entry 10); cos is precise, and so are sin
composed of it and the sine with the sign of R160 (R162(e), (f), R163). -/
structure TrigField where
  trigMax : F32
  cCos : Coeffs 6
  cosine : Option (F32 → F32)
  sine : Option (F32 → F32)
  bounded : isFinite trigMax = true ∧ 0 ≤ ratOf trigMax
  target : cosine = none ∨ sine = none → CosTarget cCos
  cosPrecise : CosPrecise trigMax (cosine.getD (refCos cCos))
  sinPrecise : SinPrecise trigMax fun x => cosine.getD (refCos cCos) (fsub pio2 x)
  sinePrecise : SinPrecise trigMax fun x => withSign (sine.getD (refSine cCos) x) (sineSign x)

def trigField : TrigField :=
  @Config.choose TrigField
    ⟨⟨zero, .const 6 zero isFinite_zero, some cosWitness, some fun _ => zero,
      ⟨isFinite_zero, by decide +kernel⟩, by simp,
      cosWitness_precise, cosWitness_sin, sineWitness_precise⟩⟩

/-- `F_cos` (R141). -/
def fCos (x : F32) : F32 := trigField.cosine.getD (refCos trigField.cCos) x

/-- `sin(x) = F_cos(PIO2_32 − x)` (R158). -/
def tuSin (x : F32) : F32 := fCos (fsub pio2 x)

/-- The sine of `F_sincos` (R141); of a finite angle with the sign of R160 (R162(f)). -/
def fSine (x : F32) : F32 :=
  let y := trigField.sine.getD (refSine trigField.cCos) x
  if isFinite x then withSign y (sineSign x) else y

/-- `F_sincos`: its cosine is `F_cos(x)` (R141, R162(e)). -/
def fSincos (x : F32) : F32 × F32 := (fSine x, fCos x)

end Sys2Proof.Machine
end

