-- ==== Sys2Proof/Machine/RealConst.lean ====
section
/-!
DEFINITION. `fl32` of exact real values that involve logarithms (43_log.md R264): rational
intervals that hold the real value, made narrower until both ends round to the same binary32. A
value that is rational is found exactly first, so that a tie or an exact value needs no narrowing;
an irrational value lies on no rounding boundary.
-/
namespace Sys2Proof.Machine

/-- A closed interval of rationals. -/
structure Ival where
  lo : ℚ
  hi : ℚ
deriving DecidableEq, Repr

namespace Ival

/-- One exact rational. -/
def exact (q : ℚ) : Ival := ⟨q, q⟩

def add (a b : Ival) : Ival := ⟨a.lo + b.lo, a.hi + b.hi⟩

def neg (a : Ival) : Ival := ⟨-a.hi, -a.lo⟩

def sub (a b : Ival) : Ival := a.add b.neg

def mul (a b : Ival) : Ival :=
  let p := a.lo * b.lo
  let q := a.lo * b.hi
  let r := a.hi * b.lo
  let t := a.hi * b.hi
  ⟨min (min p q) (min r t), max (max p q) (max r t)⟩

/-- The reciprocal of an interval of positive values. -/
def inv (a : Ival) : Ival := ⟨a.hi⁻¹, a.lo⁻¹⟩

def div (a b : Ival) : Ival := a.mul b.inv

/-- Multiply by an exact rational. -/
def scale (q : ℚ) (a : Ival) : Ival := if 0 ≤ q then ⟨q * a.lo, q * a.hi⟩ else ⟨q * a.hi, q * a.lo⟩

end Ival

/-! ### log2 of a positive rational -/

/-- Bits of log2 of a mantissa in [1, 2), from below: `x` is the mantissa scaled by `2^w`, squared
at each step and truncated; `acc` collects the bits. -/
def logBitsLo (w : Nat) : Nat → Nat → Nat → Nat
  | 0, _, acc => acc
  | n + 1, x, acc =>
    let y := x * x
    if 2 * 4 ^ w ≤ y then logBitsLo w n (y / 2 ^ (w + 1)) (2 * acc + 1)
    else logBitsLo w n (y / 2 ^ w) (2 * acc)

/-- The same from above: rounding up. -/
def logBitsHi (w : Nat) : Nat → Nat → Nat → Nat
  | 0, _, acc => acc + 1
  | n + 1, x, acc =>
    let y := x * x
    if 2 * 4 ^ w ≤ y then logBitsHi w n ((y + 2 ^ (w + 1) - 1) / 2 ^ (w + 1)) (2 * acc + 1)
    else logBitsHi w n ((y + 2 ^ w - 1) / 2 ^ w) (2 * acc)

/-- An interval around `log2 q` for `q > 0`, about `2^-p` wide; exact at a power of two. -/
def log2Ival (p : Nat) (q : ℚ) : Ival :=
  let e := floorLog2 q
  let m := q / pow2 e
  if m = 1 then Ival.exact e
  else
    let w := 2 * p + 32
    let lo := m.num.natAbs * 2 ^ w / m.den
    ⟨e + mkRat (logBitsLo w p lo 0) (2 ^ p), e + mkRat (logBitsHi w p (lo + 1) 0) (2 ^ p)⟩

/-- An interval around `lb = log2(BASE)` for BASE > 1; its lower end is positive, since
`log2(1 + t) ≥ t` for 0 ≤ t ≤ 1. -/
def lbIval (base : ℚ) (prec : Nat) : Ival :=
  let i := log2Ival prec base
  ⟨max i.lo (min 1 (base - 1)), i.hi⟩

/-- `Σ_{k=1}^{n} floor(2^w / (k·2^k))`. -/
def ln2Sum (w : Nat) : Nat → Nat
  | 0 => 0
  | k + 1 => ln2Sum w k + 2 ^ w / ((k + 1) * 2 ^ (k + 1))

/-- An interval around `ln 2`: `w = p + 16` terms of its series, each truncated by less than a unit. -/
def ln2Ival (p : Nat) : Ival :=
  let w := p + 16
  let sum := ln2Sum w w
  ⟨mkRat sum (2 ^ w), mkRat (sum + w + 1 : Nat) (2 ^ w)⟩

/-! ### The ratio of two logarithms, exact where it is rational -/

/-- How often 2 divides `n`, and the odd part; `fuel` at least the bit length of `n`. -/
def splitOdd : Nat → Nat → Nat × Nat
  | 0, n => (0, n)
  | fuel + 1, n => if n % 2 = 0 then let r := splitOdd fuel (n / 2); (r.1 + 1, r.2) else (0, n)

/-- `some k` where `n = b^k`, for b ≥ 2 and `fuel` at least k. -/
def powerOf (b : Nat) : Nat → Nat → Option Nat
  | 0, n => if n = 1 then some 0 else none
  | fuel + 1, n =>
    if n = 1 then some 0
    else if n % b = 0 then (powerOf b fuel (n / b)).map (· + 1)
    else none

/-- A positive dyadic rational as its odd part and its power of two. -/
def dyadicParts (q : ℚ) : Nat × Int :=
  let n := splitOdd (q.num.natAbs.log2 + 1) q.num.natAbs
  (n.2, (n.1 : Int) - (q.den.log2 : Int))

/-- `some k/j` where `u^j = b^k` with j the given value. -/
def ratioAt (u b : ℚ) (j : Nat) : Option ℚ :=
  let pu := dyadicParts u
  let pb := dyadicParts b
  let n := pu.1 ^ j
  match powerOf pb.1 (n.log2 + 1) n with
  | some k => if pu.2 * j = pb.2 * k then some (mkRat k j) else none
  | none => none

/-- `log u / log b` where it is rational, for dyadic `u > 0` and dyadic `b > 1` with an odd part
above 1: that part has at most 53 bits, so the denominator is at most 33. -/
def rationalRatio (u b : ℚ) : Option ℚ :=
  (List.range 33).findSome? fun j => ratioAt u b (j + 1)

/-- An interval around `log u / log b` for dyadic `u > 0`, `b > 1`. -/
def logRatioIval (p : Nat) (u b : ℚ) : Ival :=
  if (dyadicParts b).1 = 1 then (log2Ival p u).div (lbIval b p)
  else
    match rationalRatio u b with
    | some r => Ival.exact r
    | none => (log2Ival p u).div (lbIval b p)

/-! ### Rounding -/

/-- `fl32` of the real value that lies in `f p` for every precision p: the precision doubles until
both ends round alike. Where they do not at the last one, the result is free. -/
def fl32Real (f : Nat → Ival) : Nat → Nat → F32
  | 0, p =>
    let i := f p
    if fl32 i.lo = fl32 i.hi then fl32 i.lo else Config.roundingOpen i.lo i.hi
  | fuel + 1, p =>
    let i := f p
    if fl32 i.lo = fl32 i.hi then fl32 i.lo else fl32Real f fuel (2 * p)

/-- How often the precision may double. -/
def maxDoublings : Nat := 128

/-- The precisions used: 96 bits, doubled until one decides. No constant of a descriptor needs the
last: a rational one is found exactly, and an irrational one is a linear form in two logarithms, which
lies much farther from a rounding boundary than 2^-(2^128) (DEDUCED, log entry 14). -/
def roundReal (f : Nat → Ival) : F32 := fl32Real f maxDoublings 96

end Sys2Proof.Machine
end

