-- ==== Sys2Proof/Machine/Logarithm.lean ====
section
/-!
DEFINITION. The logarithm unit: UPD.LOG, APPLY.LOG, VLOGK (43_log.md).
-/
namespace Sys2Proof.Machine

/-! ### Op data and validation -/

/-- The five values of one channel (30_encoding.md R113). -/
structure LogParams where
  linSlope : F64
  linOffset : F64
  logSlope : F64
  logOffset : F64
  linSideBreak : F64
deriving DecidableEq, Repr

/-- The log descriptor's body. -/
structure LogOpData where
  base : F64
  ch : Rgb LogParams
deriving DecidableEq, Repr

def readLogChannel (s : State) (c : Nat) : LogParams :=
  ⟨descF64 s (16 + 40 * c), descF64 s (16 + 40 * c + 8), descF64 s (16 + 40 * c + 16),
    descF64 s (16 + 40 * c + 24), descF64 s (16 + 40 * c + 32)⟩

def readLogOpData (s : State) : LogOpData :=
  ⟨descF64 s 8, ⟨readLogChannel s 0, readLogChannel s 1, readLogChannel s 2⟩⟩

/-- The flags of 30_encoding.md R114. -/
def logInverse (flags : Word) : Bool := flags.getLsbD 0
def logCamera (flags : Word) : Bool := flags.getLsbD 1

/-! The exact sum and product of two values: an infinity where only that is the value, and `nan` where
none is, of a NaN operand, of an infinity times zero or of infinities that cancel. -/

/-- The exact sum. -/
def FloatVal.add (x y : FloatVal) : FloatVal :=
  match x, y with
  | .nan, _ | _, .nan => .nan
  | .inf n₁, .inf n₂ => if n₁ = n₂ then .inf n₁ else .nan
  | .inf n, .fin _ _ | .fin _ _, .inf n => .inf n
  | .fin n₁ m₁, .fin n₂ m₂ =>
    let sum := (if n₁ then -m₁ else m₁) + (if n₂ then -m₂ else m₂)
    .fin (sum < 0) |sum|

/-- The exact product. -/
def FloatVal.mul (x y : FloatVal) : FloatVal :=
  match x, y with
  | .nan, _ | _, .nan => .nan
  | .inf n₁, .inf n₂ => .inf (n₁ != n₂)
  | .inf n₁, .fin n₂ m | .fin n₁ m, .inf n₂ => if m = 0 then .nan else .inf (n₁ != n₂)
  | .fin n₁ m₁, .fin n₂ m₂ => .fin (n₁ != n₂) (m₁ * m₂)

/-- The exact `LIN_SLOPE·LIN_SIDE_BREAK + LIN_OFFSET`. -/
def LogParams.breakValue (p : LogParams) : FloatVal :=
  ((val64 p.linSlope).mul (val64 p.linSideBreak)).add (val64 p.linOffset)

/-- Check (d) of 43_log.md R263: the value is above 0. A sum without a value is not, as a NaN fails every
comparison, and −∞ is not. At +∞, which is no real number, the check is open (log entry 14). -/
def LogParams.breakOk (p : LogParams) : Bool :=
  match p.breakValue with
  | .nan | .inf true => false
  | .inf false => Config.breakOpen p.linSlope p.linSideBreak p.linOffset
  | .fin neg mag => !neg && decide (0 < mag)

/-- `BASE > 1.0` and finite (43_log.md R263(a)). -/
def baseOk (base : F64) : Bool :=
  match ratOfF64 base with
  | some q => 1 < q
  | none => false

/-- The validation of 43_log.md R263: (a), (b), (c), (d), channels in order within each. -/
def LogOpData.validate (d : LogOpData) (camera : Bool) : Check Unit := do
  require (baseOk d.base) .invalidOpdata 7
  require (d.ch.toList.all fun p => !f64Eq p.logSlope 0) .invalidOpdata 8
  require (d.ch.toList.all fun p => !f64Eq p.linSlope 0) .invalidOpdata 9
  require (!camera || d.ch.toList.all LogParams.breakOk) .invalidOpdata 10

/-! ### Kernel selection and derived constants -/

/-- Identity channel parameters (43_log.md R262). -/
def LogParams.isIdentity (p : LogParams) : Bool :=
  f64Eq p.linSlope 1 && f64Eq p.linOffset 0 && f64Eq p.logSlope 1 && f64Eq p.logOffset 0

/-- Kernel selection (43_log.md R262). -/
def LogOpData.kernel (d : LogOpData) (flags : Word) : LogKernel :=
  if logCamera flags then (if logInverse flags then .camLog2lin else .camLin2log)
  else if d.ch.toList.all LogParams.isIdentity then
    (if logInverse flags then .antilog else .log)
  else (if logInverse flags then .log2lin else .lin2log)

/-- A computed constant, whose real value depends on finite operands only; free where one is not finite
(log entry 14). `which` numbers the constant. -/
def logConst (which : Nat) (base : F64) (p : LogParams) (operands : List F64)
    (value : List ℚ → Nat → Ival) : F32 :=
  match operands.mapM ratOfF64 with
  | some qs => roundReal (value qs)
  | none =>
    Config.logConstOpen which base
      [p.linSlope, p.linOffset, p.logSlope, p.logOffset, p.linSideBreak]

/-- `ln(BASE) = lb · ln 2`. -/
def lnIval (base : ℚ) (prec : Nat) : Ival := (lbIval base prec).mul (ln2Ival prec)

/-- `S = L·log2(m·B + b)/lb + O` (43_log.md R264). -/
def logBreakIval (base m b l o brk : ℚ) (prec : Nat) : Ival :=
  ((logRatioIval prec (m * brk + b) base).scale l).add (Ival.exact o)

/-- `G = L·m/((m·B + b)·ln(BASE))` (43_log.md R264). -/
def linearSlopeIval (base m b l brk : ℚ) (prec : Nat) : Ival :=
  ((lnIval base prec).inv).scale (l * m / (m * brk + b))

/-- `S − G·B` (43_log.md R264). -/
def linearOffsetIval (base m b l o brk : ℚ) (prec : Nat) : Ival :=
  (logBreakIval base m b l o brk prec).sub
    (((lnIval base prec).inv).scale (l * m * brk / (m * brk + b)))

/-- The value of a constant from its finite operands in the order m, b, L, O, B. -/
def onFive (f : ℚ → ℚ → ℚ → ℚ → ℚ → Nat → Ival) : List ℚ → Nat → Ival
  | [m, b, l, o, brk], prec => f m b l o brk prec
  | _, _ => Ival.exact 0

/-- The value of a constant from its finite operands in the order m, b, L, B: those of G, in which O
does not occur. -/
def onFour (f : ℚ → ℚ → ℚ → ℚ → Nat → Ival) : List ℚ → Nat → Ival
  | [m, b, l, brk], prec => f m b l brk prec
  | _, _ => Ival.exact 0

/-- `logBreak`, `linearSlope`, `linearOffset` and `linBreak` of a camera channel (43_log.md R264). -/
def cameraConsts (base : ℚ) (base64 : F64) (p : LogParams) (ch : LogChannel) : LogChannel :=
  let five := [p.linSlope, p.linOffset, p.logSlope, p.logOffset, p.linSideBreak]
  { ch with
    linBreak := fl32OfF64 p.linSideBreak
    logBreak := logConst 2 base64 p five (onFive fun m b l o brk => logBreakIval base m b l o brk)
    linearSlope :=
      logConst 3 base64 p [p.linSlope, p.linOffset, p.logSlope, p.linSideBreak]
        (onFour fun m b l brk => linearSlopeIval base m b l brk)
    linearOffset :=
      logConst 4 base64 p five (onFive fun m b l o brk => linearOffsetIval base m b l o brk) }

/-- The value of a constant from L alone. -/
def onSlope (f : ℚ → Nat → Ival) : List ℚ → Nat → Ival
  | [l], prec => f l prec
  | _, _ => Ival.exact 0

/-- One channel's constants (43_log.md R264). Those that are one descriptor value are its `fl32`, which
keeps the sign of a -0, a NaN and an infinity (log entries 14 and 20). The four camera constants of a channel that is not a
camera's are free values (log entry 6); `tag` tells channels apart. -/
def logChannel (base : ℚ) (base64 : F64) (camera : Bool) (free tag : Nat) (p : LogParams) : LogChannel :=
  let ch : LogChannel :=
    { m := fl32OfF64 p.linSlope
      b := fl32OfF64 p.linOffset
      k := logConst 0 base64 p [p.logSlope] (onSlope fun l prec => ((lbIval base prec).inv).scale l)
      kinv := logConst 1 base64 p [p.logSlope] (onSlope fun l prec => (lbIval base prec).scale l⁻¹)
      logOff := fl32OfF64 p.logOffset
      linBreak := Config.unspecF32 free (4 * tag)
      logBreak := Config.unspecF32 free (4 * tag + 1)
      linearSlope := Config.unspecF32 free (4 * tag + 2)
      linearOffset := Config.unspecF32 free (4 * tag + 3) }
  if camera then cameraConsts base base64 p ch else ch

/-- The unit that a validated descriptor configures (43_log.md R265 steps 8 and 9). -/
def LogOpData.unit (d : LogOpData) (flags : Word) (ib ob : BitDepth) (free : Nat) : LogUnit :=
  let base := (ratOfF64 d.base).getD 2
  let chan := logChannel base d.base (logCamera flags) free
  { valid := true
    inBd := ib
    outBd := ob
    kernel := d.kernel flags
    logScale := roundReal fun prec => (lbIval base prec).inv
    log2Base := roundReal (lbIval base)
    ch := ⟨chan 0 d.ch.r, chan 1 d.ch.g, chan 2 d.ch.b⟩ }

/-- Steps 1 to 9 of `UPD.LOG` (43_log.md R265). -/
def configureLog (s : State) : Check LogUnit := do
  let (ib, ob) ← latchedDepths s
  let (flags, rsv) ← readHeader s
  require (flags.extractLsb' 2 30 == 0#30 && rsv == 0#32) .invalidOpdata 12
  checkDescriptor s 136
  let d := readLogOpData s
  d.validate (logCamera flags)
  return d.unit flags ib ob s.free

/-- `UPD.LOG` (43_log.md R265). -/
def execUpdLog (s : State) : Result :=
  match configureLog s with
  | .ok u => .next { s with log := u, free := s.free + 1 }.advance
  | .error e => .next (failLog e s)

/-! ### Evaluation -/

/-- LIN2LOG of one channel (43_log.md R269). -/
def lin2log (c : LogChannel) (x : F32) : F32 :=
  let t := fadd (fmul x c.m) c.b
  fadd (fmul (fLog2 (maxf minFloat t)) c.k) c.logOff

/-- LOG2LIN of one channel (43_log.md R270). -/
def log2lin (c : LogChannel) (x : F32) : F32 :=
  let t := fmul (fsub x c.logOff) c.kinv
  fdiv (fsub (fExp2 t) c.b) c.m

/-- The kernel of one channel (43_log.md R267 to R272). -/
def logKernel (u : LogUnit) (c : LogChannel) (x : F32) : F32 :=
  match u.kernel with
  | .log => fmul (fLog2 (maxf minFloat x)) u.logScale
  | .antilog => fExp2 (fmul x u.log2Base)
  | .lin2log => lin2log c x
  | .log2lin => log2lin c x
  | .camLin2log =>
    if flt x c.linBreak then fadd (fmul c.linearSlope x) c.linearOffset else lin2log c x
  | .camLog2lin =>
    if flt x c.logBreak then fdiv (fsub x c.linearOffset) c.linearSlope else log2lin c x

/-- `F_LOG`: the kernel on R, G, B; alpha untouched (43_log.md R260, R273). -/
def logEval (u : LogUnit) (x : Quad) : Quad :=
  (Rgb.map2 (logKernel u) u.ch x.rgb).withAlpha x.a

def logFun (u : LogUnit) (x : Quad) : Lanes ChanOut := (logEval u x).map .norm

def LogUnit.info (u : LogUnit) : UnitInfo := ⟨.log, u.valid, u.inBd, u.outBd⟩

/-- `APPLY.LOG` (43_log.md R273). -/
def execApplyLog (s : State) : Result := finish (applyFrame s.log.info (logFun s.log) s) s

/-- `VLOGK vD, vA` (43_log.md R274). -/
def execVlogk (vd va : VReg) (s : State) : Result :=
  finish (unitVector s.log.info (logFun s.log) vd va s) s

end Sys2Proof.Machine
end

