-- ==== Sys2Proof/Machine/LutForward.lean ====
section
/-!
DEFINITION. Forward evaluation of a 1D LUT: interpolation, normal and half domain, hue adjust
(44_lut1d_forward.md R304 to R312).
-/
namespace Sys2Proof.Machine

/-- A table that the forward kernels evaluate: length, domain and the entries per channel. -/
structure Table where
  n : Nat
  half : Bool
  v : Rgb (List F32)
deriving DecidableEq, Repr

/-- Entry i of a channel. -/
def entry (v : List F32) (i : Nat) : F32 := v.getD i 0

/-- `lerp32(a, b, t)` (R304). -/
def lerp32 (a b t : F32) : F32 :=
  if feq t zero then a else fadd (fmul (fsub one t) a) (fmul t b)

/-- The forward kernel of the normal domain (R305) for a table of `n` entries. -/
def fwdNormal (n : Nat) (v : List F32) (x : F32) : F32 :=
  let top := fl32Int (n - 1 : Nat)
  let idx := clampf (fmul x top) zero top
  let i0 := (ffloor idx).toNat
  let f := fsub idx (fl32Int i0)
  let i1 := min (i0 + 1) (n - 1)
  lerp32 (entry v i0) (entry v i1) f

/-! ### Half domain (R306, R307) -/

def nextUp16 (h : Nat) : Nat := if h ≤ 0x7BFE then h + 1 else h - 1

def nextDown16 (h : Nat) : Nat := if 0x8000 ≤ h then h + 1 else h - 1

/-- `f16_to_f32` of a code held as a number. -/
def half32 (h : Nat) : F32 := f16ToF32 (BitVec.ofNat 16 h)

/-- Interpolation between two adjacent half codes (R307). -/
def lerpHalf (v : List F32) (xc : F32) (lo hi : Nat) : F32 :=
  let lv := half32 lo
  let uv := half32 hi
  lerp32 (entry v lo) (entry v hi) (fdiv (fsub xc lv) (fsub uv lv))

/-- The forward kernel of the half domain (R307). -/
def fwdHalf (v : List F32) (x : F32) : F32 :=
  let xc := clampf (if isNaN x then zero else x) (fneg halfMax) halfMax
  let h := (f32ToF16 xc).toNat
  let hv := half32 h
  if feq hv xc then entry v h
  else if flt hv xc then lerpHalf v xc h (nextUp16 h)
  else lerpHalf v xc (nextDown16 h) h

/-- One channel of a table at a value: `g` of R314. -/
def Table.eval (t : Table) (v : List F32) (x : F32) : F32 :=
  if t.half then fwdHalf v x else fwdNormal t.n v x

/-! ### Hue adjust (R309, R310) -/

/-- The positions of the maximum, middle and minimum channel. -/
structure HueOrder where
  imax : Chan
  imid : Chan
  imin : Chan
deriving DecidableEq, Repr

/-- `hueOrder(x0, x1, x2)` (R309): the key 4·[x0 > x1] + 2·[x1 > x2] + [x0 > x2]. -/
def hueOrder (x : Rgb F32) : HueOrder :=
  if isNaN x.r || isNaN x.g || isNaN x.b then ⟨.b, .g, .r⟩
  else
    match flt x.g x.r, flt x.b x.g, flt x.b x.r with
    | false, false, false => ⟨.b, .g, .r⟩
    | false, false, true => ⟨.b, .g, .r⟩
    | false, true, false => ⟨.g, .b, .r⟩
    | false, true, true => ⟨.g, .r, .b⟩
    | true, false, false => ⟨.b, .r, .g⟩
    | true, false, true => ⟨.r, .b, .g⟩
    | true, true, false => ⟨.b, .g, .r⟩
    | true, true, true => ⟨.r, .g, .b⟩

/-- The hue factor of an input pixel (R310). -/
def hueFactor (x : Rgb F32) : F32 :=
  let o := hueOrder x
  let chroma := fsub (x.get o.imax) (x.get o.imin)
  if feq chroma zero then zero else fdiv (fsub (x.get o.imid) (x.get o.imin)) chroma

/-- Replace the middle channel of a result by the hue fixup of the input (R310): difference,
product, sum. -/
def hueFix (x y : Rgb F32) : Rgb F32 :=
  let o := hueOrder x
  let lo := y.get o.imin
  y.set o.imid (fadd (fmul (hueFactor x) (fsub (y.get o.imax) lo)) lo)

/-- The fixup where the unit's hue mode asks for it. -/
def hueAdjust (hue : HueMode) (x y : Rgb F32) : Rgb F32 :=
  match hue with
  | .dw3 => hueFix x y
  | .none => y

/-- The forward function of a pixel (R310, R314): RGB through the table, alpha untouched. -/
def tableEval (t : Table) (hue : HueMode) (x : Quad) : Quad :=
  (hueAdjust hue x.rgb (Rgb.map2 t.eval t.v x.rgb)).withAlpha x.a

end Sys2Proof.Machine
end

