-- ==== Sys2Proof/Machine/LutInverse.lean ====
section
/-!
DEFINITION. Inverse evaluation of a 1D LUT: the monotonised copies and effective domains that
UPD.LUT builds, the exact search, and the fast table (45_lut1d_inverse.md R350 to R365).
-/
namespace Sys2Proof.Machine

/-! ### Monotonised copies and effective domains -/

/-- `+1.0` or `−1.0` (R352). -/
def flipOf (increasing : Bool) : F32 := if increasing then one else fneg one

/-- The running maximum from a first entry on (R352). -/
def runningMax (prev : F32) : List F32 → List F32
  | [] => []
  | w :: ws => let u := maxf prev w; u :: runningMax u ws

/-- The non-decreasing copy of flipped entries (R352). -/
def monotoneCopy (flip : F32) (w : List F32) : List F32 :=
  match w.map (fmul flip) with
  | [] => []
  | u :: us => u :: runningMax u us

/-- The first index i ≥ the given one with `u[i] != u[i+1]` (R353). -/
def firstChange : Nat → List F32 → Option Nat
  | i, x :: y :: t => if feq x y then firstChange (i + 1) (y :: t) else some i
  | _, [_] | _, [] => none

/-- The last index j with `u[j−1] != u[j]` (R353). -/
def lastChange : Nat → List F32 → Option Nat
  | i, x :: y :: t =>
    match lastChange (i + 1) (y :: t) with
    | some j => some j
    | none => if feq x y then none else some (i + 1)
  | _, [_] | _, [] => none

/-- The effective domain of a copy; `none` where it is constant (R353). -/
def effectiveDomain (u : List F32) : Option (Nat × Nat) :=
  match firstChange 0 u, lastChange 0 u with
  | some s, some e => some (s, e)
  | _, _ => none

/-- The error of an inverse LUT without usable data (60_exceptions.md R462 sub-reason 6). -/
def noInverse : Error := ⟨.invalidOpdata, 6⟩

/-- One channel in the normal domain (R351 to R354, R357). -/
def buildNormal (w : List F32) : Check NormalInverse := do
  require (w.all fun x => !isNaN x) .invalidOpdata 6
  let increasing := fle (entry w 0) (entry w (w.length - 1))
  let flip := flipOf increasing
  let u := monotoneCopy flip w
  match effectiveDomain u with
  | none => .error noInverse
  | some (s, e) => return ⟨increasing, flip, s, e, entry w 0, u⟩

/-- The positive half-domain codes 0x0000 to 0x7BFF of a table, and the negative ones 0x8000 to
0xFBFF (R355). -/
def positiveHalf (w : List F32) : List F32 := w.take 0x7C00
def negativeHalf (w : List F32) : List F32 := (w.drop 0x8000).take 0x7C00

/-- One channel in the half domain (R351, R355 to R357). A half whose copy is constant is empty,
with domain (0, 0). -/
def buildHalf (w : List F32) : Check HalfInverse := do
  let wp := positiveHalf w
  let wq := negativeHalf w
  require ((wp ++ wq).all fun x => !isNaN x) .invalidOpdata 6
  let increasing := fle (entry w 0) (entry w 0x7BFF)
  let flip := flipOf increasing
  let uP := monotoneCopy flip wp
  let uQ := monotoneCopy (fneg flip) wq
  match effectiveDomain uP, effectiveDomain uQ with
  | none, none => .error noInverse
  | dp, dq =>
    let (sp, ep) := dp.getD (0, 0)
    let (sq, eq) := dq.getD (0, 0)
    return ⟨increasing, flip, sp, ep, 0x8000 + sq, 0x8000 + eq, entry w 0, uP, uQ⟩

/-- A check on each channel in order 0 to 2. -/
def Rgb.check {α β : Type} (f : α → Check β) (x : Rgb α) : Check (Rgb β) := do
  let r ← f x.r
  let g ← f x.g
  let b ← f x.b
  return ⟨r, g, b⟩

/-- The inverse data of a table (R350). -/
def buildInverse (half : Bool) (v : Rgb (List F32)) : Check InverseData :=
  if half then (Rgb.check buildHalf v).map .half else (Rgb.check buildNormal v).map .normal

/-! ### Exact inverse -/

/-- A search result: two neighbouring indices and the fraction between them (R358). -/
structure Found where
  lo : Nat
  hi : Nat
  delta : F32
deriving DecidableEq, Repr

/-- The first of the entries from index k on that is ≥ cv; the end index where none is. -/
def lowerBound (cv : F32) (stop : Nat) : Nat → List F32 → Nat
  | _, [] => stop
  | k, x :: t => if fle cv x || stop ≤ k then k else lowerBound cv stop (k + 1) t

/-- `search(u, start, end, t)` (R358). -/
def search (u : List F32) (start stop : Nat) (t : F32) : Found :=
  let cv := clampf t (entry u start) (entry u stop)
  let k := lowerBound cv stop start (u.drop start)
  if start < k then
    let lo := entry u (k - 1)
    ⟨k - 1, k, fdiv (fsub cv lo) (fsub (entry u k) lo)⟩
  else ⟨start, start, zero⟩

/-- The normal-domain channel inverse, a scaled value (R359): `range` is that of the output depth. -/
def invNormal (n range : Nat) (c : NormalInverse) (x : F32) : F32 :=
  let f := search c.u c.startDomain c.endDomain (fmul c.flip x)
  let fidx := fadd (fl32Int f.lo) f.delta
  fmul fidx (fl32 ((range : ℚ) / (n - 1 : Nat)))

/-- The half-domain channel inverse, a normalised value (R361). -/
def invHalf (c : HalfInverse) (x : F32) : F32 :=
  let positive := fle (fmul c.flip c.bisectPoint) (fmul c.flip x)
  let flip := if positive then c.flip else fneg c.flip
  let base := if positive then 0 else 0x8000
  let f :=
    if positive then search c.uP c.startDomain c.endDomain (fmul flip x)
    else search c.uQ (c.negStartDomain - 0x8000) (c.negEndDomain - 0x8000) (fmul flip x)
  let hl := half32 (base + f.lo)
  let hh := half32 (base + f.hi)
  fadd hl (fmul f.delta (fsub hh hl))

/-- The channel inverses of a pixel before the hue fixup (R360). -/
def inverseRgb (inv : InverseData) (n range : Nat) (x : Rgb F32) : Rgb F32 :=
  match inv with
  | .normal c => Rgb.map2 (invNormal n range) c x
  | .half c => Rgb.map2 invHalf c x

/-- Whether the channel inverses are scaled values (R359) or normalised ones (R361). -/
def InverseData.out (inv : InverseData) (y : F32) : ChanOut :=
  match inv with
  | .normal _ => .scaled y
  | .half _ => .norm y

/-- `invExact(x)` (R360). -/
def invExact (inv : InverseData) (n range : Nat) (hue : HueMode) (x : Quad) : Lanes ChanOut :=
  let r := hueAdjust hue x.rgb (inverseRgb inv n range x.rgb)
  (r.map inv.out).withAlpha (.norm x.a)

/-! ### Fast inverse -/

/-- An entry outside [0, 1] (R362). -/
def outside01 (x : F32) : Bool := flt x zero || flt one x

/-- Whether a channel's end values make the LUT extended (R362). -/
def normalExtended (w : List F32) (c : NormalInverse) : Bool :=
  outside01 (entry w c.startDomain) || outside01 (entry w c.endDomain)

def halfExtended (w : List F32) (c : HalfInverse) : Bool :=
  outside01 (entry w c.startDomain) || outside01 (entry w c.endDomain) ||
    outside01 (entry w c.negStartDomain) || outside01 (entry w c.negEndDomain)

/-- The extended-range test over the three channels (R362). -/
def extended (v : Rgb (List F32)) (inv : InverseData) : Bool :=
  match inv with
  | .normal c => (Rgb.map2 normalExtended v c).toList.any id
  | .half c => (Rgb.map2 halfExtended v c).toList.any id

/-- The sample points of the fast table: 65536 half codes, or 4096 even steps (R363, R364). -/
def fastSample (half : Bool) (i : Nat) : F32 :=
  if half then half32 i else fl32 ((i : ℚ) / 4095)

/-- A channel of the fast table: the exact inverse for an f32 output at every sample point. -/
def fastChannel (half : Bool) (fN : Nat) (g : F32 → F32) : List F32 :=
  (List.range fN).map fun i => g (fastSample half i)

/-- The fast table (R363, R364); hue adjust is not applied. -/
def buildFast (n : Nat) (v : Rgb (List F32)) (inv : InverseData) : FastTable :=
  let half := extended v inv
  let fN := if half then 65536 else 4096
  { fN := fN
    fhalf := half
    fv :=
      match inv with
      | .normal c => c.map fun ch => fastChannel half fN (invNormal n 1 ch)
      | .half c => c.map fun ch => fastChannel half fN (invHalf ch) }

end Sys2Proof.Machine
end

