-- ==== Sys2Proof/Machine/Lut.lean ====
section
/-!
DEFINITION. The 1D-LUT unit: UPD.LUT, APPLY.LUT, VLUT (44_lut1d_forward.md R300 to R303, R314,
R315; 45_lut1d_inverse.md R365).
-/
namespace Sys2Proof.Machine

/-! ### The descriptor's flags (30_encoding.md R116) -/

def lutInverse (flags : Word) : Bool := flags.getLsbD 0
def lutHalfDomain (flags : Word) : Bool := flags.getLsbD 1
def lutRawHalfs (flags : Word) : Bool := flags.getLsbD 2
def lutHue (flags : Word) : Nat := (flags.extractLsb' 3 2).toNat
def lutQuality (flags : Word) : Nat := (flags.extractLsb' 5 2).toNat
def lutFileOutBd (flags : Word) : Nat := (flags.extractLsb' 7 4).toNat

/-- Steps 4 to 6 of R303: reserved bits, reserved encodings, length. -/
def checkLutHeader (flags : Word) (n : Nat) : Check Unit := do
  require (flags.extractLsb' 11 21 == 0#21) .invalidOpdata 12
  require (lutHue flags < 2 && lutQuality flags != 3 && lutFileOutBd flags ≤ 5) .invalidOpdata 13
  require (n != 0) .invalidOpdata 1
  require (n != 1) .invalidOpdata 2
  require (n ≤ 65536) .invalidOpdata 3
  require (!lutHalfDomain flags || n == 65536) .invalidOpdata 4

/-! ### The table (R302, R303 step 8) -/

/-- A raw-half value: an integer in 0..65535; −0.0 counts as 0 (R302). -/
def rawHalfCode (w : F32) : Option Nat :=
  if isFinite w && (ratOf w).den == 1 && 0 ≤ (ratOf w).num && (ratOf w).num ≤ 65535 then
    some (ratOf w).num.toNat
  else none

/-- One table entry (R302). -/
def tableEntry (raw : Bool) (w : F32) : Check F32 :=
  if raw then
    match rawHalfCode w with
    | some h => .ok (half32 h)
    | none => .error ⟨.invalidOpdata, 5⟩
  else .ok w

/-- Entry i of the three channels, in address order. -/
def readLutEntry (s : State) (raw : Bool) (i : Nat) : Check (Rgb F32) := do
  let r ← tableEntry raw (descWord s (8 + 4 * (3 * i)))
  let g ← tableEntry raw (descWord s (8 + 4 * (3 * i + 1)))
  let b ← tableEntry raw (descWord s (8 + 4 * (3 * i + 2)))
  return ⟨r, g, b⟩

/-- `count` entries from index i on. -/
def readLutEntries (s : State) (raw : Bool) : Nat → Nat → Check (List (Rgb F32))
  | 0, _ => .ok []
  | count + 1, i => do
    let e ← readLutEntry s raw i
    let rest ← readLutEntries s raw count (i + 1)
    return e :: rest

/-- The three channels' tables. -/
def readTable (s : State) (raw : Bool) (n : Nat) : Check (Rgb (List F32)) := do
  let es ← readLutEntries s raw n 0
  return ⟨es.map Rgb.r, es.map Rgb.g, es.map Rgb.b⟩

/-! ### Configuration -/

/-- `LUT.mode` with its derived data (R303 steps 9 and 10). -/
def lutMode (flags : Word) (n : Nat) (v : Rgb (List F32)) : Check LutMode :=
  if !lutInverse flags then .ok .fwd
  else do
    let inv ← buildInverse (lutHalfDomain flags) v
    if lutQuality flags = 0 then return .invFast inv (buildFast n v inv)
    else return .invExact inv

/-- Steps 1 to 11 of `UPD.LUT` (R303). -/
def configureLut (s : State) : Check LutUnit := do
  let (ib, ob) ← latchedDepths s
  let (flags, nw) ← readHeader s
  let n := nw.toNat
  checkLutHeader flags n
  checkDescriptor s (8 + 12 * n)
  let v ← readTable s (lutRawHalfs flags) n
  let mode ← lutMode flags n v
  return {
    valid := true
    inBd := ib
    outBd := ob
    mode := mode
    n := n
    half := lutHalfDomain flags
    hue := if lutHue flags = 1 then .dw3 else .none
    v := v }

/-- `UPD.LUT` (R303). -/
def execUpdLut (s : State) : Result :=
  match configureLut s with
  | .ok u => .next { s with lut := u }.advance
  | .error e => .next (failLut e s)

/-! ### Evaluation -/

/-- The forward table of the unit. -/
def LutUnit.table (u : LutUnit) : Table := ⟨u.n, u.half, u.v⟩

/-- The fast table in place of the unit's own (45_lut1d_inverse.md R365). -/
def FastTable.table (t : FastTable) : Table := ⟨t.fN, t.fhalf, t.fv⟩

/-- `F_LUT` (R314) for an output depth: `LUT.out_bd` for APPLY.LUT, f32 for VLUT (R315). -/
def lutFun (u : LutUnit) (od : BitDepth) (x : Quad) : Lanes ChanOut :=
  match u.mode with
  | .fwd => (tableEval u.table u.hue x).map .norm
  | .invExact inv => invExact inv u.n od.range u.hue x
  | .invFast _ fast => (tableEval fast.table u.hue x).map .norm

def LutUnit.info (u : LutUnit) : UnitInfo := ⟨.lut, u.valid, u.inBd, u.outBd⟩

/-- `APPLY.LUT` (R314). -/
def execApplyLut (s : State) : Result :=
  finish (applyFrame s.lut.info (lutFun s.lut s.lut.outBd) s) s

/-- `VLUT vD, vA` (R315). -/
def execVlut (vd va : VReg) (s : State) : Result :=
  finish (unitVector s.lut.info (lutFun s.lut .f32) vd va s) s

end Sys2Proof.Machine
end

