-- ==== Sys2Proof/Machine/Matrix.lean ====
section
/-!
DEFINITION. The matrix unit: UPD.MAT, APPLY.MAT, VMAT (42_matrix.md).
-/
namespace Sys2Proof.Machine

/-- The descriptor's binary64 matrix and offsets (30_encoding.md R111): `m` by output channel. -/
structure MatOpData where
  m : Lanes (Lanes F64)
  off : Lanes F64
deriving DecidableEq, Repr

def readMatRow (s : State) (r : Nat) : Lanes F64 :=
  ⟨descF64 s (8 + 8 * (4 * r)), descF64 s (8 + 8 * (4 * r + 1)), descF64 s (8 + 8 * (4 * r + 2)),
    descF64 s (8 + 8 * (4 * r + 3))⟩

def readMatOpData (s : State) : MatOpData where
  m := ⟨readMatRow s 0, readMatRow s 1, readMatRow s 2, readMatRow s 3⟩
  off := ⟨descF64 s 136, descF64 s 144, descF64 s 152, descF64 s 160⟩

/-- `is_diagonal` on the binary64 values (42_matrix.md R233). -/
def MatOpData.isDiagonal (d : MatOpData) : Bool :=
  [d.m.r.g, d.m.r.b, d.m.r.a, d.m.g.r, d.m.g.b, d.m.g.a, d.m.b.r, d.m.b.g, d.m.b.a,
    d.m.a.r, d.m.a.g, d.m.a.b].all fun x => f64Eq x 0

/-- `has_offsets` on the binary64 values (42_matrix.md R233): a NaN counts as non-zero. -/
def MatOpData.hasOffsets (d : MatOpData) : Bool := d.off.toList.any fun x => !f64Eq x 0

/-- Kind selection (42_matrix.md R233). -/
def MatOpData.kind (d : MatOpData) : MatKind :=
  if d.isDiagonal then (if d.hasOffsets then .diagOff else .diag)
  else (if d.hasOffsets then .fullOff else .full)

/-- The unit that a descriptor configures (42_matrix.md R232 steps 8 to 10). -/
def MatOpData.unit (d : MatOpData) (ib ob : BitDepth) : MatUnit where
  valid := true
  inBd := ib
  outBd := ob
  kind := d.kind
  c := d.m.map fun row => row.map fl32OfF64
  o := d.off.map fl32OfF64

/-- Steps 1 to 10 of `UPD.MAT` (42_matrix.md R232). -/
def configureMat (s : State) : Check MatUnit := do
  let (ib, ob) ← latchedDepths s
  let (flags, rsv) ← readHeader s
  require (flags.extractLsb' 1 31 == 0#31 && rsv == 0#32) .invalidOpdata 12
  require (flags.extractLsb' 0 1 == 0#1) .finalizeNotCalled 0
  checkDescriptor s 168
  return (readMatOpData s).unit ib ob

/-- `UPD.MAT` (42_matrix.md R232, R236). -/
def execUpdMat (s : State) : Result :=
  match configureMat s with
  | .ok u => .next { s with mat := u }.advance
  | .error e => .next (failMat e s)

/-- One row's products in column order R, G, B, A (42_matrix.md R235). -/
def matRow (c : Lanes F32) (x : Quad) : F32 :=
  fadd (fadd (fadd (fmul c.r x.r) (fmul c.g x.g)) (fmul c.b x.b)) (fmul c.a x.a)

/-- The diagonal products. -/
def matDiag (c : Lanes (Lanes F32)) (x : Quad) : Quad :=
  ⟨fmul c.r.r x.r, fmul c.g.g x.g, fmul c.b.b x.b, fmul c.a.a x.a⟩

/-- `F_MAT` (42_matrix.md R234). -/
def matEval (u : MatUnit) (x : Quad) : Quad :=
  match u.kind with
  | .diag => matDiag u.c x
  | .diagOff => Lanes.map2 fadd (matDiag u.c x) u.o
  | .full => u.c.map fun row => matRow row x
  | .fullOff => Lanes.map2 fadd (u.c.map fun row => matRow row x) u.o

/-- `F_MAT` as the frame takes it: every channel is normalised. -/
def matFun (u : MatUnit) (x : Quad) : Lanes ChanOut := (matEval u x).map .norm

def MatUnit.info (u : MatUnit) : UnitInfo := ⟨.mat, u.valid, u.inBd, u.outBd⟩

/-- `APPLY.MAT` (42_matrix.md R237). -/
def execApplyMat (s : State) : Result := finish (applyFrame s.mat.info (matFun s.mat) s) s

/-- `VMAT vD, vA` (42_matrix.md R238). -/
def execVmat (vd va : VReg) (s : State) : Result :=
  finish (unitVector s.mat.info (matFun s.mat) vd va s) s

end Sys2Proof.Machine
end

