-- ==== Sys2Proof/Machine/Transcendental.lean ====
section
/-!
DEFINITION. The commands of the transcendental unit (40_simd_math.md): lane-wise, sources read
before destinations are written, no error, no memory, no unit state (R140).
-/
namespace Sys2Proof.Machine

/-- A one-source lane-wise command (R140). -/
def laneUnary (f : F32 → F32) (vd va : VReg) (s : State) : Result :=
  .next (s.setVreg vd ((s.vreg va).map f)).advance

/-- A two-source lane-wise command (R140). -/
def laneBinary (f : F32 → F32 → F32) (vd va vb : VReg) (s : State) : Result :=
  .next (s.setVreg vd (Lanes.map2 f (s.vreg va) (s.vreg vb))).advance

/-- A command with a pair result: the first destination is written, then the second, so the
second stays where they are one register (R160, 70_reset_and_hazards.md R507). -/
def lanePair (f : F32 → F32 × F32) (vd vb va : VReg) (s : State) : Result :=
  let q := (s.vreg va).map f
  .next ((s.setVreg vd (q.map Prod.fst)).setVreg vb (q.map Prod.snd)).advance

/-- `VLOG2 vD, vA` (R143). -/
def execVlog2 (vd va : VReg) (s : State) : Result := laneUnary fLog2 vd va s

/-- `VEXP2 vD, vA` (R146). -/
def execVexp2 (vd va : VReg) (s : State) : Result := laneUnary fExp2 vd va s

/-- `VPOW vD, vA, vB` (R149): base vA, exponent vB. -/
def execVpow (vd va vb : VReg) (s : State) : Result := laneBinary tuPow vd va vb s

/-- `VSIN vD, vA` (R159). -/
def execVsin (vd va : VReg) (s : State) : Result := laneUnary tuSin vd va s

/-- `VCOS vD, vA` (R156). -/
def execVcos (vd va : VReg) (s : State) : Result := laneUnary fCos vd va s

/-- `VSINCOS vD, vB, vA` (R160): sine to vD, then cosine to vB. -/
def execVsincos (vd va vb : VReg) (s : State) : Result := lanePair fSincos vd vb va s

/-- `VATAN vD, vA` (R151). -/
def execVatan (vd va : VReg) (s : State) : Result := laneUnary fAtan vd va s

/-- `VATAN2 vD, vA, vB` (R154): y in vA, x in vB. -/
def execVatan2 (vd va vb : VReg) (s : State) : Result := laneBinary tuAtan2 vd va vb s

end Sys2Proof.Machine
end

