-- ==== Sys2Proof/Machine/Dispatch.lean ====
section
/-! DEFINITION. The meaning of each command, one arm per constructor of Instr. -/
namespace Sys2Proof.Machine

def exec (i : Instr) (s : State) : Host.Outcome State Fault Refusal :=
  match i with
  | .nop => Sys2Proof.Machine.execNop s
  | .halt => Sys2Proof.Machine.execHalt s
  | .wrcfg va cfg => Sys2Proof.Machine.execWrcfg va cfg s
  | .vld vd imm => Sys2Proof.Machine.execVld vd imm s
  | .vst va imm => Sys2Proof.Machine.execVst va imm s
  | .vlog2 vd va => Sys2Proof.Machine.execVlog2 vd va s
  | .vexp2 vd va => Sys2Proof.Machine.execVexp2 vd va s
  | .vpow vd va vb => Sys2Proof.Machine.execVpow vd va vb s
  | .vsin vd va => Sys2Proof.Machine.execVsin vd va s
  | .vcos vd va => Sys2Proof.Machine.execVcos vd va s
  | .vsincos vd va vb => Sys2Proof.Machine.execVsincos vd va vb s
  | .vatan vd va => Sys2Proof.Machine.execVatan vd va s
  | .vatan2 vd va vb => Sys2Proof.Machine.execVatan2 vd va vb s
  | .updMat => Sys2Proof.Machine.execUpdMat s
  | .applyMat => Sys2Proof.Machine.execApplyMat s
  | .vmat vd va => Sys2Proof.Machine.execVmat vd va s
  | .updLog => Sys2Proof.Machine.execUpdLog s
  | .applyLog => Sys2Proof.Machine.execApplyLog s
  | .vlogk vd va => Sys2Proof.Machine.execVlogk vd va s
  | .updLut => Sys2Proof.Machine.execUpdLut s
  | .applyLut => Sys2Proof.Machine.execApplyLut s
  | .vlut vd va => Sys2Proof.Machine.execVlut vd va s
  | .updCrv => Sys2Proof.Machine.execUpdCrv s
  | .applyCrv => Sys2Proof.Machine.execApplyCrv s
  | .vcrv vd va => Sys2Proof.Machine.execVcrv vd va s

end Sys2Proof.Machine
end

