-- ==== Sys2Proof/Machine/Engine.lean ====
section
/-!
DEFINITION. One turn of the engine: fetch, decode, execute (47_control.md R441, R442, R445).
-/
namespace Sys2Proof.Machine

/-- The command at `cp` executed, or error entry from the fetch or the decode (60_exceptions.md
R468). -/
def engineCommand (s : State) : Result :=
  match fetch s with
  | .error e => .next (errorEntry e s)
  | .ok w =>
    match decode w with
    | .error _ => .next (errorEntry ⟨.illegal, w⟩ s)
    | .ok i => exec i s

/-- One turn of the engine: a command of the run, or nothing while idle (70_reset_and_hazards.md
R502). -/
def engineTurn (s : State) : Result := if s.status.busy then engineCommand s else .next s

/-- Where `withFetchWord` places a command: at `cp`, or at 0 where no command fits at `cp`. -/
def fetchSlot (s : State) : Nat := if s.cp.toNat + 4 ≤ 2 ^ 32 then s.cp.toNat else 0

/-- The state in which the engine's next turn fetches a given word: the bytes in place, in the map
and out of the write set, a run in progress, no input waiting. -/
def placeCommand (s : State) (w : Nat) : State :=
  let a := fetchSlot s
  { s with
    cp := BitVec.ofNat 33 a
    status := Status.started
    ws := []
    mem := memWrite s.mem a 4 w
    memMap := if inBounds s.memMap a 4 then s.memMap else (Ranges.canon s.memMap).add a (a + 4)
    inputs := [] }

end Sys2Proof.Machine
end

