-- ==== Sys2Proof/Machine/HostPort.lean ====
section
/-!
DEFINITION. The host's side of the machine: the register block, memory writes, and reset
(10_state.md R37 to R45, 60_exceptions.md R479, 70_reset_and_hazards.md R500).
-/
namespace Sys2Proof.Machine

/-! ### The register block (10_state.md R37) -/

/-- What a host read of the register at offset 4·index gives; it has no side effect. Reserved
offsets and CTRL read 0. -/
def hostRead (s : State) (index : Fin 64) : Word :=
  match index.val with
  | 1 => s.status.word
  | 2 => s.cmdPtr
  | 3 => s.errCp
  | 4 => s.errInfo
  | 5 => s.cfg.inPtr
  | 6 => s.cfg.outPtr
  | 7 => s.cfg.nPix
  | 8 => s.cfg.inBd
  | 9 => s.cfg.outBd
  | 10 => s.cfg.opdataPtr
  | _ => 0

/-- The host address of a register (10_state.md R37). DESIGN CHOICE: MMIO_BASE and the address have
32 bits and the sum wraps at 2^32; the spec gives the window no width (log entry 18). -/
def hostAddress (index : Fin 64) : Word := Config.mmioBase + BitVec.ofNat 32 (4 * index.val)

/-! ### START and the memory of the run (47_control.md R441, 20_memory.md R80) -/

/-- The length of the LUT descriptor at OPDATA_PTR (30_encoding.md R115); of its header where its
N is refused. -/
def lutDescriptorSize (s : State) : Nat :=
  let n := (descWord s 4).toNat
  if n ≤ 65536 then 8 + 12 * n else 8

/-- The length of the curve descriptor at OPDATA_PTR (30_encoding.md R118); of its header where
its STYLE is refused. -/
def crvDescriptorSize (s : State) : Nat :=
  match styleOf (descWord s 0) with
  | some style => 8 + 8 * nparams style
  | none => 8

/-- The input and output buffers of an `APPLY` of a configured unit (41_bitdepth_pixel_io.md R196). -/
def bufferRegions (s : State) (u : UnitInfo) : Ranges :=
  let n := s.cfg.nPix.toInt.toNat
  let inP := s.cfg.inPtr.toNat
  let outP := s.cfg.outPtr.toNat
  if u.valid then [(inP, inP + 4 * n * u.inBd.esize), (outP, outP + 4 * n * u.outBd.esize)] else []

/-- The memory that a command may access. -/
def commandRegions (i : Instr) (s : State) : Ranges :=
  let desc := s.cfg.opdataPtr.toNat
  match i with
  | .vld _ imm => [(loadAddr s imm, loadAddr s imm + 16)]
  | .vst _ imm => [(storeAddr s imm, storeAddr s imm + 16)]
  | .updMat => [(desc, desc + 168)]
  | .updLog => [(desc, desc + 136)]
  | .updLut => [(desc, desc + lutDescriptorSize s)]
  | .updCrv => [(desc, desc + crvDescriptorSize s)]
  | .applyMat => bufferRegions s s.mat.info
  | .applyLog => bufferRegions s s.log.info
  | .applyLut => bufferRegions s s.lut.info
  | .applyCrv => bufferRegions s s.crv.info
  | .nop | .halt | .wrcfg _ _ | .vlog2 _ _ | .vexp2 _ _ | .vpow _ _ _ | .vsin _ _ | .vcos _ _
  | .vsincos _ _ _ | .vatan _ _ | .vatan2 _ _ _ | .vmat _ _ | .vlogk _ _ | .vlut _ _ | .vcrv _ _ => []

/-- The memory that a run may access from a state on: its next `fuel` commands with their own words
(20_memory.md R80). -/
def runRegions : Nat → State → Ranges
  | 0, _ => []
  | fuel + 1, s =>
    if s.status.busy then
      (s.cp.toNat, s.cp.toNat + 4) ::
        match fetch s with
        | .error _ => []
        | .ok w =>
          match decode w with
          | .error _ => []
          | .ok i =>
            commandRegions i s ++
              match exec i s with
              | .next t => runRegions fuel t
              | .fault _ | .refused _ => []
    else []

/-- More commands than any run has: each advances `cp` by 4 in a space of 2^32 bytes
(47_control.md R440). -/
def runBound : Nat := 2 ^ 30 + 1

/-- A CTRL write: START where bit 0 is 1; nothing else (10_state.md R38). The run's footprint is
fixed then: the host can change neither its memory nor the registers it reads until it ends. -/
def writeCtrl (v : Word) (s : State) : State :=
  if v.getLsbD 0 then { start s with footprint := runRegions runBound (start s) } else s

/-! ### Host writes to the block -/

/-- A host write while no run is in progress (10_state.md R37 to R45): read-only and reserved
offsets ignore it. -/
def hostWriteIdle (index : Fin 64) (v : Word) (s : State) : State :=
  match index.val with
  | 0 => writeCtrl v s
  | 1 => clearStatus v s
  | 2 => { s with cmdPtr := v }
  | 5 => { s with cfg := { s.cfg with inPtr := v } }
  | 6 => { s with cfg := { s.cfg with outPtr := v } }
  | 7 => { s with cfg := { s.cfg with nPix := v } }
  | 8 => { s with cfg := { s.cfg with inBd := v } }
  | 9 => { s with cfg := { s.cfg with outBd := v } }
  | 10 => { s with cfg := { s.cfg with opdataPtr := v } }
  | _ => s

/-- A host write to the block (10_state.md R37): while BUSY only the W1C bits of STATUS act. -/
def hostWrite (index : Fin 64) (v : Word) (s : State) : State :=
  if s.status.busy then (if index.val = 1 then clearStatus v s else s) else hostWriteIdle index v s

/-! ### Memory (20_memory.md R80, 60_exceptions.md R479(c)) -/

/-- Whether a byte belongs to the run in progress: the host may neither read nor write it then. -/
def heldByRun (s : State) (addr : Nat) : Bool := s.status.busy && s.footprint.mem addr

/-- The host reads a byte. A byte outside MEM_MAP is a fault, DESIGN CHOICE: the spec says nothing of
it; a byte of the run in progress is not the host's to read (log entry 7). -/
def hostReadByte (s : State) (addr : Word) : Host.Outcome Byte Fault Refusal :=
  if !inBounds s.memMap addr.toNat 1 then .fault (.hostAddressAbsent addr)
  else if heldByRun s addr.toNat then .refused (.hostReadsDuringRun addr)
  else .next (s.mem.byte addr.toNat)

/-- The host writes a byte; the same two limits (log entry 7). -/
def hostWriteByte (addr : Word) (v : Byte) (s : State) : Result :=
  if !inBounds s.memMap addr.toNat 1 then .fault (.hostAddressAbsent addr)
  else if heldByRun s addr.toNat then .refused (.hostWritesDuringRun addr)
  else .next { s with mem := s.mem.setByte addr.toNat v }

/-! ### Reset (70_reset_and_hazards.md R500, R501) -/

/-- The region that a command may write at the given state, as start and length: the target of a
VST or the output of an APPLY whose checks pass; empty for every other command. -/
def writeTarget (i : Instr) (s : State) : Nat × Nat :=
  let applied (u : UnitInfo) : Nat × Nat :=
    match applyChecks u s with
    | .ok n => (s.cfg.outPtr.toNat, 4 * n * u.outBd.esize)
    | .error _ => (0, 0)
  match i with
  | .vst _ imm =>
    if storeAddr s imm % 4 = 0 && inBounds s.memMap (storeAddr s imm) 16 then (storeAddr s imm, 16)
    else (0, 0)
  | .applyMat => applied ⟨.mat, s.mat.valid, s.mat.inBd, s.mat.outBd⟩
  | .applyLog => applied ⟨.log, s.log.valid, s.log.inBd, s.log.outBd⟩
  | .applyLut => applied ⟨.lut, s.lut.valid, s.lut.inBd, s.lut.outBd⟩
  | .applyCrv => applied ⟨.crv, s.crv.valid, s.crv.inBd, s.crv.outBd⟩
  | .nop | .halt | .wrcfg _ _ | .vld _ _ | .vlog2 _ _ | .vexp2 _ _ | .vpow _ _ _ | .vsin _ _
  | .vcos _ _ | .vsincos _ _ _ | .vatan _ _ | .vatan2 _ _ _ | .updMat | .vmat _ _ | .updLog
  | .vlogk _ _ | .updLut | .vlut _ _ | .updCrv | .vcrv _ _ => (0, 0)

/-- The write target of the command at `cp`, if a run is in progress and the fetch and decode of
that command succeed. -/
def interruptedTarget (s : State) : Nat × Nat :=
  if s.status.busy then
    match fetch s with
    | .ok w =>
      match decode w with
      | .ok i => writeTarget i s
      | .error _ => (0, 0)
    | .error _ => (0, 0)
  else (0, 0)

/-- Unspecified bytes over a region (log entry 15). -/
def scramble (m : Memory) (free a n : Nat) : Memory :=
  m.setBytes a ((List.range n).map fun i => Config.unspecByte free (a + i))

/-- Every piece of instance state takes its reset value; memory, its map and the model's own
fields are not instance state (R500, R501). A run in progress is abandoned, with neither DONE nor
ERR. -/
def resetInstance (s : State) : State :=
  { State.reset with mem := s.mem, memMap := s.memMap, free := s.free, inputs := s.inputs }

/-- Reset during the execution of a command: the bytes it could write are unspecified (R500). -/
def resetDuringCommand (s : State) : State :=
  let t := interruptedTarget s
  resetInstance { s with mem := scramble s.mem s.free t.1 t.2, free := s.free + 1 }

/-- A move of the host (60_exceptions.md R479). -/
def hostMove (m : HostMove) (s : State) : Result :=
  match m with
  | .writeReg index v => .next (hostWrite index v s)
  | .readReg _ => .next s
  | .writeMem addr v => hostWriteByte addr v s
  | .readMem addr =>
    match hostReadByte s addr with
    | .next _ => .next s
    | .fault f => .fault f
    | .refused r => .refused r
  | .reset mid => .next (if mid then resetDuringCommand s else resetInstance s)

end Sys2Proof.Machine
end

