-- ==== Sys2Proof/Machine/Step.lean ====
section
/-!
DEFINITION. One step of the machine: a turn of the engine or a move of the host, as
`State.inputs` says (00_scope.md R8, 70_reset_and_hazards.md R513).
-/
namespace Sys2Proof.Machine

/-- One step. With no input waiting the engine acts. -/
def step (s : State) : Host.Outcome State Fault Refusal :=
  match s.inputs with
  | [] => engineTurn s
  | .engine :: rest => engineTurn { s with inputs := rest }
  | .host m :: rest => hostMove m { s with inputs := rest }

/-- The package's fixed name: `s` with a command word where the next step fetches it. -/
def State.withFetchWord (s : State) (nbits w : Nat) : State := placeCommand s (w % 2 ^ nbits)

end Sys2Proof.Machine
end

