-- ==== Sys2Proof/Safety.lean ====
section
/-!
DEFINITION. What counts as a good state and a safe run, in the terms that statements use: the
invariant of the machine, and the spec's model faults as predicates.
-/
namespace Sys2Proof.Safety

open Sys2Proof.Machine

/-! ### The invariant -/

/-- STATUS as 10_state.md R39 describes it: DONE and ERR never both 1, ERRCODE 0 while ERR is 0,
and neither DONE nor ERR set during a run. -/
def statusOk (st : Status) : Bool :=
  !(st.done && st.err) && (st.err || st.errCode == 0) && (!st.busy || (!st.done && !st.err))

/-- `cp` is a multiple of 4 and at most 2^32 (10_state.md R35). -/
def cpOk (cp : BitVec 33) : Bool := cp.toNat % 4 == 0 && cp.toNat ≤ 2 ^ 32

/-- Every channel's table has the same length. -/
def tableOk (v : Rgb (List F32)) (n : Nat) : Bool := v.toList.all fun w => w.length == n

/-- An effective domain inside a copy (45_lut1d_inverse.md R353, R356). -/
def normalOk (n : Nat) (c : NormalInverse) : Bool :=
  c.u.length == n && c.startDomain < c.endDomain && c.endDomain < n

def halfOk (c : HalfInverse) : Bool :=
  c.uP.length == 0x7C00 && c.uQ.length == 0x7C00 &&
    c.startDomain ≤ c.endDomain && c.endDomain < 0x7C00 &&
    0x8000 ≤ c.negStartDomain && c.negStartDomain ≤ c.negEndDomain && c.negEndDomain < 0xFC00

def inverseOk (n : Nat) (half : Bool) : InverseData → Bool
  | .normal c => !half && c.toList.all (normalOk n)
  | .half c => half && c.toList.all halfOk

def fastOk (t : FastTable) : Bool :=
  t.fN == (if t.fhalf then 65536 else 4096) && tableOk t.fv t.fN

def lutModeOk (n : Nat) (half : Bool) : LutMode → Bool
  | .fwd => true
  | .invExact inv => inverseOk n half inv
  | .invFast inv fast => inverseOk n half inv && fastOk fast

/-- A configured LUT unit: 2 ≤ N ≤ 65536, N = 65536 in the half domain, tables of N entries
(44_lut1d_forward.md R301), inverse data of the table's domain. -/
def lutOk (u : LutUnit) : Bool :=
  !u.valid ||
    (2 ≤ u.n && u.n ≤ 65536 && (!u.half || u.n == 65536) && tableOk u.v u.n &&
      lutModeOk u.n u.half u.mode)

/-- The invariant that every step keeps. -/
def inv (s : State) : Bool :=
  s.mem.wf && Ranges.wf s.memMap && Ranges.wf s.ws && statusOk s.status && cpOk s.cp && lutOk s.lut

/-! ### Model faults (60_exceptions.md R484) -/

/-- The vector registers a command reads (10_state.md R32). -/
def sources : Instr → List VReg
  | .nop | .halt | .vld _ _ | .updMat | .applyMat | .updLog | .applyLog | .updLut | .applyLut
  | .updCrv | .applyCrv => []
  | .wrcfg va _ | .vst va _ | .vlog2 _ va | .vexp2 _ va | .vsin _ va | .vcos _ va
  | .vsincos _ va _ | .vatan _ va | .vmat _ va | .vlogk _ va | .vlut _ va | .vcrv _ va => [va]
  | .vpow _ va vb | .vatan2 _ va vb => [va, vb]

/-- The vector registers a command writes (10_state.md R32). -/
def destinations : Instr → List VReg
  | .nop | .halt | .wrcfg _ _ | .vst _ _ | .updMat | .applyMat | .updLog | .applyLog | .updLut
  | .applyLut | .updCrv | .applyCrv => []
  | .vld vd _ | .vlog2 vd _ | .vexp2 vd _ | .vsin vd _ | .vcos vd _ | .vatan vd _ | .vmat vd _
  | .vlogk vd _ | .vlut vd _ | .vcrv vd _ | .vpow vd _ _ | .vatan2 vd _ _ => [vd]
  | .vsincos vd _ vb => [vd, vb]

/-- The condition of `model_fault(UNWRITTEN_VREG)` (10_state.md R33, 70_reset_and_hazards.md R505):
the command reads a register that nothing has written since reset. The machine goes on with the
register's reset value; a claim about the hardware's value then excludes this case. DESIGN CHOICE: a
VST, VMAT, VLOGK, VLUT or VCRV counts as a reader of vA also where it raises its own error first; the
spec does not order the model fault against that check (log entry 1). -/
def readsUnwritten (i : Instr) (s : State) : Bool := (sources i).any fun r => !s.vw[r]

/-- The command that the engine's next turn executes. -/
def nextCommand (s : State) : Option Instr :=
  match fetch s with
  | .ok w => (decode w).toOption
  | .error _ => none

/-- Whether the next step is a turn of the engine: none is scheduled, or the engine is. -/
def engineActs (s : State) : Bool :=
  match s.inputs with
  | [] | .engine :: _ => true
  | .host _ :: _ => false

/-- A step that the spec determines: it answers a next state, and the command that the engine runs
in it, if any, reads no unwritten register. `model_fault(OPEN_CURVE)` cannot arise: the OPEN curves
are supplied (RefMath). -/
def safeStep (s : State) : Prop :=
  (∃ t, step s = .next t) ∧
    (engineActs s = true → s.status.busy = true →
      ∀ i, nextCommand s = some i → readsUnwritten i s = false)

/-- A safe run of n steps. -/
def safeRun : Nat → State → Prop
  | 0, _ => True
  | n + 1, s => safeStep s ∧ ∀ t, step s = .next t → safeRun n t

/-! ### Exact real values rounded once (43_log.md R264) -/

/-- `x` is `fl32(r)`: no rational below r rounds above it, none above r rounds below it, and it has the
sign of r, where 0 is positive. -/
def CorrectlyRounded (r : ℝ) (x : F32) : Prop :=
  (∀ a b : ℚ, (a : ℝ) ≤ r → r ≤ (b : ℝ) → key (fl32 a) ≤ key x ∧ key x ≤ key (fl32 b)) ∧
    (signbit x = true ↔ r < 0)

/-- An interval holds a real number. -/
def Holds (i : Ival) (r : ℝ) : Prop := (i.lo : ℝ) ≤ r ∧ r ≤ (i.hi : ℝ)

/-- `x` is `fl32(r)` by the model's own intervals `f`: they hold r at every precision, and x is r
correctly rounded, or, where the ends round apart at each of the precisions 96, 192, ..., 96·2^128, the
free value of the last interval (log entry 14). -/
def Rounded (f : Nat → Ival) (r : ℝ) (x : F32) : Prop :=
  (∀ p, Holds (f p) r) ∧
    (CorrectlyRounded r x ∨
      (∀ i, i ≤ 128 → fl32 (f (96 * 2 ^ i)).lo ≠ fl32 (f (96 * 2 ^ i)).hi) ∧
        x = Config.roundingOpen (f (96 * 2 ^ 128)).lo (f (96 * 2 ^ 128)).hi)

/-- The camera check's value `m·B + b` (43_log.md R263(d)) is a real number above 0. -/
def breakPositive (m brk b : F64) : Prop :=
  ∃ x y z, ratOfF64 m = some x ∧ ratOfF64 brk = some y ∧ ratOfF64 b = some z ∧ 0 < x * y + z

/-- It is +∞: one factor infinite, the other not 0 and of the same sign, and b not −∞; or the factors
finite and b = +∞; no operand a NaN. -/
def breakInfinite (m brk b : F64) : Prop :=
  let infinite (x : F64) : Prop := val64 x = .inf false ∨ val64 x = .inf true
  let finite (x : F64) : Prop := ∃ q, ratOfF64 x = some q
  let product : Prop := (infinite m ∨ infinite brk) ∧ m.getLsbD 63 = brk.getLsbD 63 ∧
    (∀ x, x = m ∨ x = brk → val64 x ≠ .nan ∧ ratOfF64 x ≠ some 0)
  (product ∧ (finite b ∨ val64 b = .inf false)) ∨ (finite m ∧ finite brk ∧ val64 b = .inf false)

/-! ### The inverse data of a table (45_lut1d_inverse.md R351 to R357) -/

/-- The direction that the end values decide: the last index used is that of the domain (R352, R355). -/
def upTo (w : List F32) (last : Nat) : Bool := fle (entry w 0) (entry w last)

/-- `+1.0` or `−1.0`. -/
def flipFor (increasing : Bool) : F32 := if increasing then 0x3F800000#32 else 0xBF800000#32

def NoNaN (w : List F32) : Prop := ∀ x ∈ w, isNaN x = false

/-- `u` is the running maximum of the flipped entries (R352). -/
def RunningCopy (flip : F32) (w u : List F32) : Prop :=
  u.length = w.length ∧ (0 < w.length → entry u 0 = fmul flip (entry w 0)) ∧
    ∀ i, i + 1 < w.length → entry u (i + 1) = maxf (entry u i) (fmul flip (entry w (i + 1)))

/-- The effective domain of a copy (R353): the last index of its leading flat run, the first of its
trailing one. -/
def EffectiveEnds (u : List F32) (b e : Nat) : Prop :=
  IsLeast { i | i + 1 < u.length ∧ feq (entry u i) (entry u (i + 1)) = false } b ∧
    IsGreatest { j | 1 ≤ j ∧ j < u.length ∧ feq (entry u (j - 1)) (entry u j) = false } e

/-- The domain of a half: (0, 0) where its copy is constant (R356). -/
def HalfEnds (u : List F32) (b e : Nat) : Prop :=
  EffectiveEnds u b e ∨
    ((∀ i, i + 1 < u.length → feq (entry u i) (entry u (i + 1)) = true) ∧ b = 0 ∧ e = 0)

/-- Some flipped entry is above the first: the copy is not constant. -/
def Rises (flip : F32) (w : List F32) : Prop :=
  ∃ i, i < w.length ∧ flt (fmul flip (entry w 0)) (fmul flip (entry w i)) = true

/-- The finite codes of either sign (R355). -/
def positiveCodes (w : List F32) : List F32 := (List.range 0x7C00).map (entry w)
def negativeCodes (w : List F32) : List F32 := (List.range 0x7C00).map fun i => entry w (0x8000 + i)

def InvertibleNormal (w : List F32) : Prop := NoNaN w ∧ Rises (flipFor (upTo w (w.length - 1))) w

def InvertibleHalf (w : List F32) : Prop :=
  NoNaN (positiveCodes w) ∧ NoNaN (negativeCodes w) ∧
    (Rises (flipFor (upTo w 0x7BFF)) (positiveCodes w) ∨
      Rises (flipFor (!upTo w 0x7BFF)) (negativeCodes w))

/-- The inverse data of a channel in the normal domain (R352, R353, R357). -/
def NormalData (w : List F32) (d : NormalInverse) : Prop :=
  d.isIncreasing = upTo w (w.length - 1) ∧ d.flip = flipFor d.isIncreasing ∧
    RunningCopy d.flip w d.u ∧ EffectiveEnds d.u d.startDomain d.endDomain ∧
    d.bisectPoint = entry w 0

/-- The inverse data of a channel in the half domain (R355 to R357). -/
def HalfData (w : List F32) (d : HalfInverse) : Prop :=
  d.isIncreasing = upTo w 0x7BFF ∧ d.flip = flipFor d.isIncreasing ∧
    RunningCopy d.flip (positiveCodes w) d.uP ∧ HalfEnds d.uP d.startDomain d.endDomain ∧
    RunningCopy (flipFor (!d.isIncreasing)) (negativeCodes w) d.uQ ∧
    (∃ b e, HalfEnds d.uQ b e ∧ d.negStartDomain = 0x8000 + b ∧ d.negEndDomain = 0x8000 + e) ∧
    d.bisectPoint = entry w 0

/-! ### The opcode map as a table (30_encoding.md R103, R104) -/

/-- The table's name of a command. -/
def mnemonic : Instr → String
  | .nop => "NOP"
  | .halt => "HALT"
  | .wrcfg _ _ => "WRCFG"
  | .vld _ _ => "VLD"
  | .vst _ _ => "VST"
  | .vlog2 _ _ => "VLOG2"
  | .vexp2 _ _ => "VEXP2"
  | .vpow _ _ _ => "VPOW"
  | .vsin _ _ => "VSIN"
  | .vcos _ _ => "VCOS"
  | .vsincos _ _ _ => "VSINCOS"
  | .vatan _ _ => "VATAN"
  | .vatan2 _ _ _ => "VATAN2"
  | .updMat => "UPD.MAT"
  | .applyMat => "APPLY.MAT"
  | .vmat _ _ => "VMAT"
  | .updLog => "UPD.LOG"
  | .applyLog => "APPLY.LOG"
  | .vlogk _ _ => "VLOGK"
  | .updLut => "UPD.LUT"
  | .applyLut => "APPLY.LUT"
  | .vlut _ _ => "VLUT"
  | .updCrv => "UPD.CRV"
  | .applyCrv => "APPLY.CRV"
  | .vcrv _ _ => "VCRV"

/-- A row of the opcode map. -/
structure OpcodeRow where
  name : String
  matchBits : Word
  mask : Word
deriving DecidableEq, Repr

/-- The rows of spec/opcode_table.json, in its order. -/
def opcodeTable : List OpcodeRow :=
  [⟨"NOP", 0x04000000#32, 0xFFFFFFFF#32⟩, ⟨"HALT", 0x08000000#32, 0xFFFFFFFF#32⟩,
    ⟨"WRCFG", 0x0C000000#32, 0xFFC3FFF0#32⟩, ⟨"VLD", 0x10000000#32, 0xFC3FC000#32⟩,
    ⟨"VST", 0x14000000#32, 0xFFC3C000#32⟩, ⟨"VLOG2", 0x40000000#32, 0xFC03FFFF#32⟩,
    ⟨"VEXP2", 0x44000000#32, 0xFC03FFFF#32⟩, ⟨"VPOW", 0x48000000#32, 0xFC003FFF#32⟩,
    ⟨"VSIN", 0x4C000000#32, 0xFC03FFFF#32⟩, ⟨"VCOS", 0x50000000#32, 0xFC03FFFF#32⟩,
    ⟨"VSINCOS", 0x54000000#32, 0xFC003FFF#32⟩, ⟨"VATAN", 0x58000000#32, 0xFC03FFFF#32⟩,
    ⟨"VATAN2", 0x5C000000#32, 0xFC003FFF#32⟩, ⟨"UPD.MAT", 0x80000000#32, 0xFFFFFFFF#32⟩,
    ⟨"APPLY.MAT", 0x84000000#32, 0xFFFFFFFF#32⟩, ⟨"VMAT", 0x88000000#32, 0xFC03FFFF#32⟩,
    ⟨"UPD.LOG", 0x90000000#32, 0xFFFFFFFF#32⟩, ⟨"APPLY.LOG", 0x94000000#32, 0xFFFFFFFF#32⟩,
    ⟨"VLOGK", 0x98000000#32, 0xFC03FFFF#32⟩, ⟨"UPD.LUT", 0xA0000000#32, 0xFFFFFFFF#32⟩,
    ⟨"APPLY.LUT", 0xA4000000#32, 0xFFFFFFFF#32⟩, ⟨"VLUT", 0xA8000000#32, 0xFC03FFFF#32⟩,
    ⟨"UPD.CRV", 0xB0000000#32, 0xFFFFFFFF#32⟩, ⟨"APPLY.CRV", 0xB4000000#32, 0xFFFFFFFF#32⟩,
    ⟨"VCRV", 0xB8000000#32, 0xFC03FFFF#32⟩]

/-! ### Errors -/

/-- The state after error entry of the command at `cp`, written out, with the error's code and its
information (60_exceptions.md R461, R470). -/
def erring (code : BitVec 8) (info : Word) (s : State) : State :=
  { s with
    status := ⟨false, s.status.done, true, code⟩
    errCp := cpWord s.cp
    errInfo := info }

/-- `t` is the state after a failed `UPD` of a unit: error entry, the unit not configured and its
other fields open (10_state.md R46, 60_exceptions.md R470). -/
def failedUpdate (id : UnitId) (code : BitVec 8) (info : Word) (s t : State) : Prop :=
  match id with
  | .mat => ∃ u : MatUnit, u.valid = false ∧ t = { erring code info s with mat := u, free := s.free + 1 }
  | .log => ∃ u : LogUnit, u.valid = false ∧ t = { erring code info s with log := u, free := s.free + 1 }
  | .lut => ∃ u : LutUnit, u.valid = false ∧ t = { erring code info s with lut := u, free := s.free + 1 }
  | .crv => ∃ u : CrvUnit, u.valid = false ∧ t = { erring code info s with crv := u, free := s.free + 1 }

/-- The error codes that a command can raise after its decode (60_exceptions.md R465). -/
def raises : Instr → List (BitVec 8)
  | .nop | .halt | .wrcfg _ _ | .vlog2 _ _ | .vexp2 _ _ | .vpow _ _ _ | .vsin _ _ | .vcos _ _
  | .vsincos _ _ _ | .vatan _ _ | .vatan2 _ _ _ => []
  | .vld _ _ | .vst _ _ => [0x02, 0x03]
  | .vmat _ _ | .vlogk _ _ | .vlut _ _ | .vcrv _ _ => [0x09]
  | .updMat => [0x06, 0x02, 0x03, 0x08, 0x07]
  | .updLog | .updLut | .updCrv => [0x06, 0x02, 0x03, 0x08]
  | .applyMat | .applyLog | .applyLut | .applyCrv => [0x09, 0x04, 0x02, 0x03, 0x05, 0x0B]

/-! ### The commands of a unit, by unit -/

def updOf : UnitId → Instr
  | .mat => .updMat
  | .log => .updLog
  | .lut => .updLut
  | .crv => .updCrv

def applyOf : UnitId → Instr
  | .mat => .applyMat
  | .log => .applyLog
  | .lut => .applyLut
  | .crv => .applyCrv

def vectorOf (id : UnitId) (vd va : VReg) : Instr :=
  match id with
  | .mat => .vmat vd va
  | .log => .vlogk vd va
  | .lut => .vlut vd va
  | .crv => .vcrv vd va

/-- A unit's `valid` and latched depths. -/
def infoOf (id : UnitId) (s : State) : UnitInfo :=
  match id with
  | .mat => s.mat.info
  | .log => s.log.info
  | .lut => s.lut.info
  | .crv => s.crv.info

/-- A unit's function `F_U` on a normalised pixel, for an output depth (only the inverse LUT
depends on it). -/
def unitFun (id : UnitId) (od : BitDepth) (s : State) : Quad → Lanes ChanOut :=
  match id with
  | .mat => matFun s.mat
  | .log => logFun s.log
  | .lut => lutFun s.lut od
  | .crv => curveFun s.crv

/-- Channel c of a pixel. -/
def channel {α : Type} (x : Lanes α) (c : Fin 4) : α :=
  match c with
  | 0 => x.r
  | 1 => x.g
  | 2 => x.b
  | 3 => x.a

/-- The normalised input pixel p of an `APPLY` of a unit (41_bitdepth_pixel_io.md R196 step 8). -/
def inputPixel (id : UnitId) (s : State) (p : Nat) : Quad :=
  let bd := (infoOf id s).inBd
  (readElements s.mem s.cfg.inPtr.toNat bd.esize p).map (normalise bd)

/-- The element that an `APPLY` of a unit writes for channel c of pixel p. -/
def outputElement (id : UnitId) (s : State) (p : Nat) (c : Fin 4) : Nat :=
  let od := (infoOf id s).outBd
  storeElement od (channel (unitFun id od s (inputPixel id s p)) c)

/-- The bytes of an `APPLY`'s input and output buffers for n pixels. -/
def inBytes (id : UnitId) (s : State) (n : Nat) : Nat := 4 * n * (infoOf id s).inBd.esize
def outBytes (id : UnitId) (s : State) (n : Nat) : Nat := 4 * n * (infoOf id s).outBd.esize

/-- The buffers of n pixels are disjoint, or the exact alias of equal element sizes
(41_bitdepth_pixel_io.md R198). -/
def buffersApart (id : UnitId) (s : State) (n : Nat) : Prop :=
  s.cfg.inPtr.toNat + inBytes id s n ≤ s.cfg.outPtr.toNat ∨
    s.cfg.outPtr.toNat + outBytes id s n ≤ s.cfg.inPtr.toNat ∨
    (s.cfg.inPtr = s.cfg.outPtr ∧ (infoOf id s).inBd.esize = (infoOf id s).outBd.esize)

/-- Element k of the input buffer, of a 16-bit depth, has no bit outside the code mask. -/
def codeFits (id : UnitId) (s : State) (k : Nat) : Prop :=
  memRead s.mem (s.cfg.inPtr.toNat + 2 * k) 2 ≤ (infoOf id s).inBd.range

/-- What every `UPD` needs before it reads its header's fields: both depth tags valid, the
descriptor aligned, its header in the map (30_encoding.md R121 steps 1 and 2). -/
def updReady (s : State) (ib ob : BitDepth) : Prop :=
  bitDepthOf s.cfg.inBd = some ib ∧ bitDepthOf s.cfg.outBd = some ob ∧
    s.cfg.opdataPtr.toNat % 8 = 0 ∧ inBounds s.memMap s.cfg.opdataPtr.toNat 8 = true

/-- The header words of the descriptor. -/
def headerFlags (s : State) : Word := readWord s.mem s.cfg.opdataPtr.toNat
def headerSecond (s : State) : Word := readWord s.mem (s.cfg.opdataPtr.toNat + 4)

/-- The whole descriptor is in the map. -/
def descriptorMapped (s : State) (size : Nat) : Prop :=
  inBounds s.memMap s.cfg.opdataPtr.toNat size = true

/-- The region a command stores to, with its checks: the target of a VST or the output of an APPLY
(41_bitdepth_pixel_io.md R196, R203). -/
def storesTo (i : Instr) (s : State) (a : Nat) : Prop :=
  (writeTarget i s).1 ≤ a ∧ a < (writeTarget i s).1 + (writeTarget i s).2

/-- The reset values that the spec states (70_reset_and_hazards.md R501). -/
def atReset (t : State) : Prop :=
  (∀ i : VReg, t.vw[i] = false) ∧ t.cp = 0 ∧ t.status = ⟨false, false, false, 0⟩ ∧
    (∀ index : Fin 64, hostRead t index = 0) ∧
    t.cmdPtr = 0 ∧ t.errCp = 0 ∧ t.errInfo = 0 ∧ t.cfg = ⟨0, 0, 0, 0, 0, 0⟩ ∧
    t.mat.valid = false ∧ t.log.valid = false ∧ t.lut.valid = false ∧ t.crv.valid = false ∧
    (∀ a, t.ws.mem a = false)

end Sys2Proof.Safety
end

