-- ==== Sys2Proof/Certificates/Slice0/Obligations.lean ====
section
/-!
DEFINITION. The statements about the machine, for the provers. Each docstring names the rules of
spec/ it formalises. `Sys2Proof.Safety` holds the terms they share.
-/
section PxmStatements

open Sys2Proof Sys2Proof.Machine Sys2Proof.Safety

/-! ### Encoding (30_encoding.md) -/

/-- Decoding the encoding of a well-formed command gives it back, for every operand value
(R101, R104, R107, R108). -/
def Obligations.DecodeOfEncode : Prop :=
  ∀ i : Instr, i.wellFormed = true → decode (encode i) = .ok i

/-- Each legal word encodes one command, whose encoding it is, and that command is well formed
(R104, R105, R107). -/
def Obligations.EncodeOfDecode : Prop :=
  ∀ (w : Word) (i : Instr), decode w = .ok i → encode i = w ∧ i.wellFormed = true

/-- A word encodes the command of a row exactly when its masked bits match the row and, for WRCFG,
its index is at most 5 (R104, R105, R106). -/
def Obligations.LegalWordsAreTheTable : Prop :=
  ∀ (w : Word) (name : String),
    (∃ i, decode w = .ok i ∧ mnemonic i = name) ↔
      ∃ row ∈ opcodeTable, row.name = name ∧ w &&& row.mask = row.matchBits ∧
        (name = "WRCFG" → (w.extractLsb' 0 4).toNat ≤ 5)

/-- Words written out from the spec's encodings decode to the commands they stand for
(R101, R104; 95_test_vectors.md P1, P3, T-ERR). -/
def Obligations.SampleWordsDecode : Prop :=
  decode 0x04000000#32 = .ok .nop ∧ decode 0x0C100000#32 = .ok (.wrcfg 4 0) ∧
    decode 0x10800001#32 = .ok (.vld 2 1) ∧ decode 0x140C0001#32 = .ok (.vst 3 1) ∧
    decode 0x48C80000#32 = .ok (.vpow 3 2 0) ∧ decode 0x55E60000#32 = .ok (.vsincos 7 9 8) ∧
    decode 0x88400000#32 = .ok (.vmat 1 0) ∧ decode 0xB4000000#32 = .ok .applyCrv ∧
    decode 0x00000000#32 = .error .reservedOpcode ∧
    decode 0x18000000#32 = .error .reservedOpcode ∧
    decode 0x04000001#32 = .error .reservedField ∧
    decode 0x0C000006#32 = .error .reservedCfgIndex

/-! ### The engine (47_control.md R441, R442) -/

/-- A step of a run runs the decoded command: with the bytes at `cp` mapped, not written by the run
and legal, the step is `exec` of the command they encode. An engine entry at the head of `inputs`
is used up first; nothing else is added around `exec`. -/
def Obligations.StepRunsDecodedCommand : Prop :=
  ∀ (s : State) (i : Instr), s.status.busy = true →
    inBounds s.memMap s.cp.toNat 4 = true → s.ws.meets s.cp.toNat (s.cp.toNat + 4) = false →
    decode (readWord s.mem s.cp.toNat) = .ok i →
    (s.inputs = [] → step s = exec i s) ∧
      (∀ rest, s.inputs = .engine :: rest → step s = exec i { s with inputs := rest })

/-- The command fetch (R442): out of the map it raises ERR_BUS(cp), in the run's write set
ERR_SMC(cp), otherwise it returns the little-endian word. With `cp` past the last address it raises
ERR_BUS too (10_state.md R35), where the two 32-bit registers hold any value (log entry 13). -/
def Obligations.FetchOutcome : Prop :=
  ∀ s : State,
    let lo := s.cp.toNat
    (s.inputs = [] → s.status.busy = true →
      (2 ^ 32 ≤ lo → ∃ x y, step s = .next { s with
        status := ⟨false, s.status.done, true, 0x03⟩, errCp := x, errInfo := y }) ∧
      (lo < 2 ^ 32 → (2 ^ 32 < lo + 4 ∨ ∃ x, lo ≤ x ∧ x < lo + 4 ∧ s.memMap.mem x = false) →
        step s = .next (erring 0x03 (s.cp.setWidth 32) s)) ∧
      (lo + 4 ≤ 2 ^ 32 → (∀ x, lo ≤ x → x < lo + 4 → s.memMap.mem x = true) →
        (∃ x, lo ≤ x ∧ x < lo + 4 ∧ s.ws.mem x = true) →
        step s = .next (erring 0x0C (s.cp.setWidth 32) s))) ∧
    (lo + 4 ≤ 2 ^ 32 → (∀ x, lo ≤ x → x < lo + 4 → s.memMap.mem x = true) →
      (∀ x, lo ≤ x → x < lo + 4 → s.ws.mem x = false) →
      fetch s = .ok (s.mem.byte (lo + 3) ++ s.mem.byte (lo + 2) ++ s.mem.byte (lo + 1) ++
        s.mem.byte lo))

/-- An illegal word ends the run with ERR_ILLEGAL(w) and nothing else happens (30_encoding.md R105,
R106; 60_exceptions.md R470). -/
def Obligations.IllegalWordEndsRun : Prop :=
  ∀ (s : State) (w : Word) (e : Illegal), s.inputs = [] → s.status.busy = true →
    fetch s = .ok w → decode w = .error e → step s = .next (erring 0x01 w s)

/-- Between runs the engine is idle and keeps all its state (70_reset_and_hazards.md R502;
60_exceptions.md R483). -/
def Obligations.IdleEngineKeepsState : Prop :=
  ∀ s : State, s.status.busy = false →
    (s.inputs = [] → step s = .next s) ∧
      (∀ rest, s.inputs = .engine :: rest → step s = .next { s with inputs := rest })

/-! ### The host (10_state.md R37 to R45; 47_control.md R441; 60_exceptions.md R479) -/

/-- START (10_state.md R38; 47_control.md R441): a CTRL write with bit 0 set while idle starts a
run, or ends it at once on a misaligned CMD_PTR; every other CTRL write does nothing; CTRL reads 0.
The footprint, the model's own field, is what the run may access (20_memory.md R80; log entry 7). -/
def Obligations.HostStart : Prop :=
  ∀ (s : State) (v : Word) (rest : List Input), s.inputs = .host (.writeReg 0 v) :: rest →
    let started : State := { s with
      inputs := rest
      status := ⟨true, false, false, 0⟩
      ws := []
      cp := s.cmdPtr.setWidth 33 }
    hostRead s 0 = 0 ∧
    (s.status.busy = true ∨ v.getLsbD 0 = false → step s = .next { s with inputs := rest }) ∧
    (s.status.busy = false → v.getLsbD 0 = true → s.cmdPtr.toNat % 4 = 0 →
      step s = .next { started with footprint := runRegions runBound started }) ∧
    (s.status.busy = false → v.getLsbD 0 = true → s.cmdPtr.toNat % 4 ≠ 0 →
      step s = .next { s with
        inputs := rest
        status := ⟨false, false, true, 0x02⟩
        ws := []
        footprint := []
        errCp := s.cmdPtr
        errInfo := s.cmdPtr })

/-- While a run is in progress a host write to the block changes nothing, the W1C bits of STATUS
included, since DONE and ERR are 0 then (10_state.md R37, R39; 70_reset_and_hazards.md R512). -/
def Obligations.HostWritesIgnoredDuringRun : Prop :=
  ∀ (s : State) (index : Fin 64) (v : Word) (rest : List Input), inv s = true →
    s.status.busy = true → s.inputs = .host (.writeReg index v) :: rest →
    step s = .next { s with inputs := rest }

/-- STATUS (10_state.md R39): the layout that a host read sees, and the write-one-to-clear bits. -/
def Obligations.StatusRegister : Prop :=
  ∀ (s : State) (v : Word) (rest : List Input),
    ((hostRead s 1).getLsbD 0 = s.status.busy ∧ (hostRead s 1).getLsbD 1 = s.status.done ∧
      (hostRead s 1).getLsbD 2 = s.status.err ∧
      (hostRead s 1).extractLsb' 8 8 = s.status.errCode ∧
      (hostRead s 1).extractLsb' 3 5 = 0 ∧ (hostRead s 1).extractLsb' 16 16 = 0) ∧
    (s.inputs = .host (.writeReg 1 v) :: rest →
      step s = .next { s with
        inputs := rest
        status := {
          busy := s.status.busy
          done := if v.getLsbD 1 then false else s.status.done
          err := if v.getLsbD 2 then false else s.status.err
          errCode := if v.getLsbD 2 then 0 else s.status.errCode } })

/-- The data registers of the block while idle (10_state.md R37, R40 to R45): a RW register takes
the value and no other register changes; ERR_CP, ERR_INFO and the reserved offsets ignore writes;
reserved offsets read 0. -/
def Obligations.HostRegisterWrite : Prop :=
  ∀ (s : State) (index : Fin 64) (v : Word) (rest : List Input), s.status.busy = false →
    s.inputs = .host (.writeReg index v) :: rest →
    (index.val = 2 ∨ (5 ≤ index.val ∧ index.val ≤ 10) →
      ∃ c d, step s = .next { s with inputs := rest, cmdPtr := c, cfg := d } ∧
        hostRead { s with cmdPtr := c, cfg := d } index = v ∧
        ∀ j, j ≠ index → hostRead { s with cmdPtr := c, cfg := d } j = hostRead s j) ∧
    (index.val = 3 ∨ index.val = 4 ∨ 11 ≤ index.val → step s = .next { s with inputs := rest }) ∧
    (11 ≤ index.val → hostRead s index = 0)

/-- Reset between commands: every value that R501 states, in the machine's own reset state and after
any reset; memory and its map are left alone (R500). -/
def Obligations.ResetValues : Prop :=
  atReset State.reset ∧
    ∀ (s : State) (rest : List Input), s.inputs = .host (.reset false) :: rest →
      ∃ t, step s = .next t ∧ atReset t ∧ t.mem = s.mem ∧ t.memMap = s.memMap ∧ t.inputs = rest

/-- Reset while a command executes (70_reset_and_hazards.md R500): the state is the reset state,
with neither DONE nor ERR, and no byte changes outside the region that command could write. -/
def Obligations.ResetDuringCommand : Prop :=
  ∀ (s : State) (rest : List Input), s.inputs = .host (.reset true) :: rest →
    ∃ t, step s = .next t ∧ atReset t ∧ t.memMap = s.memMap ∧ t.inputs = rest ∧
      ∀ a, ¬((interruptedTarget s).1 ≤ a ∧
          a < (interruptedTarget s).1 + (interruptedTarget s).2) →
        t.mem.byte a = s.mem.byte a

/-- The host and a byte of memory (60_exceptions.md R479(b)(c); 20_memory.md R71, R80; V14 of
93_implementation_defined.md). A byte of the map that no run in progress may access: a write changes
that byte and nothing else, a read gives it and changes nothing. A byte of the run in progress: both
are refused. A byte outside the map: both fault, the model's choice (log entry 7). A read of a
register changes nothing. -/
def Obligations.HostMemoryAccess : Prop :=
  ∀ (s : State) (addr : Word) (rest : List Input),
    let mapped : Prop := s.memMap.mem addr.toNat = true
    let held : Prop := s.status.busy = true ∧ s.footprint.mem addr.toNat = true
    (∀ b : Byte, s.inputs = .host (.writeMem addr b) :: rest →
      (mapped → ¬held → ∃ m, step s = .next { s with inputs := rest, mem := m } ∧
        ∀ a, m.byte a = if a = addr.toNat then b else s.mem.byte a) ∧
      (mapped → held → step s = .refused (.hostWritesDuringRun addr)) ∧
      (¬mapped → step s = .fault (.hostAddressAbsent addr))) ∧
    (s.inputs = .host (.readMem addr) :: rest →
      (mapped → ¬held → hostReadByte s addr = .next (s.mem.byte addr.toNat) ∧
        step s = .next { s with inputs := rest }) ∧
      (mapped → held → step s = .refused (.hostReadsDuringRun addr)) ∧
      (¬mapped → step s = .fault (.hostAddressAbsent addr))) ∧
    ∀ index : Fin 64, s.inputs = .host (.readReg index) :: rest →
      step s = .next { s with inputs := rest }

/-! ### Control commands (47_control.md R443, R444; 41_bitdepth_pixel_io.md R204) -/

/-- NOP has no effect and the run continues; HALT ends the run with DONE and does not advance `cp`. -/
def Obligations.NopAndHalt : Prop :=
  ∀ s : State,
    exec .nop s = .next { s with cp := s.cp + 4 } ∧
      exec .halt s = .next { s with
        status := { busy := false, done := true, err := s.status.err, errCode := s.status.errCode } }

/-- WRCFG writes the raw bits of lane 0 to the CFG register of its index, and nothing else but `cp`. -/
def Obligations.WrcfgWritesLaneZero : Prop :=
  ∀ (va : VReg) (s : State),
    let w := (s.v[va]).r
    exec (.wrcfg va 0) s = .next { s with cfg := { s.cfg with inPtr := w }, cp := s.cp + 4 } ∧
    exec (.wrcfg va 1) s = .next { s with cfg := { s.cfg with outPtr := w }, cp := s.cp + 4 } ∧
    exec (.wrcfg va 2) s = .next { s with cfg := { s.cfg with nPix := w }, cp := s.cp + 4 } ∧
    exec (.wrcfg va 3) s = .next { s with cfg := { s.cfg with inBd := w }, cp := s.cp + 4 } ∧
    exec (.wrcfg va 4) s = .next { s with cfg := { s.cfg with outBd := w }, cp := s.cp + 4 } ∧
    exec (.wrcfg va 5) s = .next { s with cfg := { s.cfg with opdataPtr := w }, cp := s.cp + 4 }

/-! ### VLD and VST (41_bitdepth_pixel_io.md R202, R203) -/

/-- VLD: ERR_ALIGN, then ERR_BUS, each with the address mod 2^32; otherwise the four little-endian
words of the 16 bytes, raw, and nothing else changes but the written bit and `cp`. -/
def Obligations.VldLoadsLanes : Prop :=
  ∀ (vd : VReg) (imm : BitVec 14) (s : State),
    let a := s.cfg.inPtr.toNat + 16 * imm.toNat
    let m := s.mem
    let mapped := a + 16 ≤ 2 ^ 32 ∧ ∀ x, a ≤ x → x < a + 16 → s.memMap.mem x = true
    let word (k : Nat) : Word := m.byte (k + 3) ++ m.byte (k + 2) ++ m.byte (k + 1) ++ m.byte k
    (a % 4 ≠ 0 → exec (.vld vd imm) s = .next (erring 0x02 (BitVec.ofNat 32 a) s)) ∧
    (a % 4 = 0 → ¬mapped → exec (.vld vd imm) s = .next (erring 0x03 (BitVec.ofNat 32 a) s)) ∧
    (a % 4 = 0 → mapped →
      exec (.vld vd imm) s = .next { s with
        v := s.v.set vd ⟨word a, word (a + 4), word (a + 8), word (a + 12)⟩
        vw := s.vw.set vd true
        cp := s.cp + 4 })

/-- VST: ERR_ALIGN, then ERR_BUS; otherwise the 16 bytes at the address are the little-endian
lanes, they join the write set, and every other byte and register is unchanged. -/
def Obligations.VstStoresLanes : Prop :=
  ∀ (va : VReg) (imm : BitVec 14) (s : State),
    let a := s.cfg.outPtr.toNat + 16 * imm.toNat
    let mapped := a + 16 ≤ 2 ^ 32 ∧ ∀ x, a ≤ x → x < a + 16 → s.memMap.mem x = true
    (a % 4 ≠ 0 → exec (.vst va imm) s = .next (erring 0x02 (BitVec.ofNat 32 a) s)) ∧
    (a % 4 = 0 → ¬mapped → exec (.vst va imm) s = .next (erring 0x03 (BitVec.ofNat 32 a) s)) ∧
    (a % 4 = 0 → mapped →
      ∃ m w, exec (.vst va imm) s = .next { s with mem := m, ws := w, cp := s.cp + 4 } ∧
        (∀ (j : Fin 4) (k : Nat), k < 4 →
          m.byte (a + 4 * j.val + k) = (channel (s.v[va]) j).extractLsb' (8 * k) 8) ∧
        (∀ x, x < a ∨ a + 16 ≤ x → m.byte x = s.mem.byte x) ∧
        ∀ x, w.mem x = (s.ws.mem x || (decide (a ≤ x) && decide (x < a + 16))))

/-- A vector stored and loaded again through one address is the same vector (R202, R203;
70_reset_and_hazards.md R506). -/
def Obligations.StoreThenLoadReturnsVector : Prop :=
  ∀ (va vd : VReg) (imm : BitVec 14) (s : State), s.cfg.inPtr = s.cfg.outPtr →
    storeAddr s imm % 4 = 0 → inBounds s.memMap (storeAddr s imm) 16 = true →
    ∃ t u, exec (.vst va imm) s = .next t ∧ exec (.vld vd imm) t = .next u ∧
      u.v = s.v.set vd (s.v[va]) ∧ u.cp = s.cp + 4 + 4

/-- A fetch that meets bytes which the run has just stored raises ERR_SMC(cp) (20_memory.md R83;
70_reset_and_hazards.md R511). -/
def Obligations.FetchOfStoredBytesRaises : Prop :=
  ∀ (va : VReg) (imm : BitVec 14) (s : State), s.inputs = [] → s.status.busy = true →
    s.cp.toNat + 8 ≤ 2 ^ 32 → inBounds s.memMap (s.cp.toNat + 4) 4 = true →
    storeAddr s imm % 4 = 0 → inBounds s.memMap (storeAddr s imm) 16 = true →
    storeAddr s imm < s.cp.toNat + 8 → s.cp.toNat + 4 < storeAddr s imm + 16 →
    ∃ t, exec (.vst va imm) s = .next t ∧
      step t = .next (erring 0x0C ((s.cp + 4).setWidth 32) t)

/-! ### The transcendental unit (40_simd_math.md) -/

/-- The one-source commands: each lane of the destination is the approximator at the same lane of
the source; sine is the cosine of PIO2_32 − x (R140, R143, R146, R151, R156, R158, R159). -/
def Obligations.LaneWiseUnary : Prop :=
  ∀ (vd va : VReg) (s : State),
    let done (f : F32 → F32) : Result :=
      .next { s with
        v := s.v.set vd ⟨f (s.v[va]).r, f (s.v[va]).g, f (s.v[va]).b, f (s.v[va]).a⟩
        vw := s.vw.set vd true
        cp := s.cp + 4 }
    exec (.vlog2 vd va) s = done fLog2 ∧ exec (.vexp2 vd va) s = done fExp2 ∧
      exec (.vsin vd va) s = done (fun x => fCos (fsub 0x3FC90FDB#32 x)) ∧
      exec (.vcos vd va) s = done fCos ∧ exec (.vatan vd va) s = done fAtan

/-- The two-source commands, lane by lane: VPOW with the base in vA and the exponent in vB is +0 for
a base ≤ 0 or NaN and otherwise exp2(y·log2 x); VATAN2 with y in vA and x in vB (R140, R148, R149, R153,
R154). That a NaN base gives the +0 of 93_implementation_defined.md U5, and does not go through log2 as
R148 says, is the model's choice between the two (log entry 21). -/
def Obligations.LaneWiseBinary : Prop :=
  ∀ (vd va vb : VReg) (s : State),
    let done (f : F32 → F32 → F32) : Result :=
      .next { s with
        v := s.v.set vd ⟨f (s.v[va]).r (s.v[vb]).r, f (s.v[va]).g (s.v[vb]).g,
          f (s.v[va]).b (s.v[vb]).b, f (s.v[va]).a (s.v[vb]).a⟩
        vw := s.vw.set vd true
        cp := s.cp + 4 }
    exec (.vpow vd va vb) s =
        done (fun x y => if isNaN x || fle x 0#32 then 0#32 else fExp2 (fmul y (fLog2 x))) ∧
      exec (.vatan2 vd va vb) s =
        done (fun y x =>
          if feq y 0#32 && feq x 0#32 then 0#32
          else if x.getLsbD 31 then
            (if y.getLsbD 31 then fsub (fAtan (fdiv y x)) 0x40490FDB#32
              else fadd (fAtan (fdiv y x)) 0x40490FDB#32)
          else fAtan (fdiv y x))

/-- VSINCOS writes the sines to vD and then the cosines to vB, both of the old vA, so that with
vD = vB the cosines stay; its cosine is F_cos and the sine of a finite angle has the sign of the
reduced angle flipped by an odd cycle count (R160, R162(e)(f); 70_reset_and_hazards.md R507). -/
def Obligations.SincosWritesBoth : Prop :=
  (∀ (vd va vb : VReg) (s : State),
    let x := s.v[va]
    exec (.vsincos vd va vb) s = .next { s with
      v := (s.v.set vd ⟨(fSincos x.r).1, (fSincos x.g).1, (fSincos x.b).1, (fSincos x.a).1⟩).set vb
        ⟨fCos x.r, fCos x.g, fCos x.b, fCos x.a⟩
      vw := (s.vw.set vd true).set vb true
      cp := s.cp + 4 }) ∧
  ∀ x : F32, isFinite x = true →
    signbit (fSincos x).1 = ((reduceAngle x).k % 2 != 0 ^^ signbit (reduceAngle x).r)

/-- What every approximator gives, whatever instance is configured (R162, R163): (a), (g) exp2 at its
fixed points; (b) pow +0 for a base ≤ 0, for a NaN exponent (R148) and for a NaN base (U5 of
93_implementation_defined.md, the model's choice against R148: log entry 21); (c) atan2 +0 for two zeros, and a
NaN for a NaN operand and for two infinities (R153); (d) a monotonic atan; the error bound of R163 for
each function, those composed of a field included, and the targets of the coefficients that a reference
instance uses. -/
def Obligations.ApproximatorsMeetRequirements : Prop :=
  ((∀ x : F32, isNaN x = true → fExp2 x = 0#32) ∧
    (∀ x : F32, fle 0x43000000#32 x = true → fExp2 x = 0x7F800000#32) ∧
    (∀ x : F32, flt x 0xC2FC0000#32 = true → fExp2 x = 0#32) ∧
    ∀ k : Int, -126 ≤ k → k ≤ 127 →
      fExp2 (fl32Int k) = BitVec.ofNat 32 ((k + 127).toNat * 2 ^ 23)) ∧
  (∀ x y : F32, fle x 0#32 = true ∨ isNaN x = true ∨ isNaN y = true → tuPow x y = 0#32) ∧
  (∀ y x : F32,
    (fabs y = 0#32 → fabs x = 0#32 → tuAtan2 y x = 0#32) ∧
    (isNaN y = true ∨ isNaN x = true → isNaN (tuAtan2 y x) = true) ∧
    (fabs y = 0x7F800000#32 → fabs x = 0x7F800000#32 → isNaN (tuAtan2 y x) = true)) ∧
  AtanMonotone fAtan ∧
  (Log2Precise fLog2 ∧ Exp2Precise fExp2 ∧ AtanPrecise fAtan ∧ Atan2Precise fAtan ∧
    CosPrecise trigField.trigMax fCos ∧ SinPrecise trigField.trigMax tuSin ∧
    SinPrecise trigField.trigMax (fun x => (fSincos x).1) ∧
    CosPrecise trigField.trigMax (fun x => (fSincos x).2)) ∧
  ((log2Field.replacement = none → Log2Target log2Field.cLog2) ∧
    (exp2Field.replacement = none → Exp2Target exp2Field.cExp2) ∧
    (atanField.replacement = none → AtanTarget atanField.cAtanP atanField.cAtanQ) ∧
    (trigField.cosine = none ∨ trigField.sine = none → CosTarget trigField.cCos))

/-- The reference instances of log2, exp2 and atan, whatever their open coefficients (R142, R144: a
sign is ignored, zeros and infinities are 2^−127 and 2^128, a subnormal is not normalised; R145 to
R147 with `C_EXP2[0] = 1.0`; R150, R152 with `C_ATAN_P[0] = 0.0` and `C_ATAN_Q[0] ≠ 0`). -/
def Obligations.ReferenceInstancesExactPoints : Prop :=
  (∀ (c : Coeffs 6) (x : F32),
    let sum (e : Int) (m : F32) : F32 := fadd (fl32Int e) (c.eval m)
    refLog2 c (fneg x) = refLog2 c x ∧
    (fabs x = 0#32 → refLog2 c x = sum (-127) 0x3F800000#32) ∧
    (fabs x = 0x7F800000#32 → refLog2 c x = sum 128 0x3F800000#32) ∧
    (isNaN x = true → ∃ m, isFinite m = true ∧ 1 < ratOf m ∧ ratOf m < 2 ∧ refLog2 c x = sum 128 m) ∧
    (isFinite x = true → 0 < ratOf x →
      ∃ (e : Int) (m : F32), isFinite m = true ∧ 1 ≤ ratOf m ∧ ratOf m < 2 ∧ refLog2 c x = sum e m ∧
        (isNormal x = true → ratOf x = 2 ^ e * ratOf m) ∧
        (isNormal x = false → e = -127 ∧ ratOf x = 2 ^ (-126 : Int) * (ratOf m - 1)))) ∧
  (∀ (c : Coeffs 5) (x : F32), c.vec[0] = 0x3F800000#32 →
    (isNaN x = true → refExp2 c x = 0#32) ∧
    (fle 0x43000000#32 x = true → refExp2 c x = 0x7F800000#32) ∧
    (flt x 0xC2FC0000#32 = true → refExp2 c x = 0#32) ∧
    ∀ k : Int, -126 ≤ k → k ≤ 127 → isFinite x = true → ratOf x = k →
      refExp2 c x = BitVec.ofNat 32 ((k + 127).toNat * 2 ^ 23)) ∧
  ∀ (p : Coeffs 6) (q : Coeffs 7) (x : F32), p.vec[0] = 0#32 → feq q.vec[0] 0#32 = false →
    (fabs x = 0#32 → refAtan p q x = x) ∧
    (fabs x = 0x7F800000#32 → refAtan p q x = copysign 0x3FC90FDB#32 x) ∧
    (isNaN x = true → isNaN (refAtan p q x) = true) ∧
    (fabs x = 0x3F800000#32 →
      refAtan p q x = copysign (fdiv (p.eval 0x3F800000#32) (q.eval 0x3F800000#32)) x)

/-- The reference cos and sincos, whatever their open coefficients (R155, R157, R160, R161): QNAN off
the finite numbers; `C_COS[0]` at ±0 and −`C_COS[0]` at PI32, with the sine ±0 and −0 there (a
coefficient −0 apart, which a sum turns to +0); and for a finite angle the sign and the magnitude of
both from the reduced angle, whose cycle count is the nearest integer, an even one at a tie. -/
def Obligations.ReferenceSincosValues : Prop :=
  ∀ (c : Coeffs 6) (x : F32),
    (isFinite x = false → refCos c x = Config.qnan ∧ refSincos c x = (Config.qnan, Config.qnan)) ∧
    (c.vec[0] ≠ 0x80000000#32 →
      (fabs x = 0#32 → refCos c x = c.vec[0] ∧ refSincos c x = (x, c.vec[0])) ∧
      refCos c 0x40490FDB#32 = fneg c.vec[0] ∧
      refSincos c 0x40490FDB#32 = (0x80000000#32, fneg c.vec[0])) ∧
    (isFinite x = true → ∃ k : Int,
      let q := fmul x 0x3EA2F983#32
      let r := fsub x (fmul (fl32Int k) 0x40490FDB#32)
      let v := c.eval (fmul r r)
      let u := fsub 0x3F800000#32 (fmul v v)
      isFinite q = true ∧ |(k : ℚ) - ratOf q| ≤ 1 / 2 ∧
      (|(k : ℚ) - ratOf q| = 1 / 2 → k % 2 = 0) ∧
      refCos c x = (if k % 2 = 0 then v else fneg v) ∧
      (refSincos c x).2 = refCos c x ∧
      signbit (refSincos c x).1 = (signbit r ^^ decide (k % 2 ≠ 0)) ∧
      fabs (refSincos c x).1 =
        if flt 0x38800000#32 (fmul r r) then fabs (fsqrt (if flt 0#32 u then u else 0#32)) else fabs r)

/-! ### Pixel elements (41_bitdepth_pixel_io.md; 30_encoding.md R120) -/

/-- The bit-depth tags (30_encoding.md R120; 41_bitdepth_pixel_io.md R190): six values name a depth
and every other 32-bit value, high bits included, names none. -/
def Obligations.BitDepthTags : Prop :=
  ∀ w : Word,
    bitDepthOf w =
      if w = 0 then some .u8 else if w = 1 then some .u10 else if w = 2 then some .u12
      else if w = 3 then some .u16 else if w = 4 then some .f16 else if w = 5 then some .f32
      else none

/-- The saturating cast (R193): on integer depths a NaN gives 0, values below 0 give 0 and above the
range give the range, and a value between is rounded to a nearest integer, to an even one at a tie;
on f32 it is the identity; on f16 it is the conversion to binary16 (00_scope.md R14): QNAN16 for a
NaN, an infinity from 65520 outwards, and otherwise the nearest finite code of the sign, the even one
at a tie. -/
def Obligations.CastSaturates : Prop :=
  (∀ (bd : BitDepth) (z : F32), bd.isFloat = false →
    (isNaN z = true → castTo bd z = 0) ∧
    (fle z 0#32 = true → castTo bd z = 0) ∧
    (fle (fl32Int bd.range) z = true → castTo bd z = bd.range) ∧
    (flt 0#32 z = true → flt z (fl32Int bd.range) = true →
      |(castTo bd z : ℚ) - ratOf z| ≤ 1 / 2 ∧
      (|(castTo bd z : ℚ) - ratOf z| = 1 / 2 → castTo bd z % 2 = 0))) ∧
  ∀ z : F32, castTo .f32 z = z.toNat ∧
    (isNaN z = true → castTo .f16 z = Config.qnan16.toNat) ∧
    (fle 0x477FF000#32 z = true → castTo .f16 z = 0x7C00) ∧
    (fle z 0xC77FF000#32 = true → castTo .f16 z = 0xFC00) ∧
    (flt 0xC77FF000#32 z = true → flt z 0x477FF000#32 = true →
      let h := castTo .f16 z
      let distance (k : Nat) : ℚ := |ratOf (half32 k) - ratOf z|
      h % 0x8000 < 0x7C00 ∧ h / 0x8000 = (if signbit z then 1 else 0) ∧
        ∀ k : Nat, k < 0x10000 → k % 0x8000 < 0x7C00 →
          distance h ≤ distance k ∧
            (distance h = distance k → ratOf (half32 h) ≠ ratOf (half32 k) → h % 2 = 0))

/-- Elements in and out (R191, R192, R195). Normalisation: on an integer depth the code over its range,
rounded once, of a 10- or 12-bit depth the bits of the code alone; on f16 the exact value of the code, a
NaN for a NaN; on f32 the bits. The stored element: a scaled value is cast as it is, a normalised one is
cast as it is on a float depth and after one rounded product with the range on an integer depth; so an
integer code survives both at one depth. -/
def Obligations.PixelElementsConvert : Prop :=
  (∀ (bd : BitDepth) (range : Nat) (range32 : F32),
    (bd, range, range32) ∈ [(BitDepth.u8, 255, 0x437F0000#32), (.u10, 1023, 0x447FC000#32),
      (.u12, 4095, 0x457FF000#32), (.u16, 65535, 0x477FFF00#32)] →
    (∀ k : Nat, k ≤ range → normalise bd k = fl32 ((k : ℚ) / range) ∧
      storeElement bd (.norm (normalise bd k)) = k) ∧
    (bd = .u10 ∨ bd = .u12 → ∀ e : Nat, normalise bd e = normalise bd (e % (range + 1))) ∧
    ∀ y : F32, storeElement bd (.norm y) = castTo bd (fmul y range32)) ∧
  (∀ h : Nat, h < 0x10000 →
    let x := normalise .f16 h
    let sign : ℚ := if h < 0x8000 then 1 else -1
    let ex := h / 0x400 % 0x20
    let frac := h % 0x400
    (ex = 0 → isFinite x = true ∧ ratOf x = sign * (frac * 2 ^ (-24 : Int))) ∧
    (0 < ex → ex < 0x1F →
      isFinite x = true ∧ ratOf x = sign * ((0x400 + frac) * 2 ^ ((ex : Int) - 25))) ∧
    (ex < 0x1F → signbit x = decide (0x8000 ≤ h)) ∧
    (ex = 0x1F → frac = 0 → x = if h < 0x8000 then 0x7F800000#32 else 0xFF800000#32) ∧
    (ex = 0x1F → frac ≠ 0 → isNaN x = true)) ∧
  (∀ w : Word, normalise .f32 w.toNat = w) ∧
  (∀ (od : BitDepth) (z : F32), storeElement od (.scaled z) = castTo od z) ∧
  ∀ (od : BitDepth) (y : F32), od = .f16 ∨ od = .f32 → storeElement od (.norm y) = castTo od y

/-! ### The APPLY frame and the vector forms (41_bitdepth_pixel_io.md R196 to R201) -/

/-- APPLY.MAT, APPLY.LOG, APPLY.LUT and APPLY.CRV (R196, R197, R198, R200): with every check passed,
each output element is the stored result of the unit's function on the pixel that the input buffer
held before the command, in-place buffers included; no other byte changes, the output bytes join the
write set, and no register but `cp` changes. -/
def Obligations.ApplyWritesEveryPixel : Prop :=
  ∀ (id : UnitId) (s : State) (n : Nat), (infoOf id s).valid = true → s.cfg.nPix.toInt = n →
    s.cfg.inPtr.toNat % (infoOf id s).inBd.esize = 0 →
    s.cfg.outPtr.toNat % (infoOf id s).outBd.esize = 0 →
    inBounds s.memMap s.cfg.inPtr.toNat (inBytes id s n) = true →
    inBounds s.memMap s.cfg.outPtr.toNat (outBytes id s n) = true →
    buffersApart id s n →
    ((infoOf id s).inBd.checked = true → ∀ k, k < 4 * n → codeFits id s k) →
    ∃ m w, exec (applyOf id) s = .next { s with mem := m, ws := w, cp := s.cp + 4 } ∧
      (∀ (p : Nat) (c : Fin 4) (k : Nat), p < n → k < (infoOf id s).outBd.esize →
        m.byte (elementAddr s.cfg.outPtr.toNat (infoOf id s).outBd.esize p c.val + k) =
          BitVec.ofNat 8 (outputElement id s p c / 256 ^ k)) ∧
      (∀ a, a < s.cfg.outPtr.toNat ∨ s.cfg.outPtr.toNat + outBytes id s n ≤ a →
        m.byte a = s.mem.byte a) ∧
      ∀ a, w.mem a = (s.ws.mem a ||
        (decide (s.cfg.outPtr.toNat ≤ a) && decide (a < s.cfg.outPtr.toNat + outBytes id s n)))

/-- The checks of an APPLY in their order, each with its error, and the pixel count 0, which ends
the command without an access (R196 steps 1 to 7, R198, R199; 60_exceptions.md R469). -/
def Obligations.ApplyChecksInOrder : Prop :=
  ∀ (id : UnitId) (s : State),
    let u := infoOf id s
    let inP := s.cfg.inPtr
    let outP := s.cfg.outPtr
    let n := s.cfg.nPix.toNat
    let raises (code : BitVec 8) (info : Word) : Prop :=
      exec (applyOf id) s = .next (erring code info s)
    let unitId : Word := match id with | .mat => 1 | .log => 2 | .lut => 3 | .crv => 4
    (u.valid = false → raises 0x09 unitId) ∧
    (u.valid = true →
      (s.cfg.nPix.toInt < 0 → raises 0x04 s.cfg.nPix) ∧
      (s.cfg.nPix = 0 → exec (applyOf id) s = .next { s with cp := s.cp + 4 }) ∧
      (0 < s.cfg.nPix.toInt →
        (inP.toNat % u.inBd.esize ≠ 0 → raises 0x02 inP) ∧
        (inP.toNat % u.inBd.esize = 0 →
          (outP.toNat % u.outBd.esize ≠ 0 → raises 0x02 outP) ∧
          (outP.toNat % u.outBd.esize = 0 →
            (inBounds s.memMap inP.toNat (inBytes id s n) = false → raises 0x03 inP) ∧
            (inBounds s.memMap inP.toNat (inBytes id s n) = true →
              (inBounds s.memMap outP.toNat (outBytes id s n) = false → raises 0x03 outP) ∧
              (inBounds s.memMap outP.toNat (outBytes id s n) = true →
                (¬buffersApart id s n → raises 0x05 outP) ∧
                (buffersApart id s n → u.inBd.checked = true →
                  ∀ k, k < 4 * n → ¬codeFits id s k → (∀ j, j < k → codeFits id s j) →
                    raises 0x0B (BitVec.ofNat 32 (inP.toNat + 2 * k)))))))))

/-- VMAT, VLOGK, VLUT and VCRV (R201): the unit's function on the pixel in vA, unconverted and with
the range of f32, goes to vD; a unit that is not configured raises ERR_NOT_CONFIGURED and vD is
unchanged; memory is not accessed. -/
def Obligations.VectorUnitCommands : Prop :=
  ∀ (id : UnitId) (vd va : VReg) (s : State),
    let unitId : Word := match id with | .mat => 1 | .log => 2 | .lut => 3 | .crv => 4
    ((infoOf id s).valid = true →
      exec (vectorOf id vd va) s = .next { s with
        v := s.v.set vd ((unitFun id .f32 s (s.v[va])).map ChanOut.bits)
        vw := s.vw.set vd true
        cp := s.cp + 4 }) ∧
    ((infoOf id s).valid = false →
      exec (vectorOf id vd va) s = .next (erring 0x09 unitId s))

/-- Latched depths and the descriptor snapshot (70_reset_and_hazards.md R508, R509): an APPLY or a
vector command of a unit behaves alike whatever CFG.IN_BD, CFG.OUT_BD and CFG.OPDATA_PTR hold. -/
def Obligations.ApplyIgnoresUpdRegisters : Prop :=
  ∀ (id : UnitId) (vd va : VReg) (s : State) (x y z : Word),
    let change (t : State) : State :=
      { t with cfg := { t.cfg with inBd := x, outBd := y, opdataPtr := z } }
    (∀ t, exec (applyOf id) s = .next t → exec (applyOf id) (change s) = .next (change t)) ∧
      ∀ t, exec (vectorOf id vd va) s = .next t → exec (vectorOf id vd va) (change s) = .next (change t)

/-! ### The matrix unit (42_matrix.md) -/

/-- Kind selection on the binary64 values (R233): diagonal exactly when every off-diagonal entry is
+0 or −0, offsets exactly when some offset is neither. -/
def Obligations.MatrixKindSelection : Prop :=
  ∀ d : MatOpData,
    let isZero (x : F64) : Prop := x = 0x0000000000000000#64 ∨ x = 0x8000000000000000#64
    let diagonal : Prop := ∀ r c : Fin 4, r ≠ c → isZero (channel (channel d.m r) c)
    let offsets : Prop := ∃ r : Fin 4, ¬isZero (channel d.off r)
    (d.kind = .diag ↔ diagonal ∧ ¬offsets) ∧ (d.kind = .diagOff ↔ diagonal ∧ offsets) ∧
      (d.kind = .full ↔ ¬diagonal ∧ ¬offsets) ∧ (d.kind = .fullOff ↔ ¬diagonal ∧ offsets)

/-- The unit function of the four kinds: one rounding per operation, sums in column order, then the
offset (R234, R235), each channel a normalised result (R192); so an identity diagonal matrix leaves every pixel without a NaN as it is, bit for
bit (R239). -/
def Obligations.MatrixEvaluation : Prop :=
  (∀ (u : MatUnit) (x : Quad) (r : Fin 4),
    let c := channel u.c r
    let row := fadd (fadd (fadd (fmul c.r x.r) (fmul c.g x.g)) (fmul c.b x.b)) (fmul c.a x.a)
    let diag := fmul (channel c r) (channel x r)
    channel (matFun u x) r = .norm (channel (matEval u x) r) ∧
    channel (matEval u x) r =
      match u.kind with
      | .diag => diag
      | .diagOff => fadd diag (channel u.o r)
      | .full => row
      | .fullOff => fadd row (channel u.o r)) ∧
  ∀ (u : MatUnit) (x : Quad), u.kind = .diag →
    (∀ r : Fin 4, channel (channel u.c r) r = 0x3F800000#32) →
    (∀ r : Fin 4, isNaN (channel x r) = false) → matEval u x = x

/-- UPD.MAT after the common checks (R232 steps 4 to 10, R236): its errors in order, and the
configured unit with every coefficient rounded once. -/
def Obligations.UpdMatConfigures : Prop :=
  ∀ (s : State) (ib ob : BitDepth), updReady s ib ob →
    let fails (code : BitVec 8) (info : Word) : Prop :=
      ∃ t, exec .updMat s = .next t ∧ failedUpdate .mat code info s t
    let clean := (headerFlags s).extractLsb' 1 31 = 0 ∧ headerSecond s = 0
    let field (k : Nat) : F64 := readF64 s.mem (s.cfg.opdataPtr.toNat + 8 + 8 * k)
    let row (r : Nat) : Lanes F64 :=
      ⟨field (4 * r), field (4 * r + 1), field (4 * r + 2), field (4 * r + 3)⟩
    let d : MatOpData := ⟨⟨row 0, row 1, row 2, row 3⟩, row 4⟩
    (¬clean → fails 0x08 12) ∧
    (clean → (headerFlags s).getLsbD 0 = true → fails 0x07 0) ∧
    (clean → (headerFlags s).getLsbD 0 = false →
      (¬descriptorMapped s 168 → fails 0x03 s.cfg.opdataPtr) ∧
      (descriptorMapped s 168 →
        exec .updMat s = .next { s with
          mat := ⟨true, ib, ob, d.kind, d.m.map (fun q => q.map fl32OfF64), d.off.map fl32OfF64⟩
          cp := s.cp + 4 }))

/-! ### Configuration of every unit (30_encoding.md R121 steps 1 and 2; 60_exceptions.md R463, R469) -/

/-- The checks that every UPD makes first, in order: the depth tags, the descriptor's alignment, its
header's bounds. A failing one leaves the unit not configured. -/
def Obligations.UpdCommonChecks : Prop :=
  ∀ (id : UnitId) (s : State),
    let a := s.cfg.opdataPtr
    let fails (code : BitVec 8) (info : Word) : Prop :=
      ∃ t, exec (updOf id) s = .next t ∧ failedUpdate id code info s t
    (bitDepthOf s.cfg.inBd = none ∨ bitDepthOf s.cfg.outBd = none → fails 0x06 1) ∧
    ∀ ib ob, bitDepthOf s.cfg.inBd = some ib → bitDepthOf s.cfg.outBd = some ob →
      (a.toNat % 8 ≠ 0 → fails 0x02 a) ∧
      (a.toNat % 8 = 0 → inBounds s.memMap a.toNat 8 = false → fails 0x03 a)

/-! ### The logarithm unit (43_log.md) -/

/-- The six kernels on one channel, operation by operation (R266 to R272); the unit applies to each
channel of the pixel that channel's own constants, leaves alpha as it is, and gives normalised results
(R260, R273, R274). -/
def Obligations.LogKernels : Prop :=
  (∀ (u : LogUnit) (x : Quad),
    logFun u x = ⟨.norm (logKernel u u.ch.r x.r), .norm (logKernel u u.ch.g x.g),
      .norm (logKernel u u.ch.b x.b), .norm x.a⟩) ∧
  ∀ (u : LogUnit) (c : LogChannel) (x : F32),
    let floored (t : F32) : F32 := if flt 0x00800000#32 t then t else 0x00800000#32
    let lin2log := fadd (fmul (fLog2 (floored (fadd (fmul x c.m) c.b))) c.k) c.logOff
    let log2lin := fdiv (fsub (fExp2 (fmul (fsub x c.logOff) c.kinv)) c.b) c.m
    logKernel u c x =
      match u.kernel with
      | .log => fmul (fLog2 (floored x)) u.logScale
      | .antilog => fExp2 (fmul x u.log2Base)
      | .lin2log => lin2log
      | .log2lin => log2lin
      | .camLin2log =>
        if flt x c.linBreak then fadd (fmul c.linearSlope x) c.linearOffset else lin2log
      | .camLog2lin =>
        if flt x c.logBreak then fdiv (fsub x c.linearOffset) c.linearSlope else log2lin

/-- The real logarithms behind the derived constants of R264: the intervals of `log2` of any positive
rational and of ln 2 hold the exact values and narrow with the precision; where intervals hold a real
value and one of the precisions used decides, the result is that value correctly rounded; and for
BASE = 10 both unit constants are the ones that R264 gives. -/
def Obligations.LogIntervalsHoldRealValues : Prop :=
  (∀ (p : Nat) (q : ℚ), 0 < q → Holds (log2Ival p q) (Real.logb 2 (q : ℝ)) ∧
    (log2Ival p q).hi - (log2Ival p q).lo ≤ 4 / 2 ^ p) ∧
  (∀ p : Nat, Holds (ln2Ival p) (Real.log 2) ∧
    (ln2Ival p).hi - (ln2Ival p).lo ≤ (p + 17) / 2 ^ (p + 16)) ∧
  (∀ (f : Nat → Ival) (r : ℝ), (∀ p, Holds (f p) r) →
    (∃ i, i ≤ 128 ∧ fl32 (f (96 * 2 ^ i)).lo = fl32 (f (96 * 2 ^ i)).hi) →
    CorrectlyRounded r (roundReal f)) ∧
  roundReal (lbIval 10) = 0x40549A78#32 ∧ roundReal (fun p => (lbIval 10 p).inv) = 0x3E9A209B#32

/-- UPD.LOG after the common checks (R262, R263, R264, R265): its errors in order, and the configured
unit: the kernel selected, each slope, offset and break of the descriptor rounded, and each computed
constant the rounding of its real value where its operands are numbers. The model's own choices in it:
where the value of check (d) is +∞ the check may pass or fail (log entry 14); the constants that are one
descriptor value, `m`, `b`, `logOff` and `linBreak`, keep the sign of a -0, which as a real value R264
would round to +0 (log entry 20), and take QNAN for a NaN and ±Inf for an infinity, of which R264 gives
no real value (log entry 14); and a value that no precision decided would be free (log entry 14). -/
def Obligations.UpdLogConfigures : Prop :=
  ∀ (s : State) (ib ob : BitDepth), updReady s ib ob →
    let fails (code : BitVec 8) (info : Word) : Prop :=
      ∃ t, exec .updLog s = .next t ∧ failedUpdate .log code info s t
    let flags := headerFlags s
    let inverse := flags.getLsbD 0
    let camera := flags.getLsbD 1
    let clean := flags.extractLsb' 2 30 = 0 ∧ headerSecond s = 0
    let base := readF64 s.mem (s.cfg.opdataPtr.toNat + 8)
    let baseGood := ∃ q, ratOfF64 base = some q ∧ 1 < q
    let field (c : Chan) (k : Nat) : F64 :=
      readF64 s.mem (s.cfg.opdataPtr.toNat + 16 +
        40 * (match c with | .r => 0 | .g => 1 | .b => 2) + 8 * k)
    let isNum (x : F64) (q : ℚ) : Prop := ratOfF64 x = some q
    let identity := ∀ c, isNum (field c 0) 1 ∧ isNum (field c 1) 0 ∧ isNum (field c 2) 1 ∧
      isNum (field c 3) 0
    let slopesGood := ∀ c, ¬isNum (field c 2) 0
    let linGood := ∀ c, ¬isNum (field c 0) 0
    let breakGood (c : Chan) : Prop := breakPositive (field c 0) (field c 4) (field c 1)
    let breakOpen (c : Chan) : Prop := breakInfinite (field c 0) (field c 4) (field c 1)
    let configured : Prop :=
      ∃ u : LogUnit, exec .updLog s =
          .next { s with log := u, free := s.free + 1, cp := s.cp + 4 } ∧
        u.valid = true ∧ u.inBd = ib ∧ u.outBd = ob ∧
        (camera = true → u.kernel = if inverse then .camLog2lin else .camLin2log) ∧
        (camera = false → identity → u.kernel = if inverse then .antilog else .log) ∧
        (camera = false → ¬identity → u.kernel = if inverse then .log2lin else .lin2log) ∧
        ∀ q, isNum base q →
          let lb : ℝ := Real.logb 2 q
          Rounded (fun p => (lbIval q p).inv) (1 / lb) u.logScale ∧
          Rounded (lbIval q) lb u.log2Base ∧
          ∀ c,
            let ch := u.ch.get c
            ch.m = fl32OfF64 (field c 0) ∧ ch.b = fl32OfF64 (field c 1) ∧
            ch.logOff = fl32OfF64 (field c 3) ∧
            (camera = true → ch.linBreak = fl32OfF64 (field c 4)) ∧
            ∀ l, isNum (field c 2) l →
              Rounded (fun p => (lbIval q p).inv.scale l) (l / lb) ch.k ∧
              Rounded (fun p => (lbIval q p).scale l⁻¹) (lb / l) ch.kinv ∧
              ∀ m b brk, camera = true → isNum (field c 0) m → isNum (field c 1) b →
                isNum (field c 4) brk →
                let arg : ℝ := ((m * brk + b : ℚ) : ℝ)
                let slope : ℝ := l * m / (arg * Real.log q)
                Rounded (linearSlopeIval q m b l brk) slope ch.linearSlope ∧
                ∀ o, isNum (field c 3) o →
                  let value : ℝ := l * Real.logb 2 arg / lb + o
                  Rounded (logBreakIval q m b l o brk) value ch.logBreak ∧
                  Rounded (linearOffsetIval q m b l o brk) (value - slope * brk) ch.linearOffset
    (¬clean → fails 0x08 12) ∧
    (clean → ¬descriptorMapped s 136 → fails 0x03 s.cfg.opdataPtr) ∧
    (clean → descriptorMapped s 136 →
      (¬baseGood → fails 0x08 7) ∧
      (baseGood → ¬slopesGood → fails 0x08 8) ∧
      (baseGood → slopesGood → ¬linGood → fails 0x08 9) ∧
      (baseGood → slopesGood → linGood →
        (camera = true → (∃ c, ¬breakGood c ∧ ¬breakOpen c) → fails 0x08 10) ∧
        (camera = true → (∀ c, breakGood c ∨ breakOpen c) → fails 0x08 10 ∨ configured) ∧
        (camera = false ∨ (∀ c, breakGood c) → configured)))

/-! ### The 1D-LUT unit, configuration (44_lut1d_forward.md R301 to R303) -/

/-- UPD.LUT's header checks after the common ones, in order (R303 steps 4 to 7). -/
def Obligations.UpdLutHeaderChecks : Prop :=
  ∀ (s : State) (ib ob : BitDepth), updReady s ib ob →
    let fails (code : BitVec 8) (info : Word) : Prop :=
      ∃ t, exec .updLut s = .next t ∧ failedUpdate .lut code info s t
    let flags := headerFlags s
    let n := (headerSecond s).toNat
    let clean := flags.extractLsb' 11 21 = 0
    let encodings := (flags.extractLsb' 3 2).toNat < 2 ∧ (flags.extractLsb' 5 2).toNat ≠ 3 ∧
      (flags.extractLsb' 7 4).toNat ≤ 5
    (¬clean → fails 0x08 12) ∧
    (clean → ¬encodings → fails 0x08 13) ∧
    (clean → encodings →
      (n = 0 → fails 0x08 1) ∧ (n = 1 → fails 0x08 2) ∧
      (65536 < n → fails 0x08 3) ∧
      (2 ≤ n → n < 65536 → flags.getLsbD 1 = true → fails 0x08 4) ∧
      (2 ≤ n → n ≤ 65536 → (flags.getLsbD 1 = true → n = 65536) →
        ¬descriptorMapped s (8 + 12 * n) → fails 0x03 s.cfg.opdataPtr))

/-- A table entry (R302): the descriptor value itself, or in raw-half mode the value of the code it
spells, which must be an integer in 0..65535. -/
def Obligations.RawHalfEntries : Prop :=
  ∀ w : F32, tableEntry false w = .ok w ∧
    (∀ k : Nat, isFinite w = true → ratOf w = k → k ≤ 65535 →
      tableEntry true w = .ok (f16ToF32 (BitVec.ofNat 16 k))) ∧
    ((¬∃ k : Nat, isFinite w = true ∧ ratOf w = k ∧ k ≤ 65535) →
      tableEntry true w = .error ⟨.invalidOpdata, 5⟩)

/-- UPD.LUT with a good header and its descriptor in the map (R303 steps 8 to 11): where some entry
is refused it fails with sub-reason 5; a forward table is configured with its entries in address
order; an inverse one also needs its inverse data, whose error it raises. -/
def Obligations.UpdLutConfigures : Prop :=
  ∀ (s : State) (ib ob : BitDepth), updReady s ib ob →
    let fails (code : BitVec 8) (info : Word) : Prop :=
      ∃ t, exec .updLut s = .next t ∧ failedUpdate .lut code info s t
    let flags := headerFlags s
    let n := (headerSecond s).toNat
    let raw := flags.getLsbD 2
    let half := flags.getLsbD 1
    let quality := (flags.extractLsb' 5 2).toNat
    let value (i c : Nat) : F32 := readWord s.mem (s.cfg.opdataPtr.toNat + 8 + 4 * (3 * i + c))
    let good (i c : Nat) : Prop := ∃ v, tableEntry raw (value i c) = .ok v
    flags.extractLsb' 11 21 = 0 → (flags.extractLsb' 3 2).toNat < 2 → quality ≠ 3 →
    (flags.extractLsb' 7 4).toNat ≤ 5 → 2 ≤ n → n ≤ 65536 → (half = true → n = 65536) →
    descriptorMapped s (8 + 12 * n) →
    ((∃ i c, i < n ∧ c < 3 ∧ ¬good i c) → fails 0x08 5) ∧
    ∀ v : Rgb (List F32), v.r.length = n → v.g.length = n → v.b.length = n →
      (∀ i, i < n → tableEntry raw (value i 0) = .ok (entry v.r i) ∧
        tableEntry raw (value i 1) = .ok (entry v.g i) ∧
        tableEntry raw (value i 2) = .ok (entry v.b i)) →
      let configured (mode : LutMode) : Prop :=
        exec .updLut s = .next { s with
          lut := ⟨true, ib, ob, mode, n, half,
            if (flags.extractLsb' 3 2).toNat = 1 then .dw3 else .none, v⟩
          cp := s.cp + 4 }
      (flags.getLsbD 0 = false → configured .fwd) ∧
      (flags.getLsbD 0 = true →
        (∀ e, buildInverse half v = .error e → fails 0x08 6) ∧
        ∀ inverse, buildInverse half v = .ok inverse →
          configured (if quality = 0 then .invFast inverse (buildFast n v inverse)
            else .invExact inverse))

/-! ### The 1D-LUT unit, evaluation (44_lut1d_forward.md, 45_lut1d_inverse.md) -/

/-- The forward kernel of the normal domain (R304, R305): a NaN and every x ≤ 0 give the first entry,
every x ≥ 1 the last; between, with s = x·(N−1) rounded, the entry at an integer s, and otherwise the
interpolation of the two entries around s, each operation rounded. -/
def Obligations.ForwardLutInterpolates : Prop :=
  ∀ (n : Nat) (v : List F32) (x : F32), 2 ≤ n → n ≤ 65536 →
    (isNaN x = true ∨ fle x 0#32 = true → fwdNormal n v x = entry v 0) ∧
    (fle 0x3F800000#32 x = true → fwdNormal n v x = entry v (n - 1)) ∧
    (flt 0#32 x = true → flt x 0x3F800000#32 = true →
      let s := fmul x (fl32Int (n - 1 : Nat))
      0 < ratOf s ∧ ratOf s ≤ (n - 1 : Nat) ∧
      ∀ i : Nat, (i : ℚ) ≤ ratOf s → ratOf s < i + 1 →
        (ratOf s = i → fwdNormal n v x = entry v i) ∧
        (ratOf s ≠ i →
          let f := fsub s (fl32Int i)
          ratOf f = ratOf s - i ∧
          fwdNormal n v x =
            fadd (fmul (fsub 0x3F800000#32 f) (entry v i)) (fmul f (entry v (i + 1)))))

/-- The forward kernel of the half domain (R304, R306, R307, R308): the value of a finite code hits its
own entry, a NaN the entry of +0, everything from ±HALF_MAX outwards the last finite entries; and a
value strictly between two neighbouring codes the interpolation of their entries, each operation
rounded. -/
def Obligations.HalfDomainInterpolates : Prop :=
  ∀ v : List F32,
    (∀ h : Nat, h < 65536 → h % 0x8000 < 0x7C00 → fwdHalf v (half32 h) = entry v h) ∧
    ∀ x : F32, (isNaN x = true → fwdHalf v x = entry v 0) ∧
      (fle 0x477FE000#32 x = true → fwdHalf v x = entry v 0x7BFF) ∧
      (fle x 0xC77FE000#32 = true → fwdHalf v x = entry v 0xFBFF) ∧
      ∀ lo hi : Nat, (hi = lo + 1 ∧ hi ≤ 0x7BFF) ∨ (lo = hi + 1 ∧ 0x8000 ≤ hi ∧ lo ≤ 0xFBFF) →
        flt (half32 lo) x = true → flt x (half32 hi) = true →
        let f := fdiv (fsub x (half32 lo)) (fsub (half32 hi) (half32 lo))
        fwdHalf v x =
          fadd (fmul (fsub 0x3F800000#32 f) (entry v lo)) (fmul f (entry v hi))

/-- The hue order and the hue fixup (R309, R310). Without a NaN the order sorts the three channels and
is the entry of R309's table at the key of the strict comparisons, ties included; with one it is the
canonical order. The fixup replaces the middle channel of a result and no other. -/
def Obligations.HueOrderAndFixup : Prop :=
  (∀ x : Rgb F32,
    let o := hueOrder x
    let bit (b : Bool) : Nat := if b then 1 else 0
    let table : List HueOrder := [⟨.b, .g, .r⟩, ⟨.b, .g, .r⟩, ⟨.g, .b, .r⟩, ⟨.g, .r, .b⟩,
      ⟨.b, .r, .g⟩, ⟨.r, .b, .g⟩, ⟨.b, .g, .r⟩, ⟨.r, .g, .b⟩]
    (isNaN x.r = false → isNaN x.g = false → isNaN x.b = false →
      fle (x.get o.imin) (x.get o.imid) = true ∧ fle (x.get o.imid) (x.get o.imax) = true ∧
        o.imin ≠ o.imid ∧ o.imid ≠ o.imax ∧ o.imin ≠ o.imax ∧
        table[4 * bit (flt x.g x.r) + 2 * bit (flt x.b x.g) + bit (flt x.b x.r)]? = some o) ∧
    (isNaN x.r = true ∨ isNaN x.g = true ∨ isNaN x.b = true → o = ⟨.b, .g, .r⟩)) ∧
  ∀ x y : Rgb F32, hueAdjust .none x y = y ∧
    let o := hueOrder x
    let z := hueAdjust .dw3 x y
    let chroma := fsub (x.get o.imax) (x.get o.imin)
    let hf := if feq chroma 0#32 then 0#32 else fdiv (fsub (x.get o.imid) (x.get o.imin)) chroma
    z.get o.imax = y.get o.imax ∧ z.get o.imin = y.get o.imin ∧
      z.get o.imid = fadd (fmul hf (fsub (y.get o.imax) (y.get o.imin))) (y.get o.imin)

/-- The monotonised copy (R352): it starts with the flipped first entry, is non-decreasing, and each
entry is the larger of the entry before it and the flipped entry of the table. -/
def Obligations.MonotoneCopyRises : Prop :=
  ∀ (w : List F32) (increasing : Bool), w ≠ [] → (∀ x ∈ w, isNaN x = false) →
    let flip := flipOf increasing
    let u := monotoneCopy flip w
    u.length = w.length ∧ entry u 0 = fmul flip (entry w 0) ∧
      ∀ i, i + 1 < w.length →
        fle (entry u i) (entry u (i + 1)) = true ∧
        fle (fmul flip (entry w (i + 1))) (entry u (i + 1)) = true ∧
        (entry u (i + 1) = entry u i ∨ entry u (i + 1) = fmul flip (entry w (i + 1)))

/-- The effective domain (R353): its start is the least index that differs from the next, its end the
greatest that differs from the one before. -/
def Obligations.EffectiveDomainEnds : Prop :=
  ∀ (u : List F32) (b e : Nat), effectiveDomain u = some (b, e) ↔ EffectiveEnds u b e

/-- The inverse data of a table (R350 to R357): it is built exactly where no channel holds a NaN among
the entries that the inverse uses and every channel has an effective domain, one half of it at least
in the half domain; it is then the data that the rules describe; and the one error is
ERR_INVALID_OPDATA(6). -/
def Obligations.InverseDataBuilt : Prop :=
  ∀ v : Rgb (List F32),
    ((∃ d, buildInverse false v = .ok d) ↔ ∀ c, InvertibleNormal (v.get c)) ∧
    (∀ d, buildInverse false v = .ok d → ∃ x, d = .normal x ∧ ∀ c, NormalData (v.get c) (x.get c)) ∧
    ((∀ c, (v.get c).length = 65536) →
      ((∃ d, buildInverse true v = .ok d) ↔ ∀ c, InvertibleHalf (v.get c)) ∧
      ∀ d, buildInverse true v = .ok d → ∃ x, d = .half x ∧ ∀ c, HalfData (v.get c) (x.get c)) ∧
    ∀ half e, buildInverse half v = .error e → e = ⟨.invalidOpdata, 6⟩

/-- The search (R358) on a non-decreasing domain without a NaN: at the domain's start, or the first
entry that is not below the clamped value, with the entry before it and the fraction between them. -/
def Obligations.SearchBrackets : Prop :=
  ∀ (u : List F32) (b e : Nat) (t : F32), b ≤ e → e < u.length →
    (∀ i, b ≤ i → i ≤ e → isNaN (entry u i) = false) →
    (∀ i, b ≤ i → i < e → fle (entry u i) (entry u (i + 1)) = true) →
    let cv := clampf t (entry u b) (entry u e)
    let f := search u b e t
    (f.lo = b ∧ f.hi = b ∧ f.delta = 0#32 ∧ fle cv (entry u b) = true) ∨
      (b ≤ f.lo ∧ f.hi = f.lo + 1 ∧ f.hi ≤ e ∧ fle cv (entry u f.hi) = true ∧
        (∀ i, b ≤ i → i ≤ f.lo → flt (entry u i) cv = true) ∧
        f.delta = fdiv (fsub cv (entry u f.lo)) (fsub (entry u f.hi) (entry u f.lo)))

/-- The channel inverses and the unit function (R359, R361, R314, R360, R365): the scaled value of the
normal domain, the half-domain interpolation on the side that the pivot selects, and in each mode the
channels with the hue adjust, alpha untouched. The fast table (R362 to R364): 65536 half codes where an
end of an effective domain lies outside [0, 1], else 4096 even steps, and at each the exact channel
inverse for an f32 output. -/
def Obligations.InverseLutEvaluation : Prop :=
  (∀ (n range : Nat) (c : NormalInverse) (x : F32),
    let f := search c.u c.startDomain c.endDomain (fmul c.flip x)
    invNormal n range c x =
      fmul (fadd (fl32Int f.lo) f.delta) (fl32 ((range : ℚ) / (n - 1 : Nat)))) ∧
  (∀ (c : HalfInverse) (x : F32),
    let side (u : List F32) (first last base : Nat) (flip : F32) : F32 :=
      let f := search u first last (fmul flip x)
      fadd (half32 (base + f.lo))
        (fmul f.delta (fsub (half32 (base + f.hi)) (half32 (base + f.lo))))
    invHalf c x =
      if fle (fmul c.flip c.bisectPoint) (fmul c.flip x) then
        side c.uP c.startDomain c.endDomain 0 c.flip
      else
        side c.uQ (c.negStartDomain - 0x8000) (c.negEndDomain - 0x8000) 0x8000 (fneg c.flip)) ∧
  (∀ (u : LutUnit) (od : BitDepth) (x : Quad),
    let forward (n : Nat) (half : Bool) (v : Rgb (List F32)) : Lanes ChanOut :=
      let g (c : Chan) : F32 :=
        if half then fwdHalf (v.get c) (x.rgb.get c) else fwdNormal n (v.get c) (x.rgb.get c)
      let y := hueAdjust u.hue x.rgb ⟨g .r, g .g, g .b⟩
      ⟨.norm y.r, .norm y.g, .norm y.b, .norm x.a⟩
    (u.mode = .fwd → lutFun u od x = forward u.n u.half u.v) ∧
    (∀ inv fast, u.mode = .invFast inv fast → lutFun u od x = forward fast.fN fast.fhalf fast.fv) ∧
    (∀ c, u.mode = .invExact (.normal c) →
      let g (i : Chan) : F32 := invNormal u.n od.range (c.get i) (x.rgb.get i)
      let y := hueAdjust u.hue x.rgb ⟨g .r, g .g, g .b⟩
      lutFun u od x = ⟨.scaled y.r, .scaled y.g, .scaled y.b, .norm x.a⟩) ∧
    ∀ c, u.mode = .invExact (.half c) →
      let g (i : Chan) : F32 := invHalf (c.get i) (x.rgb.get i)
      let y := hueAdjust u.hue x.rgb ⟨g .r, g .g, g .b⟩
      lutFun u od x = ⟨.norm y.r, .norm y.g, .norm y.b, .norm x.a⟩) ∧
  ∀ (n : Nat) (v : Rgb (List F32)) (inv : InverseData),
    let outside (x : F32) : Prop := flt x 0#32 = true ∨ flt 0x3F800000#32 x = true
    let wide : Prop :=
      match inv with
      | .normal d => ∃ c, outside (entry (v.get c) (d.get c).startDomain) ∨
          outside (entry (v.get c) (d.get c).endDomain)
      | .half d => ∃ c, outside (entry (v.get c) (d.get c).startDomain) ∨
          outside (entry (v.get c) (d.get c).endDomain) ∨
          outside (entry (v.get c) (d.get c).negStartDomain) ∨
          outside (entry (v.get c) (d.get c).negEndDomain)
    let inverse (c : Chan) (x : F32) : F32 :=
      match inv with
      | .normal d => invNormal n 1 (d.get c) x
      | .half d => invHalf (d.get c) x
    let t := buildFast n v inv
    (wide → t.fN = 65536 ∧ t.fhalf = true ∧ ∀ c, (t.fv.get c).length = 65536 ∧
      ∀ h, h < 65536 → entry (t.fv.get c) h = inverse c (half32 h)) ∧
    (¬wide → t.fN = 4096 ∧ t.fhalf = false ∧ ∀ c, (t.fv.get c).length = 4096 ∧
      ∀ j, j < 4096 → entry (t.fv.get c) j = inverse c (fl32 ((j : ℚ) / 4095)))

/-! ### The tone-curve unit (46_tone_curves.md) -/

/-- UPD.CRV after the common checks (R119, R401, R402): its errors in order, and the configured unit with
the style of the code and its derived parameters. Each row of R119 is a code, its style and its number of
parameters. The model's choice: a parameter that is one descriptor value keeps the sign of a -0 (log
entry 20), a NaN and an infinity (log entry 14). -/
def Obligations.UpdCrvConfigures : Prop :=
  ∀ (s : State) (ib ob : BitDepth), updReady s ib ob →
    let fails (code : BitVec 8) (info : Word) : Prop :=
      ∃ t, exec .updCrv s = .next t ∧ failedUpdate .crv code info s t
    let param (k : Nat) : F64 := readF64 s.mem (s.cfg.opdataPtr.toNat + 8 + 8 * k)
    let positive (x : F64) : Prop := ∃ q, ratOfF64 x = some q ∧ 0 < q
    let rows : List (Nat × CurveStyle × Nat) :=
      [(0, .darkToDimFwd, 0), (1, .darkToDimInv, 0), (2, .rec2100Fwd, 1), (3, .rec2100Inv, 1),
        (4, .linToPq, 0), (5, .pqToLin, 0), (6, .linToGammaLog, 10), (7, .gammaLogToLin, 10),
        (8, .linToDoubleLog, 13), (9, .doubleLogToLin, 13), (10, .tonescale, 5)]
    (10 < (headerFlags s).toNat → fails 0x06 2) ∧
    ∀ (style : CurveStyle) (n : Nat), ((headerFlags s).toNat, style, n) ∈ rows →
      let good : Prop :=
        (style = .rec2100Fwd ∨ style = .rec2100Inv → positive (param 0)) ∧
          (style = .tonescale → positive (param 1) ∧ ∀ k, k < 5 → ∃ q, ratOfF64 (param k) = some q)
      ((headerSecond s).toNat ≠ n → fails 0x08 11) ∧
      ((headerSecond s).toNat = n →
        (¬descriptorMapped s (8 + 8 * n) → fails 0x03 s.cfg.opdataPtr) ∧
        (descriptorMapped s (8 + 8 * n) →
          (¬good → fails 0x08 14) ∧
          (good →
            ∃ p : Vector F32 13, exec .updCrv s = .next { s with
                crv := ⟨true, ib, ob, style, p⟩, free := s.free + 1, cp := s.cp + 4 } ∧
              (style = .darkToDimFwd → p[0] = fl32 (9811 / 10000 - 1)) ∧
              (style = .darkToDimInv → p[0] = fl32 (10193 / 10000 - 1)) ∧
              (∀ q, ratOfF64 (param 0) = some q →
                (style = .rec2100Fwd → p[0] = fl32 (q - 1)) ∧
                (style = .rec2100Inv → p[0] = fl32 (1 / q - 1))) ∧
              (5 ≤ n → ∀ k : Fin 13, k.val < n → p[k] = fl32OfF64 (param k.val)))))

/-- The curves channel by channel (R404 to R412), alpha untouched (R400), each a normalised result
(R192). -/
def Obligations.CurveFormulas : Prop :=
  ∀ (u : CrvUnit) (x : Quad),
    let y := curveEval u x
    let atLeast (lo t : F32) : F32 := if flt lo t then t else lo
    let surround (w : Rgb F32) : Rgb F32 :=
      let fac := refPow
        (atLeast yFloor (fadd (fadd (fmul w.r x.r) (fmul w.g x.g)) (fmul w.b x.b))) u.p[0]
      ⟨fmul x.r fac, fmul x.g fac, fmul x.b fac⟩
    let tone (c : F32) : F32 :=
      let yc := atLeast 0#32 c
      let f := fmul u.p[0] (refPow (fdiv yc (fadd yc u.p[1])) u.p[2])
      fmul (atLeast 0#32 (fdiv (fmul f f) (fadd f u.p[3]))) u.p[4]
    let m1 := fl32 0.1593017578125
    let m2 := fl32 78.84375
    let c1 := fl32 0.8359375
    let c2 := fl32 18.8515625
    let c3 := fl32 18.6875
    let im1 := fl32 (1 / 0.1593017578125)
    let im2 := fl32 (1 / 78.84375)
    let pq (c : F32) : F32 :=
      let lm := refPow (fdiv (fabs c) pqNorm) m1
      copysign (refPow (fdiv (fadd c1 (fmul c2 lm)) (fadd 0x3F800000#32 (fmul c3 lm))) m2) c
    let pqInv (c : F32) : F32 :=
      let t := refPow (fabs c) im2
      copysign (fmul (refPow (fdiv (atLeast 0#32 (fsub t c1)) (fsub c2 (fmul c3 t))) im1) pqNorm) c
    curveFun u x = ⟨.norm y.r, .norm y.g, .norm y.b, .norm y.a⟩ ∧
    y.a = x.a ∧
      y.rgb =
        match u.style with
        | .darkToDimFwd => surround dtdW
        | .darkToDimInv => surround dtdW
        | .rec2100Fwd => surround r2100W
        | .rec2100Inv => surround r2100W
        | .linToPq => x.rgb.map pq
        | .pqToLin => x.rgb.map pqInv
        | .linToGammaLog => x.rgb.map (gammaLog.fwd (u.p.toList.take 10))
        | .gammaLogToLin => x.rgb.map (gammaLog.inv (u.p.toList.take 10))
        | .linToDoubleLog => x.rgb.map (doubleLog.fwd (u.p.toList.take 13))
        | .doubleLogToLin => x.rgb.map (doubleLog.inv (u.p.toList.take 13))
        | .tonescale => x.rgb.map tone

/-- What the reference functions and the OPEN curves keep, whatever they are (R403, R410, R411, R416):
the exact points of the power, the bounds of power and logarithms, the round trips on their documented
domains (which the spec does not give: log entries 8 and 12), and a Rec.2100 surround with gamma = 1 that
leaves a pixel without a NaN as it is, of infinite luminance too (R416(b); log entries 11 and 12). -/
def Obligations.CurveFunctionsMeetRequirements : Prop :=
  (∀ x y : F32, isFinite x = true ∨ x = 0x7F800000#32 →
    (feq y 0#32 = true → refPow x y = 0x3F800000#32) ∧
    (flt 0#32 y = true → refPow 0#32 y = 0#32)) ∧
  (PowPrecise refPow ∧ LogPrecise (Real.logb 2) refLogs.rlog2 ∧ LogPrecise Real.log refLogs.rlog) ∧
  (∀ x : F32, refMath.pqDomain x = true → ReturnsTo (pqToLin (linToPq x)) x) ∧
  (∀ (p : List F32) (x : F32), p.length = 10 → gammaLog.domain p x = true →
    ReturnsTo (gammaLog.inv p (gammaLog.fwd p x)) x) ∧
  (∀ (p : List F32) (x : F32), p.length = 13 → doubleLog.domain p x = true →
    ReturnsTo (doubleLog.inv p (doubleLog.fwd p x)) x) ∧
  ∀ (u : CrvUnit) (x : Quad), u.style = .rec2100Fwd → u.p[0] = 0#32 →
    isNaN x.r = false → isNaN x.g = false → isNaN x.b = false → curveEval u x = x

/-! ### The whole machine -/

/-- Every command answers a next state from every state, in one of three ways: it completes and `cp`
advances with the status and error registers as they were; it is HALT; or it enters an error that
the command can raise (47_control.md R440, R445; 60_exceptions.md R460, R465, R470). That no state makes
a command stop is the model's choice in two places: a register that nothing has written reads its reset
value (log entry 1), where R33 and R484 have a model fault, and the OPEN curves are supplied (log
entry 8). -/
def Obligations.EveryCommandAnswersNext : Prop :=
  ∀ (i : Instr) (s : State), ∃ t, exec i s = .next t ∧
    ((i ≠ .halt ∧ t.cp = s.cp + 4 ∧ t.status = s.status ∧ t.errCp = s.errCp ∧
        t.errInfo = s.errInfo) ∨
      (i = .halt ∧ t.cp = s.cp ∧ t.status = { s.status with busy := false, done := true } ∧
        t.errCp = s.errCp ∧ t.errInfo = s.errInfo) ∨
      (t.cp = s.cp ∧ t.errCp = cpWord s.cp ∧ t.status.busy = false ∧
        t.status.done = s.status.done ∧ t.status.err = true ∧
        (t.status.errCode ∈ raises i ∨ i.wellFormed = false)))

/-- Error entry is precise (R470, R471): where a command raises an error, no register, memory byte,
CFG value or write-set byte changes; only STATUS, ERR_CP, ERR_INFO do, and a failing UPD leaves its
own unit not configured. -/
def Obligations.ErrorsArePrecise : Prop :=
  ∀ (i : Instr) (s t : State), s.status.err = false → exec i s = .next t → t.status.err = true →
    t.status.busy = false ∧ t.status.done = s.status.done ∧ t.errCp = cpWord s.cp ∧
      t.v = s.v ∧ t.vw = s.vw ∧ t.cp = s.cp ∧ t.cmdPtr = s.cmdPtr ∧ t.cfg = s.cfg ∧ t.ws = s.ws ∧
      t.mem = s.mem ∧ t.memMap = s.memMap ∧ t.inputs = s.inputs ∧ t.footprint = s.footprint ∧
      (if i = .updMat then t.mat.valid = false else t.mat = s.mat) ∧
      (if i = .updLog then t.log.valid = false else t.log = s.log) ∧
      (if i = .updLut then t.lut.valid = false else t.lut = s.lut) ∧
      (if i = .updCrv then t.crv.valid = false else t.crv = s.crv)

/-- What each command can change (10_state.md R32, R33; 41_bitdepth_pixel_io.md R196, R203, R204;
47_control.md R446): vector registers outside its destinations, CFG but for WRCFG, units but for
their own UPD, and memory and the write set outside the region it stores to stay as they are; no
command changes CMD_PTR, the map or the schedule. -/
def Obligations.CommandFrame : Prop :=
  ∀ (i : Instr) (s t : State), exec i s = .next t →
    (∀ r : VReg, r ∉ destinations i → t.v[r] = s.v[r] ∧ t.vw[r] = s.vw[r]) ∧
      ((∀ va cfg, i ≠ .wrcfg va cfg) → t.cfg = s.cfg) ∧
      (i ≠ .updMat → t.mat = s.mat) ∧ (i ≠ .updLog → t.log = s.log) ∧
      (i ≠ .updLut → t.lut = s.lut) ∧ (i ≠ .updCrv → t.crv = s.crv) ∧
      (∀ a, ¬storesTo i s a → t.mem.byte a = s.mem.byte a ∧ t.ws.mem a = s.ws.mem a) ∧
      t.cmdPtr = s.cmdPtr ∧ t.memMap = s.memMap ∧ t.inputs = s.inputs ∧ t.footprint = s.footprint

/-- The machine after reset meets the invariant and every step keeps it: memory, map and write set in
canonical form, STATUS as R39 says, `cp` a multiple of 4 up to 2^32, a configured LUT with tables and
inverse data of its length. -/
def Obligations.StepKeepsInvariant : Prop :=
  inv State.reset = true ∧ ∀ s t : State, inv s = true → step s = .next t → inv t = true

/-- Every run ends (47_control.md R440): from a state that meets the invariant, with no host move
waiting, some number of engine turns up to 2^30 + 1 leaves the engine idle. -/
def Obligations.EveryRunEnds : Prop :=
  ∀ s : State, inv s = true → s.inputs = [] →
    ∃ (k : Nat) (t : State), k ≤ 2 ^ 30 + 1 ∧ Host.Core.run Sys2Proof.core k s = .next t ∧
      t.status.busy = false

end PxmStatements
end

