-- ==== Sys2Proof/Laws/Memory.lean ====
section
/-!
SUPPORT. What the memory operations do: a read after a write, what a write leaves alone, the
little-endian composition of bytes, and the canonical form that every operation keeps.
-/
namespace Sys2Proof.Machine

/-! ### One byte -/

theorem Memory.byte_filter (m : Memory) (a x : Nat) :
    Memory.byte (m.filter fun c => c.1 != a) x = if x = a then unlistedByte else Memory.byte m x := by
  induction m with
  | nil => simp [Memory.byte]
  | cons c t ih =>
    obtain ⟨k, b⟩ := c
    by_cases h : k = a
    · subst h
      simp only [bne_self_eq_false, Bool.false_eq_true, not_false_eq_true, List.filter_cons_of_neg,
        ih, Memory.byte]
      split
      · rfl
      · rw [if_neg (by omega)]
    · rw [List.filter_cons_of_pos (by simpa using h)]
      simp only [Memory.byte, ih]
      split
      · rw [if_neg (by omega)]
      · rfl

theorem Memory.byte_place (m : Memory) (a x : Nat) (b : Byte) (h : ∀ c ∈ m, c.1 ≠ a) :
    Memory.byte (Memory.place a b m) x = if x = a then b else Memory.byte m x := by
  induction m with
  | nil => simp only [Memory.place, Memory.byte, eq_comm]
  | cons c t ih =>
    obtain ⟨k, d⟩ := c
    have hk : k ≠ a := h (k, d) (by simp)
    unfold Memory.place
    split
    · simp only [Memory.byte, eq_comm (a := a)]
    · simp only [Memory.byte, ih fun c hc => h c (by simp [hc])]
      split
      · rw [if_neg (by omega)]
      · rfl

/-- Reading a byte after a one-byte write, at any address. -/
theorem Memory.byte_setByte (m : Memory) (a x : Nat) (b : Byte) :
    Memory.byte (m.setByte a b) x = if x = a then b else Memory.byte m x := by
  unfold Memory.setByte
  split
  · next h => rw [Memory.byte_filter, h]
  · rw [Memory.byte_place _ _ _ _ (by simp), Memory.byte_filter]
    split <;> rfl

@[simp] theorem Memory.byte_setByte_self (m : Memory) (a : Nat) (b : Byte) :
    Memory.byte (m.setByte a b) a = b := by simp [Memory.byte_setByte]

theorem Memory.byte_setByte_ne (m : Memory) (a x : Nat) (b : Byte) (h : x ≠ a) :
    Memory.byte (m.setByte a b) x = Memory.byte m x := by simp [Memory.byte_setByte, h]

/-! ### Several bytes -/

/-- Reading a byte after a write of several, at any address. -/
theorem Memory.byte_setBytes (m : Memory) (a x : Nat) (bs : List Byte) :
    Memory.byte (m.setBytes a bs) x =
      if a ≤ x ∧ x < a + bs.length then bs.getD (x - a) 0 else Memory.byte m x := by
  induction bs generalizing m a with
  | nil => simp [Memory.setBytes]
  | cons b bs ih =>
    rw [Memory.setBytes, ih, Memory.byte_setByte]
    by_cases hx : x = a
    · subst hx; simp
    · by_cases h : a + 1 ≤ x ∧ x < a + 1 + bs.length
      · rw [if_pos h, if_pos (by simp; omega)]
        obtain ⟨d, rfl⟩ : ∃ d, x = a + (d + 1) := ⟨x - a - 1, by omega⟩
        simp [show a + (d + 1) - (a + 1) = d by omega, show a + (d + 1) - a = d + 1 by omega]
      · rw [if_neg h, if_neg hx, if_neg (by simp; omega)]

theorem Memory.byte_setBytes_outside (m : Memory) (a x : Nat) (bs : List Byte)
    (h : x < a ∨ a + bs.length ≤ x) : Memory.byte (m.setBytes a bs) x = Memory.byte m x := by
  rw [Memory.byte_setBytes, if_neg (by omega)]

@[simp] theorem length_leBytes (n v : Nat) : (leBytes n v).length = n := by
  induction n generalizing v with
  | zero => rfl
  | succ n ih => simp [leBytes, ih]

theorem getD_leBytes (n v i : Nat) (h : i < n) :
    (leBytes n v).getD i 0 = BitVec.ofNat 8 (v / 256 ^ i) := by
  induction n generalizing v i with
  | zero => omega
  | succ n ih =>
    cases i with
    | zero => simp [leBytes]
    | succ i =>
      simp only [leBytes, List.getD_cons_succ]
      rw [ih _ _ (by omega), Nat.div_div_eq_div_mul, pow_succ, Nat.mul_comm]

/-- Reading a byte after a little-endian write of `n` bytes, at any address (20_memory.md R72). -/
theorem byte_memWrite (m : Memory) (a n v x : Nat) :
    (memWrite m a n v).byte x =
      if a ≤ x ∧ x < a + n then BitVec.ofNat 8 (v / 256 ^ (x - a)) else m.byte x := by
  rw [memWrite, Memory.byte_setBytes, length_leBytes]
  split
  · rw [getD_leBytes _ _ _ (by omega)]
  · rfl

theorem byte_memWrite_outside (m : Memory) (a n v x : Nat) (h : x < a ∨ a + n ≤ x) :
    (memWrite m a n v).byte x = m.byte x := by
  rw [byte_memWrite, if_neg (by omega)]

/-! ### Little-endian numbers -/

theorem leNat_lt (bs : List Byte) : leNat bs < 256 ^ bs.length := by
  induction bs with
  | nil => simp [leNat]
  | cons b bs ih =>
    have := b.isLt
    simp only [leNat, List.length_cons, pow_succ]
    omega

theorem leNat_leBytes (n v : Nat) : leNat (leBytes n v) = v % 256 ^ n := by
  induction n generalizing v with
  | zero => simp [leBytes, leNat, Nat.mod_one]
  | succ n ih =>
    simp only [leBytes, leNat, ih, BitVec.toNat_ofNat]
    rw [pow_succ (256 : Nat) n, Nat.mul_comm (256 ^ n) 256, Nat.mod_mul]

theorem memRead_lt (m : Memory) (a n : Nat) : memRead m a n < 256 ^ n := by
  have := leNat_lt (m.bytes a n)
  simpa [memRead, Memory.bytes] using this

/-- A read depends on the bytes of its region only. -/
theorem memRead_congr (m m' : Memory) (a n : Nat)
    (h : ∀ x, a ≤ x → x < a + n → m.byte x = m'.byte x) : memRead m a n = memRead m' a n := by
  unfold memRead Memory.bytes
  congr 1
  apply List.map_congr_left
  intro i hi
  have := List.mem_range.1 hi
  exact h _ (by omega) (by omega)

theorem memRead_zero (m : Memory) (a : Nat) : memRead m a 0 = 0 := rfl

theorem memRead_succ (m : Memory) (a n : Nat) :
    memRead m a (n + 1) = (m.byte a).toNat + 256 * memRead m (a + 1) n := by
  simp only [memRead, Memory.bytes, List.range_succ_eq_map, List.map_cons, leNat, List.map_map]
  congr 3
  apply List.map_congr_left
  intro i _
  simp only [Function.comp, Nat.succ_eq_add_one]
  congr 1
  omega

/-- A byte of a read value. -/
theorem byte_of_memRead (m : Memory) (a n i : Nat) (h : i < n) :
    m.byte (a + i) = BitVec.ofNat 8 (memRead m a n / 256 ^ i) := by
  induction n generalizing a i with
  | zero => omega
  | succ n ih =>
    have hb := (m.byte a).isLt
    rw [memRead_succ]
    cases i with
    | zero =>
      apply BitVec.eq_of_toNat_eq
      simp only [Nat.add_zero, pow_zero, Nat.div_one, BitVec.toNat_ofNat]
      omega
    | succ i =>
      rw [show a + (i + 1) = a + 1 + i by omega, ih (a + 1) i (by omega), pow_succ,
        Nat.mul_comm (256 ^ i) 256, ← Nat.div_div_eq_div_mul]
      congr 2
      omega

/-- A read of a region that bytes of a number fill. -/
theorem memRead_of_bytes (m : Memory) (a n v : Nat)
    (h : ∀ i, i < n → m.byte (a + i) = BitVec.ofNat 8 (v / 256 ^ i)) :
    memRead m a n = v % 256 ^ n := by
  rw [← leNat_leBytes]
  unfold memRead
  congr 1
  apply List.ext_getElem
  · simp [Memory.bytes]
  · intro i h1 h2
    have hi : i < n := by simpa [Memory.bytes] using h1
    have := getD_leBytes n v i hi
    rw [List.getD_eq_getElem _ _ (by simpa using hi)] at this
    rw [this]
    simpa [Memory.bytes] using h i hi

/-- A read after a write of the same place. -/
theorem memRead_memWrite (m : Memory) (a n v : Nat) :
    memRead (memWrite m a n v) a n = v % 256 ^ n := by
  apply memRead_of_bytes
  intro i hi
  rw [byte_memWrite, if_pos (by omega), Nat.add_sub_cancel_left]

/-- A read of a place that a write does not touch. -/
theorem memRead_memWrite_disjoint (m : Memory) (a n v b k : Nat) (h : b + k ≤ a ∨ a + n ≤ b) :
    memRead (memWrite m a n v) b k = memRead m b k := by
  apply memRead_congr
  intro x h1 h2
  exact byte_memWrite_outside _ _ _ _ _ (by omega)

theorem readWord_toNat (m : Memory) (a : Nat) : (readWord m a).toNat = memRead m a 4 := by
  rw [readWord, BitVec.toNat_ofNat, Nat.mod_eq_of_lt]
  exact memRead_lt m a 4

theorem toNat_append_byte {n : Nat} (x : BitVec n) (y : Byte) :
    (x ++ y).toNat = y.toNat + 256 * x.toNat := by
  have := y.isLt
  rw [BitVec.toNat_append, ← Nat.shiftLeft_add_eq_or_of_lt this, Nat.shiftLeft_eq]
  omega

/-- A 32-bit read byte by byte: the first byte is the least significant (20_memory.md R72). -/
theorem readWord_eq_append (m : Memory) (a : Nat) :
    readWord m a = m.byte (a + 3) ++ m.byte (a + 2) ++ m.byte (a + 1) ++ m.byte a := by
  apply BitVec.eq_of_toNat_eq
  refine ((readWord_toNat m a).trans ?_).trans (toNat_append_byte _ _).symm
  rw [toNat_append_byte, toNat_append_byte]
  simp only [memRead_succ, memRead_zero, Nat.add_assoc, Nat.reduceAdd, Nat.mul_zero, Nat.add_zero]

/-! ### The canonical form -/

theorem Memory.wfFrom_mono (m : Memory) (lo lo' : Nat) (h : lo' ≤ lo)
    (hm : Memory.wfFrom lo m = true) : Memory.wfFrom lo' m = true := by
  cases m with
  | nil => rfl
  | cons c t =>
    obtain ⟨k, b⟩ := c
    simp only [Memory.wfFrom, Bool.and_eq_true, decide_eq_true_eq] at *
    exact ⟨⟨⟨by omega, hm.1.1.2⟩, hm.1.2⟩, hm.2⟩

theorem Memory.wfFrom_filter (m : Memory) (lo a : Nat) (hm : Memory.wfFrom lo m = true) :
    Memory.wfFrom lo (m.filter fun c => c.1 != a) = true := by
  induction m generalizing lo with
  | nil => rfl
  | cons c t ih =>
    obtain ⟨k, b⟩ := c
    simp only [Memory.wfFrom, Bool.and_eq_true, decide_eq_true_eq] at hm
    by_cases h : k = a
    · rw [List.filter_cons_of_neg (by simp [h])]
      exact Memory.wfFrom_mono _ _ _ (by omega) (ih _ hm.2)
    · rw [List.filter_cons_of_pos (by simpa using h)]
      simp only [Memory.wfFrom, Bool.and_eq_true, decide_eq_true_eq]
      exact ⟨⟨hm.1.1, hm.1.2⟩, ih _ hm.2⟩

theorem Memory.wfFrom_place (m : Memory) (lo a : Nat) (b : Byte) (hm : Memory.wfFrom lo m = true)
    (hlo : lo ≤ a) (ha : a < 2 ^ 32) (hb : b ≠ unlistedByte) (hne : ∀ c ∈ m, c.1 ≠ a) :
    Memory.wfFrom lo (Memory.place a b m) = true := by
  induction m generalizing lo with
  | nil => simp [Memory.place, Memory.wfFrom, hlo, hb]; omega
  | cons c t ih =>
    obtain ⟨k, d⟩ := c
    have hk : k ≠ a := hne (k, d) (by simp)
    simp only [Memory.wfFrom, Bool.and_eq_true, decide_eq_true_eq] at hm
    unfold Memory.place
    split
    · simp only [Memory.wfFrom, Bool.and_eq_true, decide_eq_true_eq]
      exact ⟨⟨⟨hlo, ha⟩, by simpa using hb⟩, ⟨⟨by omega, hm.1.1.2⟩, hm.1.2⟩, hm.2⟩
    · simp only [Memory.wfFrom, Bool.and_eq_true, decide_eq_true_eq]
      exact ⟨hm.1, ih _ hm.2 (by omega) fun c hc => hne c (by simp [hc])⟩

theorem Memory.wf_setByte (m : Memory) (a : Nat) (b : Byte) (hm : m.wf = true) (ha : a < 2 ^ 32) :
    (m.setByte a b).wf = true := by
  unfold Memory.setByte Memory.wf
  have hf := Memory.wfFrom_filter m 0 a hm
  split
  · exact hf
  · next hb => exact Memory.wfFrom_place _ _ _ _ hf (by omega) ha hb (by simp)

theorem Memory.wf_setBytes (m : Memory) (a : Nat) (bs : List Byte) (hm : m.wf = true)
    (ha : a + bs.length ≤ 2 ^ 32) : (m.setBytes a bs).wf = true := by
  induction bs generalizing m a with
  | nil => exact hm
  | cons b bs ih =>
    simp only [List.length_cons] at ha
    exact ih _ _ (Memory.wf_setByte m a b hm (by omega)) (by omega)

theorem wf_memWrite (m : Memory) (a n v : Nat) (hm : m.wf = true) (ha : a + n ≤ 2 ^ 32) :
    (memWrite m a n v).wf = true :=
  Memory.wf_setBytes _ _ _ hm (by simpa using ha)

theorem wf_writeQuad (m : Memory) (a : Nat) (q : Quad) (hm : m.wf = true) (ha : a + 16 ≤ 2 ^ 32) :
    (writeQuad m a q).wf = true :=
  wf_memWrite _ _ _ _ (wf_memWrite _ _ _ _ (wf_memWrite _ _ _ _ (wf_memWrite _ _ _ _ hm
    (by omega)) (by omega)) (by omega)) (by omega)

theorem wf_writeElements (m : Memory) (base e p : Nat) (q : Lanes Nat) (hm : m.wf = true)
    (ha : base + 4 * (p + 1) * e ≤ 2 ^ 32) : (writeElements m base e p q).wf = true := by
  have h : ∀ c, c < 4 → elementAddr base e p c + e ≤ 2 ^ 32 := by
    intro c hc
    have h1 : (4 * p + c) * e + e ≤ 4 * (p + 1) * e := by
      calc (4 * p + c) * e + e = (4 * p + c + 1) * e := (Nat.succ_mul _ _).symm
        _ ≤ 4 * (p + 1) * e := Nat.mul_le_mul_right e (by omega)
    unfold elementAddr
    omega
  exact wf_memWrite _ _ _ _ (wf_memWrite _ _ _ _ (wf_memWrite _ _ _ _ (wf_memWrite _ _ _ _ hm
    (h 0 (by omega))) (h 1 (by omega))) (h 2 (by omega))) (h 3 (by omega))

theorem Memory.wf_nil : Memory.wf [] = true := rfl

theorem Memory.byte_of_wfFrom_lt (m : Memory) (lo x : Nat) (h : Memory.wfFrom lo m = true)
    (hx : x < lo) : m.byte x = unlistedByte := by
  induction m generalizing lo with
  | nil => rfl
  | cons c t ih =>
    obtain ⟨k, b⟩ := c
    simp only [Memory.wfFrom, Bool.and_eq_true, decide_eq_true_eq] at h
    rw [Memory.byte, if_neg (by omega)]
    exact ih _ h.2 (by omega)

theorem Memory.ext_from (m m' : Memory) (lo : Nat) (h : Memory.wfFrom lo m = true)
    (h' : Memory.wfFrom lo m' = true) (he : ∀ x, m.byte x = m'.byte x) : m = m' := by
  induction m generalizing m' lo with
  | nil =>
    cases m' with
    | nil => rfl
    | cons c t =>
      obtain ⟨k, b⟩ := c
      simp only [Memory.wfFrom, Bool.and_eq_true, decide_eq_true_eq, bne_iff_ne] at h'
      have := he k
      simp only [Memory.byte, if_true] at this
      exact absurd this.symm h'.1.2
  | cons c t ih =>
    obtain ⟨k, b⟩ := c
    simp only [Memory.wfFrom, Bool.and_eq_true, decide_eq_true_eq, bne_iff_ne] at h
    cases m' with
    | nil =>
      have := he k
      simp only [Memory.byte, if_true] at this
      exact absurd this h.1.2
    | cons c' t' =>
      obtain ⟨k', b'⟩ := c'
      simp only [Memory.wfFrom, Bool.and_eq_true, decide_eq_true_eq, bne_iff_ne] at h'
      have hk : k = k' := by
        by_contra hne
        rcases Nat.lt_or_gt_of_ne hne with hlt | hgt
        · have h1 := he k
          rw [Memory.byte, if_pos rfl, Memory.byte, if_neg (by omega),
            Memory.byte_of_wfFrom_lt t' (k' + 1) k h'.2 (by omega)] at h1
          exact h.1.2 h1
        · have h1 := he k'
          rw [Memory.byte, if_neg (by omega), Memory.byte_of_wfFrom_lt t (k + 1) k' h.2 (by omega),
            Memory.byte, if_pos rfl] at h1
          exact h'.1.2 h1.symm
      subst hk
      have hb : b = b' := by simpa [Memory.byte] using he k
      subst hb
      congr 1
      refine ih t' (k + 1) h.2 h'.2 fun x => ?_
      by_cases hx : k = x
      · subst hx
        rw [Memory.byte_of_wfFrom_lt t (k + 1) k h.2 (by omega),
          Memory.byte_of_wfFrom_lt t' (k + 1) k h'.2 (by omega)]
      · simpa [Memory.byte, hx] using he x

/-- Memories in canonical form with the same bytes are the same data. -/
theorem Memory.ext_of_wf (m m' : Memory) (h : m.wf = true) (h' : m'.wf = true)
    (he : ∀ x, m.byte x = m'.byte x) : m = m' :=
  Memory.ext_from m m' 0 h h' he

end Sys2Proof.Machine
end

