-- ==== Sys2Proof/Laws/Ranges.lean ====
section
/-!
SUPPORT. What the operations over address ranges do: membership after `add`, the canonical form,
and the two tests `covers` and `meets` in terms of membership.
-/
namespace Sys2Proof.Machine

theorem Ranges.mem_cons (a b : Nat) (t : Ranges) (x : Nat) :
    Ranges.mem ((a, b) :: t) x = ((decide (a ≤ x) && decide (x < b)) || Ranges.mem t x) := by
  simp [Ranges.mem]

@[simp] theorem Ranges.mem_nil (x : Nat) : Ranges.mem [] x = false := rfl

theorem Ranges.mem_iff (r : Ranges) (x : Nat) :
    Ranges.mem r x = true ↔ ∃ p ∈ r, p.1 ≤ x ∧ x < p.2 := by
  simp [Ranges.mem]

theorem Ranges.mem_insert (r : Ranges) (lo hi x : Nat) (h : lo < hi) :
    Ranges.mem (Ranges.insert lo hi r) x =
      (Ranges.mem r x || (decide (lo ≤ x) && decide (x < hi))) := by
  induction r generalizing lo hi with
  | nil => simp [Ranges.insert, Ranges.mem_cons]
  | cons p t ih =>
    obtain ⟨a, b⟩ := p
    unfold Ranges.insert
    split
    · simp only [Ranges.mem_cons]
      cases Ranges.mem t x <;> simp [Bool.or_comm]
    · split
      · rw [Ranges.mem_cons, ih lo hi h, Ranges.mem_cons, Bool.or_assoc]
      · rw [ih _ _ (by omega), Ranges.mem_cons]
        cases Ranges.mem t x
        · rw [Bool.eq_iff_iff]
          simp only [Bool.or_false, Bool.false_or, Bool.or_eq_true, Bool.and_eq_true,
            decide_eq_true_eq]
          omega
        · simp

theorem Ranges.mem_add (r : Ranges) (lo hi x : Nat) :
    Ranges.mem (Ranges.add r lo hi) x =
      (Ranges.mem r x || (decide (lo ≤ x) && decide (x < hi))) := by
  unfold Ranges.add
  split
  · next h => exact Ranges.mem_insert r lo hi x h
  · rw [Bool.eq_iff_iff]
    simp only [Bool.or_eq_true, Bool.and_eq_true, decide_eq_true_eq]
    exact ⟨Or.inl, fun h => h.elim id (fun h => by omega)⟩

@[simp] theorem Ranges.add_empty (r : Ranges) (lo : Nat) : Ranges.add r lo lo = r := by
  simp [Ranges.add]

/-! ### The canonical form -/

theorem Ranges.wf_cons_iff (a b : Nat) (t : Ranges) :
    Ranges.wf ((a, b) :: t) = true ↔ a < b ∧ (∀ p ∈ t.head?, b < p.1) ∧ Ranges.wf t = true := by
  cases t with
  | nil => simp [Ranges.wf]
  | cons q t =>
    obtain ⟨c, d⟩ := q
    simp [Ranges.wf, and_assoc]

theorem Ranges.insert_head (r : Ranges) (k lo hi : Nat) (hr : Ranges.wf r = true) (hk : k < lo)
    (h : ∀ p ∈ r.head?, k < p.1) : ∀ p ∈ (Ranges.insert lo hi r).head?, k < p.1 := by
  induction r generalizing lo hi with
  | nil => simpa [Ranges.insert] using hk
  | cons q t ih =>
    obtain ⟨a, b⟩ := q
    have ha : k < a := h (a, b) (by simp)
    have hc := (Ranges.wf_cons_iff a b t).1 hr
    unfold Ranges.insert
    split
    · simpa using hk
    · split
      · simpa using ha
      · exact ih _ _ hc.2.2 (by omega) fun p hp => by have := hc.2.1 p hp; omega

theorem Ranges.wf_insert (r : Ranges) (lo hi : Nat) (h : lo < hi) (hr : Ranges.wf r = true) :
    Ranges.wf (Ranges.insert lo hi r) = true := by
  induction r generalizing lo hi with
  | nil => simpa [Ranges.insert, Ranges.wf] using h
  | cons p t ih =>
    obtain ⟨a, b⟩ := p
    have hc := (Ranges.wf_cons_iff a b t).1 hr
    unfold Ranges.insert
    split
    · next h1 => exact (Ranges.wf_cons_iff _ _ _).2 ⟨h, by simpa using h1, hr⟩
    · split
      · next h1 h2 =>
        exact (Ranges.wf_cons_iff _ _ _).2
          ⟨hc.1, Ranges.insert_head t b lo hi hc.2.2 h2 hc.2.1, ih lo hi h hc.2.2⟩
      · exact ih _ _ (by omega) hc.2.2

theorem Ranges.wf_add (r : Ranges) (lo hi : Nat) (hr : Ranges.wf r = true) :
    Ranges.wf (Ranges.add r lo hi) = true := by
  unfold Ranges.add
  split
  · next h => exact Ranges.wf_insert r lo hi h hr
  · exact hr

theorem Ranges.canon_from (r acc : Ranges) (h : Ranges.wf acc = true) :
    Ranges.wf (r.foldl (fun acc p => Ranges.add acc p.1 p.2) acc) = true ∧
      ∀ x, Ranges.mem (r.foldl (fun acc p => Ranges.add acc p.1 p.2) acc) x =
        (Ranges.mem acc x || Ranges.mem r x) := by
  induction r generalizing acc with
  | nil => simp [h]
  | cons p t ih =>
    obtain ⟨h1, h2⟩ := ih (Ranges.add acc p.1 p.2) (Ranges.wf_add _ _ _ h)
    refine ⟨h1, fun x => ?_⟩
    rw [List.foldl_cons, h2, Ranges.mem_add, Ranges.mem_cons, Bool.or_assoc]

theorem Ranges.wf_canon (r : Ranges) : Ranges.wf (Ranges.canon r) = true :=
  (Ranges.canon_from r [] rfl).1

@[simp] theorem Ranges.mem_canon (r : Ranges) (x : Nat) :
    Ranges.mem (Ranges.canon r) x = Ranges.mem r x := by
  simpa [Ranges.canon] using (Ranges.canon_from r [] rfl).2 x

/-! ### The tests -/

theorem Ranges.meets_iff (r : Ranges) (lo hi : Nat) :
    Ranges.meets r lo hi = true ↔ ∃ x, lo ≤ x ∧ x < hi ∧ Ranges.mem r x = true := by
  simp only [Ranges.meets, List.any_eq_true, decide_eq_true_eq, Ranges.mem_iff]
  constructor
  · rintro ⟨p, hp, h⟩
    exact ⟨max p.1 lo, by omega, by omega, p, hp, by omega, by omega⟩
  · rintro ⟨x, h1, h2, p, hp, h3, h4⟩
    exact ⟨p, hp, by omega⟩

theorem Ranges.wf_all_gt (a b : Nat) (t : Ranges) (h : Ranges.wf ((a, b) :: t) = true) :
    ∀ q ∈ t, b < q.1 := by
  induction t generalizing a b with
  | nil => simp
  | cons p t ih =>
    obtain ⟨c, d⟩ := p
    have hc := (Ranges.wf_cons_iff a b _).1 h
    have hd := (Ranges.wf_cons_iff c d t).1 hc.2.2
    have hb : b < c := hc.2.1 (c, d) (by simp)
    intro q hq
    rcases List.mem_cons.1 hq with rfl | hq
    · exact hb
    · have := ih c d hc.2.2 q hq
      omega

theorem Ranges.wf_end_not_mem (r : Ranges) (h : Ranges.wf r = true) (p : Nat × Nat) (hp : p ∈ r) :
    p.1 < p.2 ∧ Ranges.mem r p.2 = false := by
  induction r with
  | nil => simp at hp
  | cons q t ih =>
    obtain ⟨a, b⟩ := q
    have hc := (Ranges.wf_cons_iff a b t).1 h
    have hgt := Ranges.wf_all_gt a b t h
    rcases List.mem_cons.1 hp with rfl | hp
    · refine ⟨hc.1, ?_⟩
      rw [Ranges.mem_cons, Bool.or_eq_false_iff]
      refine ⟨by simp, ?_⟩
      rw [Bool.eq_false_iff]
      intro hm
      obtain ⟨q, hq, h1, -⟩ := (Ranges.mem_iff _ _).1 hm
      have := hgt q hq
      simp only at h1
      omega
    · obtain ⟨h1, h2⟩ := ih hc.2.2 hp
      have := hgt p hp
      refine ⟨h1, ?_⟩
      rw [Ranges.mem_cons, h2]
      simp; omega

/-- `covers` says that every address of the region is in the set. -/
theorem Ranges.covers_iff (r : Ranges) (lo hi : Nat) :
    Ranges.covers r lo hi = true ↔ ∀ x, lo ≤ x → x < hi → Ranges.mem r x = true := by
  simp only [Ranges.covers, Bool.or_eq_true, decide_eq_true_eq, List.any_eq_true,
    Bool.and_eq_true]
  constructor
  · rintro (h | ⟨p, hp, h1, h2⟩) x hx1 hx2
    · omega
    · rw [← Ranges.mem_canon, Ranges.mem_iff]
      exact ⟨p, hp, by omega, by omega⟩
  · intro h
    by_cases hlt : hi ≤ lo
    · exact .inl hlt
    · right
      have hlo := h lo le_rfl (by omega)
      rw [← Ranges.mem_canon, Ranges.mem_iff] at hlo
      obtain ⟨p, hp, h1, h2⟩ := hlo
      refine ⟨p, hp, h1, ?_⟩
      by_contra hgt
      have := h p.2 (by omega) (by omega)
      rw [← Ranges.mem_canon, (Ranges.wf_end_not_mem _ (Ranges.wf_canon r) p hp).2] at this
      simp at this

/-- The bounds check says that the region ends within 2^32 and every byte of it exists
(20_memory.md R76). -/
theorem inBounds_iff (map : Ranges) (addr n : Nat) :
    inBounds map addr n = true ↔
      addr + n ≤ 2 ^ 32 ∧ ∀ x, addr ≤ x → x < addr + n → Ranges.mem map x = true := by
  simp only [inBounds, Bool.and_eq_true, decide_eq_true_eq, Ranges.covers_iff]

theorem inBounds_mono (map : Ranges) (addr n addr' n' : Nat) (h : inBounds map addr n = true)
    (h1 : addr ≤ addr') (h2 : addr' + n' ≤ addr + n) : inBounds map addr' n' = true := by
  rw [inBounds_iff] at *
  exact ⟨by omega, fun x hx1 hx2 => h.2 x (by omega) (by omega)⟩

end Sys2Proof.Machine
end

