-- ==== Sys2Proof/Laws/State.lean ====
section
/-!
SUPPORT. What each update of the state does to each field: one lemma per field per update, so that
no proof unfolds a record update; and reading a vector register after a write.
-/
namespace Sys2Proof.Machine

/-! ### `State.setVreg` -/

@[simp] theorem setVreg_v (s : State) (i : VReg) (q : Quad) : (s.setVreg i q).v = s.v.set i q := rfl
@[simp] theorem setVreg_vw (s : State) (i : VReg) (q : Quad) : (s.setVreg i q).vw = s.vw.set i true := rfl
@[simp] theorem setVreg_cp (s : State) (i : VReg) (q : Quad) : (s.setVreg i q).cp = s.cp := rfl
@[simp] theorem setVreg_status (s : State) (i : VReg) (q : Quad) : (s.setVreg i q).status = s.status := rfl
@[simp] theorem setVreg_cmdPtr (s : State) (i : VReg) (q : Quad) : (s.setVreg i q).cmdPtr = s.cmdPtr := rfl
@[simp] theorem setVreg_errCp (s : State) (i : VReg) (q : Quad) : (s.setVreg i q).errCp = s.errCp := rfl
@[simp] theorem setVreg_errInfo (s : State) (i : VReg) (q : Quad) : (s.setVreg i q).errInfo = s.errInfo := rfl
@[simp] theorem setVreg_cfg (s : State) (i : VReg) (q : Quad) : (s.setVreg i q).cfg = s.cfg := rfl
@[simp] theorem setVreg_mat (s : State) (i : VReg) (q : Quad) : (s.setVreg i q).mat = s.mat := rfl
@[simp] theorem setVreg_log (s : State) (i : VReg) (q : Quad) : (s.setVreg i q).log = s.log := rfl
@[simp] theorem setVreg_lut (s : State) (i : VReg) (q : Quad) : (s.setVreg i q).lut = s.lut := rfl
@[simp] theorem setVreg_crv (s : State) (i : VReg) (q : Quad) : (s.setVreg i q).crv = s.crv := rfl
@[simp] theorem setVreg_ws (s : State) (i : VReg) (q : Quad) : (s.setVreg i q).ws = s.ws := rfl
@[simp] theorem setVreg_footprint (s : State) (i : VReg) (q : Quad) : (s.setVreg i q).footprint = s.footprint := rfl
@[simp] theorem setVreg_mem (s : State) (i : VReg) (q : Quad) : (s.setVreg i q).mem = s.mem := rfl
@[simp] theorem setVreg_memMap (s : State) (i : VReg) (q : Quad) : (s.setVreg i q).memMap = s.memMap := rfl
@[simp] theorem setVreg_free (s : State) (i : VReg) (q : Quad) : (s.setVreg i q).free = s.free := rfl
@[simp] theorem setVreg_inputs (s : State) (i : VReg) (q : Quad) : (s.setVreg i q).inputs = s.inputs := rfl

/-! ### `State.advance` -/

@[simp] theorem advance_v (s : State) : s.advance.v = s.v := rfl
@[simp] theorem advance_vw (s : State) : s.advance.vw = s.vw := rfl
@[simp] theorem advance_cp (s : State) : s.advance.cp = s.cp + 4 := rfl
@[simp] theorem advance_status (s : State) : s.advance.status = s.status := rfl
@[simp] theorem advance_cmdPtr (s : State) : s.advance.cmdPtr = s.cmdPtr := rfl
@[simp] theorem advance_errCp (s : State) : s.advance.errCp = s.errCp := rfl
@[simp] theorem advance_errInfo (s : State) : s.advance.errInfo = s.errInfo := rfl
@[simp] theorem advance_cfg (s : State) : s.advance.cfg = s.cfg := rfl
@[simp] theorem advance_mat (s : State) : s.advance.mat = s.mat := rfl
@[simp] theorem advance_log (s : State) : s.advance.log = s.log := rfl
@[simp] theorem advance_lut (s : State) : s.advance.lut = s.lut := rfl
@[simp] theorem advance_crv (s : State) : s.advance.crv = s.crv := rfl
@[simp] theorem advance_ws (s : State) : s.advance.ws = s.ws := rfl
@[simp] theorem advance_footprint (s : State) : s.advance.footprint = s.footprint := rfl
@[simp] theorem advance_mem (s : State) : s.advance.mem = s.mem := rfl
@[simp] theorem advance_memMap (s : State) : s.advance.memMap = s.memMap := rfl
@[simp] theorem advance_free (s : State) : s.advance.free = s.free := rfl
@[simp] theorem advance_inputs (s : State) : s.advance.inputs = s.inputs := rfl

/-! ### `errorEntryAt` -/

@[simp] theorem errorEntryAt_v (a : Word) (e : Error) (s : State) : (errorEntryAt a e s).v = s.v := rfl
@[simp] theorem errorEntryAt_vw (a : Word) (e : Error) (s : State) : (errorEntryAt a e s).vw = s.vw := rfl
@[simp] theorem errorEntryAt_cp (a : Word) (e : Error) (s : State) : (errorEntryAt a e s).cp = s.cp := rfl
@[simp] theorem errorEntryAt_status (a : Word) (e : Error) (s : State) : (errorEntryAt a e s).status = s.status.failed e.name.code := rfl
@[simp] theorem errorEntryAt_cmdPtr (a : Word) (e : Error) (s : State) : (errorEntryAt a e s).cmdPtr = s.cmdPtr := rfl
@[simp] theorem errorEntryAt_errCp (a : Word) (e : Error) (s : State) : (errorEntryAt a e s).errCp = a := rfl
@[simp] theorem errorEntryAt_errInfo (a : Word) (e : Error) (s : State) : (errorEntryAt a e s).errInfo = e.info := rfl
@[simp] theorem errorEntryAt_cfg (a : Word) (e : Error) (s : State) : (errorEntryAt a e s).cfg = s.cfg := rfl
@[simp] theorem errorEntryAt_mat (a : Word) (e : Error) (s : State) : (errorEntryAt a e s).mat = s.mat := rfl
@[simp] theorem errorEntryAt_log (a : Word) (e : Error) (s : State) : (errorEntryAt a e s).log = s.log := rfl
@[simp] theorem errorEntryAt_lut (a : Word) (e : Error) (s : State) : (errorEntryAt a e s).lut = s.lut := rfl
@[simp] theorem errorEntryAt_crv (a : Word) (e : Error) (s : State) : (errorEntryAt a e s).crv = s.crv := rfl
@[simp] theorem errorEntryAt_ws (a : Word) (e : Error) (s : State) : (errorEntryAt a e s).ws = s.ws := rfl
@[simp] theorem errorEntryAt_footprint (a : Word) (e : Error) (s : State) : (errorEntryAt a e s).footprint = s.footprint := rfl
@[simp] theorem errorEntryAt_mem (a : Word) (e : Error) (s : State) : (errorEntryAt a e s).mem = s.mem := rfl
@[simp] theorem errorEntryAt_memMap (a : Word) (e : Error) (s : State) : (errorEntryAt a e s).memMap = s.memMap := rfl
@[simp] theorem errorEntryAt_free (a : Word) (e : Error) (s : State) : (errorEntryAt a e s).free = s.free := rfl
@[simp] theorem errorEntryAt_inputs (a : Word) (e : Error) (s : State) : (errorEntryAt a e s).inputs = s.inputs := rfl

/-! ### `errorEntry` -/

@[simp] theorem errorEntry_v (e : Error) (s : State) : (errorEntry e s).v = s.v := rfl
@[simp] theorem errorEntry_vw (e : Error) (s : State) : (errorEntry e s).vw = s.vw := rfl
@[simp] theorem errorEntry_cp (e : Error) (s : State) : (errorEntry e s).cp = s.cp := rfl
@[simp] theorem errorEntry_status (e : Error) (s : State) : (errorEntry e s).status = s.status.failed e.name.code := rfl
@[simp] theorem errorEntry_cmdPtr (e : Error) (s : State) : (errorEntry e s).cmdPtr = s.cmdPtr := rfl
@[simp] theorem errorEntry_errCp (e : Error) (s : State) : (errorEntry e s).errCp = cpWord s.cp := rfl
@[simp] theorem errorEntry_errInfo (e : Error) (s : State) : (errorEntry e s).errInfo = e.info := rfl
@[simp] theorem errorEntry_cfg (e : Error) (s : State) : (errorEntry e s).cfg = s.cfg := rfl
@[simp] theorem errorEntry_mat (e : Error) (s : State) : (errorEntry e s).mat = s.mat := rfl
@[simp] theorem errorEntry_log (e : Error) (s : State) : (errorEntry e s).log = s.log := rfl
@[simp] theorem errorEntry_lut (e : Error) (s : State) : (errorEntry e s).lut = s.lut := rfl
@[simp] theorem errorEntry_crv (e : Error) (s : State) : (errorEntry e s).crv = s.crv := rfl
@[simp] theorem errorEntry_ws (e : Error) (s : State) : (errorEntry e s).ws = s.ws := rfl
@[simp] theorem errorEntry_footprint (e : Error) (s : State) : (errorEntry e s).footprint = s.footprint := rfl
@[simp] theorem errorEntry_mem (e : Error) (s : State) : (errorEntry e s).mem = s.mem := rfl
@[simp] theorem errorEntry_memMap (e : Error) (s : State) : (errorEntry e s).memMap = s.memMap := rfl
@[simp] theorem errorEntry_free (e : Error) (s : State) : (errorEntry e s).free = s.free := rfl
@[simp] theorem errorEntry_inputs (e : Error) (s : State) : (errorEntry e s).inputs = s.inputs := rfl

/-! ### `clearStatus` -/

@[simp] theorem clearStatus_v (v : Word) (s : State) : (clearStatus v s).v = s.v := rfl
@[simp] theorem clearStatus_vw (v : Word) (s : State) : (clearStatus v s).vw = s.vw := rfl
@[simp] theorem clearStatus_cp (v : Word) (s : State) : (clearStatus v s).cp = s.cp := rfl
@[simp] theorem clearStatus_status (v : Word) (s : State) : (clearStatus v s).status = s.status.clearBits v := rfl
@[simp] theorem clearStatus_cmdPtr (v : Word) (s : State) : (clearStatus v s).cmdPtr = s.cmdPtr := rfl
@[simp] theorem clearStatus_errCp (v : Word) (s : State) : (clearStatus v s).errCp = s.errCp := rfl
@[simp] theorem clearStatus_errInfo (v : Word) (s : State) : (clearStatus v s).errInfo = s.errInfo := rfl
@[simp] theorem clearStatus_cfg (v : Word) (s : State) : (clearStatus v s).cfg = s.cfg := rfl
@[simp] theorem clearStatus_mat (v : Word) (s : State) : (clearStatus v s).mat = s.mat := rfl
@[simp] theorem clearStatus_log (v : Word) (s : State) : (clearStatus v s).log = s.log := rfl
@[simp] theorem clearStatus_lut (v : Word) (s : State) : (clearStatus v s).lut = s.lut := rfl
@[simp] theorem clearStatus_crv (v : Word) (s : State) : (clearStatus v s).crv = s.crv := rfl
@[simp] theorem clearStatus_ws (v : Word) (s : State) : (clearStatus v s).ws = s.ws := rfl
@[simp] theorem clearStatus_footprint (v : Word) (s : State) : (clearStatus v s).footprint = s.footprint := rfl
@[simp] theorem clearStatus_mem (v : Word) (s : State) : (clearStatus v s).mem = s.mem := rfl
@[simp] theorem clearStatus_memMap (v : Word) (s : State) : (clearStatus v s).memMap = s.memMap := rfl
@[simp] theorem clearStatus_free (v : Word) (s : State) : (clearStatus v s).free = s.free := rfl
@[simp] theorem clearStatus_inputs (v : Word) (s : State) : (clearStatus v s).inputs = s.inputs := rfl

/-! ### `failMat` -/

@[simp] theorem failMat_v (e : Error) (s : State) : (failMat e s).v = s.v := rfl
@[simp] theorem failMat_vw (e : Error) (s : State) : (failMat e s).vw = s.vw := rfl
@[simp] theorem failMat_cp (e : Error) (s : State) : (failMat e s).cp = s.cp := rfl
@[simp] theorem failMat_status (e : Error) (s : State) : (failMat e s).status = s.status.failed e.name.code := rfl
@[simp] theorem failMat_cmdPtr (e : Error) (s : State) : (failMat e s).cmdPtr = s.cmdPtr := rfl
@[simp] theorem failMat_errCp (e : Error) (s : State) : (failMat e s).errCp = cpWord s.cp := rfl
@[simp] theorem failMat_errInfo (e : Error) (s : State) : (failMat e s).errInfo = e.info := rfl
@[simp] theorem failMat_cfg (e : Error) (s : State) : (failMat e s).cfg = s.cfg := rfl
@[simp] theorem failMat_mat (e : Error) (s : State) : (failMat e s).mat = { Config.unspecMat s.free with valid := false } := rfl
@[simp] theorem failMat_log (e : Error) (s : State) : (failMat e s).log = s.log := rfl
@[simp] theorem failMat_lut (e : Error) (s : State) : (failMat e s).lut = s.lut := rfl
@[simp] theorem failMat_crv (e : Error) (s : State) : (failMat e s).crv = s.crv := rfl
@[simp] theorem failMat_ws (e : Error) (s : State) : (failMat e s).ws = s.ws := rfl
@[simp] theorem failMat_footprint (e : Error) (s : State) : (failMat e s).footprint = s.footprint := rfl
@[simp] theorem failMat_mem (e : Error) (s : State) : (failMat e s).mem = s.mem := rfl
@[simp] theorem failMat_memMap (e : Error) (s : State) : (failMat e s).memMap = s.memMap := rfl
@[simp] theorem failMat_free (e : Error) (s : State) : (failMat e s).free = s.free + 1 := rfl
@[simp] theorem failMat_inputs (e : Error) (s : State) : (failMat e s).inputs = s.inputs := rfl

/-! ### `failLog` -/

@[simp] theorem failLog_v (e : Error) (s : State) : (failLog e s).v = s.v := rfl
@[simp] theorem failLog_vw (e : Error) (s : State) : (failLog e s).vw = s.vw := rfl
@[simp] theorem failLog_cp (e : Error) (s : State) : (failLog e s).cp = s.cp := rfl
@[simp] theorem failLog_status (e : Error) (s : State) : (failLog e s).status = s.status.failed e.name.code := rfl
@[simp] theorem failLog_cmdPtr (e : Error) (s : State) : (failLog e s).cmdPtr = s.cmdPtr := rfl
@[simp] theorem failLog_errCp (e : Error) (s : State) : (failLog e s).errCp = cpWord s.cp := rfl
@[simp] theorem failLog_errInfo (e : Error) (s : State) : (failLog e s).errInfo = e.info := rfl
@[simp] theorem failLog_cfg (e : Error) (s : State) : (failLog e s).cfg = s.cfg := rfl
@[simp] theorem failLog_mat (e : Error) (s : State) : (failLog e s).mat = s.mat := rfl
@[simp] theorem failLog_log (e : Error) (s : State) : (failLog e s).log = { Config.unspecLog s.free with valid := false } := rfl
@[simp] theorem failLog_lut (e : Error) (s : State) : (failLog e s).lut = s.lut := rfl
@[simp] theorem failLog_crv (e : Error) (s : State) : (failLog e s).crv = s.crv := rfl
@[simp] theorem failLog_ws (e : Error) (s : State) : (failLog e s).ws = s.ws := rfl
@[simp] theorem failLog_footprint (e : Error) (s : State) : (failLog e s).footprint = s.footprint := rfl
@[simp] theorem failLog_mem (e : Error) (s : State) : (failLog e s).mem = s.mem := rfl
@[simp] theorem failLog_memMap (e : Error) (s : State) : (failLog e s).memMap = s.memMap := rfl
@[simp] theorem failLog_free (e : Error) (s : State) : (failLog e s).free = s.free + 1 := rfl
@[simp] theorem failLog_inputs (e : Error) (s : State) : (failLog e s).inputs = s.inputs := rfl

/-! ### `failLut` -/

@[simp] theorem failLut_v (e : Error) (s : State) : (failLut e s).v = s.v := rfl
@[simp] theorem failLut_vw (e : Error) (s : State) : (failLut e s).vw = s.vw := rfl
@[simp] theorem failLut_cp (e : Error) (s : State) : (failLut e s).cp = s.cp := rfl
@[simp] theorem failLut_status (e : Error) (s : State) : (failLut e s).status = s.status.failed e.name.code := rfl
@[simp] theorem failLut_cmdPtr (e : Error) (s : State) : (failLut e s).cmdPtr = s.cmdPtr := rfl
@[simp] theorem failLut_errCp (e : Error) (s : State) : (failLut e s).errCp = cpWord s.cp := rfl
@[simp] theorem failLut_errInfo (e : Error) (s : State) : (failLut e s).errInfo = e.info := rfl
@[simp] theorem failLut_cfg (e : Error) (s : State) : (failLut e s).cfg = s.cfg := rfl
@[simp] theorem failLut_mat (e : Error) (s : State) : (failLut e s).mat = s.mat := rfl
@[simp] theorem failLut_log (e : Error) (s : State) : (failLut e s).log = s.log := rfl
@[simp] theorem failLut_lut (e : Error) (s : State) : (failLut e s).lut = { Config.unspecLut s.free with valid := false } := rfl
@[simp] theorem failLut_crv (e : Error) (s : State) : (failLut e s).crv = s.crv := rfl
@[simp] theorem failLut_ws (e : Error) (s : State) : (failLut e s).ws = s.ws := rfl
@[simp] theorem failLut_footprint (e : Error) (s : State) : (failLut e s).footprint = s.footprint := rfl
@[simp] theorem failLut_mem (e : Error) (s : State) : (failLut e s).mem = s.mem := rfl
@[simp] theorem failLut_memMap (e : Error) (s : State) : (failLut e s).memMap = s.memMap := rfl
@[simp] theorem failLut_free (e : Error) (s : State) : (failLut e s).free = s.free + 1 := rfl
@[simp] theorem failLut_inputs (e : Error) (s : State) : (failLut e s).inputs = s.inputs := rfl

/-! ### `failCrv` -/

@[simp] theorem failCrv_v (e : Error) (s : State) : (failCrv e s).v = s.v := rfl
@[simp] theorem failCrv_vw (e : Error) (s : State) : (failCrv e s).vw = s.vw := rfl
@[simp] theorem failCrv_cp (e : Error) (s : State) : (failCrv e s).cp = s.cp := rfl
@[simp] theorem failCrv_status (e : Error) (s : State) : (failCrv e s).status = s.status.failed e.name.code := rfl
@[simp] theorem failCrv_cmdPtr (e : Error) (s : State) : (failCrv e s).cmdPtr = s.cmdPtr := rfl
@[simp] theorem failCrv_errCp (e : Error) (s : State) : (failCrv e s).errCp = cpWord s.cp := rfl
@[simp] theorem failCrv_errInfo (e : Error) (s : State) : (failCrv e s).errInfo = e.info := rfl
@[simp] theorem failCrv_cfg (e : Error) (s : State) : (failCrv e s).cfg = s.cfg := rfl
@[simp] theorem failCrv_mat (e : Error) (s : State) : (failCrv e s).mat = s.mat := rfl
@[simp] theorem failCrv_log (e : Error) (s : State) : (failCrv e s).log = s.log := rfl
@[simp] theorem failCrv_lut (e : Error) (s : State) : (failCrv e s).lut = s.lut := rfl
@[simp] theorem failCrv_crv (e : Error) (s : State) : (failCrv e s).crv = { Config.unspecCrv s.free with valid := false } := rfl
@[simp] theorem failCrv_ws (e : Error) (s : State) : (failCrv e s).ws = s.ws := rfl
@[simp] theorem failCrv_footprint (e : Error) (s : State) : (failCrv e s).footprint = s.footprint := rfl
@[simp] theorem failCrv_mem (e : Error) (s : State) : (failCrv e s).mem = s.mem := rfl
@[simp] theorem failCrv_memMap (e : Error) (s : State) : (failCrv e s).memMap = s.memMap := rfl
@[simp] theorem failCrv_free (e : Error) (s : State) : (failCrv e s).free = s.free + 1 := rfl
@[simp] theorem failCrv_inputs (e : Error) (s : State) : (failCrv e s).inputs = s.inputs := rfl

/-! ### `resetInstance` -/

@[simp] theorem resetInstance_v (s : State) : (resetInstance s).v = State.reset.v := rfl
@[simp] theorem resetInstance_vw (s : State) : (resetInstance s).vw = State.reset.vw := rfl
@[simp] theorem resetInstance_cp (s : State) : (resetInstance s).cp = State.reset.cp := rfl
@[simp] theorem resetInstance_status (s : State) : (resetInstance s).status = State.reset.status := rfl
@[simp] theorem resetInstance_cmdPtr (s : State) : (resetInstance s).cmdPtr = State.reset.cmdPtr := rfl
@[simp] theorem resetInstance_errCp (s : State) : (resetInstance s).errCp = State.reset.errCp := rfl
@[simp] theorem resetInstance_errInfo (s : State) : (resetInstance s).errInfo = State.reset.errInfo := rfl
@[simp] theorem resetInstance_cfg (s : State) : (resetInstance s).cfg = State.reset.cfg := rfl
@[simp] theorem resetInstance_mat (s : State) : (resetInstance s).mat = State.reset.mat := rfl
@[simp] theorem resetInstance_log (s : State) : (resetInstance s).log = State.reset.log := rfl
@[simp] theorem resetInstance_lut (s : State) : (resetInstance s).lut = State.reset.lut := rfl
@[simp] theorem resetInstance_crv (s : State) : (resetInstance s).crv = State.reset.crv := rfl
@[simp] theorem resetInstance_ws (s : State) : (resetInstance s).ws = State.reset.ws := rfl
@[simp] theorem resetInstance_footprint (s : State) : (resetInstance s).footprint = State.reset.footprint := rfl
@[simp] theorem resetInstance_mem (s : State) : (resetInstance s).mem = s.mem := rfl
@[simp] theorem resetInstance_memMap (s : State) : (resetInstance s).memMap = s.memMap := rfl
@[simp] theorem resetInstance_free (s : State) : (resetInstance s).free = s.free := rfl
@[simp] theorem resetInstance_inputs (s : State) : (resetInstance s).inputs = s.inputs := rfl

/-! ### Vector registers -/

theorem vreg_eq (s : State) (i : VReg) : s.vreg i = s.v[i] := rfl

@[simp] theorem vreg_advance (s : State) (i : VReg) : s.advance.vreg i = s.vreg i := rfl

@[simp] theorem vreg_setVreg_self (s : State) (i : VReg) (q : Quad) : (s.setVreg i q).vreg i = q := by
  simp [State.vreg, State.setVreg]

theorem vreg_setVreg_ne (s : State) (i j : VReg) (q : Quad) (h : j ≠ i) :
    (s.setVreg i q).vreg j = s.vreg j := by
  have : i.val ≠ j.val := fun e => h (Fin.ext e.symm)
  simp [State.vreg, State.setVreg, this]

theorem vreg_setVreg (s : State) (i j : VReg) (q : Quad) :
    (s.setVreg i q).vreg j = if j = i then q else s.vreg j := by
  split
  · next h => rw [h]; simp
  · next h => exact vreg_setVreg_ne s i j q h

theorem vw_setVreg (s : State) (i j : VReg) (q : Quad) :
    (s.setVreg i q).vw[j] = (j == i || s.vw[j]) := by
  by_cases h : j = i
  · subst h; simp [State.setVreg]
  · have : i.val ≠ j.val := fun e => h (Fin.ext e.symm)
    simp [State.setVreg, this, h]

theorem vw_setVreg_ne (s : State) (i j : VReg) (q : Quad) (h : j ≠ i) :
    (s.setVreg i q).vw[j] = s.vw[j] := by
  rw [vw_setVreg, beq_false_of_ne h, Bool.false_or]

/-! ### STATUS -/

@[simp] theorem failed_busy (st : Status) (c : BitVec 8) : (st.failed c).busy = false := rfl
@[simp] theorem failed_done (st : Status) (c : BitVec 8) : (st.failed c).done = st.done := rfl
@[simp] theorem failed_err (st : Status) (c : BitVec 8) : (st.failed c).err = true := rfl
@[simp] theorem failed_errCode (st : Status) (c : BitVec 8) : (st.failed c).errCode = c := rfl
@[simp] theorem halted_busy (st : Status) : st.halted.busy = false := rfl
@[simp] theorem halted_done (st : Status) : st.halted.done = true := rfl
@[simp] theorem halted_err (st : Status) : st.halted.err = st.err := rfl
@[simp] theorem halted_errCode (st : Status) : st.halted.errCode = st.errCode := rfl

/-- START with an aligned CMD_PTR (47_control.md R441). -/
theorem start_aligned (s : State) (h : s.cmdPtr.toNat % 4 = 0) :
    start s = { s with status := Status.started, ws := [], cp := s.cmdPtr.setWidth 33 } := by
  simp [start, h]

/-- START with a misaligned CMD_PTR (47_control.md R441). -/
theorem start_misaligned (s : State) (h : s.cmdPtr.toNat % 4 ≠ 0) :
    start s = errorEntryAt s.cmdPtr ⟨.align, s.cmdPtr⟩
      { s with status := Status.started, ws := [] } := by
  simp [start, h]

end Sys2Proof.Machine
end

