-- ==== Sys2Proof/Laws/Commands.lean ====
section
/-!
SUPPORT. What each shared operation of the commands can do: the checks, `finish`, the vector
accesses, the APPLY frame and the vector form of a unit. Later proofs cite these and unfold none of
the operations.
-/
namespace Sys2Proof.Machine

/-! ### Checks -/

theorem check_bind_ok {α β : Type} (x : Check α) (f : α → Check β) (b : β) :
    (x >>= f) = .ok b ↔ ∃ a, x = .ok a ∧ f a = .ok b := by
  cases x <;> simp [bind, Except.bind]

theorem check_bind_error {α β : Type} (x : Check α) (f : α → Check β) (e : Error) :
    (x >>= f) = .error e ↔ x = .error e ∨ ∃ a, x = .ok a ∧ f a = .error e := by
  cases x <;> simp [bind, Except.bind]

@[simp] theorem check_ok_bind {α β : Type} (a : α) (f : α → Check β) :
    ((Except.ok a : Check α) >>= f) = f a := rfl

@[simp] theorem check_error_bind {α β : Type} (e : Error) (f : α → Check β) :
    ((Except.error e : Check α) >>= f) = .error e := rfl

@[simp] theorem check_pure {α : Type} (a : α) : (pure a : Check α) = .ok a := rfl

@[simp] theorem require_true (name : ErrName) (info : Word) : require true name info = .ok () := rfl

@[simp] theorem require_false (name : ErrName) (info : Word) :
    require false name info = .error ⟨name, info⟩ := rfl

theorem require_ok_iff (c : Bool) (name : ErrName) (info : Word) (u : Unit) :
    require c name info = .ok u ↔ c = true := by
  cases c <;> simp [require]

theorem require_error_iff (c : Bool) (name : ErrName) (info : Word) (e : Error) :
    require c name info = .error e ↔ c = false ∧ e = ⟨name, info⟩ := by
  cases c <;> simp [require, eq_comm]

theorem checkAlign_of_dvd (addr align : Nat) (h : addr % align = 0) :
    checkAlign addr align = .ok () := by
  simp [checkAlign, h]

theorem checkAlign_of_not_dvd (addr align : Nat) (h : addr % align ≠ 0) :
    checkAlign addr align = .error ⟨.align, BitVec.ofNat 32 addr⟩ := by
  rw [checkAlign, beq_false_of_ne h]; rfl

theorem checkBounds_of_true (map : Ranges) (addr n : Nat) (h : inBounds map addr n = true) :
    checkBounds map addr n = .ok () := by
  simp [checkBounds, h]

theorem checkBounds_of_false (map : Ranges) (addr n : Nat) (h : inBounds map addr n = false) :
    checkBounds map addr n = .error ⟨.bus, BitVec.ofNat 32 addr⟩ := by
  simp [checkBounds, h]

/-- A checked command ends in one of two ways (60_exceptions.md R470). -/
theorem finish_next (c : Check State) (s t : State) (h : finish c s = .next t) :
    (∃ u, c = .ok u ∧ t = u.advance) ∨ ∃ e, c = .error e ∧ t = errorEntry e s := by
  cases c with
  | ok u => simp only [finish, Host.Outcome.next.injEq] at h; exact .inl ⟨u, rfl, h.symm⟩
  | error e => simp only [finish, Host.Outcome.next.injEq] at h; exact .inr ⟨e, rfl, h.symm⟩

@[simp] theorem finish_ok (s u : State) : finish (.ok u) s = .next u.advance := rfl

@[simp] theorem finish_error (s : State) (e : Error) :
    finish (.error e) s = .next (errorEntry e s) := rfl

/-! ### Fetch (47_control.md R442) -/

theorem fetch_unmapped (s : State) (h : inBounds s.memMap s.cp.toNat 4 = false) :
    fetch s = .error ⟨.bus, cpWord s.cp⟩ := by
  simp [fetch, h]

theorem fetch_written (s : State) (h : inBounds s.memMap s.cp.toNat 4 = true)
    (hw : s.ws.meets s.cp.toNat (s.cp.toNat + 4) = true) :
    fetch s = .error ⟨.smc, cpWord s.cp⟩ := by
  simp [fetch, h, hw]

theorem fetch_clean (s : State) (h : inBounds s.memMap s.cp.toNat 4 = true)
    (hw : s.ws.meets s.cp.toNat (s.cp.toNat + 4) = false) :
    fetch s = .ok (readWord s.mem s.cp.toNat) := by
  simp [fetch, h, hw]

theorem cpWord_of_lt (cp : BitVec 33) (h : cp.toNat < 2 ^ 32) : cpWord cp = cp.setWidth 32 :=
  if_pos h

/-! ### Vector accesses (41_bitdepth_pixel_io.md R202, R203) -/

theorem loadVector_ok (vd : VReg) (imm : BitVec 14) (s : State) (ha : loadAddr s imm % 4 = 0)
    (hb : inBounds s.memMap (loadAddr s imm) 16 = true) :
    loadVector vd imm s = .ok (s.setVreg vd (readQuad s.mem (loadAddr s imm))) := by
  simp [loadVector, checkAlign_of_dvd _ _ ha, checkBounds_of_true _ _ _ hb]

theorem storeVector_ok (va : VReg) (imm : BitVec 14) (s : State) (ha : storeAddr s imm % 4 = 0)
    (hb : inBounds s.memMap (storeAddr s imm) 16 = true) :
    storeVector va imm s = .ok { s with
      mem := writeQuad s.mem (storeAddr s imm) (s.vreg va)
      ws := s.ws.add (storeAddr s imm) (storeAddr s imm + 16) } := by
  simp [storeVector, checkAlign_of_dvd _ _ ha, checkBounds_of_true _ _ _ hb]

/-- VLD completes with the one register written, or raises ERR_ALIGN or ERR_BUS. -/
theorem loadVector_cases (vd : VReg) (imm : BitVec 14) (s : State) :
    (∃ q, loadVector vd imm s = .ok (s.setVreg vd q)) ∨
      ∃ e, loadVector vd imm s = .error e ∧ (e.name = .align ∨ e.name = .bus) := by
  by_cases ha : loadAddr s imm % 4 = 0
  · cases hb : inBounds s.memMap (loadAddr s imm) 16 with
    | true => exact .inl ⟨_, loadVector_ok vd imm s ha hb⟩
    | false =>
      exact .inr ⟨⟨.bus, BitVec.ofNat 32 (loadAddr s imm)⟩, by
        simp [loadVector, checkAlign_of_dvd _ _ ha, checkBounds_of_false _ _ _ hb], .inr rfl⟩
  · exact .inr ⟨⟨.align, BitVec.ofNat 32 (loadAddr s imm)⟩, by
      simp [loadVector, checkAlign_of_not_dvd _ _ ha], .inl rfl⟩

/-- VST completes with the 16 bytes written, or raises ERR_ALIGN or ERR_BUS. -/
theorem storeVector_cases (va : VReg) (imm : BitVec 14) (s : State) :
    (storeAddr s imm % 4 = 0 ∧ inBounds s.memMap (storeAddr s imm) 16 = true ∧
      storeVector va imm s = .ok { s with
        mem := writeQuad s.mem (storeAddr s imm) (s.vreg va)
        ws := s.ws.add (storeAddr s imm) (storeAddr s imm + 16) }) ∨
      ∃ e, storeVector va imm s = .error e ∧ (e.name = .align ∨ e.name = .bus) := by
  by_cases ha : storeAddr s imm % 4 = 0
  · cases hb : inBounds s.memMap (storeAddr s imm) 16 with
    | true => exact .inl ⟨ha, rfl, storeVector_ok va imm s ha hb⟩
    | false =>
      exact .inr ⟨⟨.bus, BitVec.ofNat 32 (storeAddr s imm)⟩, by
        simp [storeVector, checkAlign_of_dvd _ _ ha, checkBounds_of_false _ _ _ hb], .inr rfl⟩
  · exact .inr ⟨⟨.align, BitVec.ofNat 32 (storeAddr s imm)⟩, by
      simp [storeVector, checkAlign_of_not_dvd _ _ ha], .inl rfl⟩

/-- The bytes of a stored vector. -/
theorem byte_writeQuad_outside (m : Memory) (a x : Nat) (q : Quad) (h : x < a ∨ a + 16 ≤ x) :
    (writeQuad m a q).byte x = m.byte x := by
  unfold writeQuad
  rw [byte_memWrite_outside _ _ _ _ _ (by omega), byte_memWrite_outside _ _ _ _ _ (by omega),
    byte_memWrite_outside _ _ _ _ _ (by omega), byte_memWrite_outside _ _ _ _ _ (by omega)]

/-- A vector stored is the vector read back (70_reset_and_hazards.md R506). -/
theorem readQuad_writeQuad (m : Memory) (a : Nat) (q : Quad) : readQuad (writeQuad m a q) a = q := by
  have hw (w : F32) : BitVec.ofNat 32 (w.toNat % 256 ^ 4) = w := by
    rw [show (256 : Nat) ^ 4 = 2 ^ 32 by norm_num, Nat.mod_eq_of_lt w.isLt, BitVec.ofNat_toNat]
    simp
  obtain ⟨r, g, b, al⟩ := q
  simp only [readQuad, readWord, writeQuad]
  rw [memRead_memWrite_disjoint _ _ _ _ _ _ (by omega), memRead_memWrite_disjoint _ _ _ _ _ _ (by omega),
    memRead_memWrite_disjoint _ _ _ _ _ _ (by omega), memRead_memWrite,
    memRead_memWrite_disjoint _ _ _ _ (a + 4) _ (by omega),
    memRead_memWrite_disjoint _ _ _ _ (a + 4) _ (by omega), memRead_memWrite,
    memRead_memWrite_disjoint _ _ _ _ (a + 8) _ (by omega), memRead_memWrite, memRead_memWrite,
    hw, hw, hw, hw]

/-! ### CFG (41_bitdepth_pixel_io.md R204) -/

theorem writeCfg_cases (va : VReg) (cfg : BitVec 4) (s : State) :
    (∃ c, cfg.toNat ≤ 5 ∧ writeCfg va cfg s = .ok { s with cfg := c }) ∨
      (5 < cfg.toNat ∧ ∃ e, writeCfg va cfg s = .error e ∧ e.name = .illegal) := by
  by_cases h : cfg.toNat ≤ 5
  · left
    unfold writeCfg Cfg.set
    interval_cases cfg.toNat <;> exact ⟨_, by omega, rfl⟩
  · right
    refine ⟨by omega, ⟨.illegal, encode (.wrcfg va cfg)⟩, ?_, rfl⟩
    have h' := cfg.isLt
    unfold writeCfg Cfg.set
    interval_cases cfg.toNat <;> rfl

/-! ### The vector form of a unit (41_bitdepth_pixel_io.md R201) -/

theorem unitVector_valid (u : UnitInfo) (f : Quad → Lanes ChanOut) (vd va : VReg) (s : State)
    (h : u.valid = true) :
    unitVector u f vd va s = .ok (s.setVreg vd ((f (s.vreg va)).map ChanOut.bits)) := by
  simp [unitVector, h]

theorem unitVector_invalid (u : UnitInfo) (f : Quad → Lanes ChanOut) (vd va : VReg) (s : State)
    (h : u.valid = false) :
    unitVector u f vd va s = .error ⟨.notConfigured, u.id.word⟩ := by
  simp [unitVector, h]

theorem unitVector_cases (u : UnitInfo) (f : Quad → Lanes ChanOut) (vd va : VReg) (s : State) :
    (∃ q, unitVector u f vd va s = .ok (s.setVreg vd q)) ∨
      ∃ e, unitVector u f vd va s = .error e ∧ e.name = .notConfigured := by
  cases h : u.valid with
  | true => exact .inl ⟨_, unitVector_valid u f vd va s h⟩
  | false => exact .inr ⟨_, unitVector_invalid u f vd va s h, rfl⟩

/-! ### The APPLY frame: its checks (41_bitdepth_pixel_io.md R196, R198) -/

theorem overlapOk_iff (inP li outP lo ei eo : Nat) (hi : 0 < li) (ho : 0 < lo) :
    overlapOk inP li outP lo ei eo = true ↔
      inP + li ≤ outP ∨ outP + lo ≤ inP ∨ (inP = outP ∧ ei = eo) := by
  simp only [overlapOk, overlaps, Bool.or_eq_true, Bool.not_eq_true', decide_eq_false_iff_not,
    Bool.and_eq_true, beq_iff_eq]
  omega

/-- The first element outside the code mask, and that every earlier one fits. -/
theorem badElement_some (m : Memory) (base range count i a : Nat) :
    badElement m base range count i = some a ↔
      ∃ k, i ≤ k ∧ k < i + count ∧ a = base + 2 * k ∧ range < memRead m (base + 2 * k) 2 ∧
        ∀ j, i ≤ j → j < k → memRead m (base + 2 * j) 2 ≤ range := by
  induction count generalizing i with
  | zero => simp only [badElement, reduceCtorEq, false_iff]; rintro ⟨k, h1, h2, -⟩; omega
  | succ n ih =>
    unfold badElement
    split
    · next h =>
      constructor
      · rintro h'
        cases h'
        exact ⟨i, le_rfl, by omega, rfl, h, fun j h1 h2 => by omega⟩
      · rintro ⟨k, h1, h2, rfl, h3, h4⟩
        rcases Nat.eq_or_lt_of_le h1 with rfl | hlt
        · rfl
        · have := h4 i le_rfl hlt
          omega
    · next h =>
      rw [ih]
      constructor
      · rintro ⟨k, h1, h2, rfl, h3, h4⟩
        refine ⟨k, by omega, by omega, rfl, h3, fun j h5 h6 => ?_⟩
        rcases Nat.eq_or_lt_of_le h5 with rfl | hlt
        · omega
        · exact h4 j hlt h6
      · rintro ⟨k, h1, h2, rfl, h3, h4⟩
        have hne : i ≠ k := by rintro rfl; omega
        exact ⟨k, by omega, by omega, rfl, h3, fun j h5 h6 => h4 j (by omega) h6⟩

theorem badElement_none (m : Memory) (base range count i : Nat) :
    badElement m base range count i = none ↔
      ∀ k, i ≤ k → k < i + count → memRead m (base + 2 * k) 2 ≤ range := by
  induction count generalizing i with
  | zero => simp only [badElement, true_iff]; intro k h1 h2; omega
  | succ n ih =>
    unfold badElement
    split
    · next h =>
      simp only [reduceCtorEq, false_iff]
      intro h'
      have := h' i le_rfl (by omega)
      omega
    · next h =>
      rw [ih]
      constructor
      · intro h' k h1 h2
        rcases Nat.eq_or_lt_of_le h1 with rfl | hlt
        · omega
        · exact h' k hlt (by omega)
      · intro h' k h1 h2
        exact h' k (by omega) (by omega)

/-- What passing checks say (41_bitdepth_pixel_io.md R196 steps 1 to 7): the count, and for a
positive one that both buffers lie in the map. -/
theorem applyChecks_ok (u : UnitInfo) (s : State) (n : Nat) (h : applyChecks u s = .ok n) :
    u.valid = true ∧ 0 ≤ s.cfg.nPix.toInt ∧ n = s.cfg.nPix.toNat ∧
      (n = 0 ∨ (inBounds s.memMap s.cfg.inPtr.toNat (4 * n * u.inBd.esize) = true ∧
        inBounds s.memMap s.cfg.outPtr.toNat (4 * n * u.outBd.esize) = true)) := by
  simp only [applyChecks, check_bind_ok, require_ok_iff, decide_eq_true_eq, exists_and_left,
    exists_const] at h
  obtain ⟨hv, hn, h⟩ := h
  split at h
  · next h0 =>
    simp only [check_pure, Except.ok.injEq] at h
    exact ⟨hv, hn, by omega, .inl h.symm⟩
  · simp only [check_bind_ok, check_pure, Except.ok.injEq, checkBuffers, checkBounds,
      require_ok_iff, exists_and_left, exists_const] at h
    obtain ⟨_, ⟨_, _, _, _, hi, ho, _⟩, rfl⟩ := h
    exact ⟨hv, hn, rfl, .inr ⟨hi, ho⟩⟩

/-- The errors of the checks (60_exceptions.md R465). -/
theorem applyChecks_error (u : UnitInfo) (s : State) (e : Error) (h : applyChecks u s = .error e) :
    e.name ∈ [ErrName.notConfigured, .npix, .align, .bus, .overlap, .codeRange] := by
  simp only [applyChecks, check_bind_error, require_error_iff, require_ok_iff] at h
  rcases h with ⟨-, rfl⟩ | ⟨-, -, ⟨-, rfl⟩ | ⟨-, -, h⟩⟩
  · simp
  · simp
  · split at h
    · simp at h
    · simp only [check_bind_error, checkBuffers, checkBounds, checkAlign, require_error_iff,
        require_ok_iff, check_pure, reduceCtorEq, and_false, exists_false, or_false] at h
      rcases h with ⟨-, rfl⟩ | ⟨-, -, ⟨-, rfl⟩ | ⟨-, -, ⟨-, rfl⟩ | ⟨-, -, ⟨-, rfl⟩ | ⟨-, -, ⟨-, rfl⟩ | ⟨-, -, h⟩⟩⟩⟩⟩
      · simp
      · simp
      · simp
      · simp
      · simp
      · unfold checkCodes at h
        split at h
        · split at h
          · cases h; simp
          · simp at h
        · simp at h

/-! ### The APPLY frame: its pixels (41_bitdepth_pixel_io.md R196 step 8, R197, R198) -/

/-- The elements of a pixel depend on its bytes only. -/
theorem readElements_congr (m m' : Memory) (base e p : Nat)
    (h : ∀ a, base + 4 * p * e ≤ a → a < base + 4 * (p + 1) * e → m.byte a = m'.byte a) :
    readElements m base e p = readElements m' base e p := by
  have hc (c : Nat) (hc : c < 4) :
      memRead m (elementAddr base e p c) e = memRead m' (elementAddr base e p c) e := by
    have : c * e + e ≤ 4 * e := by nlinarith
    refine memRead_congr m m' _ _ fun a h1 h2 => h a ?_ ?_ <;> simp only [elementAddr] at h1 h2 <;>
      nlinarith
  simp only [readElements]
  rw [hc 0 (by omega), hc 1 (by omega), hc 2 (by omega), hc 3 (by omega)]

theorem byte_writeElements_outside (m : Memory) (base e p x : Nat) (q : Lanes Nat)
    (h : x < base + 4 * p * e ∨ base + 4 * (p + 1) * e ≤ x) :
    (writeElements m base e p q).byte x = m.byte x := by
  have hc (c : Nat) (hc : c < 4) :
      x < elementAddr base e p c ∨ elementAddr base e p c + e ≤ x := by
    simp only [elementAddr]
    have : c * e + e ≤ 4 * e := by nlinarith
    rcases h with h | h
    · left; nlinarith
    · right; nlinarith
  unfold writeElements
  rw [byte_memWrite_outside _ _ _ _ _ (hc 3 (by omega)), byte_memWrite_outside _ _ _ _ _ (hc 2 (by omega)),
    byte_memWrite_outside _ _ _ _ _ (hc 1 (by omega)), byte_memWrite_outside _ _ _ _ _ (hc 0 (by omega))]

end Sys2Proof.Machine
end

