-- ==== Sys2Proof/Laws/Apply.lean ====
section
/-!
SUPPORT. What step 8 of the APPLY frame does to memory: every pixel's output bytes, all other bytes
as before, the canonical form kept (41_bitdepth_pixel_io.md R196, R197).
-/
namespace Sys2Proof.Machine

open Sys2Proof.Safety

theorem byte_writeElements (m : Memory) (base e p : Nat) (q : Lanes Nat) (c : Fin 4) (k : Nat)
    (hk : k < e) :
    (writeElements m base e p q).byte (elementAddr base e p c.val + k) =
      BitVec.ofNat 8 (channel q c / 256 ^ k) := by
  have hd (c d : Nat) (h : c < d) : elementAddr base e p c + k < elementAddr base e p d := by
    simp only [elementAddr]
    have : (c + 1) * e ≤ d * e := Nat.mul_le_mul_right e h
    nlinarith
  have hin (m : Memory) (c v : Nat) : (memWrite m (elementAddr base e p c) e v).byte
      (elementAddr base e p c + k) = BitVec.ofNat 8 (v / 256 ^ k) := by
    rw [byte_memWrite, if_pos (by omega)]; congr; omega
  unfold writeElements
  fin_cases c <;> simp only [channel]
  · rw [byte_memWrite_outside _ _ _ _ _ (.inl (hd 0 3 (by omega))),
      byte_memWrite_outside _ _ _ _ _ (.inl (hd 0 2 (by omega))),
      byte_memWrite_outside _ _ _ _ _ (.inl (hd 0 1 (by omega)))]
    exact hin m 0 _
  · rw [byte_memWrite_outside _ _ _ _ _ (.inl (hd 1 3 (by omega))),
      byte_memWrite_outside _ _ _ _ _ (.inl (hd 1 2 (by omega)))]
    exact hin _ 1 _
  · rw [byte_memWrite_outside _ _ _ _ _ (.inl (hd 2 3 (by omega)))]
    exact hin _ 2 _
  · exact hin _ 3 _

/-- No output pixel shares a byte with a later input pixel. -/
def Separate (inP ei outP eo lo hi : Nat) : Prop :=
  ∀ p q a, lo ≤ p → p < q → q < hi → inP + 4 * q * ei ≤ a → a < inP + 4 * (q + 1) * ei →
    a < outP + 4 * p * eo ∨ outP + 4 * (p + 1) * eo ≤ a

theorem separate_of_apart (inP ei outP eo n : Nat)
    (h : inP + 4 * n * ei ≤ outP ∨ outP + 4 * n * eo ≤ inP ∨ (inP = outP ∧ ei = eo)) :
    Separate inP ei outP eo 0 n := by
  intro p q a _ hpq hq h1 h2
  have hb (e : Nat) : 4 * (q + 1) * e ≤ 4 * n * e := Nat.mul_le_mul_right e (by omega)
  have hc (e : Nat) : 4 * (p + 1) * e ≤ 4 * q * e := Nat.mul_le_mul_right e (by omega)
  have hbo := hb eo
  have hbi := hb ei
  have hco := hc eo
  have hup : 4 * q * eo ≤ 4 * (q + 1) * eo := Nat.mul_le_mul_right _ (by omega)
  rcases h with h | h | ⟨rfl, rfl⟩ <;> omega

/-- What one pixel of the frame writes, from the memory it reads (R196 step 8). -/
def pixelElement (u : UnitInfo) (f : Quad → Lanes ChanOut) (inP p : Nat) (m : Memory) (c : Fin 4) : Nat :=
  storeElement u.outBd (channel (f ((readElements m inP u.inBd.esize p).map (normalise u.inBd))) c)

theorem channel_map {α β : Type} (f : α → β) (x : Lanes α) (c : Fin 4) :
    channel (x.map f) c = f (channel x c) := by
  fin_cases c <;> rfl

theorem applyPixel_outside (u : UnitInfo) (f : Quad → Lanes ChanOut) (inP outP p x : Nat) (m : Memory)
    (h : x < outP + 4 * p * u.outBd.esize ∨ outP + 4 * (p + 1) * u.outBd.esize ≤ x) :
    (applyPixel u f inP outP p m).byte x = m.byte x :=
  byte_writeElements_outside _ _ _ _ _ _ h

theorem applyPixel_byte (u : UnitInfo) (f : Quad → Lanes ChanOut) (inP outP p : Nat) (m : Memory)
    (c : Fin 4) (k : Nat) (hk : k < u.outBd.esize) :
    (applyPixel u f inP outP p m).byte (elementAddr outP u.outBd.esize p c.val + k) =
      BitVec.ofNat 8 (pixelElement u f inP p m c / 256 ^ k) := by
  rw [applyPixel, byte_writeElements _ _ _ _ _ _ _ hk, channel_map]
  rfl

theorem applyPixels_outside (u : UnitInfo) (f : Quad → Lanes ChanOut) (inP outP count p x : Nat)
    (m : Memory)
    (h : x < outP + 4 * p * u.outBd.esize ∨ outP + 4 * (p + count) * u.outBd.esize ≤ x) :
    (applyPixels u f inP outP count p m).byte x = m.byte x := by
  induction count generalizing p m with
  | zero => rfl
  | succ n ih =>
    have h1 : 4 * p * u.outBd.esize ≤ 4 * (p + 1) * u.outBd.esize := Nat.mul_le_mul_right _ (by omega)
    have h2 : 4 * (p + 1) * u.outBd.esize ≤ 4 * (p + 1 + n) * u.outBd.esize :=
      Nat.mul_le_mul_right _ (by omega)
    rw [show p + (n + 1) = p + 1 + n by omega] at h
    rw [applyPixels, ih _ _ (by omega), applyPixel_outside _ _ _ _ _ _ _ (by omega)]

/-- Every pixel's output comes from the input before the command, in-place buffers included
(R197, R198). -/
theorem applyPixels_byte (u : UnitInfo) (f : Quad → Lanes ChanOut) (inP outP count p : Nat)
    (m : Memory) (hs : Separate inP u.inBd.esize outP u.outBd.esize p (p + count))
    (q : Nat) (c : Fin 4) (k : Nat) (h1 : p ≤ q) (h2 : q < p + count) (hk : k < u.outBd.esize) :
    (applyPixels u f inP outP count p m).byte (elementAddr outP u.outBd.esize q c.val + k) =
      BitVec.ofNat 8 (pixelElement u f inP q m c / 256 ^ k) := by
  induction count generalizing p m with
  | zero => omega
  | succ n ih =>
    rw [applyPixels]
    rcases Nat.eq_or_lt_of_le h1 with rfl | hlt
    · have hc : c.val * u.outBd.esize + u.outBd.esize ≤ 4 * u.outBd.esize := by
        have := c.isLt
        nlinarith
      rw [applyPixels_outside _ _ _ _ _ _ _ _ (.inl (by simp only [elementAddr]; nlinarith)),
        applyPixel_byte _ _ _ _ _ _ _ _ hk]
    · have hs' : Separate inP u.inBd.esize outP u.outBd.esize (p + 1) (p + 1 + n) :=
        fun a b x ha => by
          intro h3 h4
          exact hs a b x (by omega) h3 (by omega)
      rw [ih (p + 1) _ hs' hlt (by omega)]
      have : readElements (applyPixel u f inP outP p m) inP u.inBd.esize q
          = readElements m inP u.inBd.esize q :=
        readElements_congr _ _ _ _ _ fun a h3 h4 =>
          applyPixel_outside _ _ _ _ _ _ _ (hs p q a le_rfl hlt h2 h3 h4)
      rw [pixelElement, this, pixelElement]

theorem wf_applyPixels (u : UnitInfo) (f : Quad → Lanes ChanOut) (inP outP count p : Nat)
    (m : Memory) (hm : m.wf = true) (h : outP + 4 * (p + count) * u.outBd.esize ≤ 2 ^ 32) :
    (applyPixels u f inP outP count p m).wf = true := by
  induction count generalizing p m with
  | zero => exact hm
  | succ n ih =>
    rw [applyPixels]
    have h2 : 4 * (p + 1) * u.outBd.esize ≤ 4 * (p + (n + 1)) * u.outBd.esize :=
      Nat.mul_le_mul_right _ (by omega)
    refine ih (p + 1) _ (wf_writeElements _ _ _ _ _ hm (by omega)) ?_
    rw [show p + 1 + n = p + (n + 1) by omega]
    exact h

/-- The whole frame with every check passed (R196). -/
theorem applyFrame_ok (u : UnitInfo) (f : Quad → Lanes ChanOut) (s : State) (n : Nat)
    (h : applyChecks u s = .ok n) :
    applyFrame u f s = .ok { s with
      mem := applyPixels u f s.cfg.inPtr.toNat s.cfg.outPtr.toNat n 0 s.mem
      ws := s.ws.add s.cfg.outPtr.toNat (s.cfg.outPtr.toNat + 4 * n * u.outBd.esize) } := by
  simp [applyFrame, h]

theorem applyFrame_error (u : UnitInfo) (f : Quad → Lanes ChanOut) (s : State) (e : Error)
    (h : applyChecks u s = .error e) : applyFrame u f s = .error e := by
  simp [applyFrame, h]

theorem applyFrame_cases (u : UnitInfo) (f : Quad → Lanes ChanOut) (s : State) :
    (∃ n, applyChecks u s = .ok n ∧ applyFrame u f s = .ok { s with
        mem := applyPixels u f s.cfg.inPtr.toNat s.cfg.outPtr.toNat n 0 s.mem
        ws := s.ws.add s.cfg.outPtr.toNat (s.cfg.outPtr.toNat + 4 * n * u.outBd.esize) }) ∨
      ∃ e, applyChecks u s = .error e ∧ applyFrame u f s = .error e := by
  cases h : applyChecks u s with
  | ok n => exact .inl ⟨n, rfl, applyFrame_ok u f s n h⟩
  | error e => exact .inr ⟨e, rfl, applyFrame_error u f s e h⟩

/-- The output of a checked frame lies in the space. -/
theorem applyChecks_out_le (u : UnitInfo) (s : State) (n : Nat) (h : applyChecks u s = .ok n) :
    s.cfg.outPtr.toNat + 4 * n * u.outBd.esize ≤ 2 ^ 32 := by
  obtain ⟨-, -, -, rfl | ⟨-, ho⟩⟩ := applyChecks_ok u s n h
  · have := s.cfg.outPtr.isLt
    omega
  · exact ((inBounds_iff _ _ _).1 ho).1

/-- The write target of an APPLY, by unit. -/
theorem writeTarget_apply (id : UnitId) (s : State) :
    writeTarget (applyOf id) s =
      match applyChecks (infoOf id s) s with
      | .ok n => (s.cfg.outPtr.toNat, 4 * n * (infoOf id s).outBd.esize)
      | .error _ => (0, 0) := by
  cases id <;> rfl

end Sys2Proof.Machine
end

