-- ==== Sys2Proof/Laws/Configure.lean ====
section
/-!
SUPPORT. What the four configurations share and what each can answer: the common checks, the errors
each can raise, the camera check, and the shape of a configured LUT (42_matrix.md R232, 43_log.md R265,
44_lut1d_forward.md R303, 45_lut1d_inverse.md R350 to R364, 46_tone_curves.md R401).
-/
namespace Sys2Proof.Machine

open Sys2Proof.Safety

/-! ### The common checks (30_encoding.md R121 steps 1 and 2) -/

theorem latchedDepths_ok (s : State) (ib ob : BitDepth) (hi : bitDepthOf s.cfg.inBd = some ib)
    (ho : bitDepthOf s.cfg.outBd = some ob) : latchedDepths s = .ok (ib, ob) := by
  simp [latchedDepths, hi, ho]

theorem latchedDepths_error (s : State)
    (h : bitDepthOf s.cfg.inBd = none ∨ bitDepthOf s.cfg.outBd = none) :
    latchedDepths s = .error ⟨.unsupported, 1⟩ := by
  unfold latchedDepths
  rcases h with h | h
  · simp [h]
  · cases hi : bitDepthOf s.cfg.inBd <;> simp [h]

theorem readHeader_ok (s : State) (ha : s.cfg.opdataPtr.toNat % 8 = 0)
    (hb : inBounds s.memMap s.cfg.opdataPtr.toNat 8 = true) :
    readHeader s = .ok (headerFlags s, headerSecond s) := by
  simp [readHeader, checkAlign_of_dvd _ _ ha, checkBounds_of_true _ _ _ hb, headerFlags, headerSecond]

theorem readHeader_misaligned (s : State) (ha : s.cfg.opdataPtr.toNat % 8 ≠ 0) :
    readHeader s = .error ⟨.align, s.cfg.opdataPtr⟩ := by
  simp [readHeader, checkAlign_of_not_dvd _ _ ha]

theorem readHeader_unmapped (s : State) (ha : s.cfg.opdataPtr.toNat % 8 = 0)
    (hb : inBounds s.memMap s.cfg.opdataPtr.toNat 8 = false) :
    readHeader s = .error ⟨.bus, s.cfg.opdataPtr⟩ := by
  simp [readHeader, checkAlign_of_dvd _ _ ha, checkBounds_of_false _ _ _ hb]

theorem updReady_checks (s : State) (ib ob : BitDepth) (h : updReady s ib ob) :
    latchedDepths s = .ok (ib, ob) ∧ readHeader s = .ok (headerFlags s, headerSecond s) :=
  ⟨latchedDepths_ok s ib ob h.1 h.2.1, readHeader_ok s h.2.2.1 h.2.2.2⟩

theorem checkDescriptor_ok (s : State) (size : Nat) (h : descriptorMapped s size) :
    checkDescriptor s size = .ok () :=
  checkBounds_of_true _ _ _ h

theorem checkDescriptor_error (s : State) (size : Nat) (h : ¬descriptorMapped s size) :
    checkDescriptor s size = .error ⟨.bus, s.cfg.opdataPtr⟩ := by
  simp [checkDescriptor, checkBounds_of_false _ _ _ (Bool.eq_false_iff.2 h)]

/-- The errors of the common checks. -/
theorem latchedDepths_error_name (s : State) (e : Error) (h : latchedDepths s = .error e) :
    e.name = .unsupported := by
  unfold latchedDepths at h
  split at h
  · cases h; rfl
  · split at h
    · cases h; rfl
    · cases h

theorem readHeader_error_name (s : State) (e : Error) (h : readHeader s = .error e) :
    e.name = .align ∨ e.name = .bus := by
  simp only [readHeader, checkAlign, checkBounds, check_bind_error, require_error_iff] at h
  rcases h with ⟨-, rfl⟩ | ⟨-, -, ⟨-, rfl⟩ | ⟨-, -, h⟩⟩
  · exact .inl rfl
  · exact .inr rfl
  · simp at h

theorem checkDescriptor_error_name (s : State) (size : Nat) (e : Error)
    (h : checkDescriptor s size = .error e) : e.name = .bus := by
  simp only [checkDescriptor, checkBounds, require_error_iff] at h
  rw [h.2]

/-! ### The errors each UPD can raise (60_exceptions.md R465) -/

theorem configureMat_error_name (s : State) (e : Error) (h : configureMat s = .error e) :
    e.name ∈ [ErrName.unsupported, .align, .bus, .invalidOpdata, .finalizeNotCalled] := by
  simp only [configureMat, check_bind_error, require_error_iff] at h
  rcases h with h | ⟨_, -, h | ⟨_, -, ⟨-, rfl⟩ | ⟨-, -, ⟨-, rfl⟩ | ⟨-, -, h | ⟨-, -, h⟩⟩⟩⟩⟩
  · simp [latchedDepths_error_name s e h]
  · rcases readHeader_error_name s e h with h | h <;> simp [h]
  · simp
  · simp
  · simp [checkDescriptor_error_name s _ e h]
  · simp at h

theorem validate_error_name (d : LogOpData) (camera : Bool) (e : Error)
    (h : d.validate camera = .error e) : e.name = .invalidOpdata := by
  simp only [LogOpData.validate, check_bind_error, require_error_iff] at h
  rcases h with ⟨-, rfl⟩ | ⟨-, -, ⟨-, rfl⟩ | ⟨-, -, ⟨-, rfl⟩ | ⟨-, -, -, rfl⟩⟩⟩ <;> rfl

theorem configureLog_error_name (s : State) (e : Error) (h : configureLog s = .error e) :
    e.name ∈ [ErrName.unsupported, .align, .bus, .invalidOpdata] := by
  simp only [configureLog, check_bind_error, require_error_iff] at h
  rcases h with h | ⟨_, -, h | ⟨_, -, ⟨-, rfl⟩ | ⟨-, -, h | ⟨-, -, h | ⟨-, -, h⟩⟩⟩⟩⟩
  · simp [latchedDepths_error_name s e h]
  · rcases readHeader_error_name s e h with h | h <;> simp [h]
  · simp
  · simp [checkDescriptor_error_name s _ e h]
  · simp [validate_error_name _ _ e h]
  · simp at h

theorem configureCrv_error_name (s : State) (e : Error) (h : configureCrv s = .error e) :
    e.name ∈ [ErrName.unsupported, .align, .bus, .invalidOpdata] := by
  simp only [configureCrv, check_bind_error] at h
  rcases h with h | ⟨_, -, h | ⟨_, -, h⟩⟩
  · simp [latchedDepths_error_name s e h]
  · rcases readHeader_error_name s e h with h | h <;> simp [h]
  · split at h
    · cases h; simp
    · simp only [check_bind_error, require_error_iff] at h
      rcases h with ⟨-, rfl⟩ | ⟨-, -, h | ⟨-, -, ⟨-, rfl⟩ | ⟨-, -, h⟩⟩⟩
      · simp
      · simp [checkDescriptor_error_name s _ e h]
      · simp
      · simp at h

theorem checkLutHeader_error_name (flags : Word) (n : Nat) (e : Error)
    (h : checkLutHeader flags n = .error e) : e.name = .invalidOpdata := by
  simp only [checkLutHeader, check_bind_error, require_error_iff] at h
  rcases h with ⟨-, rfl⟩ | ⟨-, -, ⟨-, rfl⟩ | ⟨-, -, ⟨-, rfl⟩ | ⟨-, -, ⟨-, rfl⟩ | ⟨-, -, ⟨-, rfl⟩ | ⟨-, -, -, rfl⟩⟩⟩⟩⟩ <;> rfl

theorem tableEntry_error (raw : Bool) (w : F32) (e : Error) (h : tableEntry raw w = .error e) :
    e = ⟨.invalidOpdata, 5⟩ := by
  unfold tableEntry at h
  split at h
  · split at h
    · cases h
    · cases h; rfl
  · cases h

theorem readLutEntries_error (s : State) (raw : Bool) (count i : Nat) (e : Error)
    (h : readLutEntries s raw count i = .error e) : e = ⟨.invalidOpdata, 5⟩ := by
  induction count generalizing i with
  | zero => simp [readLutEntries] at h
  | succ n ih =>
    simp only [readLutEntries, readLutEntry, check_bind_error, check_bind_ok] at h
    rcases h with (h | ⟨_, -, h | ⟨_, -, h | ⟨_, -, h⟩⟩⟩) | ⟨_, -, h | ⟨_, -, h⟩⟩
    · exact tableEntry_error _ _ _ h
    · exact tableEntry_error _ _ _ h
    · exact tableEntry_error _ _ _ h
    · simp at h
    · exact ih _ h
    · simp at h

theorem readTable_error (s : State) (raw : Bool) (n : Nat) (e : Error)
    (h : readTable s raw n = .error e) : e = ⟨.invalidOpdata, 5⟩ := by
  simp only [readTable, check_bind_error] at h
  rcases h with h | ⟨_, -, h⟩
  · exact readLutEntries_error _ _ _ _ _ h
  · simp at h

theorem buildNormal_error (w : List F32) (e : Error) (h : buildNormal w = .error e) :
    e = noInverse := by
  simp only [buildNormal, check_bind_error, require_error_iff] at h
  rcases h with ⟨-, rfl⟩ | ⟨-, -, h⟩
  · rfl
  · split at h
    · cases h; rfl
    · simp at h

theorem buildHalf_error (w : List F32) (e : Error) (h : buildHalf w = .error e) :
    e = noInverse := by
  simp only [buildHalf, check_bind_error, require_error_iff] at h
  rcases h with ⟨-, rfl⟩ | ⟨-, -, h⟩
  · rfl
  · split at h
    · cases h; rfl
    · simp at h

theorem rgb_check_error {α β : Type} (f : α → Check β) (x : Rgb α) (e e' : Error)
    (hf : ∀ a e, f a = .error e → e = e') (h : Rgb.check f x = .error e) : e = e' := by
  simp only [Rgb.check, check_bind_error] at h
  rcases h with h | ⟨_, -, h | ⟨_, -, h | ⟨_, -, h⟩⟩⟩
  · exact hf _ _ h
  · exact hf _ _ h
  · exact hf _ _ h
  · simp at h

theorem check_map_error {α β : Type} (f : α → β) (x : Check α) (e : Error) :
    Except.map f x = .error e ↔ x = .error e := by
  cases x <;> simp [Except.map]

theorem check_map_ok {α β : Type} (f : α → β) (x : Check α) (b : β) :
    Except.map f x = .ok b ↔ ∃ a, x = .ok a ∧ f a = b := by
  cases x <;> simp [Except.map]

theorem buildInverse_error (half : Bool) (v : Rgb (List F32)) (e : Error)
    (h : buildInverse half v = .error e) : e = noInverse := by
  unfold buildInverse at h
  split at h <;> rw [check_map_error] at h
  · exact rgb_check_error _ _ _ _ buildHalf_error h
  · exact rgb_check_error _ _ _ _ buildNormal_error h

theorem lutMode_error (flags : Word) (n : Nat) (v : Rgb (List F32)) (e : Error)
    (h : lutMode flags n v = .error e) : e = noInverse := by
  unfold lutMode at h
  split at h
  · simp at h
  · rw [check_bind_error] at h
    rcases h with h | ⟨_, -, h⟩
    · exact buildInverse_error _ _ _ h
    · split at h <;> simp at h

theorem configureLut_error_name (s : State) (e : Error) (h : configureLut s = .error e) :
    e.name ∈ [ErrName.unsupported, .align, .bus, .invalidOpdata] := by
  simp only [configureLut, check_bind_error] at h
  rcases h with h | ⟨_, -, h | ⟨_, -, h | ⟨_, -, h | ⟨_, -, h | ⟨_, -, h | ⟨_, -, h⟩⟩⟩⟩⟩⟩
  · simp [latchedDepths_error_name s e h]
  · rcases readHeader_error_name s e h with h | h <;> simp [h]
  · simp [checkLutHeader_error_name _ _ e h]
  · simp [checkDescriptor_error_name s _ e h]
  · simp [readTable_error _ _ _ e h]
  · rw [lutMode_error _ _ _ e h]; simp [noInverse]
  · simp at h

/-! ### The camera check (43_log.md R263(d)) -/

/-- A sum is a number exactly where both operands are. -/
theorem FloatVal.add_fin (x y : FloatVal) (n : Bool) (m : ℚ) : x.add y = .fin n m ↔
    ∃ n₁ m₁ n₂ m₂, x = .fin n₁ m₁ ∧ y = .fin n₂ m₂ ∧
      (let s := (if n₁ then -m₁ else m₁) + (if n₂ then -m₂ else m₂); n = decide (s < 0) ∧ m = |s|) := by
  rcases x with _ | n₁ | ⟨n₁, m₁⟩ <;> rcases y with _ | n₂ | ⟨n₂, m₂⟩ <;> simp [FloatVal.add, eq_comm]
  split <;> simp

/-- It is +∞ exactly where one operand is and the other is a number or +∞. -/
theorem FloatVal.add_inf (x y : FloatVal) : x.add y = .inf false ↔
    (x = .inf false ∧ (y = .inf false ∨ ∃ n m, y = .fin n m)) ∨ (y = .inf false ∧ ∃ n m, x = .fin n m) := by
  rcases x with _ | n₁ | ⟨n₁, m₁⟩ <;> rcases y with _ | n₂ | ⟨n₂, m₂⟩ <;> simp [FloatVal.add]
  cases n₁ <;> cases n₂ <;> simp

/-- A product is a number exactly where both operands are. -/
theorem FloatVal.mul_fin (x y : FloatVal) (n : Bool) (m : ℚ) : x.mul y = .fin n m ↔
    ∃ n₁ m₁ n₂ m₂, x = .fin n₁ m₁ ∧ y = .fin n₂ m₂ ∧ n = (n₁ != n₂) ∧ m = m₁ * m₂ := by
  rcases x with _ | n₁ | ⟨n₁, m₁⟩ <;> rcases y with _ | n₂ | ⟨n₂, m₂⟩ <;> simp [FloatVal.mul, eq_comm]
  all_goals split <;> simp

theorem ratOfF64_eq (x : F64) (q : ℚ) :
    ratOfF64 x = some q ↔ ∃ n m, val64 x = .fin n m ∧ q = if n then -m else m := by
  unfold ratOfF64
  cases val64 x <;> simp [eq_comm]

/-- Check (d) of R263 passes by its value where that is a number above 0. -/
theorem breakPositive_iff (p : LogParams) :
    breakPositive p.linSlope p.linSideBreak p.linOffset ↔ ∃ m, 0 < m ∧ p.breakValue = .fin false m := by
  simp only [breakPositive, LogParams.breakValue, FloatVal.add_fin, FloatVal.mul_fin, ratOfF64_eq]
  constructor
  · rintro ⟨_, _, _, ⟨n₁, m₁, h₁, rfl⟩, ⟨n₂, m₂, h₂, rfl⟩, ⟨n₃, m₃, h₃, rfl⟩, h⟩
    have e : (if (n₁ != n₂) = true then -(m₁ * m₂) else m₁ * m₂) =
        (if n₁ then -m₁ else m₁) * (if n₂ then -m₂ else m₂) := by cases n₁ <;> cases n₂ <;> simp
    refine ⟨_, abs_pos.2 (ne_of_gt h), _, _, n₃, m₃, ⟨n₁, m₁, n₂, m₂, h₁, h₂, rfl, rfl⟩, h₃, ?_⟩
    rw [e]
    exact ⟨(decide_eq_false (not_lt.2 h.le)).symm, rfl⟩
  · rintro ⟨_, h, _, _, n₃, m₃, ⟨n₁, m₁, n₂, m₂, h₁, h₂, rfl, rfl⟩, h₃, hs, rfl⟩
    have e : (if (n₁ != n₂) = true then -(m₁ * m₂) else m₁ * m₂) =
        (if n₁ then -m₁ else m₁) * (if n₂ then -m₂ else m₂) := by cases n₁ <;> cases n₂ <;> simp
    rw [e] at hs h
    exact ⟨_, _, _, ⟨n₁, m₁, h₁, rfl⟩, ⟨n₂, m₂, h₂, rfl⟩, ⟨n₃, m₃, h₃, rfl⟩,
      lt_of_le_of_ne (not_lt.1 (of_decide_eq_false hs.symm)) (Ne.symm (abs_pos.1 h))⟩

/-- A binary64 is a NaN, or an infinity or a number with its sign bit. -/
theorem val64_cases (x : F64) :
    val64 x = .nan ∨ val64 x = .inf (x.getLsbD 63) ∨ ∃ m, val64 x = .fin (x.getLsbD 63) m := by
  have hs : (x.toNat / 2 ^ 63 % 2 == 1) = x.getLsbD 63 := by
    rw [BitVec.getLsbD, Nat.testBit_eq_decide_div_mod_eq]
    rfl
  unfold val64 FloatFormat.value
  simp only [binary64, hs, Nat.reduceAdd]
  split
  · split
    · exact .inr (.inl rfl)
    · exact .inl rfl
  · split <;> exact .inr (.inr ⟨_, rfl⟩)

/-- Check (d) of R263 is open where its value is +∞. -/
theorem breakInfinite_iff (p : LogParams) :
    breakInfinite p.linSlope p.linSideBreak p.linOffset ↔ p.breakValue = .inf false := by
  simp only [breakInfinite, LogParams.breakValue, FloatVal.add_inf, FloatVal.mul_fin]
  rcases val64_cases p.linSlope with h₁ | h₁ | ⟨m₁, h₁⟩ <;>
    rcases val64_cases p.linSideBreak with h₂ | h₂ | ⟨m₂, h₂⟩ <;>
    generalize p.linSlope.getLsbD 63 = n₁ at h₁ ⊢ <;>
    generalize p.linSideBreak.getLsbD 63 = n₂ at h₂ ⊢ <;>
    rcases h₃ : val64 p.linOffset with _ | n₃ | ⟨n₃, m₃⟩ <;>
    simp [ratOfF64, h₁, h₂, h₃, FloatVal.mul]
  all_goals cases n₁ <;> cases n₂ <;> split_ifs <;> simp_all

/-- It fails where there is no value, and at −∞. -/
theorem not_break (p : LogParams) (h : p.breakValue = .nan ∨ p.breakValue = .inf true) :
    ¬breakPositive p.linSlope p.linSideBreak p.linOffset ∧
      ¬breakInfinite p.linSlope p.linSideBreak p.linOffset := by
  rw [breakPositive_iff, breakInfinite_iff]
  rcases h with h | h <;> simp [h]

/-! ### The shape of a configured LUT (44_lut1d_forward.md R301, 45_lut1d_inverse.md R353, R356) -/

theorem checkLutHeader_ok (flags : Word) (n : Nat) (h : checkLutHeader flags n = .ok ()) :
    2 ≤ n ∧ n ≤ 65536 ∧ (lutHalfDomain flags = true → n = 65536) := by
  simp only [checkLutHeader, check_bind_ok, require_ok_iff, exists_and_left, exists_const,
    bne_iff_ne, ne_eq, decide_eq_true_eq, Bool.or_eq_true, Bool.not_eq_true', beq_iff_eq] at h
  obtain ⟨-, -, h0, h1, h2, h3⟩ := h
  refine ⟨by omega, h2, fun hh => ?_⟩
  rcases h3 with h3 | h3
  · simp [hh] at h3
  · exact h3

theorem readLutEntries_length (s : State) (raw : Bool) (count i : Nat) (es : List (Rgb F32))
    (h : readLutEntries s raw count i = .ok es) : es.length = count := by
  induction count generalizing i es with
  | zero => cases h; rfl
  | succ n ih =>
    simp only [readLutEntries, check_bind_ok, check_pure, Except.ok.injEq] at h
    obtain ⟨_, -, rest, hr, rfl⟩ := h
    simp [ih _ _ hr]

theorem readTable_ok (s : State) (raw : Bool) (n : Nat) (v : Rgb (List F32))
    (h : readTable s raw n = .ok v) : tableOk v n = true := by
  simp only [readTable, check_bind_ok, check_pure, Except.ok.injEq] at h
  obtain ⟨es, he, rfl⟩ := h
  simp [tableOk, Rgb.toList, readLutEntries_length s raw n 0 es he]

theorem runningMax_length (prev : F32) (w : List F32) : (runningMax prev w).length = w.length := by
  induction w generalizing prev with
  | nil => rfl
  | cons x t ih => simp [runningMax, ih]

theorem monotoneCopy_length (flip : F32) (w : List F32) : (monotoneCopy flip w).length = w.length := by
  cases w with
  | nil => rfl
  | cons x t => simp [monotoneCopy, runningMax_length]

/-- Where the search from the front meets a change, at `b`; from the back, at `e` (R353). -/
theorem firstChange_eq (u : List F32) (i b : Nat) :
    firstChange i u = some b ↔ i ≤ b ∧ b + 1 < i + u.length ∧
      feq (entry u (b - i)) (entry u (b + 1 - i)) = false ∧
      ∀ k, i ≤ k → k < b → feq (entry u (k - i)) (entry u (k + 1 - i)) = true := by
  induction u generalizing i with
  | nil => simp [firstChange]; intros; omega
  | cons x t ih =>
    cases t with
    | nil => simp [firstChange]; intros; omega
    | cons y t =>
      have hshift (k : Nat) (h : i + 1 ≤ k) :
          entry (x :: y :: t) (k - i) = entry (y :: t) (k - (i + 1)) := by
        rw [show k - i = (k - (i + 1)) + 1 by omega]; rfl
      have h0 : entry (x :: y :: t) (i - i) = x := by simp [entry]
      have h1 : entry (x :: y :: t) (i + 1 - i) = y := by simp [entry]
      simp only [firstChange]
      split
      · next h =>
        rw [ih]
        constructor
        · rintro ⟨h2, h3, h4, h5⟩
          simp only [List.length_cons] at h3 ⊢
          refine ⟨by omega, by omega, ?_, fun k h6 h7 => ?_⟩
          · rw [hshift b h2, hshift (b + 1) (by omega)]; exact h4
          · rcases Nat.eq_or_lt_of_le h6 with rfl | hlt
            · rw [h0, h1]; exact h
            · rw [hshift k hlt, hshift (k + 1) (by omega)]; exact h5 k hlt h7
        · rintro ⟨h2, h3, h4, h5⟩
          simp only [List.length_cons] at h3 ⊢
          have hne : i ≠ b := by
            rintro rfl
            rw [h0, h1, h] at h4
            simp at h4
          refine ⟨by omega, by omega, ?_, fun k h6 h7 => ?_⟩
          · rw [← hshift b (by omega), ← hshift (b + 1) (by omega)]; exact h4
          · rw [← hshift k h6, ← hshift (k + 1) (by omega)]; exact h5 k (by omega) h7
      · next h =>
        constructor
        · intro hb
          cases hb
          refine ⟨le_rfl, by simp, ?_, fun k h6 h7 => by omega⟩
          rw [h0, h1]; simpa using h
        · rintro ⟨h2, h3, h4, h5⟩
          rcases Nat.eq_or_lt_of_le h2 with rfl | hlt
          · rfl
          · have := h5 i le_rfl hlt
            rw [h0, h1] at this
            exact absurd this h

theorem lastChange_none (u : List F32) (i : Nat) :
    lastChange i u = none ↔ ∀ k, k + 1 < u.length → feq (entry u k) (entry u (k + 1)) = true := by
  induction u generalizing i with
  | nil => simp [lastChange]
  | cons x t ih =>
    cases t with
    | nil => simp [lastChange]
    | cons y t =>
      simp only [lastChange]
      constructor
      · intro h k hk
        split at h
        · simp at h
        · next hn =>
          split at h
          · next hxy =>
            cases k with
            | zero => simpa [entry] using hxy
            | succ k => exact (ih (i + 1)).1 hn k (by simpa using hk)
          · simp at h
      · intro h
        have hn := (ih (i + 1)).2 fun k hk => h (k + 1) (by simpa using hk)
        have hxy : feq x y = true := by simpa [entry] using h 0 (by simp)
        simp [hn, hxy]

theorem lastChange_eq (u : List F32) (i e : Nat) :
    lastChange i u = some e ↔ i + 1 ≤ e ∧ e < i + u.length ∧
      feq (entry u (e - 1 - i)) (entry u (e - i)) = false ∧
      ∀ k, e < k → k < i + u.length → feq (entry u (k - 1 - i)) (entry u (k - i)) = true := by
  induction u generalizing i e with
  | nil => simp [lastChange]; intros; omega
  | cons x t ih =>
    cases t with
    | nil => simp [lastChange]; intros; omega
    | cons y t =>
      have hshift (k : Nat) (h : i + 1 ≤ k) :
          entry (x :: y :: t) (k - i) = entry (y :: t) (k - (i + 1)) := by
        rw [show k - i = (k - (i + 1)) + 1 by omega]; rfl
      simp only [lastChange]
      split
      · next j hj =>
        obtain ⟨h1, h2, h3, h4⟩ := (ih (i + 1) j).1 hj
        simp only [List.length_cons] at h2 h4 ⊢
        have hj0 : feq (entry (x :: y :: t) (j - 1 - i)) (entry (x :: y :: t) (j - i)) = false := by
          rw [hshift (j - 1) (by omega), hshift j (by omega)]; exact h3
        have hj1 (k : Nat) (h5 : j < k) (h6 : k < i + (t.length + 1 + 1)) :
            feq (entry (x :: y :: t) (k - 1 - i)) (entry (x :: y :: t) (k - i)) = true := by
          rw [hshift (k - 1) (by omega), hshift k (by omega)]; exact h4 k h5 (by omega)
        constructor
        · intro h
          cases h
          exact ⟨by omega, by omega, hj0, hj1⟩
        · rintro ⟨h5, h6, h7, h8⟩
          rcases Nat.lt_trichotomy j e with hlt | rfl | hlt
          · rw [hj1 e hlt h6] at h7; simp at h7
          · rfl
          · rw [h8 j hlt (by omega)] at hj0; simp at hj0
      · next hn =>
        have hall := (lastChange_none (y :: t) (i + 1)).1 hn
        simp only [List.length_cons] at hall ⊢
        have hk (k : Nat) (h5 : i + 1 < k) (h6 : k < i + (t.length + 1 + 1)) :
            feq (entry (x :: y :: t) (k - 1 - i)) (entry (x :: y :: t) (k - i)) = true := by
          rw [hshift (k - 1) (by omega), hshift k (by omega)]
          have := hall (k - 1 - (i + 1)) (by omega)
          rwa [show k - 1 - (i + 1) + 1 = k - (i + 1) by omega] at this
        have h0 : entry (x :: y :: t) (i + 1 - 1 - i) = x := by simp [entry]
        have h1 : entry (x :: y :: t) (i + 1 - i) = y := by simp [entry]
        constructor
        · intro h
          split at h
          · simp at h
          · next hxy =>
            cases h
            exact ⟨by omega, by omega, by rw [h0, h1]; simpa using hxy, hk⟩
        · rintro ⟨h5, h6, h7, h8⟩
          have he : e = i + 1 := by
            by_contra hne
            rw [hk e (by omega) h6] at h7
            simp at h7
          subst he
          rw [h0, h1] at h7
          simp [h7]

/-- The effective domain of a copy: both ends lie in the table, the start below the end (R353). -/
theorem effectiveDomain_bounds (u : List F32) (b e : Nat) (h : effectiveDomain u = some (b, e)) :
    b < e ∧ e < u.length := by
  unfold effectiveDomain at h
  split at h
  · next b' e' hb he =>
    cases h
    obtain ⟨-, h2, h3, h4⟩ := (firstChange_eq u 0 b).1 hb
    obtain ⟨h5, h6, h7, h8⟩ := (lastChange_eq u 0 e).1 he
    refine ⟨?_, by omega⟩
    by_contra hlt
    have := h8 (b + 1) (by omega) (by omega)
    simp only [Nat.sub_zero, Nat.add_sub_cancel] at this h3
    rw [this] at h3
    simp at h3
  · simp at h

theorem buildNormal_ok (w : List F32) (c : NormalInverse) (h : buildNormal w = .ok c) :
    normalOk w.length c = true := by
  simp only [buildNormal, check_bind_ok] at h
  obtain ⟨-, -, h⟩ := h
  split at h
  · simp at h
  · next b e hd =>
    cases h
    have := effectiveDomain_bounds _ _ _ hd
    rw [monotoneCopy_length] at this
    simp [normalOk, monotoneCopy_length, this]

theorem getD_domain (u : List F32) (hl : u.length = 0x7C00) :
    ((effectiveDomain u).getD (0, 0)).1 ≤ ((effectiveDomain u).getD (0, 0)).2 ∧
      ((effectiveDomain u).getD (0, 0)).2 < 0x7C00 := by
  cases h : effectiveDomain u with
  | none => simp
  | some p =>
    obtain ⟨b, e⟩ := p
    have := effectiveDomain_bounds u b e h
    simp only [Option.getD_some]
    omega

theorem buildHalf_ok (w : List F32) (c : HalfInverse) (hw : w.length = 65536)
    (h : buildHalf w = .ok c) : halfOk c = true := by
  simp only [buildHalf, check_bind_ok] at h
  obtain ⟨-, -, h⟩ := h
  have hp (f : F32) : (monotoneCopy f (positiveHalf w)).length = 0x7C00 := by
    simp [monotoneCopy_length, positiveHalf, hw]
  have hn (f : F32) : (monotoneCopy f (negativeHalf w)).length = 0x7C00 := by
    simp [monotoneCopy_length, negativeHalf, hw]
  split at h
  · simp at h
  · simp only [check_pure, Except.ok.injEq] at h
    subst h
    have h1 := getD_domain _ (hp (flipOf (fle (entry w 0) (entry w 0x7BFF))))
    have h2 := getD_domain _ (hn (fneg (flipOf (fle (entry w 0) (entry w 0x7BFF)))))
    simp only [halfOk, hp, hn, Bool.and_eq_true, beq_iff_eq, decide_eq_true_eq]
    simp only [and_self, true_and]
    omega

theorem rgb_check_ok {α β : Type} (f : α → Check β) (x : Rgb α) (y : Rgb β)
    (h : Rgb.check f x = .ok y) : f x.r = .ok y.r ∧ f x.g = .ok y.g ∧ f x.b = .ok y.b := by
  simp only [Rgb.check, check_bind_ok, check_pure, Except.ok.injEq] at h
  obtain ⟨r, hr, g, hg, b, hb, rfl⟩ := h
  exact ⟨hr, hg, hb⟩

theorem buildInverse_ok (n : Nat) (half : Bool) (v : Rgb (List F32)) (i : InverseData)
    (hv : tableOk v n = true) (hh : half = true → n = 65536) (h : buildInverse half v = .ok i) :
    inverseOk n half i = true := by
  simp only [tableOk, Rgb.toList, List.all_cons, List.all_nil, Bool.and_true, Bool.and_eq_true,
    beq_iff_eq] at hv
  obtain ⟨hr, hg, hb⟩ := hv
  unfold buildInverse at h
  split at h <;> next hhalf =>
    obtain ⟨c, hc, rfl⟩ := (check_map_ok _ _ _).1 h
    obtain ⟨h1, h2, h3⟩ := rgb_check_ok _ _ _ hc
    first
    | have hn := hh hhalf
      simp [inverseOk, hhalf, Rgb.toList, buildHalf_ok _ _ (hr.trans hn) h1,
        buildHalf_ok _ _ (hg.trans hn) h2, buildHalf_ok _ _ (hb.trans hn) h3]
    | have h1 := buildNormal_ok _ _ h1
      have h2 := buildNormal_ok _ _ h2
      have h3 := buildNormal_ok _ _ h3
      rw [hr] at h1
      rw [hg] at h2
      rw [hb] at h3
      simp [inverseOk, hhalf, Rgb.toList, h1, h2, h3]

theorem buildFast_ok (n : Nat) (v : Rgb (List F32)) (i : InverseData) :
    fastOk (buildFast n v i) = true := by
  cases i <;> simp [fastOk, buildFast, tableOk, Rgb.toList, Rgb.map, fastChannel] <;> rfl

/-- A unit that UPD.LUT configures has tables and inverse data of its length. -/
theorem configureLut_ok (s : State) (u : LutUnit) (h : configureLut s = .ok u) : lutOk u = true := by
  simp only [configureLut, check_bind_ok, check_pure, Except.ok.injEq] at h
  obtain ⟨_, -, ⟨flags, nw⟩, -, _, hh, _, -, v, hv, mode, hm, rfl⟩ := h
  obtain ⟨h2, h3, h4⟩ := checkLutHeader_ok _ _ hh
  have hv' := readTable_ok _ _ _ _ hv
  have hmode : lutModeOk nw.toNat (lutHalfDomain flags) mode = true := by
    unfold lutMode at hm
    split at hm
    · cases hm; rfl
    · obtain ⟨i, hi, hm⟩ := (check_bind_ok _ _ _).1 hm
      have := buildInverse_ok _ _ v i hv' h4 hi
      split at hm <;> cases hm
      · simp [lutModeOk, this, buildFast_ok]
      · simp [lutModeOk, this]
  simp only [lutOk, hv', hmode, Bool.not_true, Bool.false_or, Bool.and_true, Bool.and_eq_true,
    decide_eq_true_eq, Bool.or_eq_true, Bool.not_eq_true', beq_iff_eq]
  refine ⟨⟨h2, h3⟩, ?_⟩
  cases hhalf : lutHalfDomain flags
  · simp
  · simp [h4 hhalf]

end Sys2Proof.Machine
end

