-- ==== Sys2Proof/Laws/Curves.lean ====
section
/-!
SUPPORT. The parameters of the tone curves are finite numbers whatever the platform chooses, and
what the reference power gives where 46_tone_curves.md R403 and R416(b) fix it.
-/
namespace Sys2Proof.Machine

theorem dtdW_finite : Config.FiniteRgb dtdW := by
  unfold dtdW
  split
  · unfold Config.FiniteRgb; decide +kernel
  · next w _ => exact w.2

theorem r2100W_finite : Config.FiniteRgb r2100W := by
  unfold r2100W
  split
  · unfold Config.FiniteRgb; decide +kernel
  · next w _ => exact w.2

theorem yFloor_finite : isFinite yFloor = true := by
  unfold yFloor
  split
  · decide
  · next x _ => exact x.2

theorem refPow_zero_right (x y : F32) (hx : isFinite x = true ∨ x = infinity false) (hy : low y = 0) :
    refPow x y = one := by
  have h : feq y zero = true := by
    rw [feq_iff]
    refine ⟨isNaN_of_isFinite y (ratOf_eq_zero y hy).1, by decide, ?_⟩
    simp [key_eq, hy]
    decide
  have hx' : (isFinite x || x == infinity false) = true := by simpa using hx
  simp [refPow, exactPow, h, hx']

theorem refPow_zero_left (y : F32) (hy : flt zero y = true) : refPow zero y = zero := by
  have h : feq y zero = false := by
    rw [Bool.eq_false_iff, Ne, feq_iff]
    rintro ⟨-, -, hk⟩
    have := ((flt_iff zero y).1 hy).2.2
    omega
  simp [refPow, exactPow, h, hy]

/-- A floored luminance is a finite number or +Inf: a NaN and −Inf give the floor. -/
theorem luminance_cases (w x : Rgb F32) :
    isFinite (luminance w x) = true ∨ luminance w x = infinity false := by
  unfold luminance maxf
  split
  · next h =>
    generalize fadd (fadd (fmul w.r x.r) (fmul w.g x.g)) (fmul w.b x.b) = t at h
    obtain ⟨-, ht, hk⟩ := (flt_iff _ _).1 h
    have hf := (isFinite_iff yFloor).1 yFloor_finite
    have hl := (not_isNaN_iff t).1 ht
    rw [key_eq, key_eq] at hk
    rcases Nat.lt_or_ge (low t) 0x7F800000 with h1 | h1
    · exact .inl ((isFinite_iff t).2 h1)
    · right
      have hs : signbit t = false := by
        by_contra hs
        rw [Bool.not_eq_false] at hs
        rw [if_pos hs] at hk
        split at hk <;> omega
      exact ext_low _ _ (hs.trans (by decide)) (show low t = low (infinity false) by
        rw [show low (infinity false) = 0x7F800000 by decide]; omega)
  · exact .inl yFloor_finite

end Sys2Proof.Machine
end

