-- ==== Sys2Proof/Laws/Encoding.lean ====
section
/-!
SUPPORT. The fields of a command word: what `opOf` and `fieldsOf` read from a word that `word`
builds, that a word is built from its fields, and what each format's mask leaves
(30_encoding.md R101, R103).
-/
namespace Sys2Proof

theorem append_toNat {m n : Nat} (x : BitVec m) (y : BitVec n) :
    (x ++ y).toNat = x.toNat * 2 ^ n + y.toNat := by
  rw [BitVec.toNat_append, ← Nat.shiftLeft_add_eq_or_of_lt y.isLt, Nat.shiftLeft_eq]

theorem word_toNat (op : BitVec 6) (vd va vb : VReg) (imm : BitVec 14) :
    (word op vd va vb imm).toNat =
      op.toNat * 2 ^ 26 + vd.val * 2 ^ 22 + va.val * 2 ^ 18 + vb.val * 2 ^ 14 + imm.toNat := by
  simp only [word, append_toNat, BitVec.toNat_ofFin]
  ring

theorem opOf_word (op : BitVec 6) (vd va vb : VReg) (imm : BitVec 14) :
    opOf (word op vd va vb imm) = op := by
  refine BitVec.eq_of_toNat_eq ?_
  rw [opOf, BitVec.extractLsb'_toNat, word_toNat, Nat.shiftRight_eq_div_pow]
  have := op.isLt; have := vd.isLt; have := va.isLt; have := vb.isLt; have := imm.isLt
  omega

theorem fieldsOf_word (op : BitVec 6) (vd va vb : VReg) (imm : BitVec 14) :
    fieldsOf (word op vd va vb imm) = ⟨vd, va, vb, imm⟩ := by
  have := op.isLt; have := vd.isLt; have := va.isLt; have := vb.isLt; have := imm.isLt
  simp only [fieldsOf, Fields.mk.injEq]
  refine ⟨Fin.ext ?_, Fin.ext ?_, Fin.ext ?_, BitVec.eq_of_toNat_eq ?_⟩ <;>
    simp only [BitVec.val_toFin, BitVec.extractLsb'_toNat, word_toNat,
      Nat.shiftRight_eq_div_pow] <;> omega

/-- A word is its OP and its fields. -/
theorem word_fieldsOf (w : Word) :
    word (opOf w) (fieldsOf w).vd (fieldsOf w).va (fieldsOf w).vb (fieldsOf w).imm = w := by
  refine BitVec.eq_of_toNat_eq ?_
  rw [word_toNat]
  have := w.isLt
  simp only [opOf, fieldsOf, BitVec.val_toFin, BitVec.extractLsb'_toNat,
    Nat.shiftRight_eq_div_pow]
  omega

theorem word_inj (op op' : BitVec 6) (vd vd' va va' vb vb' : VReg) (imm imm' : BitVec 14) :
    word op vd va vb imm = word op' vd' va' vb' imm' ↔
      op = op' ∧ vd = vd' ∧ va = va' ∧ vb = vb' ∧ imm = imm' := by
  constructor
  · intro h
    have h1 := opOf_word op vd va vb imm
    have h2 := fieldsOf_word op vd va vb imm
    rw [h, opOf_word] at h1
    rw [h, fieldsOf_word, Fields.mk.injEq] at h2
    exact ⟨h1.symm, h2.1.symm, h2.2.1.symm, h2.2.2.1.symm, h2.2.2.2.symm⟩
  · rintro ⟨rfl, rfl, rfl, rfl, rfl⟩
    rfl

theorem append_and {m n : Nat} (x x' : BitVec m) (y y' : BitVec n) :
    (x ++ y) &&& (x' ++ y') = (x &&& x') ++ (y &&& y') := by
  ext i h
  simp only [BitVec.getElem_and, BitVec.getElem_append]
  split <;> simp

/-- Masking acts field by field. -/
theorem word_and (op op' : BitVec 6) (vd vd' va va' vb vb' : VReg) (imm imm' : BitVec 14) :
    word op vd va vb imm &&& word op' vd' va' vb' imm' =
      word (op &&& op') (BitVec.ofFin vd &&& BitVec.ofFin vd' : BitVec 4).toFin
        (BitVec.ofFin va &&& BitVec.ofFin va' : BitVec 4).toFin
        (BitVec.ofFin vb &&& BitVec.ofFin vb' : BitVec 4).toFin (imm &&& imm') :=
  (append_and _ _ _ _).trans <| congrArg (· ++ (imm &&& imm')) <|
    (append_and _ _ _ _).trans <| congrArg (· ++ _) <|
      (append_and _ _ _ _).trans <| congrArg (· ++ _) (append_and _ _ _ _)

/-- The used fields of a format, and the fixed zeros that its mask leaves (30_encoding.md R103). -/
theorem mask_iff (fmt : Format) (op : BitVec 6) (vd va vb : VReg) (imm : BitVec 14) :
    word op vd va vb imm &&& fmt.mask = matchWord op ↔
      match fmt with
      | .z => vd = 0 ∧ va = 0 ∧ vb = 0 ∧ imm = 0
      | .r1 => vb = 0 ∧ imm = 0
      | .r2 => imm = 0
      | .sc => imm = 0
      | .ld => va = 0 ∧ vb = 0
      | .st => vd = 0 ∧ vb = 0
      | .wc => vd = 0 ∧ vb = 0 ∧ imm.extractLsb' 4 10 = 0 := by
  have hm : matchWord op = word op 0 0 0 0 := by
    refine BitVec.eq_of_toNat_eq ?_
    rw [word_toNat]
    exact (append_toNat op 0#26).trans (by simp)
  have hall (x : VReg) : (BitVec.ofFin x &&& BitVec.ofFin (15 : VReg) : BitVec 4).toFin = x := by
    decide +revert
  have hnone (x : VReg) : (BitVec.ofFin x &&& BitVec.ofFin (0 : VReg) : BitVec 4).toFin = 0 := by
    decide +revert
  have hop (x : BitVec 6) : x &&& 0x3F#6 = x := BitVec.and_allOnes
  have himm (x : BitVec 14) : x &&& 0x3FFF#14 = x := BitVec.and_allOnes
  have hzero (x : BitVec 14) : x &&& 0#14 = 0 := BitVec.and_zero
  have hidx (x : BitVec 14) : x &&& 0x3FF0#14 = 0 ↔ x.extractLsb' 4 10 = 0 := by
    have hx : (x.extractLsb' 4 10 ++ x.extractLsb' 0 4 : BitVec 14) = x := by
      refine BitVec.eq_of_toNat_eq ?_
      have := x.isLt
      simp only [append_toNat, BitVec.extractLsb'_toNat, Nat.shiftRight_eq_div_pow]
      omega
    have ha : x &&& 0x3FF0#14 = (x.extractLsb' 4 10 ++ 0#4 : BitVec 14) := by
      conv_lhs => rw [← hx, show (0x3FF0#14) = (0x3FF#10 ++ 0#4 : BitVec 14) by decide]
      refine (append_and _ _ _ _).trans ?_
      rw [show (0x3FF#10) = BitVec.allOnes 10 by decide, BitVec.and_allOnes, BitVec.and_zero]
    rw [ha, ← BitVec.toNat_inj, ← BitVec.toNat_inj, append_toNat]
    simp
  rw [hm]
  cases fmt <;> simp only [Format.mask]
  · rw [show (0xFFFFFFFF#32 : Word) = word 0x3F#6 15 15 15 0x3FFF#14 by decide, word_and]
    simp only [word_inj, hall, hop, himm, true_and]
  · rw [show (0xFC03FFFF#32 : Word) = word 0x3F#6 0 0 15 0x3FFF#14 by decide, word_and]
    simp only [word_inj, hall, hop, himm, hnone, true_and]
  · rw [show (0xFC003FFF#32 : Word) = word 0x3F#6 0 0 0 0x3FFF#14 by decide, word_and]
    simp only [word_inj, hop, himm, hnone, true_and]
  · rw [show (0xFC003FFF#32 : Word) = word 0x3F#6 0 0 0 0x3FFF#14 by decide, word_and]
    simp only [word_inj, hop, himm, hnone, true_and]
  · rw [show (0xFC3FC000#32 : Word) = word 0x3F#6 0 15 15 0#14 by decide, word_and]
    simp only [word_inj, hall, hop, hnone, hzero, true_and, and_true]
  · rw [show (0xFFC3C000#32 : Word) = word 0x3F#6 15 0 15 0#14 by decide, word_and]
    simp only [word_inj, hall, hop, hnone, hzero, true_and, and_true]
  · rw [show (0xFFC3FFF0#32 : Word) = word 0x3F#6 15 0 15 0x3FF0#14 by decide, word_and]
    simp only [word_inj, hall, hop, hnone, hidx, true_and]

end Sys2Proof
end

