-- ==== Sys2Proof/Laws/Host.lean ====
section
/-!
SUPPORT. What the host's memory moves can do, and what the footprint of a run holds: the words it
fetches, what each command may access, and the footprint of the rest of the run.
-/
namespace Sys2Proof.Machine

theorem inBounds_byte (map : Ranges) (addr : Word) :
    inBounds map addr.toNat 1 = map.mem addr.toNat := by
  rw [Bool.eq_iff_iff, inBounds_iff]
  have := addr.isLt
  refine ⟨fun h => h.2 _ le_rfl (by omega), fun h => ⟨by omega, fun x h1 h2 => ?_⟩⟩
  obtain rfl : x = addr.toNat := by omega
  exact h

/-- The host's read answers a byte exactly where the byte is in the map and not the run's. -/
theorem hostReadByte_next_iff (s : State) (addr : Word) (b : Byte) :
    hostReadByte s addr = .next b ↔
      s.memMap.mem addr.toNat = true ∧ heldByRun s addr.toNat = false ∧ b = s.mem.byte addr.toNat := by
  unfold hostReadByte
  rw [inBounds_byte]
  cases s.memMap.mem addr.toNat <;> cases heldByRun s addr.toNat <;> simp [eq_comm]

/-- The host's write answers a next state exactly there, and it is that byte stored. -/
theorem hostWriteByte_next_iff (addr : Word) (v : Byte) (s t : State) :
    hostWriteByte addr v s = .next t ↔
      s.memMap.mem addr.toNat = true ∧ heldByRun s addr.toNat = false ∧
        t = { s with mem := s.mem.setByte addr.toNat v } := by
  unfold hostWriteByte
  rw [inBounds_byte]
  cases s.memMap.mem addr.toNat <;> cases heldByRun s addr.toNat <;> simp [eq_comm]

theorem Ranges.mem_append (r t : Ranges) (x : Nat) :
    Ranges.mem (r ++ t) x = (r.mem x || t.mem x) := by
  simp [Ranges.mem]

/-- The word that a run fetches is in its footprint. -/
theorem runRegions_fetch (fuel : Nat) (s : State) (x : Nat) (h : s.status.busy = true)
    (h1 : s.cp.toNat ≤ x) (h2 : x < s.cp.toNat + 4) : (runRegions (fuel + 1) s).mem x = true := by
  rw [runRegions, if_pos h, Ranges.mem_cons]
  simp [h1, h2]

/-- So is what its command may access, and the footprint of the run after that command. -/
theorem runRegions_command (fuel : Nat) (s t : State) (w : Word) (i : Instr) (x : Nat)
    (h : s.status.busy = true) (hf : fetch s = .ok w) (hd : decode w = .ok i)
    (he : exec i s = .next t)
    (hx : (commandRegions i s).mem x = true ∨ (runRegions fuel t).mem x = true) :
    (runRegions (fuel + 1) s).mem x = true := by
  rw [runRegions, if_pos h, Ranges.mem_cons]
  simp only [hf, hd, he, Ranges.mem_append]
  rcases hx with hx | hx <;> simp [hx]

end Sys2Proof.Machine
end

