-- ==== Sys2Proof/Laws/PerInstr.lean ====
section
/-!
SUPPORT. What holds of every command as syntax, one lemma per constructor: the opcode map reads the
command back from the fields of its encoding (30_encoding.md R101, R104, R108).
-/
namespace Sys2Proof.Laws

/-- The opcode map gives the command for the OP and the fields of its encoding. -/
def EncodesOpcode.Statement (i : Instr) : Prop :=
  ∃ fmt : Format, opcodeMap (opOf (encode i)) (fieldsOf (encode i)) = some (fmt, i)

theorem EncodesOpcode.of_word (i : Instr) (fmt : Format) (op : BitVec 6) (vd va vb : VReg)
    (imm : BitVec 14) (he : encode i = word op vd va vb imm)
    (hm : opcodeMap op ⟨vd, va, vb, imm⟩ = some (fmt, i)) : EncodesOpcode.Statement i :=
  ⟨fmt, by rw [he, opOf_word, fieldsOf_word, hm]⟩

theorem EncodesOpcode.index (cfg : BitVec 4) : (0#10 ++ cfg).extractLsb' 0 4 = cfg := by
  decide +revert

theorem EncodesOpcode.nop : EncodesOpcode.Statement .nop :=
  EncodesOpcode.of_word _ .z _ _ _ _ _ rfl rfl

theorem EncodesOpcode.halt : EncodesOpcode.Statement .halt :=
  EncodesOpcode.of_word _ .z _ _ _ _ _ rfl rfl

theorem EncodesOpcode.wrcfg (va : VReg) (cfg : BitVec 4) : EncodesOpcode.Statement (.wrcfg va cfg) := by
  refine EncodesOpcode.of_word _ .wc _ _ _ _ _ rfl ?_
  simp [opcodeMap, EncodesOpcode.index]

theorem EncodesOpcode.vld (vd : VReg) (imm : BitVec 14) : EncodesOpcode.Statement (.vld vd imm) :=
  EncodesOpcode.of_word _ .ld _ _ _ _ _ rfl rfl

theorem EncodesOpcode.vst (va : VReg) (imm : BitVec 14) : EncodesOpcode.Statement (.vst va imm) :=
  EncodesOpcode.of_word _ .st _ _ _ _ _ rfl rfl

theorem EncodesOpcode.vlog2 (vd va : VReg) : EncodesOpcode.Statement (.vlog2 vd va) :=
  EncodesOpcode.of_word _ .r1 _ _ _ _ _ rfl rfl

theorem EncodesOpcode.vexp2 (vd va : VReg) : EncodesOpcode.Statement (.vexp2 vd va) :=
  EncodesOpcode.of_word _ .r1 _ _ _ _ _ rfl rfl

theorem EncodesOpcode.vpow (vd va vb : VReg) : EncodesOpcode.Statement (.vpow vd va vb) :=
  EncodesOpcode.of_word _ .r2 _ _ _ _ _ rfl rfl

theorem EncodesOpcode.vsin (vd va : VReg) : EncodesOpcode.Statement (.vsin vd va) :=
  EncodesOpcode.of_word _ .r1 _ _ _ _ _ rfl rfl

theorem EncodesOpcode.vcos (vd va : VReg) : EncodesOpcode.Statement (.vcos vd va) :=
  EncodesOpcode.of_word _ .r1 _ _ _ _ _ rfl rfl

theorem EncodesOpcode.vsincos (vd va vb : VReg) : EncodesOpcode.Statement (.vsincos vd va vb) :=
  EncodesOpcode.of_word _ .sc _ _ _ _ _ rfl rfl

theorem EncodesOpcode.vatan (vd va : VReg) : EncodesOpcode.Statement (.vatan vd va) :=
  EncodesOpcode.of_word _ .r1 _ _ _ _ _ rfl rfl

theorem EncodesOpcode.vatan2 (vd va vb : VReg) : EncodesOpcode.Statement (.vatan2 vd va vb) :=
  EncodesOpcode.of_word _ .r2 _ _ _ _ _ rfl rfl

theorem EncodesOpcode.updMat : EncodesOpcode.Statement .updMat :=
  EncodesOpcode.of_word _ .z _ _ _ _ _ rfl rfl

theorem EncodesOpcode.applyMat : EncodesOpcode.Statement .applyMat :=
  EncodesOpcode.of_word _ .z _ _ _ _ _ rfl rfl

theorem EncodesOpcode.vmat (vd va : VReg) : EncodesOpcode.Statement (.vmat vd va) :=
  EncodesOpcode.of_word _ .r1 _ _ _ _ _ rfl rfl

theorem EncodesOpcode.updLog : EncodesOpcode.Statement .updLog :=
  EncodesOpcode.of_word _ .z _ _ _ _ _ rfl rfl

theorem EncodesOpcode.applyLog : EncodesOpcode.Statement .applyLog :=
  EncodesOpcode.of_word _ .z _ _ _ _ _ rfl rfl

theorem EncodesOpcode.vlogk (vd va : VReg) : EncodesOpcode.Statement (.vlogk vd va) :=
  EncodesOpcode.of_word _ .r1 _ _ _ _ _ rfl rfl

theorem EncodesOpcode.updLut : EncodesOpcode.Statement .updLut :=
  EncodesOpcode.of_word _ .z _ _ _ _ _ rfl rfl

theorem EncodesOpcode.applyLut : EncodesOpcode.Statement .applyLut :=
  EncodesOpcode.of_word _ .z _ _ _ _ _ rfl rfl

theorem EncodesOpcode.vlut (vd va : VReg) : EncodesOpcode.Statement (.vlut vd va) :=
  EncodesOpcode.of_word _ .r1 _ _ _ _ _ rfl rfl

theorem EncodesOpcode.updCrv : EncodesOpcode.Statement .updCrv :=
  EncodesOpcode.of_word _ .z _ _ _ _ _ rfl rfl

theorem EncodesOpcode.applyCrv : EncodesOpcode.Statement .applyCrv :=
  EncodesOpcode.of_word _ .z _ _ _ _ _ rfl rfl

theorem EncodesOpcode.vcrv (vd va : VReg) : EncodesOpcode.Statement (.vcrv vd va) :=
  EncodesOpcode.of_word _ .r1 _ _ _ _ _ rfl rfl

end Sys2Proof.Laws
end

