-- ==== Sys2Proof/Machine/Assembler.lean ====
section
/-!
DEFINITION. The assembler syntax (30_encoding.md R108): one command per line, `;` starts a comment,
mnemonics, register names and CFG names in either case. There are no pseudo-instructions (R109).
-/
namespace Sys2Proof.Machine.Asm

/-- A line of text. -/
inductive Line where
  | blank
  | command (i : Instr)
  /-- Not of the syntax, or an operand outside its field. -/
  | refused
deriving DecidableEq, Repr

/-! ### Lexing -/

def lowerCase (c : Char) : Char :=
  if 65 ≤ c.toNat && c.toNat ≤ 90 then Char.ofNat (c.toNat + 32) else c

def isBlank (c : Char) : Bool := c == ' ' || c == '\t' || c == '\r'

/-- The text before the comment, in lower case: names may be written in either case (30_encoding.md
R108). DESIGN CHOICE: so may `0x` and the digits of an immediate, of whose case R108 says nothing (log
entry 19). -/
def code (line : List Char) : List Char := (line.takeWhile (· != ';')).map lowerCase

def trim (t : List Char) : List Char :=
  ((t.dropWhile isBlank).reverse.dropWhile isBlank).reverse

/-- The parts between separators. -/
def splitAt (sep : Char) : List Char → List (List Char)
  | [] => [[]]
  | c :: cs =>
    if c = sep then [] :: splitAt sep cs
    else
      match splitAt sep cs with
      | [] => [[c]]
      | p :: ps => (c :: p) :: ps

/-- The operands after a mnemonic, separated by commas; none where the text is empty. -/
def operands (t : List Char) : List (List Char) :=
  if trim t = [] then [] else (splitAt ',' t).map trim

/-! ### Operands -/

def digit (c : Char) : Option Nat :=
  if 48 ≤ c.toNat && c.toNat ≤ 57 then some (c.toNat - 48)
  else if 97 ≤ c.toNat && c.toNat ≤ 102 then some (c.toNat - 87)
  else none

/-- The number that digits of a base spell, at least one of them. -/
def number (base : Nat) (t : List Char) : Option Nat :=
  if t = [] then none
  else
    t.foldl (fun acc c => do
      let n ← acc
      let d ← digit c
      if d < base then some (base * n + d) else none) (some 0)

/-- An immediate: decimal, or `0x` hexadecimal. -/
def immediate (t : List Char) : Option Nat :=
  match t with
  | '0' :: 'x' :: h => number 16 h
  | _ => number 10 t

/-- The names `v0` to `v15`. -/
def registerNames : List String :=
  ["v0", "v1", "v2", "v3", "v4", "v5", "v6", "v7", "v8", "v9", "v10", "v11", "v12", "v13", "v14",
    "v15"]

def register (t : List Char) : Option VReg :=
  match registerNames.findIdx? (fun n => n.toList == t) with
  | some k => if h : k < 16 then some ⟨k, h⟩ else none
  | none => none

/-- IMM14, 0 to 16383; an immediate outside is refused. -/
def imm14 (t : List Char) : Option (BitVec 14) :=
  match immediate t with
  | some n => if n < 2 ^ 14 then some (BitVec.ofNat 14 n) else none
  | none => none

/-- The CFG names in index order (R122). -/
def cfgNames : List String := ["in_ptr", "out_ptr", "npix", "in_bd", "out_bd", "opdata_ptr"]

def cfgIndex (t : List Char) : Option (BitVec 4) :=
  (cfgNames.findIdx? (fun n => n.toList == t)).map (BitVec.ofNat 4)

/-! ### Lines -/

/-- The commands without operands. -/
def plain : List (String × Instr) :=
  [("nop", .nop), ("halt", .halt), ("upd.mat", .updMat), ("apply.mat", .applyMat),
    ("upd.log", .updLog), ("apply.log", .applyLog), ("upd.lut", .updLut), ("apply.lut", .applyLut),
    ("upd.crv", .updCrv), ("apply.crv", .applyCrv)]

/-- The commands `vD, vA`. -/
def unary : List (String × (VReg → VReg → Instr)) :=
  [("vlog2", .vlog2), ("vexp2", .vexp2), ("vsin", .vsin), ("vcos", .vcos), ("vatan", .vatan),
    ("vmat", .vmat), ("vlogk", .vlogk), ("vlut", .vlut), ("vcrv", .vcrv)]

/-- The commands with three registers, in the order in which they are written. -/
def ternary : List (String × (VReg → VReg → VReg → Instr)) :=
  [("vpow", .vpow), ("vatan2", .vatan2), ("vsincos", fun vd vb va => .vsincos vd va vb)]

def named {α : Type} (table : List (String × α)) (m : List Char) : Option α :=
  (table.find? fun r => r.1.toList == m).map Prod.snd

/-- A command from its mnemonic and operands. -/
def command (m : List Char) (ops : List (List Char)) : Option Instr :=
  match ops with
  | [] => named plain m
  | [a, b] =>
    match named unary m with
    | some mk => do return mk (← register a) (← register b)
    | none =>
      if m = "vld".toList then do return .vld (← register a) (← imm14 b)
      else if m = "vst".toList then do return .vst (← register a) (← imm14 b)
      else if m = "wrcfg".toList then do
        let cfg ← cfgIndex a
        return .wrcfg (← register b) cfg
      else none
  | [a, b, c] => do return (← named ternary m) (← register a) (← register b) (← register c)
  | _ => none

/-- One line of assembler text. -/
def parseLine (line : String) : Line :=
  let t := trim (code line.toList)
  if t = [] then .blank
  else
    match command (t.takeWhile (!isBlank ·)) (operands (t.dropWhile (!isBlank ·))) with
    | some i => .command i
    | none => .refused

/-- The commands of a program's lines, blank lines skipped; `none` where a line is refused. -/
def assemble : List String → Option (List Instr)
  | [] => some []
  | line :: rest =>
    match parseLine line with
    | .blank => assemble rest
    | .command i => (assemble rest).map (i :: ·)
    | .refused => none

/-- The bytes of a program. -/
def assembleBytes (lines : List String) : Option (List Byte) :=
  (assemble lines).map fun is => is.flatMap encodeBytes

/-! ### Printing -/

def registerName (r : VReg) : String := registerNames.getD r.val ""

/-- A CFG name; an index that no command has is printed as its number. -/
def cfgName (cfg : BitVec 4) : String := cfgNames.getD cfg.toNat (toString cfg.toNat)

def two (m : String) (a b : String) : String := m ++ " " ++ a ++ ", " ++ b

def twoRegs (m : String) (a b : VReg) : String := two m (registerName a) (registerName b)

def threeRegs (m : String) (a b c : VReg) : String :=
  two m (registerName a) (registerName b) ++ ", " ++ registerName c

/-- A command as text. -/
def print : Instr → String
  | .nop => "NOP"
  | .halt => "HALT"
  | .wrcfg va cfg => two "WRCFG" (cfgName cfg) (registerName va)
  | .vld vd imm => two "VLD" (registerName vd) (toString imm.toNat)
  | .vst va imm => two "VST" (registerName va) (toString imm.toNat)
  | .vlog2 vd va => twoRegs "VLOG2" vd va
  | .vexp2 vd va => twoRegs "VEXP2" vd va
  | .vpow vd va vb => threeRegs "VPOW" vd va vb
  | .vsin vd va => twoRegs "VSIN" vd va
  | .vcos vd va => twoRegs "VCOS" vd va
  | .vsincos vd va vb => threeRegs "VSINCOS" vd vb va
  | .vatan vd va => twoRegs "VATAN" vd va
  | .vatan2 vd va vb => threeRegs "VATAN2" vd va vb
  | .updMat => "UPD.MAT"
  | .applyMat => "APPLY.MAT"
  | .vmat vd va => twoRegs "VMAT" vd va
  | .updLog => "UPD.LOG"
  | .applyLog => "APPLY.LOG"
  | .vlogk vd va => twoRegs "VLOGK" vd va
  | .updLut => "UPD.LUT"
  | .applyLut => "APPLY.LUT"
  | .vlut vd va => twoRegs "VLUT" vd va
  | .updCrv => "UPD.CRV"
  | .applyCrv => "APPLY.CRV"
  | .vcrv vd va => twoRegs "VCRV" vd va

end Sys2Proof.Machine.Asm
end

