-- ==== Sys2Proof/Tests/Slice0.lean ====
section
/-!
SUPPORT. Tests whose expected results stand in the spec (95_test_vectors.md where a vector is
named), and after them one witness for every statement with hypotheses: concrete states and
operands that meet them.
-/
namespace Sys2Proof.Tests

open Sys2Proof.Machine Sys2Proof.Safety

-- One theorem at a time: the threads of many kernel evaluations at once are more than memory holds.
set_option Elab.async false

/-! ### Small states -/

/-- What a next state shows; nothing after a fault or a refusal. -/
def onNext {α : Type} (r : Result) (f : State → α) : Option α :=
  match r with
  | .next t => some (f t)
  | .fault _ | .refused _ => none

/-- 32-bit words stored from an address. -/
def words (a : Nat) (ws : List Word) (m : Memory) : Memory :=
  m.setBytes a (ws.flatMap fun w => leBytes 4 w.toNat)

/-- binary64 values stored from an address. -/
def doubles (a : Nat) (ds : List F64) (m : Memory) : Memory :=
  m.setBytes a (ds.flatMap fun d => leBytes 8 d.toNat)

/-- A run in progress at an address. -/
def running (cp : BitVec 33) (s : State) : State := { s with status := Status.started, cp := cp }

def withReg (i : VReg) (q : Quad) (s : State) : State := s.setVreg i q

/-- The CFG values of the spec's programs: f32 in and out, one pixel from 0x1000 to 0x2000, the
descriptor at 0x3000. -/
def programCfg : Cfg := ⟨0x1000, 0x2000, 1, 5, 5, 0x3000⟩

/-- 1.0 in binary64. -/
def one64 : F64 := 0x3FF0000000000000

def base : State := { State.reset with cfg := programCfg }

/-- The words of a state's STATUS, ERR_CP and ERR_INFO. -/
def shown (s : State) : Word × Word × Word := (s.status.word, s.errCp, s.errInfo)

/-! ### WellFormed refuses each ill-formed term (30_encoding.md R105) -/

theorem test_wrcfg_index_5_wellFormed : (Instr.wrcfg 15 5).wellFormed = true := by decide

theorem test_wrcfg_index_6_illFormed : (Instr.wrcfg 0 6).wellFormed = false := by decide

theorem test_wrcfg_index_15_illFormed : (Instr.wrcfg 0 15).wellFormed = false := by decide

/-! ### Words written out from 30_encoding.md R101 and R104: OP, VD, VA, VB, IMM -/

theorem test_decode_control :
    decode (0b000001#6 ++ 0#26) = .ok .nop ∧ decode (0b000010#6 ++ 0#26) = .ok .halt := by decide

theorem test_decode_io :
    decode (0b000011#6 ++ 0#4 ++ 4#4 ++ 0#4 ++ 5#14) = .ok (.wrcfg 4 5) ∧
      decode (0b000100#6 ++ 2#4 ++ 0#8 ++ 16383#14) = .ok (.vld 2 16383) ∧
      decode (0b000101#6 ++ 0#4 ++ 3#4 ++ 0#4 ++ 1#14) = .ok (.vst 3 1) := by decide

theorem test_decode_transcendental :
    decode (0b010000#6 ++ 1#4 ++ 15#4 ++ 0#18) = .ok (.vlog2 1 15) ∧
      decode (0b010001#6 ++ 15#4 ++ 1#4 ++ 0#18) = .ok (.vexp2 15 1) ∧
      decode (0b010010#6 ++ 1#4 ++ 2#4 ++ 3#4 ++ 0#14) = .ok (.vpow 1 2 3) ∧
      decode (0b010011#6 ++ 4#4 ++ 5#4 ++ 0#18) = .ok (.vsin 4 5) ∧
      decode (0b010100#6 ++ 6#4 ++ 7#4 ++ 0#18) = .ok (.vcos 6 7) ∧
      decode (0b010101#6 ++ 7#4 ++ 9#4 ++ 8#4 ++ 0#14) = .ok (.vsincos 7 9 8) ∧
      decode (0b010110#6 ++ 8#4 ++ 9#4 ++ 0#18) = .ok (.vatan 8 9) ∧
      decode (0b010111#6 ++ 10#4 ++ 11#4 ++ 12#4 ++ 0#14) = .ok (.vatan2 10 11 12) := by decide

theorem test_decode_matrix :
    decode (0b100000#6 ++ 0#26) = .ok .updMat ∧ decode (0b100001#6 ++ 0#26) = .ok .applyMat ∧
      decode (0b100010#6 ++ 1#4 ++ 2#4 ++ 0#18) = .ok (.vmat 1 2) := by decide

theorem test_decode_log :
    decode (0b100100#6 ++ 0#26) = .ok .updLog ∧ decode (0b100101#6 ++ 0#26) = .ok .applyLog ∧
      decode (0b100110#6 ++ 2#4 ++ 3#4 ++ 0#18) = .ok (.vlogk 2 3) := by decide

theorem test_decode_lut :
    decode (0b101000#6 ++ 0#26) = .ok .updLut ∧ decode (0b101001#6 ++ 0#26) = .ok .applyLut ∧
      decode (0b101010#6 ++ 13#4 ++ 14#4 ++ 0#18) = .ok (.vlut 13 14) := by decide

theorem test_decode_curve :
    decode (0b101100#6 ++ 0#26) = .ok .updCrv ∧ decode (0b101101#6 ++ 0#26) = .ok .applyCrv ∧
      decode (0b101110#6 ++ 14#4 ++ 15#4 ++ 0#18) = .ok (.vcrv 14 15) := by decide

/-- T-ERR: the illegal words, each with its reason. -/
theorem test_decode_illegal :
    decode 0x00000000#32 = .error .reservedOpcode ∧ decode 0xFC000000#32 = .error .reservedOpcode ∧
      decode 0x04000001#32 = .error .reservedField ∧ decode 0x44000001#32 = .error .reservedField ∧
      decode 0x0C000006#32 = .error .reservedCfgIndex := by decide

/-- P1's first word as the table and memory hold it: the first byte is the least significant. -/
theorem test_table_word :
    decodeTableWord 32 0x59500000 = some (.vatan 5 4) ∧
      decodeBytes [0x00, 0x80, 0x90, 0x5D, 0xFF] = some (.vatan2 6 4 2, [0xFF]) := by decide

/-! ### Assembler syntax (30_encoding.md R108, R109) -/

theorem test_assemble_sincos :
    Asm.assembleBytes ["  VSINCOS v7, V8, v9 ; sine, cosine, angle"] = some [0, 0, 0xE6, 0x55] := by
  decide

theorem test_assemble_refuses_imm :
    Asm.parseLine "VLD v0, 16384" = .refused ∧ Asm.parseLine "vld V0, 0x3FFF" = .command (.vld 0 16383) ∧
      Asm.print (.wrcfg 1 2) = "WRCFG npix, v1" := by
  decide

/-! ### Control, WRCFG, VLD, VST (T-CTL, T-ERR, P1) -/

theorem test_nop_advances : onNext (exec .nop base) (·.cp) = some 4 := by decide

theorem test_halt : onNext (exec .halt (running 0x100 base)) (fun t => (shown t, t.cp)) =
    some ((2, 0, 0), 0x100) := by decide

/-- T-CTL: the raw bits of 5.0 go to OUT_BD. -/
theorem test_wrcfg_raw :
    onNext (exec (.wrcfg 0 4) (withReg 0 ⟨0x40A00000, 1, 2, 3⟩ base)) (·.cfg) =
      some { programCfg with outBd := 0x40A00000 } := by decide

theorem test_vld_lanes :
    onNext (exec (.vld 2 1) { base with mem := words 0x1010 [0xC0000000, 0x80000000, 0, 0x40A00000] [] })
      (fun t => (t.v[2], t.vw[2], t.vw[0])) = some (⟨0xC0000000, 0x80000000, 0, 0x40A00000⟩, true, false) := by
  decide

/-- T-ERR: `VLD v0, 1` with IN_PTR = 0x1002. -/
theorem test_vld_align :
    onNext (exec (.vld 0 1) (running 0x100 { base with cfg := { programCfg with inPtr := 0x1002 } })) shown =
      some (0x204, 0x100, 0x1012) := by decide

theorem test_vst_lanes :
    onNext (exec (.vst 3 1) (withReg 3 ⟨0x3F800000, 0x40000000, 0x40400000, 0x408000AA⟩ base))
      (fun t => (readQuad t.mem 0x2010, t.mem.byte 0x201C, t.ws)) =
      some (⟨0x3F800000, 0x40000000, 0x40400000, 0x408000AA⟩, 0xAA, [(0x2010, 0x2020)]) := by
  decide

/-! ### Transcendental unit (T-TU) -/

theorem test_vlog2_lanes (s : State) :
    onNext (exec (.vlog2 1 0) s) (fun t => (t.vreg 1).a) = some (fLog2 (s.vreg 0).a) := by
  simp [exec, execVlog2, laneUnary, onNext, Lanes.map]

/-- T-TU-6: a destination that is also the source. -/
theorem test_vexp2_aliased :
    onNext (exec (.vexp2 0 0) (withReg 0 ⟨0x40400000, 0xC2FC0000, 0x43000000, 0x7FC00000⟩ base)) (·.v[0]) =
      some ⟨0x41000000, 0x00800000, 0x7F800000, 0⟩ := by decide +kernel

/-- T-TU-3: bases at and below zero. -/
theorem test_vpow_zero :
    onNext (exec (.vpow 2 0 1) (withReg 1 ⟨0x40400000, 0xC2FC0000, 0x43000000, 0x40000000⟩
      (withReg 0 ⟨0xC0000000, 0x80000000, 0, 0xFF800000⟩ base))) (·.v[2]) = some ⟨0, 0, 0, 0⟩ := by
  decide

/-- 93_implementation_defined.md U5: a NaN base, of either sign and with any exponent. -/
theorem test_vpow_nan_base :
    onNext (exec (.vpow 2 0 1) (withReg 1 ⟨0, 0x40400000, 0x7F800000, 0x7FC00000⟩
      (withReg 0 ⟨0x7FC00000, 0xFFC00000, 0x7F800001, 0x7FC00000⟩ base))) (·.v[2]) = some ⟨0, 0, 0, 0⟩ := by
  decide

theorem test_vsin_lane (s : State) :
    onNext (exec (.vsin 1 0) s) (fun t => (t.vreg 1).g) = some (fCos (fsub 0x3FC90FDB (s.vreg 0).g)) := by
  simp [exec, execVsin, laneUnary, onNext, Lanes.map, tuSin, pio2]

theorem test_vcos_lane (s : State) :
    onNext (exec (.vcos 1 0) s) (fun t => (t.vreg 1).b) = some (fCos (s.vreg 0).b) := by
  simp [exec, execVcos, laneUnary, onNext, Lanes.map]

/-- T-TU-5: with one destination the cosine stays (70_reset_and_hazards.md R507). -/
theorem test_vsincos_one_destination (s : State) :
    onNext (exec (.vsincos 1 0 1) s) (fun t => (t.vreg 1).r) = some (fCos (s.vreg 0).r) := by
  simp [exec, execVsincos, lanePair, onNext, vreg_setVreg_self, Lanes.map, fSincos]

theorem test_vatan_lane (s : State) :
    onNext (exec (.vatan 1 0) s) (fun t => (t.vreg 1).r) = some (fAtan (s.vreg 0).r) := by
  simp [exec, execVatan, laneUnary, onNext, Lanes.map]

/-- T-TU-4: both zeros give +0 whatever their signs. -/
theorem test_vatan2_zeros :
    onNext (exec (.vatan2 2 0 1) (withReg 1 ⟨0, 0x80000000, 0, 0x80000000⟩
      (withReg 0 ⟨0, 0, 0x80000000, 0x80000000⟩ base))) (·.v[2]) = some ⟨0, 0, 0, 0⟩ := by
  decide

/-- T-TU-4: infinities. -/
theorem test_vatan2_infinities : isNaN (tuAtan2 0x7F800000 0x7F800000) = true := by
  have hv : val 0x7F800000 = .inf false := by decide +kernel
  have hq : fdiv 0x7F800000 0x7F800000 = Config.qnan := by unfold fdiv; rw [hv]
  have hz : (feq 0x7F800000 zero && feq 0x7F800000 zero) = false := by decide
  have hs : signbit 0x7F800000 = false := by decide
  simp only [tuAtan2, atan2With, hq, hz, hs, Bool.false_eq_true, if_false]
  exact atanField.keepsNaN

/-- T-TU-4: the constants. -/
theorem test_pi_constants : fsub pi32 pio2 = pio2 ∧ fmul pi32 invPi32 = one := by decide +kernel

/-- T-TU-5: the reference cosine and sine at PI32, with every coefficient 1. -/
theorem test_refSincos_pi :
    refSincos (.const 6 one isFinite_one) pi32 = (0x80000000#32, 0xBF800000#32) := by decide +kernel

/-! ### Pixel elements (T-IO-1, T-IO-2) -/

theorem test_normalise :
    normalise .u8 128 = 0x3F008081 ∧ normalise .u16 65535 = one ∧ normalise .u10 0x03FF = one ∧
      normalise .f16 0x3C00 = one ∧ normalise .f32 0x7FC00001 = 0x7FC00001 := by decide +kernel

theorem test_store :
    storeElement .u8 (.norm 0x3F000000) = 128 ∧ storeElement .u8 (.norm 0x40000000) = 255 ∧
      storeElement .u8 (.norm 0xBF800000) = 0 ∧ castTo .u8 0x7FC00000 = 0 ∧
      storeElement .u8 (.norm 0x7F800000) = 255 ∧ storeElement .f16 (.norm 0x477FEF00) = 0x7BFF ∧
      storeElement .f16 (.norm 0x477FF000) = 0x7C00 := by decide +kernel

/-- T-LUT-INV1: an identity table of 4096 entries at code 2593, u12 to u16. -/
theorem test_rescale_near_tie :
    storeElement .u16 (.norm (normalise .u12 2593)) = 41498 := by decide +kernel

/-! ### Matrix unit (Scenario C, T-MAT, P2, P4) -/

def matDesc (flags : F64) (m01 : F64) : List F64 :=
  [flags, 0x4000000000000000, m01, 0, 0, 0, 0x4008000000000000, 0, 0, 0, 0, 0x4010000000000000, 0,
    0, 0, 0, 0x3FF0000000000000, 0x3FB999999999999A, 0x3FC999999999999A, 0x3FD3333333333333, 0]

def matSetup (flags : F64 := 0) (m01 : F64 := 0) : State :=
  let desc := doubles 0x3000 (matDesc flags m01) []
  running 0x100 { base with
    mem := words 0x1000 [0x3F000000, 0x3F000000, 0x3F000000, 0x3F800000] desc }

/-- The unit that Scenario C configures. -/
def scenarioC : MatUnit :=
  ⟨true, .f32, .f32, .diagOff, ⟨⟨0x40000000, 0, 0, 0⟩, ⟨0, 0x40400000, 0, 0⟩, ⟨0, 0, 0x40800000, 0⟩,
    ⟨0, 0, 0, 0x3F800000⟩⟩, ⟨0x3DCCCCCD, 0x3E4CCCCD, 0x3E99999A, 0⟩⟩

theorem test_updMat : onNext (exec .updMat matSetup) (·.mat) = some scenarioC := by decide +kernel

/-- P4: DIR = 1. -/
theorem test_updMat_finalize :
    onNext (exec .updMat (matSetup 1)) (fun t => (shown t, t.mat.valid)) =
      some ((0x704, 0x100, 0), false) := by decide +kernel

theorem test_applyMat :
    onNext (exec .applyMat { matSetup with mat := scenarioC }) (fun t => (readQuad t.mem 0x2000, t.ws)) =
      some (⟨0x3F8CCCCD, 0x3FD9999A, 0x40133333, 0x3F800000⟩, [(0x2000, 0x2010)]) := by decide +kernel

/-- T-IO-3: an overlap that is no exact alias. -/
theorem test_applyMat_overlap :
    onNext (exec .applyMat { matSetup with mat := scenarioC, cfg := ⟨0x1000, 0x1004, 2, 5, 5, 0⟩ }) shown =
      some (0x504, 0x100, 0x1004) := by decide

theorem test_vmat :
    onNext (exec (.vmat 1 0) { withReg 0 ⟨0x3F000000, 0x3F000000, 0x3F000000, 0x3F800000⟩ base with
      mat := scenarioC }) (·.v[1]) = some ⟨0x3F8CCCCD, 0x3FD9999A, 0x40133333, 0x3F800000⟩ := by
  decide +kernel

theorem test_vmat_not_configured :
    onNext (exec (.vmat 1 0) (running 0x104 base)) shown = some (0x904, 0x104, 1) := by decide

/-! ### Logarithm unit (T-LOG) -/

def logDesc (flags base : F64) (slope brk : F64) : List F64 :=
  let ch := [slope, 0, 0x3FF0000000000000, 0, brk]
  [flags, base] ++ ch ++ ch ++ ch

def logSetup (flags base : F64) (slope : F64 := 0x3FF0000000000000) (brk : F64 := 0) : State :=
  running 0x100 { Tests.base with mem := doubles 0x3000 (logDesc flags base slope brk) [] }

/-- T-LOG-3: BASE = 10. -/
theorem test_updLog_base10 :
    onNext (exec .updLog (logSetup 0 0x4024000000000000)) (fun t => (t.log.kernel, t.log.log2Base, t.log.logScale)) =
      some (.log, 0x40549A78, 0x3E9A209B) := by decide +kernel

/-- T-LOG-3: the camera constants. -/
theorem test_updLog_camera :
    onNext (exec .updLog (logSetup 2 0x4000000000000000 (brk := 0x3FE0000000000000)))
      (fun t => (t.log.kernel, t.log.ch.r.linearSlope, t.log.ch.g.linearOffset, t.log.ch.b.logBreak)) =
      some (.camLin2log, 0x4038AA3B, 0xC01C551E, 0xBF800000) := by decide +kernel

/-- ANTILOG with base 2 and identity parameters. -/
def antilogUnit : LogUnit :=
  let ch : LogChannel := ⟨one, 0, one, one, 0, 0, 0, 0, 0⟩
  ⟨true, .f32, .f32, .antilog, one, one, ⟨ch, ch, ch⟩⟩

/-- T-LOG-1. -/
theorem test_applyLog :
    onNext (exec .applyLog { base with
      log := antilogUnit
      mem := words 0x1000 [0x40400000, 0xC0000000, 0, 0x3F000000] [] }) (fun t => readQuad t.mem 0x2000) =
      some ⟨0x41000000, 0x3E800000, 0x3F800000, 0x3F000000⟩ := by decide +kernel

/-- T-LOG-2. -/
theorem test_vlogk :
    onNext (exec (.vlogk 1 0) { withReg 0 ⟨0x43480000, 0xC3020000, 0, 0x40E00000⟩ base with
      log := antilogUnit }) (·.v[1]) = some ⟨0x7F800000, 0, 0x3F800000, 0x40E00000⟩ := by decide +kernel

/-! ### 1D-LUT unit (Scenario A, T-LUT, T-INV) -/

def lutSetup (flags n : Word) (values : List F32) : State :=
  running 0x100 { base with mem := words 0x3000 (flags :: n :: values) [] }

def scenarioA : List F32 := [0x3DCCCCCD, 0x3F19999A, 0x3F8CCCCD]

def scenarioALut : LutUnit :=
  ⟨true, .f32, .f32, .fwd, 3, false, .none, ⟨scenarioA, scenarioA, scenarioA⟩⟩

theorem test_updLut :
    onNext (exec .updLut (lutSetup 0 3 (scenarioA.flatMap fun x => [x, x, x]))) (·.lut) =
      some scenarioALut := by decide

/-- T-LUT-5 and T-INV-1 row 11: a constant table has no inverse. -/
theorem test_updLut_errors :
    onNext (exec .updLut (lutSetup 0 1 [])) shown = some (0x804, 0x100, 2) ∧
      onNext (exec .updLut (lutSetup 2 4096 [])) shown = some (0x804, 0x100, 4) ∧
      onNext (exec .updLut (lutSetup 0x21 2 (List.replicate 6 0x3E99999A))) shown =
        some (0x804, 0x100, 6) := by decide +kernel

/-- Scenario A, pixel 1, in place (T-IO-4). -/
theorem test_applyLut :
    onNext (exec .applyLut { base with
      lut := scenarioALut
      cfg := { programCfg with outPtr := 0x1000 }
      mem := words 0x1000 [0x3F000000, 0x3F800000, 0x3F8CCCCD, 0] [] }) (fun t => readQuad t.mem 0x1000) =
      some ⟨0x3F19999A, 0x3F8CCCCD, 0x3F8CCCCD, 0⟩ := by decide +kernel

/-- T-LUT-4: hue adjust; alpha is kept. -/
theorem test_vlut_hue :
    onNext (exec (.vlut 1 0) { withReg 0 ⟨0x3E800000, 0x3F000000, 0x3F400000, 0x7FC00001⟩ base with
      lut := ⟨true, .f32, .f32, .fwd, 2, false, .dw3, ⟨[0, one], [0, 0x40000000], [0, 0x40800000]⟩⟩ })
      (·.v[1]) = some ⟨0x3E800000, 0x3FD00000, 0x40400000, 0x7FC00001⟩ := by decide +kernel

/-- T-INV-1 rows 1 and 10: the scaled result of the exact inverse, for f32 and for u8. -/
theorem test_inverse_exact :
    (buildNormal [0, 0x3E800000, 0x3F000000, one]).map
        (fun c => (invNormal 4 1 c 0x3F400000, castTo .u8 (invNormal 4 255 c 0x3F400000))) =
      .ok (0x3F555556, 212) := by decide +kernel

/-- T-LUT-3: 1 + 2^-12 in the identity half table. -/
theorem test_half_domain :
    lerp32 (half32 0x3C00) (half32 0x3C01) 0x3E800000 = 0x3F800800 ∧ nextUp16 0x3C00 = 0x3C01 ∧
      nextDown16 0x8000 = 0x8001 := by decide +kernel

/-! ### Curve unit (T-CRV) -/

def crvSetup (style np : Word) (p : List F64) : State :=
  running 0x100 { base with mem := words 0x3000 [style, np] (doubles 0x3008 p []) }

/-- T-CRV-1: style 3 with gamma 2. -/
theorem test_updCrv :
    onNext (exec .updCrv (crvSetup 3 1 [0x4000000000000000])) (fun t => (t.crv.style, t.crv.p[0])) =
      some (.rec2100Inv, 0xBF000000) := by decide +kernel

theorem test_updCrv_errors :
    onNext (exec .updCrv (crvSetup 11 0 [])) shown = some (0x604, 0x100, 2) ∧
      onNext (exec .updCrv (crvSetup 2 0 [])) shown = some (0x804, 0x100, 11) ∧
      onNext (exec .updCrv (crvSetup 2 1 [0])) shown = some (0x804, 0x100, 14) := by decide +kernel

/-- A tonescale with every parameter 1. -/
def tonescaleUnit : CrvUnit := ⟨true, .f32, .f32, .tonescale, Vector.replicate 13 one⟩

/-- T-CRV-3. -/
theorem test_applyCrv :
    onNext (exec .applyCrv { base with
      crv := tonescaleUnit
      mem := words 0x1000 [0, 0xBF800000, 0x7FC00000, 0x3E800000] [] }) (fun t => readQuad t.mem 0x2000) =
      some ⟨0, 0, 0, 0x3E800000⟩ := by decide +kernel

theorem test_vcrv :
    onNext (exec (.vcrv 1 0) { withReg 0 ⟨0, 0xBF800000, 0x7FC00000, 0x3E800000⟩ base with
      crv := tonescaleUnit }) (·.v[1]) = some ⟨0, 0, 0, 0x3E800000⟩ := by decide +kernel

/-! ### Steps (T-ERR, P5) -/

/-- A step fetches, decodes and executes; the word 0 is illegal. -/
theorem test_step :
    onNext (step (State.reset.withFetchWord 32 0x04000000)) (fun t => (t.cp, t.status.busy)) =
        some (4, true) ∧
      onNext (step (running 0x100 base)) shown = some (0x104, 0x100, 0) := by decide

/-- P5: the third fetch. -/
theorem test_step_smc :
    onNext (step (running 0x108 { base with ws := [(0x100, 0x110)] })) shown =
      some (0xC04, 0x108, 0x108) := by decide

/-- T-ERR: START with CMD_PTR = 0x102. -/
theorem test_start_misaligned :
    onNext (step { base with cmdPtr := 0x102, inputs := [.host (.writeReg 0 1)] }) shown =
      some (0x204, 0x102, 0x102) := by decide

/-- The state after START at 0x100 of a NOP and a HALT and the moves that follow it. -/
def afterStart (moves : List Input) : Result :=
  Host.Core.run Sys2Proof.core (moves.length + 1)
    { base with
      cmdPtr := 0x100
      mem := words 0x100 [0x04000000, 0x08000000] []
      inputs := .host (.writeReg 0 1) :: moves }

/-- While the run is in progress its words are not the host's, those it has executed included; other
bytes are, and after the run so are these (20_memory.md R80, 60_exceptions.md R479(c)). -/
theorem test_host_memory_during_run :
    onNext (afterStart [.engine, .host (.writeMem 0x100 1)]) (·.cp) = none ∧
      onNext (afterStart [.engine, .host (.readMem 0x107)]) (·.cp) = none ∧
      onNext (afterStart [.engine, .host (.writeMem 0x108 1)]) (·.mem.byte 0x108) = some 1 ∧
      onNext (afterStart [.engine, .engine, .host (.readMem 0x107)]) (·.status.done) = some true := by
  decide +kernel

/-- A turn that is scheduled counts as an engine step: one that reads an unwritten register is not
safe (10_state.md R33). -/
theorem test_scheduled_turn_unwritten :
    let s := { running 0x100 base with mem := words 0x100 [0x40400000] [], inputs := [.engine] }
    ¬safeStep s := by
  intro s h
  exact absurd (h.2 (by decide) (by decide) (.vlog2 1 0) (by decide)) (by decide)

/-! ### Witnesses: encoding and engine -/

theorem witness_DecodeOfEncode : (Instr.wrcfg 15 5).wellFormed = true := by decide

theorem witness_EncodeOfDecode : decode 0x0C3C0005 = .ok (.wrcfg 15 5) := by decide

/-- A NOP in the last word of the space. -/
def lastNop : State := running 0xFFFFFFFC { base with mem := words 0xFFFFFFFC [0x04000000] [] }

theorem witness_StepRunsDecodedCommand :
    ∀ inputs ∈ [([] : List Input), [.engine]],
      let s := { lastNop with inputs := inputs }
      s.status.busy = true ∧ inBounds s.memMap s.cp.toNat 4 = true ∧
        s.ws.meets s.cp.toNat (s.cp.toNat + 4) = false ∧
        decode (readWord s.mem s.cp.toNat) = .ok .nop ∧ s.inputs = inputs := by
  decide

/-- Past the top, out of the space, out of the map, in the write set, and clean. -/
theorem witness_FetchOutcome :
    (let s := running 0x100000000 base;
      2 ^ 32 ≤ s.cp.toNat ∧ s.inputs = [] ∧ s.status.busy = true) ∧
    (let s := running 0xFFFFFFFD base;
      s.cp.toNat < 2 ^ 32 ∧ s.inputs = [] ∧ s.status.busy = true ∧ 2 ^ 32 < s.cp.toNat + 4) ∧
    (let s := running 0xFFFFFFFC { base with memMap := [(0, 0xFFFFFFFF)] };
      s.cp.toNat < 2 ^ 32 ∧ s.inputs = [] ∧ s.status.busy = true ∧
        s.cp.toNat ≤ 0xFFFFFFFF ∧ 0xFFFFFFFF < s.cp.toNat + 4 ∧ s.memMap.mem 0xFFFFFFFF = false) ∧
    (let s := running 0xFFFFFFFC { base with ws := [(0xFFFFFFF0, 0xFFFFFFFD)] };
      s.cp.toNat + 4 ≤ 2 ^ 32 ∧ inBounds s.memMap s.cp.toNat 4 = true ∧ s.ws.mem s.cp.toNat = true) ∧
    (let s := lastNop;
      s.cp.toNat + 4 ≤ 2 ^ 32 ∧ inBounds s.memMap s.cp.toNat 4 = true ∧
        s.ws.meets s.cp.toNat (s.cp.toNat + 4) = false) := by
  decide

theorem witness_IllegalWordEndsRun :
    let s := running 0x100 base
    s.inputs = [] ∧ s.status.busy = true ∧ fetch s = .ok 0 ∧ decode 0 = .error .reservedOpcode := by
  decide

theorem witness_IdleEngineKeepsState :
    base.status.busy = false ∧ base.inputs = [] ∧
      ({ base with inputs := [.engine] } : State).inputs = .engine :: [] := by decide

/-! ### Witnesses: the host -/

def hostTurn (m : HostMove) (s : State) : State := { s with inputs := [.host m] }

theorem witness_HostStart :
    (hostTurn (.writeReg 0 1) (running 0 base)).status.busy = true ∧ (0 : Word).getLsbD 0 = false ∧
      (let s := hostTurn (.writeReg 0 1) { base with cmdPtr := 0xFFFFFFFC };
        s.status.busy = false ∧ (1 : Word).getLsbD 0 = true ∧ s.cmdPtr.toNat % 4 = 0) ∧
      (let s := hostTurn (.writeReg 0 1) { base with cmdPtr := 0x101 };
        s.status.busy = false ∧ (1 : Word).getLsbD 0 = true ∧ s.cmdPtr.toNat % 4 ≠ 0) := by
  decide

theorem witness_HostWritesIgnoredDuringRun :
    let s := hostTurn (.writeReg 1 0xFFFFFFFF) lastNop
    inv s = true ∧ s.status.busy = true ∧ s.inputs = .host (.writeReg 1 0xFFFFFFFF) :: [] := by
  decide

theorem witness_StatusRegister :
    (hostTurn (.writeReg 1 6) base).inputs = .host (.writeReg 1 6) :: [] := by decide

theorem witness_HostRegisterWrite :
    ∀ k ∈ [(2 : Fin 64), 5, 10, 3, 4, 11, 63],
      let s := hostTurn (.writeReg k 0x12345678) base
      s.status.busy = false ∧ s.inputs = .host (.writeReg k 0x12345678) :: [] ∧
        (k.val = 2 ∨ (5 ≤ k.val ∧ k.val ≤ 10) ∨ k.val = 3 ∨ k.val = 4 ∨ 11 ≤ k.val) := by
  decide

theorem witness_ResetValues :
    (hostTurn (.reset false) lastNop).inputs = .host (.reset false) :: [] := by decide

/-- A reset while a VST executes: the 16 bytes of its target are open. -/
theorem witness_ResetDuringCommand :
    let s := hostTurn (.reset true) (running 0x100 { base with mem := words 0x100 [0x140C0001] [] })
    s.inputs = .host (.reset true) :: [] ∧ interruptedTarget s = (0x2010, 16) := by
  decide

/-- A byte of the map, idle and beside the run; a byte of the run; a byte outside the map. -/
theorem witness_HostMemoryAccess :
    (let s := hostTurn (.writeMem 0xFFFFFFFF 7) base;
      s.memMap.mem (0xFFFFFFFF : Word).toNat = true ∧ ¬(s.status.busy = true) ∧
        s.inputs = .host (.writeMem 0xFFFFFFFF 7) :: []) ∧
    (let s := hostTurn (.readMem 0x108) { lastNop with footprint := [(0x100, 0x108)] };
      s.memMap.mem 0x108 = true ∧ s.footprint.mem 0x108 = false ∧
        s.inputs = .host (.readMem 0x108) :: []) ∧
    (let s := hostTurn (.readMem 0x107) { lastNop with footprint := [(0x100, 0x108)] };
      s.memMap.mem 0x107 = true ∧ s.status.busy = true ∧ s.footprint.mem 0x107 = true) ∧
    (let s := hostTurn (.readMem 0x107) { base with memMap := [(0, 0x107)] };
      ¬s.memMap.mem 0x107 = true) ∧
    (hostTurn (.readReg 63) base).inputs = .host (.readReg 63) :: [] := by decide

/-! ### Witnesses: VLD and VST -/

def withPtrs (inP outP : Word) (s : State) : State :=
  { s with cfg := { s.cfg with inPtr := inP, outPtr := outP } }

/-- Misaligned; past the top; the last 16 bytes; with the largest immediate. -/
theorem witness_VldLoadsLanes :
    loadAddr (withPtrs 0xFFFFFFFF 0 base) 16383 % 4 ≠ 0 ∧
      (loadAddr (withPtrs 0xFFFFFFF4 0 base) 0 % 4 = 0 ∧
        ¬loadAddr (withPtrs 0xFFFFFFF4 0 base) 0 + 16 ≤ 2 ^ 32) ∧
      (loadAddr (withPtrs 0xFFFFFFF0 0 base) 0 % 4 = 0 ∧
        inBounds base.memMap (loadAddr (withPtrs 0xFFFFFFF0 0 base) 0) 16 = true) := by
  decide

theorem witness_VstStoresLanes :
    storeAddr (withPtrs 0 0xFFFFFFFF base) 16383 % 4 ≠ 0 ∧
      (storeAddr (withPtrs 0 0xFFFFFFF4 base) 0 % 4 = 0 ∧
        ¬storeAddr (withPtrs 0 0xFFFFFFF4 base) 0 + 16 ≤ 2 ^ 32) ∧
      (storeAddr (withPtrs 0 0xFFFFFFF0 base) 0 % 4 = 0 ∧
        inBounds base.memMap (storeAddr (withPtrs 0 0xFFFFFFF0 base) 0) 16 = true) := by
  decide

theorem witness_StoreThenLoadReturnsVector :
    let s := withPtrs 0x1000 0x1000 base
    s.cfg.inPtr = s.cfg.outPtr ∧ storeAddr s 16383 % 4 = 0 ∧
      inBounds s.memMap (storeAddr s 16383) 16 = true := by
  decide

/-- A VST whose last bytes, and one whose first bytes, meet the next command. -/
theorem witness_FetchOfStoredBytesRaises :
    ∀ out ∈ [0xF8, 0x104],
      let s := withPtrs 0 (BitVec.ofNat 32 out) (running 0x100 base)
      s.inputs = [] ∧ s.status.busy = true ∧ s.cp.toNat + 8 ≤ 2 ^ 32 ∧
        inBounds s.memMap (s.cp.toNat + 4) 4 = true ∧ storeAddr s 0 % 4 = 0 ∧
        inBounds s.memMap (storeAddr s 0) 16 = true ∧ storeAddr s 0 < s.cp.toNat + 8 ∧
        s.cp.toNat + 4 < storeAddr s 0 + 16 := by
  decide

/-! ### Witnesses: the transcendental unit and pixel elements -/

theorem witness_SincosWritesBoth : isFinite 0x7F7FFFFF = true := by decide

/-- The points of each clause of exp2 and pow, the ends of the integer range among them; operands of
each domain of R163. -/
theorem witness_ApproximatorsMeetRequirements :
    (isNaN 0x7F800001 = true ∧ fle 0x43000000 0x43000000 = true ∧ flt 0xC2FC0001 0xC2FC0000 = true ∧
      fl32Int (-126) = 0xC2FC0000 ∧ fl32Int 127 = 0x42FE0000) ∧
    (fle 0x80000000 0 = true ∧ fle 0xFF800000 0 = true ∧ isNaN 0xFFC00000 = true) ∧
    (fabs 0x80000000 = 0 ∧ fabs 0xFF800000 = 0x7F800000) ∧
    (key 0xFF800000 ≤ key 0x7F800000 ∧ isNaN 0xFF800000 = false ∧ isNaN 0x7F800000 = false) ∧
    (isNormal 0x00800000 = true ∧ 0 < ratOf 0x00800000) ∧
    (isFinite 0xC2FC0000 = true ∧ -126 ≤ ratOf 0xC2FC0000 ∧ ratOf 0x42FFFFFF < 128) ∧
    (isFinite 0 = true ∧ |ratOf 0| ≤ ratOf trigField.trigMax) := by
  refine ⟨by decide +kernel, by decide, by decide, by decide, by decide +kernel, by decide +kernel,
    by decide, ?_⟩
  have h : ratOf 0 = 0 := by decide +kernel
  rw [h, abs_zero]
  exact trigField.bounded.2

/-- The vectors of all ones, and of a zero where atan needs it, with operands of each clause. -/
theorem witness_ReferenceInstancesExactPoints :
    (fabs 0x80000000#32 = 0#32 ∧ fabs 0xFF800000#32 = 0x7F800000#32 ∧ isNaN 0xFF800001 = true ∧
      isFinite 1 = true ∧ 0 < ratOf 1 ∧ isNormal 1 = false ∧ isNormal 0x00800000 = true) ∧
    ((Coeffs.const 5 one isFinite_one).vec[0] = 0x3F800000#32 ∧ fle 0x43000000 0x7F800000 = true ∧
      flt 0xFF800000 0xC2FC0000 = true ∧ ratOf 0x80000000 = (0 : Int) ∧ ratOf 0xC2FC0000 = (-126 : Int)) ∧
    ((Coeffs.const 6 zero isFinite_zero).vec[0] = 0#32 ∧
      feq (Coeffs.const 7 one isFinite_one).vec[0] 0#32 = false ∧ fabs 0xBF800000#32 = 0x3F800000#32) := by
  decide +kernel

theorem witness_ReferenceSincosValues :
    isFinite 0xFF800000 = false ∧ isFinite 0x7F7FFFFF = true ∧ fabs 0x80000000#32 = 0#32 ∧
      (Coeffs.const 6 one isFinite_one).vec[0] ≠ 0x80000000#32 := by
  decide +kernel

theorem witness_CastSaturates :
    isNaN 0x7FC00000 = true ∧ fle 0x80000000 0 = true ∧
      fle (fl32Int BitDepth.u8.range) 0x437F0000 = true ∧ flt 0 1 = true ∧
      flt 0x477FFEFF (fl32Int BitDepth.u16.range) = true ∧
      fle 0x477FF000 0x477FF000 = true ∧ fle 0xFF800000 0xC77FF000 = true ∧
      flt 0xC77FF000 0x477FEFFF = true ∧ flt 0x477FEFFF 0x477FF000 = true := by decide +kernel

/-- The largest codes of the integer depths; each kind of binary16 code; each float depth. -/
theorem witness_PixelElementsConvert :
    (∀ k ∈ [(BitDepth.u8, (255 : Nat), 0x437F0000#32), (.u10, 1023, 0x447FC000#32),
      (.u12, 4095, 0x457FF000#32), (.u16, 65535, 0x477FFF00#32)], fl32Int k.2.1 = k.2.2 ∧ normalise k.1 k.2.1 = one) ∧
    (∀ k ∈ [(0x8001, 0, 1), (0x0400, 1, 0), (0xFBFF, 0x1E, 0x3FF), (0xFC00, 0x1F, 0), (0x7C01, 0x1F, 1)],
      (k.1 < 0x10000 ∧ k.1 / 0x400 % 0x20 = k.2.1 ∧ k.1 % 0x400 = k.2.2)) ∧
    (BitDepth.f16 = .f16 ∨ BitDepth.f16 = .f32) := by decide +kernel

/-! ### Witnesses: the APPLY frame and the vector forms -/

/-- Every unit configured, u10 in and f32 out, one pixel whose codes are the largest. -/
def applyState : State :=
  { base with
    mat := { MatUnit.reset with valid := true, inBd := .u10, outBd := .f32 }
    log := { LogUnit.reset with valid := true, inBd := .u10, outBd := .f32 }
    lut := { LutUnit.reset with valid := true, inBd := .u10, outBd := .f32 }
    crv := { CrvUnit.reset with valid := true, inBd := .u10, outBd := .f32 }
    mem := words 0x1000 [0x03FF03FF, 0x03FF03FF] [] }

def units : List UnitId := [.mat, .log, .lut, .crv]

/-- Disjoint buffers that touch, no pixel at all, and an exact alias. -/
theorem witness_ApplyWritesEveryPixel :
    (∀ id ∈ units, ∀ n ∈ ([0, 1] : List Nat),
      let s := { applyState with cfg := ⟨0x1000, 0x1008, BitVec.ofNat 32 n, 0, 0, 0⟩ }
      (infoOf id s).valid = true ∧ s.cfg.nPix.toInt = n ∧
        s.cfg.inPtr.toNat % (infoOf id s).inBd.esize = 0 ∧
        s.cfg.outPtr.toNat % (infoOf id s).outBd.esize = 0 ∧
        inBounds s.memMap s.cfg.inPtr.toNat (inBytes id s n) = true ∧
        inBounds s.memMap s.cfg.outPtr.toNat (outBytes id s n) = true ∧ buffersApart id s n ∧
        (infoOf id s).inBd.checked = true ∧ ∀ k, k < 4 * n → codeFits id s k) ∧
    (let s := { matSetup with mat := scenarioC, cfg := ⟨0x1000, 0x1000, 1, 5, 5, 0⟩ };
      (infoOf .mat s).valid = true ∧ s.cfg.nPix.toInt = 1 ∧ buffersApart .mat s 1 ∧
        inBounds s.memMap s.cfg.inPtr.toNat (inBytes .mat s 1) = true ∧
        (infoOf .mat s).inBd.checked = false) := by
  unfold buffersApart codeFits
  decide

/-- One state for each error of the frame, in the order of the checks. -/
theorem witness_ApplyChecksInOrder :
    ∀ id ∈ units,
      (infoOf id base).valid = false ∧ (infoOf id applyState).valid = true ∧
      (0x80000000 : Word).toInt < 0 ∧ 0 < applyState.cfg.nPix.toInt ∧
      (withPtrs 0x1001 0x2000 applyState).cfg.inPtr.toNat % (infoOf id applyState).inBd.esize ≠ 0 ∧
      (withPtrs 0x1000 0x2002 applyState).cfg.outPtr.toNat % (infoOf id applyState).outBd.esize ≠ 0 ∧
      (let s := withPtrs 0xFFFFFFFA 0x2000 applyState;
        s.cfg.inPtr.toNat % 2 = 0 ∧ inBounds s.memMap s.cfg.inPtr.toNat (inBytes id s 1) = false) ∧
      (let s := withPtrs 0x1000 0xFFFFFFF4 applyState;
        s.cfg.outPtr.toNat % 4 = 0 ∧ inBounds s.memMap s.cfg.outPtr.toNat (outBytes id s 1) = false) ∧
      (let s := withPtrs 0x1000 0x1004 applyState;
        inBounds s.memMap s.cfg.inPtr.toNat (inBytes id s 1) = true ∧
          inBounds s.memMap s.cfg.outPtr.toNat (outBytes id s 1) = true ∧ ¬buffersApart id s 1) ∧
      (let s := { applyState with mem := words 0x1000 [0x03FF03FF, 0x040003FF] [] };
        inBounds s.memMap s.cfg.inPtr.toNat (inBytes id s 1) = true ∧
          inBounds s.memMap s.cfg.outPtr.toNat (outBytes id s 1) = true ∧ buffersApart id s 1 ∧
          (infoOf id s).inBd.checked = true ∧ ¬codeFits id s 3 ∧ ∀ j, j < 3 → codeFits id s j) := by
  unfold buffersApart codeFits
  decide

theorem witness_VectorUnitCommands :
    ∀ id ∈ units, (infoOf id applyState).valid = true ∧ (infoOf id base).valid = false := by decide

/-- An APPLY and a vector command that complete, and ones that raise. -/
theorem witness_ApplyIgnoresUpdRegisters :
    (onNext (exec (applyOf .mat) { matSetup with mat := scenarioC }) fun t => t.cp) = some 0x104 ∧
      (onNext (exec (vectorOf .mat 1 0) { matSetup with mat := scenarioC }) fun t => t.cp) =
        some 0x104 ∧
      ∀ id ∈ units, (onNext (exec (applyOf id) base) fun t => t.status.err) = some true ∧
        (onNext (exec (vectorOf id 1 0) base) fun t => t.status.err) = some true := by
  decide

/-! ### Witnesses: the matrix unit -/

theorem witness_MatrixEvaluation :
    let u : MatUnit := ⟨true, .f32, .f32, .diag, ⟨⟨one, 0, 0, 0⟩, ⟨0, one, 0, 0⟩, ⟨0, 0, one, 0⟩,
      ⟨0, 0, 0, one⟩⟩, ⟨0, 0, 0, 0⟩⟩
    let x : Quad := ⟨one, 0x7F800000, 0x80000000, 1⟩
    u.kind = .diag ∧ (∀ r : Fin 4, channel (channel u.c r) r = 0x3F800000) ∧
      ∀ r : Fin 4, isNaN (channel x r) = false := by decide

/-- The descriptor of `s` at another address. -/
def descAt (a : Word) (s : State) : State := { s with cfg := { s.cfg with opdataPtr := a } }

/-- Both reserved fields, DIR, a descriptor that ends above the space, and a good one. -/
theorem witness_UpdMatConfigures :
    (∀ flags ∈ [2, 0x80000000, 0x100000000, 1, 0],
      updReady (matSetup (BitVec.ofNat 64 flags)) .f32 .f32) ∧
      (headerFlags (matSetup 0x80000000)).extractLsb' 1 31 ≠ 0 ∧ headerSecond (matSetup 0x100000000) ≠ 0 ∧
      ((headerFlags (matSetup 1)).extractLsb' 1 31 = 0 ∧ headerSecond (matSetup 1) = 0 ∧
        (headerFlags (matSetup 1)).getLsbD 0 = true) ∧
      (let s := descAt 0xFFFFFF60 base;
        updReady s .f32 .f32 ∧ headerFlags s = 0 ∧ headerSecond s = 0 ∧ ¬descriptorMapped s 168) ∧
      (headerFlags matSetup = 0 ∧ headerSecond matSetup = 0 ∧ descriptorMapped matSetup 168) := by
  unfold updReady descriptorMapped
  decide +kernel

theorem witness_UpdCommonChecks :
    bitDepthOf 6 = none ∧ bitDepthOf base.cfg.inBd = some .f32 ∧ bitDepthOf base.cfg.outBd = some .f32 ∧
      (0x3004 : Word).toNat % 8 ≠ 0 ∧ (0xFFFFFFF8 : Word).toNat % 8 = 0 ∧
      inBounds [(0, 0xFFFFFFFF)] (0xFFFFFFF8 : Word).toNat 8 = false := by
  decide

/-! ### Witnesses: the logarithm unit -/

/-- Each error of UPD.LOG (T-LOG-4), and a camera descriptor that configures. -/
theorem witness_UpdLogConfigures :
    (let s := logSetup 4 0x4000000000000000;
      updReady s .f32 .f32 ∧ (headerFlags s).extractLsb' 2 30 ≠ 0) ∧
    (let s := descAt 0xFFFFFF80 base;
      updReady s .f32 .f32 ∧ headerFlags s = 0 ∧ headerSecond s = 0 ∧ ¬descriptorMapped s 136) ∧
    (let s := logSetup 0 0x3FF0000000000000;
      updReady s .f32 .f32 ∧ headerFlags s = 0 ∧ headerSecond s = 0 ∧ descriptorMapped s 136 ∧
        ratOfF64 (readF64 s.mem 0x3008) = some 1) ∧
    (let s := logSetup 0 0x4000000000000000 (slope := 0x8000000000000000);
      descriptorMapped s 136 ∧ ratOfF64 (readF64 s.mem 0x3008) = some 2 ∧
        ∀ c : Fin 3, ratOfF64 (readF64 s.mem (0x3010 + 40 * c + 16)) = some 1 ∧
          ratOfF64 (readF64 s.mem (0x3010 + 40 * c)) = some 0) ∧
    (∀ brk ∈ [((0x0000000000000000 : F64), (0 : ℚ)), (0x3FE0000000000000, 1 / 2)],
      let s := logSetup 2 0x4000000000000000 (brk := brk.1)
      updReady s .f32 .f32 ∧ headerFlags s = 2 ∧ headerSecond s = 0 ∧ descriptorMapped s 136 ∧
        ratOfF64 (readF64 s.mem 0x3008) = some 2 ∧
        ∀ c : Fin 3, ratOfF64 (readF64 s.mem (0x3010 + 40 * c)) = some 1 ∧
          ratOfF64 (readF64 s.mem (0x3010 + 40 * c + 8)) = some 0 ∧
          ratOfF64 (readF64 s.mem (0x3010 + 40 * c + 16)) = some 1 ∧
          ratOfF64 (readF64 s.mem (0x3010 + 40 * c + 24)) = some 0 ∧
          ratOfF64 (readF64 s.mem (0x3010 + 40 * c + 32)) = some brk.2) := by
  unfold updReady descriptorMapped
  decide +kernel

/-- Intervals that the first precision decides. -/
theorem witness_LogIntervalsHoldRealValues :
    0 < (10 : ℚ) ∧ 0 ≤ 128 ∧ fl32 (lbIval 2 (96 * 2 ^ 0)).lo = fl32 (lbIval 2 (96 * 2 ^ 0)).hi := by
  decide +kernel

/-- Camera descriptors whose check has no value or −∞ (a NaN, `1·(−∞)`, `∞·0`), and one where it is +∞. -/
theorem witness_UpdLogConfigures_breaks :
    ∀ k ∈ [((one64 : F64), (0x7FF0000000000001 : F64), FloatVal.nan),
      (one64, 0xFFF0000000000000, .inf true), (0x7FF0000000000000, 0, .nan),
      (one64, 0x7FF0000000000000, .inf false)],
      let s := logSetup 2 0x4000000000000000 (slope := k.1) (brk := k.2.1)
      (updReady s .f32 .f32 ∧ headerFlags s = 2 ∧ headerSecond s = 0 ∧ descriptorMapped s 136 ∧
        ratOfF64 (readF64 s.mem 0x3008) = some 2 ∧
        ∀ c < 3, let p := readLogChannel s c
          ratOfF64 p.logSlope = some 1 ∧ ratOfF64 p.linSlope ≠ some 0 ∧ p.breakValue = k.2.2) := by
  unfold updReady descriptorMapped
  decide +kernel

/-- The two sides of the check, by `breakInfinite_iff` and `not_break`. -/
theorem witness_UpdLogConfigures_sides :
    (∀ p : LogParams, p.breakValue = .nan ∨ p.breakValue = .inf true →
      ¬breakPositive p.linSlope p.linSideBreak p.linOffset ∧
        ¬breakInfinite p.linSlope p.linSideBreak p.linOffset) ∧
    ∀ p : LogParams, p.breakValue = .inf false → breakInfinite p.linSlope p.linSideBreak p.linOffset :=
  ⟨not_break, fun p h => (breakInfinite_iff p).2 h⟩

/-- A LOG_SLOPE of 0 (T-LOG-4). -/
theorem witness_UpdLogConfigures_slope :
    let s := running 0x100 { base with mem := doubles 0x3000 [0, 0x4000000000000000, one64, 0, 0, 0, 0] [] }
    updReady s .f32 .f32 ∧ headerFlags s = 0 ∧ headerSecond s = 0 ∧ descriptorMapped s 136 ∧
      ratOfF64 (readF64 s.mem 0x3008) = some 2 ∧ ratOfF64 (readF64 s.mem 0x3020) = some 0 := by
  unfold updReady descriptorMapped
  decide +kernel

/-! ### Witnesses: the 1D-LUT unit -/

/-- Reserved bits, each reserved encoding, each length that is refused, and a table too long for the
map, with flags that pass the checks before. -/
theorem witness_UpdLutHeaderChecks :
    (∀ h ∈ [(0x800, 2), (0x10, 2), (0x60, 2), (0x300, 2), (0, 0), (0, 1), (0, 65537), (2, 65535),
      (2, 2), (0, 65536)],
      updReady (lutSetup (BitVec.ofNat 32 h.1) (BitVec.ofNat 32 h.2) []) .f32 .f32) ∧
    (0x800 : Word).extractLsb' 11 21 ≠ 0 ∧
    ((0x10 : Word).extractLsb' 11 21 = 0 ∧ ¬((0x10 : Word).extractLsb' 3 2).toNat < 2) ∧
    ((0x60 : Word).extractLsb' 5 2).toNat = 3 ∧ ¬((0x300 : Word).extractLsb' 7 4).toNat ≤ 5 ∧
    (∀ n ∈ [0, 1, 65537, 65535, 2, 65536],
      let s := lutSetup 2 (BitVec.ofNat 32 n) []
      headerFlags s = 2 ∧ (headerSecond s).toNat = n) ∧
    ((2 : Word).extractLsb' 11 21 = 0 ∧ ((2 : Word).extractLsb' 3 2).toNat < 2 ∧
      ((2 : Word).extractLsb' 5 2).toNat ≠ 3 ∧ ((2 : Word).extractLsb' 7 4).toNat ≤ 5 ∧
      (2 : Word).getLsbD 1 = true) ∧
    (let s := descAt 0xFFFF0000 { lutSetup 0 0 [] with mem := words 0xFFFF0000 [2, 65536] [] };
      updReady s .f32 .f32 ∧ (headerSecond s).toNat = 65536 ∧ ¬descriptorMapped s (8 + 12 * 65536)) := by
  unfold updReady descriptorMapped
  decide

theorem witness_RawHalfEntries :
    (isFinite 0x80000000 = true ∧ ratOf 0x80000000 = (0 : Nat)) ∧
      (isFinite 0x477FFF00 = true ∧ ratOf 0x477FFF00 = (65535 : Nat)) ∧
      isFinite 0x7F800000 = false := by decide +kernel

def lutValues (w : List F32) : List F32 := w.flatMap fun x => [x, x, x]

/-- A bad raw entry; a forward table; an inverse table of either quality with its inverse data; one
that is constant. -/
theorem witness_UpdLutConfigures :
    (let s := lutSetup 4 2 [0, 0, 0, 0, 0x3F000000, 0];
      updReady s .f32 .f32 ∧ descriptorMapped s 32 ∧ (headerSecond s).toNat = 2 ∧
        tableEntry true (readWord s.mem (0x3000 + 8 + 4 * (3 * 1 + 1))) = .error ⟨.invalidOpdata, 5⟩) ∧
    (∀ c ∈ [((0 : Word), [(0 : F32), one]), (0x21, [0, 0x3F000000, one]), (1, [0, one]), (1, [one, one])],
      let n := c.2.length
      let s := lutSetup c.1 (BitVec.ofNat 32 n) (lutValues c.2)
      updReady s .f32 .f32 ∧ (headerSecond s).toNat = n ∧ headerFlags s = c.1 ∧
        descriptorMapped s (8 + 12 * n) ∧
        ∀ i : Fin n, ∀ k : Fin 3, tableEntry false
          (readWord s.mem (0x3000 + 8 + 4 * (3 * i.val + k.val))) = .ok (entry c.2 i)) ∧
    ((buildInverse false ⟨[0, one], [0, one], [0, one]⟩).toOption.isSome = true ∧
      buildInverse false ⟨[one, one], [one, one], [one, one]⟩ = .error noInverse) := by
  unfold updReady descriptorMapped
  decide +kernel

/-- Both ends; and s = 1.5 in a table of three entries, with i = 1. -/
theorem witness_ForwardLutInterpolates :
    isNaN 0x7F800001 = true ∧ fle 0x80000000 0 = true ∧ fle 0x3F800000 0x3F800000 = true ∧
      flt 0 0x3F400000 = true ∧ flt 0x3F400000 0x3F800000 = true ∧
      ratOf (fmul 0x3F400000 (fl32Int 2)) = 3 / 2 ∧ ratOf (fmul 0x3F000000 (fl32Int 2)) = (1 : Nat) := by
  decide +kernel

/-- The last codes, both ends, and values beside the zeros and the last code of either sign. -/
theorem witness_HalfDomainInterpolates :
    (0xFBFF % 0x8000 < 0x7C00 ∧ isNaN 0xFFC00000 = true ∧ fle 0x477FE000 0x7F800000 = true ∧
      fle 0xC77FE000 0xC77FE000 = true) ∧
    ∀ k ∈ ([(0x0000, 0x0001, 1), (0x7BFE, 0x7BFF, 0x477FD000), (0x8001, 0x8000, 0x80000001),
        (0xFBFF, 0xFBFE, 0xC77FD000)] : List (Nat × Nat × Nat)),
      ((k.2.1 = k.1 + 1 ∧ k.2.1 ≤ 0x7BFF) ∨ (k.1 = k.2.1 + 1 ∧ 0x8000 ≤ k.2.1 ∧ k.1 ≤ 0xFBFF)) ∧
        flt (half32 k.1) (BitVec.ofNat 32 k.2.2) = true ∧
        flt (BitVec.ofNat 32 k.2.2) (half32 k.2.1) = true := by decide +kernel

theorem witness_HueOrderAndFixup :
    (isNaN 0x7F800000 = false ∧ isNaN 0x80000000 = false ∧ isNaN 0xFF800000 = false) ∧
      isNaN 0x7FC00000 = true := by decide

theorem witness_MonotoneCopyRises :
    ([one, 0x3F000000, 0] : List F32) ≠ [] ∧
      ∀ x ∈ ([one, 0x3F000000, 0] : List F32), isNaN x = false := by
  refine ⟨by simp, fun x hx => ?_⟩
  fin_cases hx <;> decide

/-- A half table of 65536 entries, and data that can and that cannot be built. -/
theorem witness_InverseDataBuilt :
    (List.replicate 65536 zero).length = 65536 ∧
      (buildInverse false ⟨[0, one], [one, 0], [0, one]⟩).toOption.isSome = true ∧
      buildInverse false ⟨[0, one], [0x7FC00000, one], [0, one]⟩ = .error ⟨.invalidOpdata, 6⟩ := by
  refine ⟨List.length_replicate .., ?_⟩
  decide +kernel

/-- Each mode, and ends of a domain inside and outside [0, 1]. -/
theorem witness_InverseLutEvaluation :
    scenarioALut.mode = .fwd ∧
      (∀ inv fast, ({ scenarioALut with mode := .invFast inv fast } : LutUnit).mode = .invFast inv fast) ∧
      (∀ c, ({ scenarioALut with mode := .invExact (.normal c) } : LutUnit).mode = .invExact (.normal c)) ∧
      (∀ c, ({ scenarioALut with mode := .invExact (.half c) } : LutUnit).mode = .invExact (.half c)) ∧
      (flt 0x80000001 0 = true ∧ flt 0x3F800000 0x3F800001 = true) ∧
      (flt 0x80000000 0 = false ∧ flt 0x3F800000 0x3F800000 = false) :=
  ⟨rfl, fun _ _ => rfl, fun _ => rfl, fun _ => rfl, by decide, by decide⟩

/-- The copy of T-INV-1 row 2: equal ends, a strict middle. -/
theorem witness_SearchBrackets :
    let u : List F32 := [0x3DCCCCCD, 0x3DCCCCCD, 0x3E4CCCCD, 0x3E99999A, 0x3E99999A]
    1 ≤ 3 ∧ 3 < u.length ∧ (∀ i : Fin 4, isNaN (entry u i) = false) ∧
      ∀ i : Fin 4, fle (entry u i) (entry u (i + 1)) = true := by decide

/-! ### Witnesses: the tone-curve unit -/

/-- An unknown style, a wrong count, a descriptor above the space, a bad and a good parameter, and the
styles without a parameter. -/
theorem witness_UpdCrvConfigures :
    (updReady (crvSetup 11 0 []) .f32 .f32 ∧ 10 < (headerFlags (crvSetup 11 0 [])).toNat) ∧
    (let s := crvSetup 2 0 [];
      updReady s .f32 .f32 ∧ (headerFlags s).toNat = 2 ∧ (headerSecond s).toNat ≠ 1) ∧
    (let s := descAt 0xFFFFFFF8 { base with mem := words 0xFFFFFFF8 [2, 1] [] };
      updReady s .f32 .f32 ∧ (headerFlags s).toNat = 2 ∧
        (headerSecond s).toNat = 1 ∧ ¬descriptorMapped s 16) ∧
    (∀ p ∈ [((0 : F64), (0 : ℚ)), (0x3FF0000000000000, 1)],
      let s := crvSetup 2 1 [p.1]
      updReady s .f32 .f32 ∧ (headerFlags s).toNat = 2 ∧ (headerSecond s).toNat = 1 ∧
        descriptorMapped s 16 ∧ ratOfF64 (readF64 s.mem 0x3008) = some p.2) ∧
    (∀ k ∈ [(0, 0), (4, 0), (6, 10), (8, 13)],
      let s := crvSetup (BitVec.ofNat 32 k.1) (BitVec.ofNat 32 k.2) []
      updReady s .f32 .f32 ∧ (headerFlags s).toNat = k.1 ∧ (headerSecond s).toNat = k.2 ∧
        descriptorMapped s (8 + 8 * k.2)) ∧
    (let s := crvSetup 10 5 [one64, one64, one64, one64, one64];
      updReady s .f32 .f32 ∧ (headerFlags s).toNat = 10 ∧ (headerSecond s).toNat = 5 ∧
        descriptorMapped s 48 ∧ ∀ k : Fin 5, ratOfF64 (readF64 s.mem (0x3008 + 8 * k)) = some 1) := by
  unfold updReady descriptorMapped
  decide +kernel

/-- A pixel with an infinite and a negative zero channel. -/
theorem witness_CurveFunctionsMeetRequirements :
    let u : CrvUnit := ⟨true, .f32, .f32, .rec2100Fwd, Vector.replicate 13 0⟩
    let x : Quad := ⟨0x7F800000, 0x80000000, one, one⟩
    u.style = .rec2100Fwd ∧ u.p[0] = 0#32 ∧ isNaN x.r = false ∧ isNaN x.g = false ∧
      isNaN x.b = false := ⟨rfl, rfl, by decide, by decide, by decide⟩

/-- Operands of the exact points and of the bounds; parameter lists of both lengths. -/
theorem witness_CurveFunctionsMeetRequirements_operands :
    feq 0x80000000 0#32 = true ∧ flt 0#32 0x7F800000 = true ∧ isFinite 1 = true ∧ 0 < ratOf 1 ∧
      (List.replicate 10 one).length = 10 ∧ (List.replicate 13 one).length = 13 := by decide +kernel

/-! ### Witnesses: the whole machine -/

theorem witness_ErrorsArePrecise :
    base.status.err = false ∧
      (onNext (exec (.vmat 1 0) base) fun t => t.status.err) = some true ∧
      (onNext (exec .updMat (matSetup 1)) fun t => (t.status.err, t.mat.valid)) = some (true, false) := by
  decide +kernel

theorem witness_CommandFrame :
    (onNext (exec (.vst 3 1) base) fun t => t.ws) = some [(0x2010, 0x2020)] ∧
      writeTarget (.vst 3 1) base = (0x2010, 16) ∧ writeTarget .applyMat applyState = (0x2000, 16) := by
  decide

theorem witness_StepKeepsInvariant :
    inv lastNop = true ∧ (onNext (step lastNop) fun t => t.cp) = some 0x100000000 := by
  decide

theorem witness_EveryRunEnds :
    inv lastNop = true ∧ lastNop.inputs = [] ∧ lastNop.status.busy = true := by
  decide

end Sys2Proof.Tests
end

section
/-!
Rounding a magnitude to an IEEE format takes a nearest code, the even one at a tie
(00_scope.md R14), and the saturating cast of every bit depth (41_bitdepth_pixel_io.md R193).
-/
namespace Sys2Proof.Machine

/-! ### Rounding to a format takes a nearest code -/

namespace FloatFormat

/-- No code of unbounded exponent is nearer to the magnitude `q` than `g`, which is even where
another code is as near. -/
def NearestEven (f : FloatFormat) (q : ℚ) (g : Nat) : Prop :=
  ∀ k, |f.mag g - q| ≤ |f.mag k - q| ∧ (|f.mag g - q| = |f.mag k - q| → k ≠ g → g % 2 = 0)

/-- The magnitude of a code from its exponent step and its significand, which may be the one past
the largest of the step. -/
theorem mag_of_significand (f : FloatFormat) (j k : Nat) (hk : k ≤ 2 * 2 ^ f.fracBits)
    (h : 2 ^ f.fracBits ≤ k ∨ j = 0) :
    f.mag (j * 2 ^ f.fracBits + k) = (k : ℚ) * pow2 (j + f.ulpExp) := by
  have hunits : f.units (j * 2 ^ f.fracBits + k) = k * 2 ^ j := by
    unfold units
    have hB : 0 < 2 ^ f.fracBits := by positivity
    generalize 2 ^ f.fracBits = b at *
    rw [Nat.add_comm, Nat.add_mul_div_right _ _ hB, Nat.add_mul_mod_self_right]
    rcases Nat.lt_or_ge k b with hlow | hhigh
    · obtain rfl : j = 0 := by omega
      simp [Nat.div_eq_of_lt hlow, Nat.mod_eq_of_lt hlow]
    · rcases hk.lt_or_eq with hlt | rfl
      · obtain ⟨r, rfl⟩ : ∃ r, k = b + r := ⟨k - b, by omega⟩
        have hr : r < b := by omega
        simp [Nat.add_div_left _ hB, Nat.div_eq_of_lt hr, Nat.mod_eq_of_lt hr]
      · rw [Nat.mul_div_cancel _ hB, Nat.mul_mod_left, if_neg (by omega),
          show 2 + j - 1 = j + 1 by omega, pow_succ]
        ring
  rw [mag, hunits, pow2_add, pow2_natCast]
  push_cast
  ring

/-- The lower of the two codes around `q` is nearest when it is nearer, or as near and even. -/
theorem nearestEven_lower (f : FloatFormat) (q : ℚ) (c : Nat) (hlo : f.mag c ≤ q)
    (h : q - f.mag c < f.mag (c + 1) - q ∨ q - f.mag c = f.mag (c + 1) - q ∧ c % 2 = 0) :
    f.NearestEven q c := by
  intro k
  rw [abs_of_nonpos (sub_nonpos.2 hlo)]
  rcases Nat.lt_trichotomy k c with hk | rfl | hk
  · have hm := f.mag_strictMono hk
    rw [abs_of_nonpos (by linarith)]
    exact ⟨by linarith, fun heq => by linarith⟩
  · exact ⟨neg_le_abs _, fun _ hne => absurd rfl hne⟩
  · have hm := f.mag_strictMono.monotone (Nat.succ_le_of_lt hk)
    rcases h with h | ⟨h, heven⟩
    · exact ⟨by linarith [le_abs_self (f.mag k - q)],
        fun heq => by linarith [le_abs_self (f.mag k - q)]⟩
    · exact ⟨by linarith [le_abs_self (f.mag k - q)], fun _ _ => heven⟩

/-- The upper of the two codes around `q` is nearest when it is nearer, or as near and even. -/
theorem nearestEven_upper (f : FloatFormat) (q : ℚ) (c : Nat) (hhi : q ≤ f.mag (c + 1))
    (h : f.mag (c + 1) - q < q - f.mag c ∨ f.mag (c + 1) - q = q - f.mag c ∧ (c + 1) % 2 = 0) :
    f.NearestEven q (c + 1) := by
  intro k
  rw [abs_of_nonneg (sub_nonneg.2 hhi)]
  rcases Nat.lt_trichotomy k (c + 1) with hk | rfl | hk
  · have hm := f.mag_strictMono.monotone (Nat.le_of_lt_succ hk)
    rcases h with h | ⟨h, heven⟩
    · exact ⟨by linarith [neg_le_abs (f.mag k - q)],
        fun heq => by linarith [neg_le_abs (f.mag k - q)]⟩
    · exact ⟨by linarith [neg_le_abs (f.mag k - q)], fun _ _ => heven⟩
  · exact ⟨le_abs_self _, fun _ hne => absurd rfl hne⟩
  · have hm := f.mag_strictMono hk
    rw [abs_of_nonneg (by linarith)]
    exact ⟨by linarith, fun heq => by linarith⟩

/-- `roundMag` of a positive magnitude: its exponent step `j` and the significand `t`, a fraction,
that it rounds to an integer. -/
theorem roundMag_eq_significand (f : FloatFormat) (q : ℚ) (hq : 0 < q) :
    ∃ (j : Nat) (t : ℚ), q = t * pow2 (j + f.ulpExp) ∧ 0 ≤ t ∧
      t < ((2 * 2 ^ f.fracBits : Nat) : ℚ) ∧ (((2 ^ f.fracBits : Nat) : ℚ) ≤ t ∨ j = 0) ∧
      f.roundMag q = min (j * 2 ^ f.fracBits + roundTiesEven t) f.infCode := by
  obtain ⟨hlow, hhigh⟩ := floorLog2_spec q hq
  obtain ⟨j, hj⟩ : ∃ j : Nat, max (floorLog2 q) f.minExp = f.minExp + j :=
    ⟨(max (floorLog2 q) f.minExp - f.minExp).toNat, by omega⟩
  have hexp : f.minExp + j - f.fracBits = j + f.ulpExp := by unfold ulpExp; ring
  have hunit := pow2_pos (j + f.ulpExp)
  have hB : pow2 f.fracBits = ((2 ^ f.fracBits : Nat) : ℚ) := by rw [pow2_natCast]; push_cast; rfl
  refine ⟨j, q / pow2 (j + f.ulpExp), (div_mul_cancel₀ _ hunit.ne').symm, (div_pos hq hunit).le,
    ?_, ?_, ?_⟩
  · have hle : pow2 (floorLog2 q + 1) ≤ pow2 (1 + (f.fracBits + (j + f.ulpExp))) :=
      pow2_le _ _ (by omega)
    rw [pow2_add 1, pow2_add f.fracBits, hB, show pow2 1 = 2 by rw [pow2_eq]; norm_num] at hle
    rw [div_lt_iff₀ hunit, Nat.cast_mul, mul_assoc]
    exact hhigh.trans_le hle
  · by_cases hj0 : j = 0
    · exact .inr hj0
    · left
      rw [le_div_iff₀ hunit, ← hB, ← pow2_add]
      exact (pow2_le _ _ (by omega)).trans hlow
  · unfold roundMag
    simp only [if_neg hq.ne', hj, hexp, add_sub_cancel_left, Int.toNat_natCast]

/-- Rounding takes a nearest code, an even one at a tie, and the infinity code where that code is
past the finite ones (00_scope.md R14). -/
theorem roundMag_nearestEven (f : FloatFormat) (hf : f.fracBits ≠ 0) (q : ℚ) (hq : 0 ≤ q) :
    ∃ g, f.roundMag q = min g f.infCode ∧ f.NearestEven q g := by
  rcases hq.eq_or_lt with rfl | hpos
  · refine ⟨0, by simp [roundMag_zero], f.nearestEven_lower 0 0 f.mag_zero.le (.inl ?_)⟩
    rw [mag_zero]
    linarith [f.mag_pos (0 + 1) (by omega)]
  obtain ⟨j, t, hqt, ht0, htop, hbot, hround⟩ := f.roundMag_eq_significand q hpos
  obtain ⟨k, hkt, htk, hcases⟩ := roundTiesEven_spec t ht0
  have hktop : k < 2 * 2 ^ f.fracBits := by exact_mod_cast hkt.trans_lt htop
  have hkbot : 2 ^ f.fracBits ≤ k ∨ j = 0 := hbot.imp_left fun hb => by
    have : ((2 ^ f.fracBits : Nat) : ℚ) < ((k + 1 : Nat) : ℚ) := by push_cast at hb ⊢; linarith
    exact Nat.le_of_lt_succ (by exact_mod_cast this)
  have hparity : (j * 2 ^ f.fracBits + k) % 2 = k % 2 := by
    obtain ⟨b, hb⟩ := Nat.exists_eq_succ_of_ne_zero hf
    rw [hb, pow_succ, ← Nat.mul_assoc]
    exact Nat.mul_add_mod_self_right _ _ _
  have hunit := pow2_pos (j + f.ulpExp)
  have hbelow : q - f.mag (j * 2 ^ f.fracBits + k) = (t - k) * pow2 (j + f.ulpExp) := by
    rw [f.mag_of_significand j k hktop.le hkbot, hqt]; ring
  have habove : f.mag (j * 2 ^ f.fracBits + k + 1) - q = (k + 1 - t) * pow2 (j + f.ulpExp) := by
    rw [Nat.add_assoc, f.mag_of_significand j (k + 1) hktop (hkbot.imp_left Nat.le_succ_of_le), hqt]
    push_cast; ring
  have hlo : f.mag (j * 2 ^ f.fracBits + k) ≤ q :=
    sub_nonneg.1 (hbelow ▸ mul_nonneg (by linarith) hunit.le)
  have hhi : q ≤ f.mag (j * 2 ^ f.fracBits + k + 1) :=
    sub_nonneg.1 (habove ▸ mul_nonneg (by linarith) hunit.le)
  rcases hcases with ⟨hd, hr⟩ | ⟨hd, hr⟩ | ⟨hd, hpar, hr⟩ | ⟨hd, hpar, hr⟩
  · refine ⟨_, by rw [hround, hr], f.nearestEven_lower q _ hlo (.inl ?_)⟩
    rw [hbelow, habove]
    exact mul_lt_mul_of_pos_right (by linarith) hunit
  · refine ⟨_, by rw [hround, hr, Nat.add_assoc], f.nearestEven_upper q _ hhi (.inl ?_)⟩
    rw [hbelow, habove]
    exact mul_lt_mul_of_pos_right (by linarith) hunit
  · refine ⟨_, by rw [hround, hr], f.nearestEven_lower q _ hlo (.inr ⟨?_, by omega⟩)⟩
    rw [hbelow, habove, show (k : ℚ) + 1 - t = t - k by linarith]
  · refine ⟨_, by rw [hround, hr, Nat.add_assoc], f.nearestEven_upper q _ hhi (.inr ⟨?_, by omega⟩)⟩
    rw [hbelow, habove, show (k : ℚ) + 1 - t = t - k by linarith]

/-- The distance of two signed magnitudes is a distance from the first magnitude. -/
theorem abs_signed_sub_signed (p q : Prop) [Decidable p] [Decidable q] (a b : ℚ) :
    |(if p then -a else a) - (if q then -b else b)| = |a - if p ↔ q then b else -b| := by
  by_cases hp : p <;> by_cases hq : q <;> simp only [hp, hq, if_true, if_false, iff_self, iff_true,
    iff_false, not_true, sub_neg_eq_add]
  · rw [neg_add_eq_sub, abs_sub_comm]
  · rw [← neg_add', abs_neg]

/-- Against the codes of the other sign, which lie past 0: only a zero can be as near. -/
theorem NearestEven.other_sign {f : FloatFormat} {q : ℚ} {g : Nat} (h : f.NearestEven q g)
    (hq : 0 ≤ q) (k : Nat) :
    |f.mag g - q| ≤ f.mag k + q ∧ (|f.mag g - q| = f.mag k + q → f.mag g ≠ -f.mag k → g % 2 = 0) := by
  obtain ⟨hle, htie⟩ := h 0
  rw [mag_zero, zero_sub, abs_neg, abs_of_nonneg hq] at hle htie
  have hk := f.mag_nonneg k
  refine ⟨by linarith, fun heq hne => ?_⟩
  have hk0 : f.mag k = 0 := by linarith
  refine htie (by linarith) fun hg => hne ?_
  rw [← hg, hk0, mag_zero, neg_zero]

/-- With signs: a nearest magnitude under the sign `p` of the operand is nearest among the codes of
either sign `r`. -/
theorem NearestEven.signed {f : FloatFormat} {q : ℚ} {g : Nat} (h : f.NearestEven q g)
    (hq : 0 ≤ q) (p r : Prop) [Decidable p] [Decidable r] (k : Nat) :
    let operand := if p then -q else q
    let nearest := if p then -f.mag g else f.mag g
    let other := if r then -f.mag k else f.mag k
    |nearest - operand| ≤ |other - operand| ∧
      (|nearest - operand| = |other - operand| → nearest ≠ other → g % 2 = 0) := by
  have hne_iff : ∀ x y : ℚ, x ≠ y ↔ |x - y| ≠ 0 := fun x y => by rw [abs_ne_zero, sub_ne_zero]
  intro operand nearest other
  rw [hne_iff]
  simp only [operand, nearest, other, abs_signed_sub_signed, iff_self, if_true, ← hne_iff]
  by_cases hs : r ↔ p
  · rw [if_pos hs, if_pos hs.symm]
    obtain ⟨hle, htie⟩ := h k
    exact ⟨hle, fun heq hne => htie heq fun hk => hne (by rw [hk])⟩
  · rw [if_neg hs, if_neg fun h => hs h.symm, sub_neg_eq_add,
      abs_of_nonneg (add_nonneg (f.mag_nonneg _) hq)]
    exact h.other_sign hq k

end FloatFormat

/-! ### Binary16 -/

theorem infCode_binary16 : binary16.infCode = 0x7C00 := rfl

theorem mag_binary16_maxFinite : binary16.mag 0x7BFF = 65504 := by decide +kernel

theorem mag_binary16_infCode : binary16.mag 0x7C00 = 65536 := by decide +kernel

/-- The pattern of 65520, halfway between the largest finite binary16 and the value one step up. -/
theorem mag_65520 : binary32.mag 0x477FF000 = 65520 := by decide +kernel

/-- From 65520 up a magnitude rounds to infinity. -/
theorem roundMag_binary16_overflow (q : ℚ) (h : 65520 ≤ q) : binary16.roundMag q = 0x7C00 := by
  have hhalf : binary16.roundMag 65520 = 0x7C00 := by decide +kernel
  have hmono := binary16.roundMag_mono 65520 q (by norm_num) h
  have hle := binary16.roundMag_le_inf q
  rw [infCode_binary16] at hle
  omega

/-- Below 65520 a magnitude rounds to a nearest finite code, an even one at a tie. -/
theorem roundMag_binary16_nearestEven (q : ℚ) (h0 : 0 ≤ q) (h : q < 65520) :
    binary16.roundMag q < 0x7C00 ∧ binary16.NearestEven q (binary16.roundMag q) := by
  obtain ⟨g, hg, hnear⟩ := binary16.roundMag_nearestEven (by decide) q h0
  have hlt : g < 0x7C00 := by
    by_contra hge
    have hmag := binary16.mag_strictMono.monotone (not_lt.1 hge)
    rw [mag_binary16_infCode] at hmag
    have hmax := (hnear 0x7BFF).1
    rw [mag_binary16_maxFinite, abs_of_nonneg (by linarith)] at hmax
    rcases le_abs.1 hmax with hmax | hmax <;> linarith
  rw [infCode_binary16, min_eq_left hlt.le] at hg
  rw [hg]
  exact ⟨hlt, hnear⟩

/-- The magnitude of a finite binary16 code has few enough significant bits for binary32. -/
theorem roundSigned_mag_binary16 (neg : Bool) (c : Nat) (hc : c < 0x7C00) :
    isFinite (roundSigned neg (binary16.mag c)) = true ∧
      binary32.mag (low (roundSigned neg (binary16.mag c))) = binary16.mag c := by
  obtain ⟨m, z, hm, hz, hz', he⟩ : ∃ (m : Nat) (z : Int), m < 2 ^ 24 ∧ -149 ≤ z ∧ z ≤ 104 ∧
      binary16.mag c = (m : ℚ) * pow2 z := by
    have hfrac : c % 2 ^ binary16.fracBits < 2 ^ 10 := Nat.mod_lt _ (by decide)
    by_cases hex : c / 2 ^ binary16.fracBits = 0
    · exact ⟨c % 2 ^ binary16.fracBits, binary16.ulpExp, by omega, by decide, by decide, by
        rw [FloatFormat.mag, FloatFormat.units, if_pos hex]⟩
    · refine ⟨_, _, ?_, ?_, ?_, binary16.mag_normal c hex⟩ <;>
        simp only [show binary16.ulpExp = -24 from rfl, show binary16.fracBits = 10 from rfl] at * <;>
        omega
  rw [he]
  exact roundSigned_exact neg m z hm hz hz'

/-- The value of a finite binary16 code, from its sign bit and its sign-free code. -/
theorem ratOf_half32 (k : Nat) (hk : k < 0x10000) (hfin : k % 0x8000 < 0x7C00) :
    ratOf (half32 k) =
      if 0x8000 ≤ k then -binary16.mag (k % 0x8000) else binary16.mag (k % 0x8000) := by
  have hsplit : (BitVec.ofNat 16 k).toNat =
      (if decide (0x8000 ≤ k) then 2 ^ (binary16.fracBits + binary16.expBits) else 0) +
        k % 0x8000 := by
    rw [BitVec.toNat_ofNat, show 2 ^ (binary16.fracBits + binary16.expBits) = 0x8000 from rfl]
    simp only [decide_eq_true_eq]
    split <;> omega
  have hval := binary16.value_finite (decide (0x8000 ≤ k)) (k % 0x8000) hfin
  have hhalf : half32 k = roundSigned (decide (0x8000 ≤ k)) (binary16.mag (k % 0x8000)) := by
    unfold half32 f16ToF32
    rw [hsplit, hval]
  obtain ⟨hf, hm⟩ := roundSigned_mag_binary16 (decide (0x8000 ≤ k)) (k % 0x8000) hfin
  rw [hhalf, ratOf_finite _ hf, hm, signbit_roundSigned]
  simp only [decide_eq_true_eq]

/-! ### The conversion to binary16, by the class of its operand -/

theorem f32ToF16_nan (z : F32) (h : isNaN z = true) : f32ToF16 z = Config.qnan16 := by
  unfold f32ToF16; rw [val_nan z h]

theorem f32ToF16_finite_toNat (z : F32) (h : isFinite z = true) :
    (f32ToF16 z).toNat =
      (if signbit z then 0x8000 else 0) + binary16.roundMag (binary32.mag (low z)) := by
  have hle := binary16.roundMag_le_inf (binary32.mag (low z))
  rw [infCode_binary16] at hle
  unfold f32ToF16
  rw [val_finite z h]
  simp only [BitVec.toNat_ofNat]
  split <;> omega

/-- From 65520 outwards the result is the infinity of the operand's sign. -/
theorem f32ToF16_overflow_toNat (z : F32) (hnan : isNaN z = false) (h : 0x477FF000 ≤ low z) :
    (f32ToF16 z).toNat = if signbit z then 0xFC00 else 0x7C00 := by
  rcases class_cases z with hf | hi | hn
  · have hmag := binary32.mag_strictMono.monotone h
    rw [mag_65520] at hmag
    rw [f32ToF16_finite_toNat z hf, roundMag_binary16_overflow _ hmag]
    split <;> rfl
  · unfold f32ToF16
    rw [val_infinite z hi]
    simp only
    split <;> rfl
  · simp [hnan] at hn

/-! ### The saturating cast -/

theorem natAbs_key (x : F32) : (key x).natAbs = low x := by
  rw [key_eq]; split <;> simp

theorem signbit_of_key_pos (x : F32) (h : 0 < key x) : signbit x = false := by
  by_contra hs
  rw [key_eq, if_pos (by simpa using hs)] at h
  omega

theorem signbit_of_key_neg (x : F32) (h : key x < 0) : signbit x = true := by
  by_contra hs
  rw [key_eq, if_neg hs] at h
  omega

theorem clampf_eq_lo (t lo hi : F32) (h : fle t lo = true) : clampf t lo hi = lo := by
  obtain ⟨-, -, hkey⟩ := (fle_iff _ _).1 h
  rw [clampf, if_neg fun hlt => absurd ((flt_iff _ _).1 hlt).2.2 (not_lt.2 hkey)]

theorem clampf_eq_hi (t lo hi : F32) (hlohi : flt lo hi = true) (h : fle hi t = true) :
    clampf t lo hi = hi := by
  obtain ⟨hlo, -, hkey⟩ := (flt_iff _ _).1 hlohi
  obtain ⟨-, ht, hkey'⟩ := (fle_iff _ _).1 h
  rw [clampf, if_pos ((flt_iff _ _).2 ⟨hlo, ht, hkey.trans_le hkey'⟩),
    if_neg fun hlt => absurd ((flt_iff _ _).1 hlt).2.2 (not_lt.2 hkey')]

theorem clampf_eq_self (t lo hi : F32) (hlo : flt lo t = true) (hhi : flt t hi = true) :
    clampf t lo hi = t := by
  rw [clampf, if_pos hlo, if_pos hhi]

/-- A depth's range, a count of at most 16 bits, is exact in binary32. -/
theorem fl32Int_range (bd : BitDepth) :
    isFinite (fl32Int bd.range) = true ∧ ratOf (fl32Int bd.range) = bd.range := by
  have h := fl32Int_exact bd.range (by cases bd <;> decide)
  exact_mod_cast h

theorem castTo_of_integer_depth (bd : BitDepth) (z : F32) (h : bd.isFloat = false) :
    castTo bd z = if isNaN z then 0 else (fround (clampf z zero (fl32Int bd.range))).toNat := by
  match bd, h with
  | .u8, _ | .u10, _ | .u12, _ | .u16, _ => rfl

theorem fround_of_nonneg (x : F32) (h : 0 ≤ ratOf x) : fround x = roundTiesEven (ratOf x) := by
  unfold fround; rw [if_neg (not_lt.2 h)]

/-- The cast of an integer depth (R193): 0 up to 0, the range from the range up, and between them a
nearest integer. -/
theorem castTo_integer_depth (bd : BitDepth) (z : F32) (hbd : bd.isFloat = false) :
    (isNaN z = true → castTo bd z = 0) ∧
    (fle z 0#32 = true → castTo bd z = 0) ∧
    (fle (fl32Int bd.range) z = true → castTo bd z = bd.range) ∧
    (flt 0#32 z = true → flt z (fl32Int bd.range) = true →
      castTo bd z = roundTiesEven (ratOf z) ∧ 0 ≤ ratOf z) := by
  rw [castTo_of_integer_depth bd z hbd]
  obtain ⟨hfin, hval⟩ := fl32Int_range bd
  have hzero_lt : flt zero (fl32Int bd.range) = true := by
    refine (flt_iff _ _).2 ⟨by decide, isNaN_of_isFinite _ hfin, ?_⟩
    rw [key_lt_iff _ _ isFinite_zero hfin, ratOf_zero, hval]
    cases bd <;> norm_num [BitDepth.range]
  refine ⟨fun h => by rw [if_pos h], fun h => ?_, fun h => ?_, fun hlo hhi => ?_⟩
  · have hnan := ((fle_iff _ _).1 h).1
    rw [if_neg (by simp [hnan]), clampf_eq_lo z zero _ h, fround_of_nonneg _ ratOf_zero.ge,
      ratOf_zero]
    rfl
  · have hnan := ((fle_iff _ _).1 h).2.1
    rw [if_neg (by simp [hnan]), clampf_eq_hi z _ _ hzero_lt h,
      fround_of_nonneg _ (by rw [hval]; positivity), hval, roundTiesEven_natCast, Int.toNat_natCast]
  · obtain ⟨-, hnan, hkeylo⟩ := (flt_iff _ _).1 hlo
    obtain ⟨-, -, hkeyhi⟩ := (flt_iff _ _).1 hhi
    have hzfin : isFinite z = true := by
      have hzero : key 0#32 = 0 := by decide
      rw [isFinite_iff, ← natAbs_key] at hfin ⊢
      omega
    have hpos : 0 ≤ ratOf z := by
      have := (key_lt_iff _ _ isFinite_zero hzfin).1 hkeylo
      rw [ratOf_zero] at this
      exact this.le
    rw [if_neg (by simp [hnan]), clampf_eq_self z zero _ hlo hhi, fround_of_nonneg _ hpos,
      Int.toNat_natCast]
    exact ⟨rfl, hpos⟩

theorem castTo_f16 (z : F32) : castTo .f16 z = (f32ToF16 z).toNat := rfl

/-- Between −65520 and 65520 the cast to binary16 is a nearest finite code of the operand's sign. -/
theorem castTo_f16_nearest (z : F32) (hfin : low z < 0x477FF000) :
    castTo .f16 z % 0x8000 < 0x7C00 ∧ castTo .f16 z / 0x8000 = (if signbit z then 1 else 0) ∧
      ∀ k : Nat, k < 0x10000 → k % 0x8000 < 0x7C00 →
        |ratOf (half32 (castTo .f16 z)) - ratOf z| ≤ |ratOf (half32 k) - ratOf z| ∧
          (|ratOf (half32 (castTo .f16 z)) - ratOf z| = |ratOf (half32 k) - ratOf z| →
            ratOf (half32 (castTo .f16 z)) ≠ ratOf (half32 k) → castTo .f16 z % 2 = 0) := by
  have hf : isFinite z = true := by rw [isFinite_iff]; omega
  have hq0 := binary32.mag_nonneg (low z)
  have hq := binary32.mag_strictMono hfin
  rw [mag_65520] at hq
  have hcast := (castTo_f16 z).trans (f32ToF16_finite_toNat z hf)
  have hzval := ratOf_finite z hf
  obtain ⟨hg, hnear⟩ := roundMag_binary16_nearestEven _ hq0 hq
  generalize binary32.mag (low z) = q at *
  generalize binary16.roundMag q = g at *
  have hmod : castTo .f16 z % 0x8000 = g := by rw [hcast]; split <;> omega
  have hdiv : castTo .f16 z / 0x8000 = if signbit z then 1 else 0 := by
    rw [hcast]; split <;> omega
  have hlt : castTo .f16 z < 0x10000 := by rw [hcast]; split <;> omega
  have hval := ratOf_half32 _ hlt (by omega)
  have hsign : 0x8000 ≤ castTo .f16 z ↔ signbit z = true := by
    rw [hcast]; split <;> simp_all
  have hparity : castTo .f16 z % 2 = g % 2 := by omega
  simp only [hsign, hmod] at hval
  refine ⟨by omega, hdiv, fun k hk hkfin => ?_⟩
  rw [hval, hzval, ratOf_half32 k hk hkfin, hparity]
  exact hnear.signed hq0 _ _ _

/-- Settles O29: an integer depth by the clamp and the rounding of R193, binary16 by rounding to a
nearest code on each side of the overflow threshold 65520. -/
theorem castSaturates : Obligations.CastSaturates := by
  obtain ⟨hkeypos, hkeyneg⟩ :
      key 0x477FF000#32 = 0x477FF000 ∧ key 0xC77FF000#32 = -0x477FF000 := by decide
  refine ⟨fun bd z hbd => ?integer, fun z => ⟨rfl, fun h => ?nan, fun h => ?above, fun h => ?below,
    fun hlo hhi => ?between⟩⟩
  case integer =>
    obtain ⟨hnan, hlo, hhi, hmid⟩ := castTo_integer_depth bd z hbd
    refine ⟨hnan, hlo, hhi, fun h0 hr => ?_⟩
    obtain ⟨hcast, hnonneg⟩ := hmid h0 hr
    rw [hcast]
    exact roundTiesEven_near _ hnonneg
  case nan => rw [castTo_f16, f32ToF16_nan z h]
  case above =>
    obtain ⟨-, hnan, hkey⟩ := (fle_iff _ _).1 h
    have hsign := signbit_of_key_pos z (by omega)
    have hlow := natAbs_key z
    rw [castTo_f16, f32ToF16_overflow_toNat z hnan (by omega), hsign, if_neg Bool.false_ne_true]
  case below =>
    obtain ⟨hnan, -, hkey⟩ := (fle_iff _ _).1 h
    have hsign := signbit_of_key_neg z (by omega)
    have hlow := natAbs_key z
    rw [castTo_f16, f32ToF16_overflow_toNat z hnan (by omega), hsign, if_pos rfl]
  case between =>
    obtain ⟨-, -, hkeylo⟩ := (flt_iff _ _).1 hlo
    obtain ⟨-, -, hkeyhi⟩ := (flt_iff _ _).1 hhi
    have hlow := natAbs_key z
    exact castTo_f16_nearest z (by omega)

end Sys2Proof.Machine
end

section
/-!
What a command does to the state, said once for all 25 of them (10_state.md R32 to R35;
60_exceptions.md R470), and the frame of every command, which follows from it.
-/
namespace Sys2Proof.Machine

open Sys2Proof.Safety

/-! ### What a command can do -/

/-- What a command makes of the state before `cp`, STATUS and the error registers follow: nothing,
its destinations written, CFG written by WRCFG, its write target stored to, or its unit configured or
left open by an UPD. -/
inductive Effect (s : State) : Instr → State → Prop
  | none (i : Instr) : Effect s i s
  | vector {i : Instr} {u : State} (hu : Effect s i u) (r : VReg) (q : Quad)
      (hr : r ∈ destinations i) : Effect s i (u.setVreg r q)
  | cfg (va : VReg) (index : BitVec 4) (c : Cfg) : Effect s (.wrcfg va index) { s with cfg := c }
  | store (i : Instr) (a n : Nat) (m : Memory) (htarget : writeTarget i s = (a, n))
      (hbyte : ∀ x, ¬(a ≤ x ∧ x < a + n) → m.byte x = s.mem.byte x)
      (hwf : s.mem.wf = true → m.wf = true) :
      Effect s i { s with mem := m, ws := s.ws.add a (a + n) }
  | mat (unit : MatUnit) (free : Nat) : Effect s .updMat { s with mat := unit, free := free }
  | log (unit : LogUnit) (free : Nat) : Effect s .updLog { s with log := unit, free := free }
  | lut (unit : LutUnit) (free : Nat) (hok : lutOk unit = true) :
      Effect s .updLut { s with lut := unit, free := free }
  | crv (unit : CrvUnit) (free : Nat) : Effect s .updCrv { s with crv := unit, free := free }

/-- How a command ends after its effect: it completes, it is HALT, or it enters an error. -/
def Ends (i : Instr) (u t : State) : Prop :=
  t = u.advance ∨ (i = .halt ∧ t = { u with status := u.status.halted }) ∨ ∃ e, t = errorEntry e u

/-- `t` is a possible outcome of the command: an effect, then an end. -/
def Answers (i : Instr) (s t : State) : Prop := ∃ u, Effect s i u ∧ Ends i u t

theorem Effect.answers_advance {i : Instr} {s u : State} (h : Effect s i u) :
    Answers i s u.advance := ⟨u, h, .inl rfl⟩

theorem Effect.answers_error {i : Instr} {s u : State} (h : Effect s i u) (e : Error) :
    Answers i s (errorEntry e u) := ⟨u, h, .inr (.inr ⟨e, rfl⟩)⟩

/-- A checked command whose passing result is an effect. -/
theorem finish_answers {i : Instr} {c : Check State} {s t : State} (h : finish c s = .next t)
    (hc : ∀ u, c = .ok u → Effect s i u) : Answers i s t := by
  obtain ⟨u, hu, rfl⟩ | ⟨e, -, rfl⟩ := finish_next c s t h
  · exact (hc u hu).answers_advance
  · exact (Effect.none i).answers_error e

theorem loadVector_effect (vd : VReg) (imm : BitVec 14) (s u : State)
    (h : loadVector vd imm s = .ok u) : Effect s (.vld vd imm) u := by
  obtain ⟨q, hq⟩ | ⟨e, he, -⟩ := loadVector_cases vd imm s
  · cases hq.symm.trans h
    exact .vector (.none _) vd q (by simp [destinations])
  · cases he.symm.trans h

theorem storeVector_effect (va : VReg) (imm : BitVec 14) (s u : State)
    (h : storeVector va imm s = .ok u) : Effect s (.vst va imm) u := by
  obtain ⟨ha, hb, hq⟩ | ⟨e, he, -⟩ := storeVector_cases va imm s
  · cases hq.symm.trans h
    have hle := ((inBounds_iff _ _ _).1 hb).1
    exact .store _ (storeAddr s imm) 16 _ (by simp [writeTarget, ha, hb])
      (fun x hx => byte_writeQuad_outside _ _ _ _ (by omega)) fun hm => wf_writeQuad _ _ _ hm hle
  · cases he.symm.trans h

theorem writeCfg_effect (va : VReg) (index : BitVec 4) (s u : State)
    (h : writeCfg va index s = .ok u) : Effect s (.wrcfg va index) u := by
  obtain ⟨c, -, hc⟩ | ⟨-, e, he, -⟩ := writeCfg_cases va index s
  · cases hc.symm.trans h
    exact .cfg va index c
  · cases he.symm.trans h

theorem unitVector_effect (id : UnitId) (info : UnitInfo) (f : Quad → Lanes ChanOut) (vd va : VReg)
    (s u : State) (h : unitVector info f vd va s = .ok u) : Effect s (vectorOf id vd va) u := by
  obtain ⟨q, hq⟩ | ⟨e, he, -⟩ := unitVector_cases info f vd va s
  · cases hq.symm.trans h
    exact .vector (.none _) vd q (by cases id <;> simp [destinations, vectorOf])
  · cases he.symm.trans h

theorem applyFrame_effect (id : UnitId) (f : Quad → Lanes ChanOut) (s u : State)
    (h : applyFrame (infoOf id s) f s = .ok u) : Effect s (applyOf id) u := by
  obtain ⟨n, hn, hq⟩ | ⟨e, -, he⟩ := applyFrame_cases (infoOf id s) f s
  · cases hq.symm.trans h
    refine .store _ _ _ _ (by rw [writeTarget_apply, hn])
      (fun x hx => applyPixels_outside _ _ _ _ _ _ _ _ ?_) fun hm => wf_applyPixels _ _ _ _ _ _ _ hm ?_
    · simp only [Nat.mul_zero, Nat.zero_mul, Nat.add_zero, Nat.zero_add]; omega
    · rw [Nat.zero_add]; exact applyChecks_out_le _ s n hn
  · cases he.symm.trans h

/-- An unconfigured LUT unit meets the invariant whatever its fields hold. -/
theorem lutOk_of_not_valid (unit : LutUnit) : lutOk { unit with valid := false } = true := rfl

theorem execUpdMat_answers (s t : State) (h : execUpdMat s = .next t) : Answers .updMat s t := by
  unfold execUpdMat at h
  split at h <;> cases h
  · exact (Effect.mat _ s.free).answers_advance
  · exact (Effect.mat _ _).answers_error _

theorem execUpdLog_answers (s t : State) (h : execUpdLog s = .next t) : Answers .updLog s t := by
  unfold execUpdLog at h
  split at h <;> cases h
  · exact (Effect.log _ _).answers_advance
  · exact (Effect.log _ _).answers_error _

theorem execUpdLut_answers (s t : State) (h : execUpdLut s = .next t) : Answers .updLut s t := by
  unfold execUpdLut at h
  split at h
  · next unit hunit => cases h; exact (Effect.lut unit s.free (configureLut_ok s unit hunit)).answers_advance
  · cases h; exact (Effect.lut _ _ (lutOk_of_not_valid _)).answers_error _

theorem execUpdCrv_answers (s t : State) (h : execUpdCrv s = .next t) : Answers .updCrv s t := by
  unfold execUpdCrv at h
  split at h <;> cases h
  · exact (Effect.crv _ _).answers_advance
  · exact (Effect.crv _ _).answers_error _

/-- A command that writes one register and cannot fail. -/
theorem setVreg_answers {i : Instr} {r : VReg} {q : Quad} {s t : State}
    (h : (.next (s.setVreg r q).advance : Result) = .next t) (hr : r ∈ destinations i) :
    Answers i s t := by
  cases h
  exact ((Effect.none i).vector r q hr).answers_advance

/-- Every next state of a command is an effect of it followed by an end. -/
theorem exec_answers (i : Instr) (s t : State) (h : exec i s = .next t) : Answers i s t := by
  have hd {vd : VReg} {l : List VReg} : vd ∈ vd :: l := List.mem_cons_self
  cases i with
  | nop => cases h; exact (Effect.none _).answers_advance
  | halt => cases h; exact ⟨s, .none _, .inr (.inl ⟨rfl, rfl⟩)⟩
  | wrcfg va index => exact finish_answers h (writeCfg_effect va index s)
  | vld vd imm => exact finish_answers h (loadVector_effect vd imm s)
  | vst va imm => exact finish_answers h (storeVector_effect va imm s)
  | vlog2 vd va => exact setVreg_answers h hd
  | vexp2 vd va => exact setVreg_answers h hd
  | vpow vd va vb => exact setVreg_answers h hd
  | vsin vd va => exact setVreg_answers h hd
  | vcos vd va => exact setVreg_answers h hd
  | vsincos vd va vb =>
    cases h
    exact (((Effect.none _).vector vd _ hd).vector vb _ (by simp [destinations])).answers_advance
  | vatan vd va => exact setVreg_answers h hd
  | vatan2 vd va vb => exact setVreg_answers h hd
  | updMat => exact execUpdMat_answers s t h
  | applyMat => exact finish_answers h (applyFrame_effect .mat _ s)
  | vmat vd va => exact finish_answers h (unitVector_effect .mat _ _ vd va s)
  | updLog => exact execUpdLog_answers s t h
  | applyLog => exact finish_answers h (applyFrame_effect .log _ s)
  | vlogk vd va => exact finish_answers h (unitVector_effect .log _ _ vd va s)
  | updLut => exact execUpdLut_answers s t h
  | applyLut => exact finish_answers h (applyFrame_effect .lut _ s)
  | vlut vd va => exact finish_answers h (unitVector_effect .lut _ _ vd va s)
  | updCrv => exact execUpdCrv_answers s t h
  | applyCrv => exact finish_answers h (applyFrame_effect .crv _ s)
  | vcrv vd va => exact finish_answers h (unitVector_effect .crv _ _ vd va s)

/-! ### The frame of a command -/

/-- The state `t` agrees with `s` outside what the command `i` may change. -/
structure Framed (i : Instr) (s t : State) : Prop where
  vregs : ∀ r : VReg, r ∉ destinations i → t.v[r] = s.v[r] ∧ t.vw[r] = s.vw[r]
  cfg : (∀ va index, i ≠ .wrcfg va index) → t.cfg = s.cfg
  mat : i ≠ .updMat → t.mat = s.mat
  log : i ≠ .updLog → t.log = s.log
  lut : i ≠ .updLut → t.lut = s.lut
  crv : i ≠ .updCrv → t.crv = s.crv
  memory : ∀ a, ¬storesTo i s a → t.mem.byte a = s.mem.byte a ∧ t.ws.mem a = s.ws.mem a
  cmdPtr : t.cmdPtr = s.cmdPtr
  memMap : t.memMap = s.memMap
  inputs : t.inputs = s.inputs
  footprint : t.footprint = s.footprint

theorem Framed.refl (i : Instr) (s : State) : Framed i s s where
  vregs _ _ := ⟨rfl, rfl⟩
  cfg _ := rfl
  mat _ := rfl
  log _ := rfl
  lut _ := rfl
  crv _ := rfl
  memory _ _ := ⟨rfl, rfl⟩
  cmdPtr := rfl
  memMap := rfl
  inputs := rfl
  footprint := rfl

theorem Effect.framed {i : Instr} {s u : State} (h : Effect s i u) : Framed i s u := by
  induction h with
  | none i => exact .refl i s
  | @vector i u hu r q hr ih =>
    refine { ih with vregs := fun r' hr' => ?_ }
    have hne : r' ≠ r := fun he => hr' (he ▸ hr)
    rw [← vreg_eq, vreg_setVreg_ne _ _ _ _ hne, vw_setVreg_ne _ _ _ _ hne]
    exact ih.vregs r' hr'
  | cfg va index c => exact { Framed.refl _ s with cfg := fun h => absurd rfl (h va index) }
  | store i a n m htarget hbyte hwf =>
    refine { Framed.refl i s with memory := fun x hx => ?_ }
    simp only [storesTo, htarget] at hx
    refine ⟨hbyte x hx, ?_⟩
    rw [Ranges.mem_add, ← Bool.decide_and, decide_eq_false hx, Bool.or_false]
  | mat unit free => exact { Framed.refl _ s with mat := fun h => absurd rfl h }
  | log unit free => exact { Framed.refl _ s with log := fun h => absurd rfl h }
  | lut unit free hok => exact { Framed.refl _ s with lut := fun h => absurd rfl h }
  | crv unit free => exact { Framed.refl _ s with crv := fun h => absurd rfl h }

/-- The end of a command touches `cp`, STATUS and the error registers only. -/
theorem Framed.of_ends {i : Instr} {s u t : State} (h : Framed i s u) (he : Ends i u t) :
    Framed i s t := by
  obtain rfl | ⟨-, rfl⟩ | ⟨e, rfl⟩ := he
  · exact { h with }
  · exact { h with }
  · exact { h with }

/-- Settles O58: the frame of a command's effect, which its end does not widen. -/
theorem commandFrame : Obligations.CommandFrame := by
  intro i s t h
  obtain ⟨u, heffect, hends⟩ := exec_answers i s t h
  obtain ⟨hv, hcfg, hmat, hlog, hlut, hcrv, hmem, hptr, hmap, hin, hfoot⟩ :=
    heffect.framed.of_ends hends
  exact ⟨hv, hcfg, hmat, hlog, hlut, hcrv, hmem, hptr, hmap, hin, hfoot⟩

end Sys2Proof.Machine
end

section
/-!
The host's side of the register block (10_state.md R37 to R45; 47_control.md R441): what each
register write does and what a read then gives.
-/
namespace Sys2Proof.Machine

theorem step_host (s : State) (m : HostMove) (rest : List Input) (h : s.inputs = .host m :: rest) :
    step s = hostMove m { s with inputs := rest } := by
  unfold step; rw [h]

theorem step_writeReg (s : State) (index : Fin 64) (v : Word) (rest : List Input)
    (h : s.inputs = .host (.writeReg index v) :: rest) :
    step s = .next (hostWrite index v { s with inputs := rest }) :=
  step_host s _ rest h

theorem hostWrite_idle (index : Fin 64) (v : Word) (s : State) (h : s.status.busy = false) :
    hostWrite index v s = hostWriteIdle index v s := by
  unfold hostWrite; rw [h]; rfl

theorem hostWrite_busy (index : Fin 64) (v : Word) (s : State) (h : s.status.busy = true) :
    hostWrite index v s = if index.val = 1 then clearStatus v s else s := by
  unfold hostWrite; rw [h]; rfl

/-- A write to STATUS acts in a run as it does while idle (10_state.md R37). -/
theorem hostWrite_status (v : Word) (s : State) : hostWrite 1 v s = clearStatus v s := by
  cases h : s.status.busy with
  | true => rw [hostWrite_busy _ _ _ h]; rfl
  | false => rw [hostWrite_idle _ _ _ h]; rfl

/-! ### STATUS -/

theorem hostRead_status (s : State) : hostRead s 1 = s.status.word := rfl

/-- STATUS bit by bit (10_state.md R39). -/
theorem Status.word_getLsbD (st : Status) (i : Nat) :
    st.word.getLsbD i =
      if i = 0 then st.busy else if i = 1 then st.done else if i = 2 then st.err
      else decide (8 ≤ i) && st.errCode.getLsbD (i - 8) := by
  have happend : st.word.getLsbD i =
      (0#16 ++ st.errCode ++ 0#5 ++ BitVec.ofBool st.err ++ BitVec.ofBool st.done ++
        BitVec.ofBool st.busy).getLsbD i := rfl
  rw [happend]
  simp only [BitVec.getLsbD_append]
  match i with
  | 0 | 1 | 2 | 3 | 4 | 5 | 6 | 7 => simp
  | k + 8 => simpa using BitVec.lt_of_getLsbD

theorem Status.word_errCode (st : Status) : st.word.extractLsb' 8 8 = st.errCode := by
  ext i hi
  rw [BitVec.getElem_extractLsb', st.word_getLsbD, if_neg (by omega), if_neg (by omega),
    if_neg (by omega)]
  simp [BitVec.getLsbD_eq_getElem, hi]

/-- The bits of STATUS above ERR read 0 but for those of ERRCODE. -/
theorem Status.word_reserved (st : Status) (a n : Nat) (ha : 3 ≤ a) (h : a + n ≤ 8 ∨ 16 ≤ a) :
    st.word.extractLsb' a n = 0 := by
  ext i hi
  rw [BitVec.getElem_extractLsb', st.word_getLsbD, if_neg (by omega), if_neg (by omega),
    if_neg (by omega)]
  obtain h | h := h
  · simp; omega
  · rw [BitVec.getLsbD_of_ge _ _ (by omega)]; simp

theorem Status.clearBits_eq (st : Status) (v : Word) :
    st.clearBits v =
      { busy := st.busy
        done := if v.getLsbD 1 then false else st.done
        err := if v.getLsbD 2 then false else st.err
        errCode := if v.getLsbD 2 then 0 else st.errCode } := by
  unfold Status.clearBits
  cases v.getLsbD 1 <;> cases v.getLsbD 2 <;> simp

/-- Settles O11: the bits of STATUS as `Status.word` joins them, and its write-one-to-clear bits. -/
theorem statusRegister : Obligations.StatusRegister := by
  intro s v rest
  rw [hostRead_status]
  have hbit := s.status.word_getLsbD
  have hzero := s.status.word_reserved
  refine ⟨⟨hbit 0, hbit 1, hbit 2, s.status.word_errCode, hzero 3 5 (by omega) (by omega),
    hzero 16 16 (by omega) (by omega)⟩, fun h => ?_⟩
  rw [step_writeReg s 1 v rest h, hostWrite_status, clearStatus, Status.clearBits_eq]

/-! ### CTRL -/

/-- The footprint of a run that is over is empty. -/
theorem runRegions_idle (fuel : Nat) (s : State) (h : s.status.busy = false) :
    runRegions fuel s = [] := by
  cases fuel with
  | zero => rfl
  | succ n => rw [runRegions, h]; rfl

theorem writeCtrl_ignored (v : Word) (s : State) (h : v.getLsbD 0 = false) : writeCtrl v s = s := by
  unfold writeCtrl; rw [h]; rfl

theorem writeCtrl_start (v : Word) (s : State) (h : v.getLsbD 0 = true) :
    writeCtrl v s = { start s with footprint := runRegions runBound (start s) } := by
  unfold writeCtrl; rw [if_pos h]

theorem writeCtrl_aligned (v : Word) (s : State) (h : v.getLsbD 0 = true)
    (ha : s.cmdPtr.toNat % 4 = 0) :
    writeCtrl v s =
      { s with
        status := Status.started
        ws := []
        cp := s.cmdPtr.setWidth 33
        footprint := runRegions runBound
          { s with status := Status.started, ws := [], cp := s.cmdPtr.setWidth 33 } } := by
  rw [writeCtrl_start v s h, start_aligned s ha]

theorem writeCtrl_misaligned (v : Word) (s : State) (h : v.getLsbD 0 = true)
    (ha : s.cmdPtr.toNat % 4 ≠ 0) :
    writeCtrl v s =
      { s with
        status := Status.started.failed ErrName.align.code
        ws := []
        footprint := []
        errCp := s.cmdPtr
        errInfo := s.cmdPtr } := by
  rw [writeCtrl_start v s h, runRegions_idle, start_misaligned s ha]
  · rfl
  · rw [start_misaligned s ha]; rfl

/-- Settles O9: CTRL reads 0, and its write by BUSY, bit 0 and the alignment of CMD_PTR. -/
theorem hostStart : Obligations.HostStart := by
  intro s v rest h
  have hstep := step_writeReg s 0 v rest h
  have hbusy (hb : s.status.busy = true) : step s = .next { s with inputs := rest } :=
    hstep.trans (congrArg _ (hostWrite_busy 0 v { s with inputs := rest } hb))
  have hidle (hb : s.status.busy = false) :
      step s = .next (writeCtrl v { s with inputs := rest }) :=
    hstep.trans (congrArg _ (hostWrite_idle 0 v { s with inputs := rest } hb))
  refine ⟨rfl, fun hignored => ?ignored, fun hb hv ha => ?aligned, fun hb hv ha => ?misaligned⟩
  case ignored =>
    cases hb : s.status.busy with
    | true => exact hbusy hb
    | false =>
      have hv : v.getLsbD 0 = false := hignored.resolve_left (by simp [hb])
      rw [hidle hb, writeCtrl_ignored v _ hv]
  case aligned => exact (hidle hb).trans (congrArg _ (writeCtrl_aligned v _ hv ha))
  case misaligned => exact (hidle hb).trans (congrArg _ (writeCtrl_misaligned v _ hv ha))

/-! ### The data registers -/

/-- The registers that a host write sets: CMD_PTR and the six of CFG (10_state.md R37). -/
def WritableData (index : Fin 64) : Prop := index.val = 2 ∨ (5 ≤ index.val ∧ index.val ≤ 10)

/-- A write to any register but CTRL and STATUS reaches CMD_PTR and CFG only. -/
theorem hostWriteIdle_data (index : Fin 64) (v : Word) (s : State) (h : 2 ≤ index.val) :
    hostWriteIdle index v s =
      { s with
        cmdPtr := (hostWriteIdle index v s).cmdPtr
        cfg := (hostWriteIdle index v s).cfg } := by
  unfold hostWriteIdle
  split
  · omega
  · omega
  all_goals rfl

/-- A write to a read-only or reserved register does nothing (10_state.md R37, R41, R42). -/
theorem hostWriteIdle_readOnly (index : Fin 64) (v : Word) (s : State) (h : 2 ≤ index.val)
    (hw : ¬WritableData index) : hostWriteIdle index v s = s := by
  unfold hostWriteIdle
  unfold WritableData at hw
  split
  on_goal 10 => rfl
  all_goals omega

/-- The words of the block in the order of their offsets (10_state.md R37). -/
def blockWords (s : State) : List Word :=
  [0, s.status.word, s.cmdPtr, s.errCp, s.errInfo, s.cfg.inPtr, s.cfg.outPtr, s.cfg.nPix, s.cfg.inBd,
    s.cfg.outBd, s.cfg.opdataPtr]

theorem hostRead_eq_blockWords (s : State) (index : Fin 64) :
    hostRead s index = (blockWords s).getD index.val 0 := by
  obtain ⟨i, hi⟩ := index
  match i, hi with
  | 0, _ | 1, _ | 2, _ | 3, _ | 4, _ | 5, _ | 6, _ | 7, _ | 8, _ | 9, _ | 10, _ => rfl
  | _ + 11, _ => rfl

theorem hostRead_reserved (s : State) (index : Fin 64) (h : 11 ≤ index.val) :
    hostRead s index = 0 := by
  rw [hostRead_eq_blockWords, List.getD_eq_default _ _ h]

theorem blockWords_hostWriteIdle (index : Fin 64) (v : Word) (s : State) (hw : WritableData index) :
    blockWords (hostWriteIdle index v s) = (blockWords s).set index.val v := by
  obtain ⟨i, hi⟩ := index
  match i, hi, hw with
  | 2, _, _ | 5, _, _ | 6, _, _ | 7, _, _ | 8, _, _ | 9, _, _ | 10, _, _ => rfl
  | 0, _, hw | 1, _, hw | 3, _, hw | 4, _, hw | _ + 11, _, hw =>
    unfold WritableData at hw; simp only at hw; omega

/-- A read after a write of a data register: the value there, and every other register as before. -/
theorem hostRead_hostWriteIdle (index j : Fin 64) (v : Word) (s : State) (hw : WritableData index) :
    hostRead (hostWriteIdle index v s) j = if j = index then v else hostRead s j := by
  have hlt : index.val < (blockWords s).length := by
    unfold WritableData at hw
    simp only [blockWords, List.length_cons, List.length_nil]
    omega
  rw [hostRead_eq_blockWords, hostRead_eq_blockWords, blockWords_hostWriteIdle index v s hw,
    List.getD_eq_getElem?_getD, List.getD_eq_getElem?_getD]
  by_cases h : j = index
  · rw [if_pos h, h, List.getElem?_set_self hlt, Option.getD_some]
  · rw [if_neg h, List.getElem?_set_ne fun he => h (Fin.ext he.symm)]

/-- Settles O12: a data register by what a read gives after the write, the other registers by what
their write leaves alone. -/
theorem hostRegisterWrite : Obligations.HostRegisterWrite := by
  intro s index v rest hidle h
  have hstep : step s = .next (hostWriteIdle index v { s with inputs := rest }) :=
    (step_writeReg s index v rest h).trans
      (congrArg _ (hostWrite_idle index v { s with inputs := rest } hidle))
  refine ⟨fun hw => ?data, fun hro => ?readOnly, hostRead_reserved s index⟩
  case data =>
    have hread (j : Fin 64) := hostRead_hostWriteIdle index j v { s with inputs := rest } hw
    rw [hostWriteIdle_data index v _ (by omega)] at hread hstep
    refine ⟨_, _, hstep, ?_, fun j hj => ?_⟩
    · exact (hread index).trans (if_pos rfl)
    · exact (hread j).trans (if_neg hj)
  case readOnly =>
    rw [hstep, hostWriteIdle_readOnly index v _ (by omega) (by unfold WritableData; omega)]

end Sys2Proof.Machine
end

section
/-!
The invariant of the machine (`Safety.inv`): the reset state meets it, and commands, engine turns and
host moves keep it.
-/
namespace Sys2Proof.Machine

open Sys2Proof.Safety

/-! ### The invariant by its parts -/

theorem inv_iff (s : State) :
    inv s = true ↔ s.mem.wf = true ∧ Ranges.wf s.memMap = true ∧ Ranges.wf s.ws = true ∧
      statusOk s.status = true ∧ cpOk s.cp = true ∧ lutOk s.lut = true := by
  simp only [inv, Bool.and_eq_true, and_assoc]

theorem statusOk_of_inv {s : State} (h : inv s = true) : statusOk s.status = true := by
  obtain ⟨-, -, -, hstatus, -, -⟩ := (inv_iff s).1 h
  exact hstatus

theorem statusOk_iff (st : Status) :
    statusOk st = true ↔ (st.done = false ∨ st.err = false) ∧ (st.err = true ∨ st.errCode = 0) ∧
      (st.busy = true → st.done = false ∧ st.err = false) := by
  cases hbusy : st.busy <;> simp [statusOk, hbusy, and_assoc]

/-- In a run none of the bits that a write to STATUS can clear is set (10_state.md R39). -/
theorem Status.eq_started {st : Status} (hok : statusOk st = true) (hbusy : st.busy = true) :
    st = Status.started := by
  obtain ⟨-, hcode, hrun⟩ := (statusOk_iff st).1 hok
  obtain ⟨hdone, herr⟩ := hrun hbusy
  have hzero : st.errCode = 0 := hcode.resolve_left (by simp [herr])
  obtain ⟨busy, done, err, code⟩ := st
  subst hbusy hdone herr hzero
  rfl

/-! ### Writes during a run -/

/-- Settles O10: a write while BUSY is ignored but for STATUS, whose bits are already clear. -/
theorem hostWritesIgnoredDuringRun : Obligations.HostWritesIgnoredDuringRun := by
  intro s index v rest hinv hbusy h
  have hstatus : s.status.clearBits v = s.status := by
    rw [Status.eq_started (statusOk_of_inv hinv) hbusy]
    simp [Status.clearBits, Status.started]
  have hclear : clearStatus v { s with inputs := rest } = { s with inputs := rest } := by
    rw [clearStatus, hstatus]
  have hwrite := hostWrite_busy index v { s with inputs := rest } hbusy
  rw [hclear, ite_self] at hwrite
  rw [step_writeReg s index v rest h, hwrite]

/-! ### Values of STATUS and `cp` -/

theorem statusOk_started : statusOk Status.started = true := rfl

theorem statusOk_halted_of_started : statusOk Status.started.halted = true := rfl

theorem statusOk_failed_of_started (code : BitVec 8) :
    statusOk (Status.started.failed code) = true := rfl

theorem statusOk_clearBits (st : Status) (v : Word) (h : statusOk st = true) :
    statusOk (st.clearBits v) = true := by
  obtain ⟨hone, hcode, hrun⟩ := (statusOk_iff st).1 h
  rw [Status.clearBits_eq, statusOk_iff]
  refine ⟨?_, ?_, fun hbusy => ?_⟩
  · exact hone.imp (by simp +contextual) (by simp +contextual)
  · cases v.getLsbD 2
    · exact hcode
    · exact .inr rfl
  · simp [hrun hbusy]

theorem cpOk_iff (cp : BitVec 33) : cpOk cp = true ↔ cp.toNat % 4 = 0 ∧ cp.toNat ≤ 2 ^ 32 := by
  simp [cpOk]

/-- The next command's address, where the command at `cp` lies in the space. -/
theorem cpOk_add_four (cp : BitVec 33) (h : cpOk cp = true) (hle : cp.toNat + 4 ≤ 2 ^ 32) :
    cpOk (cp + 4) = true := by
  rw [cpOk_iff] at h ⊢
  have hfour : (4 : BitVec 33).toNat = 4 := rfl
  have hadd := BitVec.toNat_add_of_lt (x := cp) (y := 4) (by omega)
  omega

/-- An aligned CMD_PTR is an address for `cp` (47_control.md R441). -/
theorem cpOk_setWidth (w : Word) (h : w.toNat % 4 = 0) : cpOk (w.setWidth 33) = true := by
  have := w.isLt
  rw [cpOk_iff, BitVec.toNat_setWidth_of_le (by decide)]
  omega

/-! ### Commands and the engine -/

/-- The effect of a command keeps the invariant, and leaves `cp` and STATUS alone. -/
theorem Effect.keeps_inv {i : Instr} {s u : State} (h : Effect s i u) (hinv : inv s = true) :
    inv u = true ∧ u.cp = s.cp ∧ u.status = s.status := by
  obtain ⟨hmem, hmap, hws, hstatus, hcp, hlut⟩ := (inv_iff s).1 hinv
  induction h with
  | none i => exact ⟨hinv, rfl, rfl⟩
  | vector hu r q hr ih => exact ih
  | cfg va index c => exact ⟨hinv, rfl, rfl⟩
  | store i a n m htarget hbyte hwf =>
    exact ⟨(inv_iff _).2 ⟨hwf hmem, hmap, Ranges.wf_add _ _ _ hws, hstatus, hcp, hlut⟩, rfl, rfl⟩
  | mat unit free => exact ⟨hinv, rfl, rfl⟩
  | log unit free => exact ⟨hinv, rfl, rfl⟩
  | lut unit free hok =>
    exact ⟨(inv_iff _).2 ⟨hmem, hmap, hws, hstatus, hcp, hok⟩, rfl, rfl⟩
  | crv unit free => exact ⟨hinv, rfl, rfl⟩

theorem inv_advance (s : State) (hinv : inv s = true) (hle : s.cp.toNat + 4 ≤ 2 ^ 32) :
    inv s.advance = true := by
  obtain ⟨hmem, hmap, hws, hstatus, hcp, hlut⟩ := (inv_iff s).1 hinv
  exact (inv_iff _).2 ⟨hmem, hmap, hws, hstatus, cpOk_add_four _ hcp hle, hlut⟩

/-- A new STATUS, with any values of the error registers. -/
theorem inv_with_status (s : State) (st : Status) (errCp errInfo : Word) (hinv : inv s = true)
    (hst : statusOk st = true) :
    inv { s with status := st, errCp := errCp, errInfo := errInfo } = true := by
  obtain ⟨hmem, hmap, hws, -, hcp, hlut⟩ := (inv_iff s).1 hinv
  exact (inv_iff _).2 ⟨hmem, hmap, hws, hst, hcp, hlut⟩

theorem inv_errorEntry (e : Error) (s : State) (hinv : inv s = true) (hbusy : s.status.busy = true) :
    inv (errorEntry e s) = true := by
  refine inv_with_status s _ _ _ hinv ?_
  rw [Status.eq_started (statusOk_of_inv hinv) hbusy]
  exact statusOk_failed_of_started _

/-- A command of a run whose own word lies in the space keeps the invariant. -/
theorem exec_keeps_inv (i : Instr) (s t : State) (hinv : inv s = true)
    (hbusy : s.status.busy = true) (hle : s.cp.toNat + 4 ≤ 2 ^ 32) (h : exec i s = .next t) :
    inv t = true := by
  obtain ⟨u, heffect, hends⟩ := exec_answers i s t h
  obtain ⟨hu, hcp, hstatus⟩ := heffect.keeps_inv hinv
  obtain rfl | ⟨-, rfl⟩ | ⟨e, rfl⟩ := hends
  · exact inv_advance u hu (by rw [hcp]; exact hle)
  · refine inv_with_status u _ u.errCp u.errInfo hu ?_
    rw [hstatus, Status.eq_started (statusOk_of_inv hinv) hbusy]
    exact statusOk_halted_of_started
  · exact inv_errorEntry e u hu (by rw [hstatus]; exact hbusy)

/-- A fetched word lies in the space. -/
theorem fetch_ok_le (s : State) (w : Word) (h : fetch s = .ok w) : s.cp.toNat + 4 ≤ 2 ^ 32 := by
  cases hb : inBounds s.memMap s.cp.toNat 4 with
  | true => exact ((inBounds_iff _ _ _).1 hb).1
  | false => rw [fetch_unmapped s hb] at h; cases h

theorem engineCommand_keeps_inv (s t : State) (hinv : inv s = true) (hbusy : s.status.busy = true)
    (h : engineCommand s = .next t) : inv t = true := by
  unfold engineCommand at h
  split at h
  · cases h; exact inv_errorEntry _ s hinv hbusy
  · next w hw =>
    split at h
    · cases h; exact inv_errorEntry _ s hinv hbusy
    · exact exec_keeps_inv _ s t hinv hbusy (fetch_ok_le s w hw) h

theorem engineTurn_keeps_inv (s t : State) (hinv : inv s = true) (h : engineTurn s = .next t) :
    inv t = true := by
  unfold engineTurn at h
  split at h
  · next hbusy => exact engineCommand_keeps_inv s t hinv hbusy h
  · cases h; exact hinv

/-! ### The host -/

theorem inv_writeCtrl (v : Word) (s : State) (hinv : inv s = true) : inv (writeCtrl v s) = true := by
  obtain ⟨hmem, hmap, -, -, hcp, hlut⟩ := (inv_iff s).1 hinv
  cases hv : v.getLsbD 0 with
  | false => rw [writeCtrl_ignored v s hv]; exact hinv
  | true =>
    by_cases ha : s.cmdPtr.toNat % 4 = 0
    · rw [writeCtrl_aligned v s hv ha]
      exact (inv_iff _).2 ⟨hmem, hmap, rfl, statusOk_started, cpOk_setWidth _ ha, hlut⟩
    · rw [writeCtrl_misaligned v s hv ha]
      exact (inv_iff _).2 ⟨hmem, hmap, rfl, statusOk_failed_of_started _, hcp, hlut⟩

theorem inv_clearStatus (v : Word) (s : State) (hinv : inv s = true) :
    inv (clearStatus v s) = true :=
  inv_with_status s _ s.errCp s.errInfo hinv (statusOk_clearBits _ v (statusOk_of_inv hinv))

theorem inv_hostWrite (index : Fin 64) (v : Word) (s : State) (hinv : inv s = true) :
    inv (hostWrite index v s) = true := by
  by_cases h1 : index = 1
  · rw [h1, hostWrite_status]; exact inv_clearStatus v s hinv
  · cases hb : s.status.busy with
    | true =>
      rw [hostWrite_busy index v s hb, if_neg fun h : index.val = 1 => h1 (Fin.ext h)]
      exact hinv
    | false =>
      rw [hostWrite_idle index v s hb]
      by_cases h0 : index = 0
      · rw [h0]; exact inv_writeCtrl v s hinv
      · rw [hostWriteIdle_data index v s (by omega)]; exact hinv

theorem inv_resetInstance (s : State) (hmem : s.mem.wf = true) (hmap : Ranges.wf s.memMap = true) :
    inv (resetInstance s) = true :=
  (inv_iff _).2 ⟨hmem, hmap, rfl, rfl, rfl, rfl⟩

/-- The region that a command may write lies in the space. -/
theorem writeTarget_le (i : Instr) (s : State) :
    (writeTarget i s).1 + (writeTarget i s).2 ≤ 2 ^ 32 := by
  have happly (id : UnitId) :
      (writeTarget (applyOf id) s).1 + (writeTarget (applyOf id) s).2 ≤ 2 ^ 32 := by
    rw [writeTarget_apply]
    split
    · next n hn => exact applyChecks_out_le _ s n hn
    · decide
  cases i with
  | vst va imm =>
    unfold writeTarget
    simp only
    split
    · next h =>
      rw [Bool.and_eq_true] at h
      exact ((inBounds_iff _ _ _).1 h.2).1
    · decide
  | applyMat => exact happly .mat
  | applyLog => exact happly .log
  | applyLut => exact happly .lut
  | applyCrv => exact happly .crv
  | _ => exact Nat.zero_le _

theorem interruptedTarget_le (s : State) :
    (interruptedTarget s).1 + (interruptedTarget s).2 ≤ 2 ^ 32 := by
  unfold interruptedTarget
  split
  · split
    · split
      · exact writeTarget_le _ s
      · decide
    · decide
  · decide

theorem wf_scramble (m : Memory) (free a n : Nat) (hm : m.wf = true) (h : a + n ≤ 2 ^ 32) :
    (scramble m free a n).wf = true :=
  Memory.wf_setBytes _ _ _ hm (by simpa using h)

theorem hostMove_keeps_inv (m : HostMove) (s t : State) (hinv : inv s = true)
    (h : hostMove m s = .next t) : inv t = true := by
  obtain ⟨hmem, hmap, hws, hstatus, hcp, hlut⟩ := (inv_iff s).1 hinv
  cases m with
  | writeReg index v => cases h; exact inv_hostWrite index v s hinv
  | readReg index => cases h; exact hinv
  | writeMem addr b =>
    obtain ⟨-, -, rfl⟩ := (hostWriteByte_next_iff addr b s t).1 h
    exact (inv_iff _).2 ⟨Memory.wf_setByte _ _ _ hmem addr.isLt, hmap, hws, hstatus, hcp, hlut⟩
  | readMem addr =>
    unfold hostMove at h
    simp only at h
    split at h <;> cases h
    exact hinv
  | reset mid =>
    cases h
    cases mid with
    | false => exact inv_resetInstance s hmem hmap
    | true =>
      exact inv_resetInstance _ (wf_scramble _ _ _ _ hmem (interruptedTarget_le s)) hmap

/-! ### Every step -/

/-- The schedule is no part of the invariant. -/
theorem inv_with_inputs (s : State) (rest : List Input) :
    inv { s with inputs := rest } = inv s := rfl

theorem step_keeps_inv (s t : State) (hinv : inv s = true) (h : step s = .next t) :
    inv t = true := by
  unfold step at h
  split at h
  · exact engineTurn_keeps_inv s t hinv h
  · next rest _ => exact engineTurn_keeps_inv _ t ((inv_with_inputs s rest).trans hinv) h
  · next m rest _ => exact hostMove_keeps_inv m _ t ((inv_with_inputs s rest).trans hinv) h

/-- Settles O59: the reset state by evaluation, a step by who acts in it. -/
theorem stepKeepsInvariant : Obligations.StepKeepsInvariant :=
  ⟨by decide, step_keeps_inv⟩

end Sys2Proof.Machine
end

section
/-!
Memory as the host and the engine meet it (20_memory.md R71, R80, R83; 60_exceptions.md R479): a byte
that the host writes or reads, by who holds it, and the fetch of a word that the run has stored.
-/
namespace Sys2Proof.Machine

open Sys2Proof.Safety

/-! ### A byte and the host -/

theorem heldByRun_iff (s : State) (a : Nat) :
    heldByRun s a = true ↔ s.status.busy = true ∧ s.footprint.mem a = true :=
  Bool.and_eq_true_iff

theorem heldByRun_eq_false_iff (s : State) (a : Nat) :
    heldByRun s a = false ↔ ¬(s.status.busy = true ∧ s.footprint.mem a = true) := by
  rw [← heldByRun_iff, Bool.not_eq_true]

theorem hostWriteByte_absent (addr : Word) (v : Byte) (s : State)
    (h : ¬s.memMap.mem addr.toNat = true) :
    hostWriteByte addr v s = .fault (.hostAddressAbsent addr) := by
  rw [hostWriteByte, inBounds_byte, if_pos (by simpa using h)]

theorem hostWriteByte_held (addr : Word) (v : Byte) (s : State)
    (h : s.memMap.mem addr.toNat = true) (hheld : heldByRun s addr.toNat = true) :
    hostWriteByte addr v s = .refused (.hostWritesDuringRun addr) := by
  rw [hostWriteByte, inBounds_byte, if_neg (by simpa using h), if_pos hheld]

theorem hostReadByte_absent (s : State) (addr : Word) (h : ¬s.memMap.mem addr.toNat = true) :
    hostReadByte s addr = .fault (.hostAddressAbsent addr) := by
  rw [hostReadByte, inBounds_byte, if_pos (by simpa using h)]

theorem hostReadByte_held (s : State) (addr : Word) (h : s.memMap.mem addr.toNat = true)
    (hheld : heldByRun s addr.toNat = true) :
    hostReadByte s addr = .refused (.hostReadsDuringRun addr) := by
  rw [hostReadByte, inBounds_byte, if_neg (by simpa using h), if_pos hheld]

/-- The schedule has no say in what the host reads. -/
theorem hostReadByte_with_inputs (s : State) (rest : List Input) (addr : Word) :
    hostReadByte { s with inputs := rest } addr = hostReadByte s addr := rfl

theorem step_writeMem (s : State) (addr : Word) (b : Byte) (rest : List Input)
    (h : s.inputs = .host (.writeMem addr b) :: rest) :
    step s = hostWriteByte addr b { s with inputs := rest } :=
  step_host s _ rest h

theorem step_readReg (s : State) (index : Fin 64) (rest : List Input)
    (h : s.inputs = .host (.readReg index) :: rest) : step s = .next { s with inputs := rest } :=
  step_host s _ rest h

section
variable {s : State} {addr : Word} {rest : List Input}

theorem step_readMem_next {b : Byte} (h : s.inputs = .host (.readMem addr) :: rest)
    (hread : hostReadByte s addr = .next b) : step s = .next { s with inputs := rest } := by
  rw [step_host s _ rest h, hostMove, hostReadByte_with_inputs, hread]

theorem step_readMem_refused {r : Refusal} (h : s.inputs = .host (.readMem addr) :: rest)
    (hread : hostReadByte s addr = .refused r) : step s = .refused r := by
  rw [step_host s _ rest h, hostMove, hostReadByte_with_inputs, hread]

theorem step_readMem_fault {f : Fault} (h : s.inputs = .host (.readMem addr) :: rest)
    (hread : hostReadByte s addr = .fault f) : step s = .fault f := by
  rw [step_host s _ rest h, hostMove, hostReadByte_with_inputs, hread]

end

/-- Settles O15: a write and a read of memory by whether the byte is mapped and held, then the read of
a register. -/
theorem hostMemoryAccess : Obligations.HostMemoryAccess := by
  intro s addr rest mapped held
  refine ⟨fun b h => ?write, fun h => ?read, fun index h => step_readReg s index rest h⟩
  case write =>
    rw [step_writeMem s addr b rest h]
    refine ⟨fun hmap hfree => ?_, fun hmap hheld => ?_, fun habsent => ?_⟩
    · have hwrite := (hostWriteByte_next_iff addr b { s with inputs := rest } _).2
        ⟨hmap, (heldByRun_eq_false_iff _ _).2 hfree, rfl⟩
      exact ⟨_, hwrite, fun a => Memory.byte_setByte s.mem addr.toNat a b⟩
    · exact hostWriteByte_held addr b _ hmap ((heldByRun_iff _ _).2 hheld)
    · exact hostWriteByte_absent addr b _ habsent
  case read =>
    refine ⟨fun hmap hfree => ?_, fun hmap hheld => ?_, fun habsent => ?_⟩
    · have hread := (hostReadByte_next_iff s addr _).2
        ⟨hmap, (heldByRun_eq_false_iff _ _).2 hfree, rfl⟩
      exact ⟨hread, step_readMem_next h hread⟩
    · exact step_readMem_refused h (hostReadByte_held s addr hmap ((heldByRun_iff _ _).2 hheld))
    · exact step_readMem_fault h (hostReadByte_absent s addr habsent)

/-! ### The fetch of stored bytes -/

theorem errorEntry_eq_erring (e : Error) (s : State) :
    errorEntry e s = erring e.name.code e.info s := rfl

theorem step_of_fetch_error (s : State) (e : Error) (hin : s.inputs = [])
    (hbusy : s.status.busy = true) (hf : fetch s = .error e) :
    step s = .next (erring e.name.code e.info s) := by
  rw [step, hin]
  simp only [engineTurn, hbusy, if_true, engineCommand, hf, errorEntry_eq_erring]

/-- The state in which a VST leaves the run, where its checks pass (41_bitdepth_pixel_io.md R203). -/
def State.stored (s : State) (va : VReg) (imm : BitVec 14) : State :=
  { s with
    mem := writeQuad s.mem (storeAddr s imm) (s.vreg va)
    ws := s.ws.add (storeAddr s imm) (storeAddr s imm + 16)
    cp := s.cp + 4 }

theorem exec_vst_stored (va : VReg) (imm : BitVec 14) (s : State) (ha : storeAddr s imm % 4 = 0)
    (hb : inBounds s.memMap (storeAddr s imm) 16 = true) :
    exec (.vst va imm) s = .next (s.stored va imm) := by
  have hvst : exec (.vst va imm) s = finish (storeVector va imm s) s := rfl
  rw [hvst, storeVector_ok va imm s ha hb]
  rfl

/-- A region that a non-empty new range overlaps meets the set. -/
theorem Ranges.meets_add (r : Ranges) (lo hi a b : Nat) (h : max lo a < min hi b) :
    (r.add lo hi).meets a b = true := by
  refine (Ranges.meets_iff _ a b).2 ⟨max lo a, by omega, by omega, ?_⟩
  rw [Ranges.mem_add, Bool.or_eq_true, Bool.and_eq_true, decide_eq_true_eq, decide_eq_true_eq]
  exact .inr ⟨by omega, by omega⟩

/-- The address of the next command, where it does not wrap. -/
theorem toNat_add_four (cp : BitVec 33) (h : cp.toNat + 4 ≤ 2 ^ 32) :
    (cp + 4).toNat = cp.toNat + 4 :=
  BitVec.toNat_add_of_lt (by rw [show (4 : BitVec 33).toNat = 4 from rfl]; omega)

/-- Settles O21: the stored range joins the write set, so the fetch of a word that it overlaps
raises ERR_SMC (20_memory.md R83). -/
theorem fetchOfStoredBytesRaises : Obligations.FetchOfStoredBytesRaises := by
  intro va imm s hin hbusy htop hnext ha hb hbelow habove
  have hcp : (s.stored va imm).cp.toNat = s.cp.toNat + 4 := toNat_add_four s.cp (by omega)
  have hmeets : (s.stored va imm).ws.meets (s.cp.toNat + 4) (s.cp.toNat + 4 + 4) = true :=
    Ranges.meets_add _ _ _ _ _ (by omega)
  have hfetch := fetch_written (s.stored va imm) (by rw [hcp]; exact hnext) (by rw [hcp]; exact hmeets)
  rw [cpWord_of_lt _ (by omega)] at hfetch
  exact ⟨s.stored va imm, exec_vst_stored va imm s ha hb,
    step_of_fetch_error (s.stored va imm) _ hin hbusy hfetch⟩

end Sys2Proof.Machine
end

section
/-!
The decoder and the encoder as inverses of each other, and the opcode table that both follow
(30_encoding.md R101 to R107).
-/
namespace Sys2Proof

open Sys2Proof.Safety

/-! ### The fields that a format uses (30_encoding.md R103) -/

/-- A command word of an OP and its fields. -/
def Fields.toWord (f : Fields) (op : BitVec 6) : Word := word op f.vd f.va f.vb f.imm

/-- The fields of a format with every fixed bit 0. -/
def Format.clear : Format → Fields → Fields
  | .z, _ => ⟨0, 0, 0, 0⟩
  | .r1, f => ⟨f.vd, f.va, 0, 0⟩
  | .r2, f | .sc, f => ⟨f.vd, f.va, f.vb, 0⟩
  | .ld, f => ⟨f.vd, 0, 0, f.imm⟩
  | .st, f => ⟨0, f.va, 0, f.imm⟩
  | .wc, f => ⟨0, f.va, 0, 0#10 ++ f.imm.extractLsb' 0 4⟩

@[simp] theorem toWord_fieldsOf (w : Word) : (fieldsOf w).toWord (opOf w) = w := word_fieldsOf w

@[simp] theorem opOf_toWord (op : BitVec 6) (f : Fields) : opOf (f.toWord op) = op :=
  opOf_word op f.vd f.va f.vb f.imm

@[simp] theorem fieldsOf_toWord (op : BitVec 6) (f : Fields) : fieldsOf (f.toWord op) = f :=
  fieldsOf_word op f.vd f.va f.vb f.imm

theorem eq_zero_append_low_iff (imm : BitVec 14) :
    imm = (0#10 ++ imm.extractLsb' 0 4 : BitVec 14) ↔ imm.extractLsb' 4 10 = 0#10 := by
  have := imm.isLt
  rw [← BitVec.toNat_inj, ← BitVec.toNat_inj, append_toNat, BitVec.extractLsb'_toNat,
    BitVec.extractLsb'_toNat, Nat.shiftRight_eq_div_pow, Nat.shiftRight_eq_div_pow,
    BitVec.toNat_ofNat]
  omega

/-- A word agrees with its format's mask exactly where the bits that the format fixes are 0. -/
theorem toWord_and_mask_iff (fmt : Format) (op : BitVec 6) (f : Fields) :
    f.toWord op &&& fmt.mask = matchWord op ↔ fmt.clear f = f := by
  obtain ⟨vd, va, vb, imm⟩ := f
  rw [Fields.toWord, mask_iff, eq_comm (b := Fields.mk vd va vb imm)]
  cases fmt <;> simp [Format.clear, eq_zero_append_low_iff]

/-! ### The opcode map and the encoder (30_encoding.md R104) -/

/-- The encoding of the command that the opcode map makes of some fields: the OP, and the fields that
its format uses. -/
theorem encode_of_opcodeMap {op : BitVec 6} {f : Fields} {fmt : Format} {i : Instr}
    (h : opcodeMap op f = some (fmt, i)) : encode i = (fmt.clear f).toWord op := by
  have hofNat : BitVec.ofNat 6 op.toNat = op := by
    rw [BitVec.ofNat_toNat, BitVec.setWidth_eq]
  unfold opcodeMap at h
  split at h
  all_goals cases h
  all_goals
    next hop =>
    rw [← hofNat, hop]
    rfl

/-- The opcode map reads every command back from its encoding. -/
theorem opcodeMap_encode : ∀ i : Instr, Laws.EncodesOpcode.Statement i
  | .nop => Laws.EncodesOpcode.nop
  | .halt => Laws.EncodesOpcode.halt
  | .wrcfg va cfg => Laws.EncodesOpcode.wrcfg va cfg
  | .vld vd imm => Laws.EncodesOpcode.vld vd imm
  | .vst va imm => Laws.EncodesOpcode.vst va imm
  | .vlog2 vd va => Laws.EncodesOpcode.vlog2 vd va
  | .vexp2 vd va => Laws.EncodesOpcode.vexp2 vd va
  | .vpow vd va vb => Laws.EncodesOpcode.vpow vd va vb
  | .vsin vd va => Laws.EncodesOpcode.vsin vd va
  | .vcos vd va => Laws.EncodesOpcode.vcos vd va
  | .vsincos vd va vb => Laws.EncodesOpcode.vsincos vd va vb
  | .vatan vd va => Laws.EncodesOpcode.vatan vd va
  | .vatan2 vd va vb => Laws.EncodesOpcode.vatan2 vd va vb
  | .updMat => Laws.EncodesOpcode.updMat
  | .applyMat => Laws.EncodesOpcode.applyMat
  | .vmat vd va => Laws.EncodesOpcode.vmat vd va
  | .updLog => Laws.EncodesOpcode.updLog
  | .applyLog => Laws.EncodesOpcode.applyLog
  | .vlogk vd va => Laws.EncodesOpcode.vlogk vd va
  | .updLut => Laws.EncodesOpcode.updLut
  | .applyLut => Laws.EncodesOpcode.applyLut
  | .vlut vd va => Laws.EncodesOpcode.vlut vd va
  | .updCrv => Laws.EncodesOpcode.updCrv
  | .applyCrv => Laws.EncodesOpcode.applyCrv
  | .vcrv vd va => Laws.EncodesOpcode.vcrv vd va

/-- A word whose OP maps to a command agrees with the format's mask exactly where it is that command's
encoding. -/
theorem and_mask_iff_encode_eq {w : Word} {fmt : Format} {i : Instr}
    (h : opcodeMap (opOf w) (fieldsOf w) = some (fmt, i)) :
    w &&& fmt.mask = matchWord (opOf w) ↔ encode i = w := by
  rw [encode_of_opcodeMap h]
  calc w &&& fmt.mask = matchWord (opOf w)
      ↔ fmt.clear (fieldsOf w) = fieldsOf w := by
        rw [← toWord_and_mask_iff fmt (opOf w), toWord_fieldsOf]
    _ ↔ (fmt.clear (fieldsOf w)).toWord (opOf w) = w :=
        ⟨fun hc => by rw [hc, toWord_fieldsOf], fun hw => by
          have hf := congrArg fieldsOf hw
          rwa [fieldsOf_toWord] at hf⟩

/-! ### The decoder (30_encoding.md R105 to R107) -/

/-- A word decodes to a command where its OP maps to it, its fixed bits agree with the format, and its
operands are in range. -/
theorem decode_ok_iff (w : Word) (i : Instr) :
    decode w = .ok i ↔
      ∃ fmt, opcodeMap (opOf w) (fieldsOf w) = some (fmt, i) ∧
        w &&& fmt.mask = matchWord (opOf w) ∧ i.wellFormed = true := by
  unfold decode
  split
  · next hnone => simp [hnone]
  · next fmt j hsome =>
    simp only [hsome, Option.some.injEq, Prod.mk.injEq]
    split_ifs with hmask hwf
    · constructor
      · rintro ⟨⟩
        exact ⟨fmt, ⟨rfl, rfl⟩, hmask, hwf⟩
      · rintro ⟨_, ⟨rfl, rfl⟩, -, -⟩
        rfl
    · refine ⟨nofun, ?_⟩
      rintro ⟨_, ⟨rfl, rfl⟩, -, h⟩
      exact hwf h
    · refine ⟨nofun, ?_⟩
      rintro ⟨_, ⟨rfl, rfl⟩, h, -⟩
      exact hmask h

/-- Settles O1: the opcode map reads the command back, and an encoding agrees with its mask. -/
theorem decodeOfEncode : Obligations.DecodeOfEncode := by
  intro i hwf
  obtain ⟨fmt, hmap⟩ := opcodeMap_encode i
  exact (decode_ok_iff _ i).2 ⟨fmt, hmap, (and_mask_iff_encode_eq hmap).2 rfl, hwf⟩

/-- Settles O2: the mask of a legal word's format leaves no bit that the encoding does not have. -/
theorem encodeOfDecode : Obligations.EncodeOfDecode := by
  intro w i h
  obtain ⟨fmt, hmap, hmask, hwf⟩ := (decode_ok_iff w i).1 h
  exact ⟨(and_mask_iff_encode_eq hmap).1 hmask, hwf⟩

/-! ### The opcode table (30_encoding.md R104) -/

/-- The table's row of an OP, with the format and the command that the opcode map gives for it. -/
def tableRow (op : BitVec 6) (x : Format × Instr) : OpcodeRow :=
  ⟨mnemonic x.2, matchWord op, x.1.mask⟩

/-- The opcode table lists the opcode map's entries in the order of the OPs, whatever the fields. -/
theorem opcodeTable_eq_filterMap (f : Fields) :
    opcodeTable = ((List.finRange 64).map BitVec.ofFin).filterMap
      (fun op : BitVec 6 => (opcodeMap op f).map (tableRow op)) := rfl

theorem mem_opcodeTable_iff (f : Fields) (row : OpcodeRow) :
    row ∈ opcodeTable ↔
      ∃ op fmt i, opcodeMap op f = some (fmt, i) ∧ tableRow op (fmt, i) = row := by
  have hall (op : BitVec 6) : op ∈ (List.finRange 64).map (BitVec.ofFin (w := 6)) :=
    List.mem_map.2 ⟨op.toFin, List.mem_finRange _, rfl⟩
  simp only [opcodeTable_eq_filterMap f, List.mem_filterMap, hall, true_and, Option.map_eq_some_iff,
    Prod.exists]

/-- A mask keeps the OP, so a word that agrees with a mask's match has its OP. -/
theorem opOf_eq_of_and_mask {w : Word} {fmt : Format} {op : BitVec 6}
    (h : w &&& fmt.mask = matchWord op) : opOf w = op := by
  have hand : opOf (w &&& fmt.mask) = opOf w &&& opOf fmt.mask := BitVec.extractLsb'_and
  have hmask : opOf fmt.mask = BitVec.allOnes 6 := by cases fmt <;> rfl
  have hmatch : opOf (matchWord op) = op := BitVec.extractLsb'_append_eq_left
  rw [← hmatch, ← h, hand, hmask, BitVec.and_allOnes]

theorem encode_wrcfg_index (va : VReg) (cfg : BitVec 4) :
    (encode (.wrcfg va cfg)).extractLsb' 0 4 = cfg := by
  decide +revert

/-- A command has an encoding unless it is a WRCFG with an index above 5 in its bits 3:0. -/
theorem wellFormed_iff (i : Instr) :
    i.wellFormed = true ↔
      (mnemonic i = "WRCFG" → ((encode i).extractLsb' 0 4).toNat ≤ 5) := by
  cases i
  case wrcfg va cfg => simp [Instr.wellFormed, mnemonic, encode_wrcfg_index]
  all_goals simp [Instr.wellFormed, mnemonic]

/-- Settles O3: the rows are the entries of the opcode map, and the word is the encoding of the
command that it decodes to. -/
theorem legalWordsAreTheTable : Obligations.LegalWordsAreTheTable := by
  intro w name
  constructor
  · rintro ⟨i, hdec, rfl⟩
    obtain ⟨fmt, hmap, hmask, hwf⟩ := (decode_ok_iff w i).1 hdec
    refine ⟨tableRow (opOf w) (fmt, i), (mem_opcodeTable_iff (fieldsOf w) _).2 ⟨_, _, _, hmap, rfl⟩,
      rfl, hmask, ?_⟩
    rw [← (and_mask_iff_encode_eq hmap).1 hmask]
    exact (wellFormed_iff i).1 hwf
  · rintro ⟨row, hrow, rfl, hmask, hindex⟩
    obtain ⟨op, fmt, i, hmap, rfl⟩ := (mem_opcodeTable_iff (fieldsOf w) row).1 hrow
    obtain rfl : opOf w = op := opOf_eq_of_and_mask hmask
    have hencode : encode i = w := (and_mask_iff_encode_eq hmap).1 hmask
    refine ⟨i, (decode_ok_iff w i).2 ⟨fmt, hmap, hmask, (wellFormed_iff i).2 ?_⟩, rfl⟩
    rw [hencode]
    exact hindex

/-- Settles O4: the eight legal words are the encodings of their commands. -/
theorem sampleWordsDecode : Obligations.SampleWordsDecode :=
  ⟨decodeOfEncode .nop rfl, decodeOfEncode (.wrcfg 4 0) rfl, decodeOfEncode (.vld 2 1) rfl,
    decodeOfEncode (.vst 3 1) rfl, decodeOfEncode (.vpow 3 2 0) rfl,
    decodeOfEncode (.vsincos 7 9 8) rfl, decodeOfEncode (.vmat 1 0) rfl,
    decodeOfEncode .applyCrv rfl, by decide, by decide, by decide, by decide⟩

end Sys2Proof
end

section
/-!
Illegal words, the bit-depth tags, and the configuration of the units from their descriptors: the
checks that every UPD makes, and those of MAT, LUT and CRV (30_encoding.md R105, R110 to R121;
42_matrix.md R232; 44_lut1d_forward.md R303; 46_tone_curves.md R401, R402).
-/
namespace Sys2Proof.Machine

open Sys2Proof.Safety

/-! ### Illegal words and bit-depth tags -/

/-- Settles O7: the engine's turn fetches the word and enters the error of its decode. -/
theorem illegalWordEndsRun : Obligations.IllegalWordEndsRun := by
  intro s w e hin hbusy hfetch hdec
  rw [step, hin]
  simp only [engineTurn, hbusy, if_true, engineCommand, hfetch, hdec, errorEntry_eq_erring,
    ErrName.code]

/-- Settles O28: the six tags one by one, then every other value. -/
theorem bitDepthTags : Obligations.BitDepthTags := by
  intro w
  split_ifs with h0 h1 h2 h3 h4 h5
  · subst h0; rfl
  · subst h1; rfl
  · subst h2; rfl
  · subst h3; rfl
  · subst h4; rfl
  · subst h5; rfl
  · unfold bitDepthOf
    split
    · next h => exact absurd (BitVec.eq_of_toNat_eq h) h0
    · next h => exact absurd (BitVec.eq_of_toNat_eq h) h1
    · next h => exact absurd (BitVec.eq_of_toNat_eq h) h2
    · next h => exact absurd (BitVec.eq_of_toNat_eq h) h3
    · next h => exact absurd (BitVec.eq_of_toNat_eq h) h4
    · next h => exact absurd (BitVec.eq_of_toNat_eq h) h5
    · rfl

/-! ### The configuration of a unit refuses (60_exceptions.md R463, R470) -/

/-- The configuration of a unit raises an error. -/
def ConfigureRaises (id : UnitId) (s : State) (e : Error) : Prop :=
  match id with
  | .mat => configureMat s = .error e
  | .log => configureLog s = .error e
  | .lut => configureLut s = .error e
  | .crv => configureCrv s = .error e

theorem exec_updMat (s : State) : exec .updMat s = execUpdMat s := rfl

theorem exec_updLog (s : State) : exec .updLog s = execUpdLog s := rfl

theorem exec_updLut (s : State) : exec .updLut s = execUpdLut s := rfl

theorem exec_updCrv (s : State) : exec .updCrv s = execUpdCrv s := rfl

/-- A UPD whose configuration raises an error ends in error entry, its unit not configured. -/
theorem exec_upd_of_raises {id : UnitId} {s : State} {e : Error} (h : ConfigureRaises id s e) :
    ∃ t, exec (updOf id) s = .next t ∧ failedUpdate id e.name.code e.info s t := by
  cases id
  case mat =>
    change configureMat s = .error e at h
    exact ⟨failMat e s, by rw [updOf, exec_updMat, execUpdMat, h], _, rfl, rfl⟩
  case log =>
    change configureLog s = .error e at h
    exact ⟨failLog e s, by rw [updOf, exec_updLog, execUpdLog, h], _, rfl, rfl⟩
  case lut =>
    change configureLut s = .error e at h
    exact ⟨failLut e s, by rw [updOf, exec_updLut, execUpdLut, h], _, rfl, rfl⟩
  case crv =>
    change configureCrv s = .error e at h
    exact ⟨failCrv e s, by rw [updOf, exec_updCrv, execUpdCrv, h], _, rfl, rfl⟩

/-- An error of the depth tags is the unit's. -/
theorem configureRaises_of_latchedDepths (id : UnitId) {s : State} {e : Error}
    (h : latchedDepths s = .error e) : ConfigureRaises id s e := by
  cases id
  · simp [ConfigureRaises, configureMat, h]
  · simp [ConfigureRaises, configureLog, h]
  · simp [ConfigureRaises, configureLut, h]
  · simp [ConfigureRaises, configureCrv, h]

/-- With both depth tags valid, an error of the header is the unit's. -/
theorem configureRaises_of_readHeader (id : UnitId) {s : State} {d : BitDepth × BitDepth} {e : Error}
    (hd : latchedDepths s = .ok d) (h : readHeader s = .error e) : ConfigureRaises id s e := by
  cases id
  · simp [ConfigureRaises, configureMat, hd, h]
  · simp [ConfigureRaises, configureLog, hd, h]
  · simp [ConfigureRaises, configureLut, hd, h]
  · simp [ConfigureRaises, configureCrv, hd, h]

/-- Settles O38: the depth tags, the descriptor's alignment and its header's bounds, in that order. -/
theorem updCommonChecks : Obligations.UpdCommonChecks := by
  intro id s
  refine ⟨fun h => exec_upd_of_raises
    (configureRaises_of_latchedDepths id (latchedDepths_error s h)), fun ib ob hi ho => ?_⟩
  have hd := latchedDepths_ok s ib ob hi ho
  exact ⟨fun ha => exec_upd_of_raises
      (configureRaises_of_readHeader id hd (readHeader_misaligned s ha)),
    fun ha hb => exec_upd_of_raises
      (configureRaises_of_readHeader id hd (readHeader_unmapped s ha hb))⟩

/-- The descriptor's binary64 field `k`, counted from the end of the header. -/
theorem descF64_field (s : State) (k : Nat) :
    descF64 s (8 + 8 * k) = readF64 s.mem (s.cfg.opdataPtr.toNat + 8 + 8 * k) := by
  rw [descF64, Nat.add_assoc]

/-! ### The matrix unit (42_matrix.md R232) -/

section
variable {s : State} {ib ob : BitDepth}

/-- The reserved bits and the reserved word of a matrix descriptor are 0. -/
def MatHeaderClean (s : State) : Prop :=
  (headerFlags s).extractLsb' 1 31 = 0 ∧ headerSecond s = 0

theorem bitZero_beq_zero (w : Word) : (w.extractLsb' 0 1 == 0#1) = !w.getLsbD 0 := by
  rw [Bool.eq_iff_iff, beq_iff_eq, ← BitVec.toNat_inj, BitVec.extractLsb'_toNat, BitVec.getLsbD,
    Nat.testBit_eq_decide_div_mod_eq]
  simp

theorem configureMat_reserved (h : updReady s ib ob) (hr : ¬MatHeaderClean s) :
    configureMat s = .error ⟨.invalidOpdata, 12⟩ := by
  obtain ⟨hdepths, hheader⟩ := updReady_checks s ib ob h
  have hbits : ((headerFlags s).extractLsb' 1 31 == 0#31 && headerSecond s == 0#32) = false := by
    simpa [MatHeaderClean, not_and] using hr
  simp [configureMat, hdepths, hheader, hbits]

theorem configureMat_clean (h : updReady s ib ob) (hc : MatHeaderClean s) :
    configureMat s = (do
      require (!(headerFlags s).getLsbD 0) .finalizeNotCalled 0
      checkDescriptor s 168
      return (readMatOpData s).unit ib ob) := by
  obtain ⟨hdepths, hheader⟩ := updReady_checks s ib ob h
  obtain ⟨hflags, hsecond⟩ := hc
  simp [configureMat, hdepths, hheader, hflags, hsecond, bitZero_beq_zero]

end

theorem readMatOpData_eq (s : State) :
    let field (k : Nat) : F64 := readF64 s.mem (s.cfg.opdataPtr.toNat + 8 + 8 * k)
    let row (r : Nat) : Lanes F64 :=
      ⟨field (4 * r), field (4 * r + 1), field (4 * r + 2), field (4 * r + 3)⟩
    readMatOpData s = ⟨⟨row 0, row 1, row 2, row 3⟩, row 4⟩ := by
  simp only [readMatOpData, readMatRow, ← descF64_field]

/-- Settles O37: the header, DIR and the descriptor's bounds in order, then the whole unit. -/
theorem updMatConfigures : Obligations.UpdMatConfigures := by
  intro s ib ob hready fails clean field row d
  have hd : readMatOpData s = d := readMatOpData_eq s
  refine ⟨fun hr => exec_upd_of_raises (id := .mat) (configureMat_reserved hready hr),
    fun hc hdir => ?_, fun hc hdir => ⟨fun hbus => ?_, fun hmapped => ?_⟩⟩
  · refine exec_upd_of_raises (id := .mat) (e := ⟨.finalizeNotCalled, 0⟩) ?_
    rw [ConfigureRaises, configureMat_clean hready hc, hdir]
    rfl
  · refine exec_upd_of_raises (id := .mat) (e := ⟨.bus, s.cfg.opdataPtr⟩) ?_
    rw [ConfigureRaises, configureMat_clean hready hc, hdir, checkDescriptor_error s 168 hbus]
    rfl
  · have hunit : configureMat s = .ok (d.unit ib ob) := by
      rw [configureMat_clean hready hc, hdir, checkDescriptor_ok s 168 hmapped, hd]
      rfl
    rw [exec_updMat, execUpdMat, hunit]
    rfl

/-! ### The 1D-LUT unit (44_lut1d_forward.md R303 steps 4 to 7) -/

/-- The encodings of HUE, QUALITY and FILE_OUT_BD that are not reserved (30_encoding.md R116). -/
def LutEncodings (flags : Word) : Prop :=
  (flags.extractLsb' 3 2).toNat < 2 ∧ (flags.extractLsb' 5 2).toNat ≠ 3 ∧
    (flags.extractLsb' 7 4).toNat ≤ 5

theorem lutEncodings_iff (flags : Word) :
    (lutHue flags < 2 && lutQuality flags != 3 && lutFileOutBd flags ≤ 5) = true ↔
      LutEncodings flags := by
  simp only [Bool.and_eq_true, decide_eq_true_eq, bne_iff_ne, and_assoc]
  rfl

theorem checkLutHeader_reserved {flags : Word} (n : Nat) (h : flags.extractLsb' 11 21 ≠ 0#21) :
    checkLutHeader flags n = .error ⟨.invalidOpdata, 12⟩ := by
  rw [checkLutHeader, beq_false_of_ne h]
  rfl

theorem checkLutHeader_encodings {flags : Word} (n : Nat) (hc : flags.extractLsb' 11 21 = 0#21)
    (h : ¬LutEncodings flags) : checkLutHeader flags n = .error ⟨.invalidOpdata, 13⟩ := by
  rw [← lutEncodings_iff, Bool.not_eq_true] at h
  rw [checkLutHeader, hc, h]
  rfl

/-- With the flags in order, the length is left to check. -/
theorem checkLutHeader_length {flags : Word} (n : Nat) (hc : flags.extractLsb' 11 21 = 0#21)
    (h : LutEncodings flags) :
    checkLutHeader flags n = (do
      require (n != 0) .invalidOpdata 1
      require (n != 1) .invalidOpdata 2
      require (n ≤ 65536) .invalidOpdata 3
      require (!flags.getLsbD 1 || n == 65536) .invalidOpdata 4) := by
  rw [checkLutHeader, (lutEncodings_iff flags).2 h, hc]
  rfl

/-- From two entries on, what is left is the greatest length and that of a half domain. -/
theorem checkLutHeader_two_le {flags : Word} {n : Nat} (hc : flags.extractLsb' 11 21 = 0#21)
    (h : LutEncodings flags) (h2 : 2 ≤ n) :
    checkLutHeader flags n = (do
      require (n ≤ 65536) .invalidOpdata 3
      require (!flags.getLsbD 1 || n == 65536) .invalidOpdata 4) := by
  rw [checkLutHeader_length n hc h, bne_iff_ne.2 (show n ≠ 0 by omega),
    bne_iff_ne.2 (show n ≠ 1 by omega)]
  rfl

section
variable {s : State} {ib ob : BitDepth}

theorem configureLut_of_header {e : Error} (hready : updReady s ib ob)
    (h : checkLutHeader (headerFlags s) (headerSecond s).toNat = .error e) :
    configureLut s = .error e := by
  obtain ⟨hdepths, hheader⟩ := updReady_checks s ib ob hready
  simp [configureLut, hdepths, hheader, h]

theorem configureLut_unmapped (hready : updReady s ib ob)
    (h : checkLutHeader (headerFlags s) (headerSecond s).toNat = .ok ())
    (hbus : ¬descriptorMapped s (8 + 12 * (headerSecond s).toNat)) :
    configureLut s = .error ⟨.bus, s.cfg.opdataPtr⟩ := by
  obtain ⟨hdepths, hheader⟩ := updReady_checks s ib ob hready
  simp [configureLut, hdepths, hheader, h, checkDescriptor_error s _ hbus]

end

/-- Settles O42: the flags, then the length by its five outcomes, then the descriptor's bounds. -/
theorem updLutHeaderChecks : Obligations.UpdLutHeaderChecks := by
  intro s ib ob hready fails flags n clean encodings
  have hraise (sub : Word) (h : checkLutHeader flags n = .error ⟨.invalidOpdata, sub⟩) :
      fails 0x08 sub :=
    exec_upd_of_raises (id := .lut) (configureLut_of_header hready h)
  refine ⟨fun hr => hraise 12 (checkLutHeader_reserved n hr),
    fun hc henc => hraise 13 (checkLutHeader_encodings n hc henc), fun hc henc => ?_⟩
  have hlength := checkLutHeader_length n hc henc
  have htwo (h2 : 2 ≤ n) := checkLutHeader_two_le hc henc h2
  refine ⟨fun h0 => hraise 1 ?_, fun h1 => hraise 2 ?_, fun hlong => hraise 3 ?_,
    fun h2 hshort hhalf => hraise 4 ?_, fun h2 hle hhalf hbus => ?_⟩
  · rw [hlength, h0]
    rfl
  · rw [hlength, h1]
    rfl
  · rw [htwo (by omega), decide_eq_false (show ¬n ≤ 65536 by omega)]
    rfl
  · rw [htwo h2, decide_eq_true (show n ≤ 65536 by omega), hhalf,
      beq_false_of_ne (show n ≠ 65536 by omega)]
    rfl
  · have hlast : (!flags.getLsbD 1 || n == 65536) = true := by
      cases hflag : flags.getLsbD 1
      · rfl
      · rw [hhalf hflag]
        rfl
    have hok : checkLutHeader flags n = .ok () := by
      rw [htwo h2, decide_eq_true hle, hlast]
      rfl
    exact exec_upd_of_raises (id := .lut) (configureLut_unmapped hready hok hbus)

/-! ### The tone-curve unit (46_tone_curves.md R401, R402) -/

/-- The rows of 30_encoding.md R119: a code, its style and its number of parameters. -/
def curveRows : List (Nat × CurveStyle × Nat) :=
  [(0, .darkToDimFwd, 0), (1, .darkToDimInv, 0), (2, .rec2100Fwd, 1), (3, .rec2100Inv, 1),
    (4, .linToPq, 0), (5, .pqToLin, 0), (6, .linToGammaLog, 10), (7, .gammaLogToLin, 10),
    (8, .linToDoubleLog, 13), (9, .doubleLogToLin, 13), (10, .tonescale, 5)]

theorem styleOf_nparams_of_mem {w : Word} {style : CurveStyle} {n : Nat}
    (h : (w.toNat, style, n) ∈ curveRows) : styleOf w = some style ∧ nparams style = n := by
  have hrows : ∀ row ∈ curveRows,
      styleOf (BitVec.ofNat 32 row.1) = some row.2.1 ∧ nparams row.2.1 = row.2.2 := by decide
  simpa using hrows _ h

theorem styleOf_reserved {w : Word} (h : 10 < w.toNat) : styleOf w = none := by
  unfold styleOf
  split
  case h_12 => rfl
  all_goals omega

/-- A binary64 is a finite number above 0. -/
def PositiveFinite (x : F64) : Prop := ∃ q, ratOfF64 x = some q ∧ 0 < q

theorem positiveFinite_iff (x : F64) : positiveFinite x = true ↔ PositiveFinite x := by
  unfold positiveFinite PositiveFinite
  cases ratOfF64 x <;> simp

/-- The parameters that the validation column of R402 accepts. -/
def CurveParamsGood (style : CurveStyle) (param : Nat → F64) : Prop :=
  (style = .rec2100Fwd ∨ style = .rec2100Inv → PositiveFinite (param 0)) ∧
    (style = .tonescale →
      PositiveFinite (param 1) ∧ ∀ k, k < 5 → ∃ q, ratOfF64 (param k) = some q)

theorem curveParamsOk_iff (style : CurveStyle) (param : Nat → F64) :
    curveParamsOk style ((List.range (nparams style)).map param) = true ↔
      CurveParamsGood style param := by
  cases style
  case rec2100Fwd | rec2100Inv =>
    simp [curveParamsOk, nparams, CurveParamsGood, positiveFinite_iff]
  case tonescale =>
    have hone : ((List.range 5).map param).getD 1 0 = param 1 := rfl
    simp only [curveParamsOk, nparams, CurveParamsGood, hone, Bool.and_eq_true, positiveFinite_iff,
      List.all_map, List.all_eq_true, List.mem_range, Function.comp_apply, Option.isSome_iff_exists]
    simp [and_comm]
  all_goals simp [curveParamsOk, CurveParamsGood]

theorem curveRegs_getElem (derived : List F32) (free k : Nat) (hk : k < 13) :
    (curveRegs derived free)[k] = derived.getD k (Config.unspecF32 free k) := by
  simp [curveRegs]

/-- The styles of five parameters or more take each parameter as it stands. -/
theorem curveDerived_of_five_le {style : CurveStyle} (h : 5 ≤ nparams style) (p : List F64) :
    curveDerived style p = p.map fl32OfF64 := by
  cases style
  case linToGammaLog | gammaLogToLin | linToDoubleLog | doubleLogToLin | tonescale => rfl
  all_goals exact absurd h (by decide)

section
variable {s : State} {ib ob : BitDepth} {style : CurveStyle}

/-- With the common checks passed and a style of R119, the count, the bounds and the values of the
parameters are left. -/
theorem configureCrv_of_style (hready : updReady s ib ob) (hs : styleOf (headerFlags s) = some style) :
    configureCrv s = (do
      require ((headerSecond s).toNat == nparams style) .invalidOpdata 11
      checkDescriptor s (8 + 8 * nparams style)
      let p := (List.range (nparams style)).map (curveParam s)
      require (curveParamsOk style p) .invalidOpdata 14
      return ⟨true, ib, ob, style, curveRegs (curveDerived style p) s.free⟩) := by
  obtain ⟨hdepths, hheader⟩ := updReady_checks s ib ob hready
  simp only [configureCrv, hdepths, hheader, check_ok_bind, hs]

theorem configureCrv_reserved (hready : updReady s ib ob) (hs : styleOf (headerFlags s) = none) :
    configureCrv s = .error ⟨.unsupported, 2⟩ := by
  obtain ⟨hdepths, hheader⟩ := updReady_checks s ib ob hready
  simp only [configureCrv, hdepths, hheader, check_ok_bind, hs]

theorem exec_updCrv_of_ok {u : CrvUnit} (h : configureCrv s = .ok u) :
    exec .updCrv s = .next { s with crv := u, free := s.free + 1, cp := s.cp + 4 } := by
  rw [exec_updCrv, execUpdCrv, h]
  rfl

end

/-- The registers that UPD.CRV sets, by style (46_tone_curves.md R402). -/
theorem curveRegs_curveDerived (style : CurveStyle) (param : Nat → F64) (free : Nat) :
    let p := curveRegs (curveDerived style ((List.range (nparams style)).map param)) free
    (style = .darkToDimFwd → p[0] = fl32 (9811 / 10000 - 1)) ∧
    (style = .darkToDimInv → p[0] = fl32 (10193 / 10000 - 1)) ∧
    (∀ q, ratOfF64 (param 0) = some q →
      (style = .rec2100Fwd → p[0] = fl32 (q - 1)) ∧
      (style = .rec2100Inv → p[0] = fl32 (1 / q - 1))) ∧
    (5 ≤ nparams style → ∀ k : Fin 13, k.val < nparams style → p[k] = fl32OfF64 (param k.val)) := by
  intro p
  have hp (k : Nat) (hk : k < 13) : p[k] =
      (curveDerived style ((List.range (nparams style)).map param)).getD k (Config.unspecF32 free k) :=
    curveRegs_getElem _ _ k hk
  refine ⟨?_, ?_, fun q hq => ⟨?_, ?_⟩, fun h5 k hk => ?_⟩
  · rintro rfl; exact hp 0 (by decide)
  · rintro rfl; exact hp 0 (by decide)
  · rintro rfl; simp [hp, curveDerived, nparams, hq]
  · rintro rfl; simp [hp, curveDerived, nparams, hq]
  · rw [Fin.getElem_fin, hp k.val k.isLt, curveDerived_of_five_le h5]
    simp [hk]

/-- Settles O53: the style, the count, the bounds and the values of the parameters in order, then the
whole unit. -/
theorem updCrvConfigures : Obligations.UpdCrvConfigures := by
  intro s ib ob hready fails param positive rows
  have hraise (e : Error) (h : configureCrv s = .error e) : fails e.name.code e.info :=
    exec_upd_of_raises (id := .crv) h
  have hparam : curveParam s = param := funext fun k => descF64_field s k
  refine ⟨fun h => hraise _ (configureCrv_reserved hready (styleOf_reserved h)), ?_⟩
  intro style n hrow good
  obtain ⟨hstyle, rfl⟩ := styleOf_nparams_of_mem hrow
  have hconf := configureCrv_of_style hready hstyle
  rw [hparam] at hconf
  refine ⟨fun hn => hraise ⟨.invalidOpdata, 11⟩ ?_, fun hn => ⟨fun hbus => hraise ⟨.bus, _⟩ ?_,
    fun hmapped => ⟨fun hbad => hraise ⟨.invalidOpdata, 14⟩ ?_, fun hgood => ?_⟩⟩⟩
  · rw [hconf, beq_false_of_ne hn]
    rfl
  · simp [hconf, hn, checkDescriptor_error s _ hbus]
  · have hok := mt (curveParamsOk_iff style param).1 hbad
    simp [hconf, hn, checkDescriptor_ok s _ hmapped, hok]
  · have hok := (curveParamsOk_iff style param).2 hgood
    refine ⟨_, exec_updCrv_of_ok ?_, curveRegs_curveDerived style param s.free⟩
    simp [hconf, hn, checkDescriptor_ok s _ hmapped, hok]

end Sys2Proof.Machine
end

section
/-!
Facts about binary32 patterns that the approximators rest on: magnitude and sign operations, sums with
a zero or a NaN, a polynomial at a zero or a NaN (00_scope.md R15, R17).
-/
namespace Sys2Proof.Machine

/-! ### Magnitudes and signs -/

/-- The low 31 bits give the sign-free code. -/
theorem low_congr {x y : F32} (h : ∀ i < 31, x.getLsbD i = y.getLsbD i) : low x = low y := by
  unfold low
  apply Nat.eq_of_testBit_eq
  intro i
  rw [Nat.testBit_mod_two_pow, Nat.testBit_mod_two_pow]
  by_cases hi : i < 31
  · simp only [hi, decide_true, Bool.true_and]
    exact h i hi
  · simp [hi]

theorem getLsbD_low_mask : ∀ i < 31, (0x7FFFFFFF#32).getLsbD i = true := by decide

theorem getLsbD_sign_mask : ∀ i < 31, (0x80000000#32).getLsbD i = false := by decide

@[simp] theorem low_fabs (x : F32) : low (fabs x) = low x :=
  low_congr fun i hi => by simp [fabs, getLsbD_low_mask i hi]

@[simp] theorem signbit_fabs (x : F32) : signbit (fabs x) = false := by simp [signbit, fabs]

@[simp] theorem low_copysign (m s : F32) : low (copysign m s) = low m :=
  low_congr fun i hi => by simp [copysign, getLsbD_low_mask i hi, getLsbD_sign_mask i hi]

@[simp] theorem signbit_copysign (m s : F32) : signbit (copysign m s) = signbit s := by
  simp [signbit, copysign]

@[simp] theorem low_withSign (m : F32) (neg : Bool) : low (withSign m neg) = low m := by
  cases neg
  · exact low_fabs m
  · rw [← low_fabs m]
    exact low_congr fun i hi => by simp [withSign, getLsbD_sign_mask i hi]

@[simp] theorem signbit_withSign (m : F32) (neg : Bool) : signbit (withSign m neg) = neg := by
  cases neg <;> simp [signbit, withSign, fabs]

theorem fabs_eq_iff (x y : F32) : fabs x = y ↔ signbit y = false ∧ low x = low y := by
  constructor
  · rintro rfl; simp
  · rintro ⟨hs, hl⟩; exact ext_low _ _ (by simp [hs]) (by simp [hl])

@[simp] theorem fabs_fabs (x : F32) : fabs (fabs x) = fabs x := by simp [fabs_eq_iff]

@[simp] theorem fabs_withSign (m : F32) (neg : Bool) : fabs (withSign m neg) = fabs m := by
  simp [fabs_eq_iff]

theorem isNaN_congr {x y : F32} (h : low x = low y) : isNaN x = isNaN y := by
  rw [Bool.eq_iff_iff, isNaN_iff, isNaN_iff, h]

theorem isFinite_congr {x y : F32} (h : low x = low y) : isFinite x = isFinite y := by
  rw [Bool.eq_iff_iff, isFinite_iff, isFinite_iff, h]

theorem copysign_self {m x : F32} (h : low m = low x) : copysign m x = x :=
  ext_low _ _ (by simp) (by simp [h])

/-! ### Zeros -/

theorem key_eq_zero_iff (x : F32) : key x = 0 ↔ low x = 0 := by
  have := natAbs_key x
  omega

theorem feq_zero_iff (x : F32) : feq x zero = true ↔ low x = 0 := by
  have hz : key zero = 0 := by decide
  rw [feq_iff, not_isNaN_iff, hz, key_eq_zero_iff]
  exact ⟨fun h => h.2.2, fun h => ⟨by omega, by decide, h⟩⟩

theorem eq_zero_iff (x : F32) : x = zero ↔ signbit x = false ∧ low x = 0 := by
  constructor
  · rintro rfl; decide
  · rintro ⟨hs, hl⟩; exact ext_low _ _ hs hl

/-! ### Sums -/

theorem fadd_nan_left (x y : F32) (h : isNaN x = true) : fadd x y = Config.qnan := by
  unfold fadd; rw [val_nan x h]

theorem fsub_nan_left (x y : F32) (h : isNaN x = true) : fsub x y = Config.qnan :=
  fadd_nan_left x _ h

/-- Adding a zero changes nothing but a −0, which becomes +0 unless both are −0. -/
theorem fadd_zero_left_of_ne (z x : F32) (hz : low z = 0) (hx : isFinite x = true)
    (hne : x ≠ 0x80000000#32) : fadd z x = x := by
  by_cases h0 : low x = 0
  · have hs : signbit x = false := by
      by_contra hs
      exact hne (ext_low _ _ (eq_true_of_ne_false hs) h0)
    rw [fadd_zeros z x hz h0, hs, Bool.and_false]
    exact ((eq_zero_iff x).2 ⟨hs, h0⟩).symm
  · exact fadd_zero_left z x hz hx h0

theorem isFinite_fadd_zero_left (z x : F32) (hz : low z = 0) (hx : isFinite x = true) :
    isFinite (fadd z x) = true := by
  by_cases h0 : low x = 0
  · rw [fadd_zeros z x hz h0]
    cases signbit z && signbit x <;> rfl
  · rwa [fadd_zero_left z x hz hx h0]

/-- Taking a zero from a finite non-zero pattern changes nothing. -/
theorem fsub_zero_right (x z : F32) (hx : isFinite x = true) (hx0 : low x ≠ 0) (hz : low z = 0) :
    fsub x z = x := by
  obtain ⟨hzf, hz0⟩ := ratOf_eq_zero (fneg z) (by rw [fneg_low, hz])
  unfold fsub
  rw [fadd_finite x _ hx hzf, hz0, add_zero, if_neg (ratOf_ne_zero x hx hx0)]
  exact fl32_ratOf x hx (.inl hx0)

theorem ratOf_fneg (x : F32) (hx : isFinite x = true) : ratOf (fneg x) = -ratOf x := by
  rw [ratOf_finite x hx, ratOf_finite _ ((isFinite_congr (fneg_low x)).trans hx), fneg_signbit, fneg_low]
  cases signbit x <;> simp

/-- The difference of finite patterns of one value is a zero. -/
theorem low_fsub_of_ratOf_eq (x y : F32) (hx : isFinite x = true) (hy : isFinite y = true)
    (h : ratOf x = ratOf y) : low (fsub x y) = 0 := by
  unfold fsub
  rw [fadd_finite x _ hx ((isFinite_congr (fneg_low y)).trans hy), ratOf_fneg y hy, h,
    if_pos (add_neg_cancel _)]
  exact low_signed _ _ (by norm_num)

/-! ### Quotients -/

theorem fdiv_nan_left (x y : F32) (h : isNaN x = true) : fdiv x y = Config.qnan := by
  unfold fdiv; rw [val_nan x h]

theorem fdiv_nan_right (x y : F32) (h : isNaN y = true) : fdiv x y = Config.qnan := by
  unfold fdiv; rw [val_nan y h]; cases val x <;> rfl

theorem fdiv_infinities (x y : F32) (hx : low x = 0x7F800000) (hy : low y = 0x7F800000) :
    fdiv x y = Config.qnan := by
  unfold fdiv; rw [val_infinite x hx, val_infinite y hy]

/-- A zero over a finite non-zero pattern is a zero. -/
theorem low_fdiv_zero_left (x y : F32) (hx : low x = 0) (hy : isFinite y = true) (hy0 : low y ≠ 0) :
    low (fdiv x y) = 0 := by
  unfold fdiv
  rw [val_finite x (ratOf_eq_zero x hx).1, val_finite y hy, hx, FloatFormat.mag_zero]
  simp [FloatFormat.mag_eq_zero, hy0, FloatFormat.roundMag_zero]

/-- A finite pattern over an infinity is a zero. -/
theorem low_fdiv_infinity (x y : F32) (hx : isFinite x = true) (hy : low y = 0x7F800000) :
    low (fdiv x y) = 0 := by
  unfold fdiv
  rw [val_finite x hx, val_infinite y hy]
  simp [FloatFormat.roundMag_zero]

/-! ### Polynomials -/

theorem horner_cons_cons (c d : F32) (cs : List F32) (t : F32) :
    horner (c :: d :: cs) t = fadd (fmul (horner (d :: cs) t) t) c := rfl

theorem low_fmul_zero_right (x y : F32) (hx : isFinite x = true) (hy : low y = 0) :
    low (fmul x y) = 0 := by
  rw [fmul_zero_right x y hx hy, low_signed _ _ (by norm_num)]

theorem isFinite_horner_zero (cs : List F32) (t : F32) (hcs : ∀ c ∈ cs, isFinite c = true)
    (ht : low t = 0) : isFinite (horner cs t) = true := by
  induction cs with
  | nil => exact isFinite_zero
  | cons c cs ih =>
    cases cs with
    | nil => exact hcs c (by simp)
    | cons d cs =>
      rw [horner_cons_cons]
      exact isFinite_fadd_zero_left _ _
        (low_fmul_zero_right _ _ (ih fun e he => hcs e (List.mem_cons_of_mem _ he)) ht)
        (hcs c (by simp))

/-- A polynomial of finite coefficients at a zero is its first coefficient, but for a −0. -/
theorem horner_zero (c : F32) (cs : List F32) (t : F32) (hcs : ∀ d ∈ c :: cs, isFinite d = true)
    (ht : low t = 0) (hne : c ≠ 0x80000000#32) : horner (c :: cs) t = c := by
  cases cs with
  | nil => rfl
  | cons d cs =>
    rw [horner_cons_cons]
    have htail := isFinite_horner_zero (d :: cs) t (fun e he => hcs e (List.mem_cons_of_mem _ he)) ht
    exact fadd_zero_left_of_ne _ _ (low_fmul_zero_right _ _ htail ht) (hcs c (by simp)) hne

theorem Coeffs.toList_eq_cons {n : Nat} (c : Coeffs (n + 1)) :
    c.vec.toList = c.vec[0] :: c.vec.toList.tail := by
  rw [← List.cons_head_tail (l := c.vec.toList) (by simp)]
  simp [List.head_eq_getElem]

theorem Coeffs.finite_of_mem {n : Nat} (c : Coeffs n) (x : F32) (h : x ∈ c.vec.toList) :
    isFinite x = true := by
  obtain ⟨i, hi, rfl⟩ := List.getElem_of_mem h
  exact c.finite ⟨i, by simpa using hi⟩

theorem Coeffs.eval_zero {n : Nat} (c : Coeffs (n + 1)) (t : F32) (ht : low t = 0)
    (hne : c.vec[0] ≠ 0x80000000#32) : c.eval t = c.vec[0] := by
  have hfin := c.finite_of_mem
  unfold Coeffs.eval
  rw [c.toList_eq_cons] at hfin ⊢
  exact horner_zero _ _ t hfin ht hne

theorem Coeffs.isFinite_first {n : Nat} (c : Coeffs (n + 1)) : isFinite c.vec[0] = true := c.finite 0

/-- A polynomial of positive degree at a NaN is a NaN. -/
theorem Coeffs.eval_nan {n : Nat} (c : Coeffs (n + 2)) (t : F32) (ht : isNaN t = true) :
    c.eval t = Config.qnan := by
  obtain ⟨a, b, cs, hcs⟩ : ∃ a b cs, c.vec.toList = a :: b :: cs := by
    match h : c.vec.toList, c.vec.length_toList with
    | a :: b :: cs, _ => exact ⟨a, b, cs, rfl⟩
  unfold Coeffs.eval
  rw [hcs, horner_cons_cons, fmul_nan_right _ t ht, fadd_nan_left _ _ isNaN_qnan]

end Sys2Proof.Machine
end

section
/-!
The commands of the transcendental unit, lane by lane (40_simd_math.md R140, R143 to R160).
-/
namespace Sys2Proof.Machine

/-! ### The commands as lane-wise maps -/

theorem exec_vlog2 (vd va : VReg) (s : State) : exec (.vlog2 vd va) s = laneUnary fLog2 vd va s := rfl

theorem exec_vexp2 (vd va : VReg) (s : State) : exec (.vexp2 vd va) s = laneUnary fExp2 vd va s := rfl

theorem exec_vsin (vd va : VReg) (s : State) : exec (.vsin vd va) s = laneUnary tuSin vd va s := rfl

theorem exec_vcos (vd va : VReg) (s : State) : exec (.vcos vd va) s = laneUnary fCos vd va s := rfl

theorem exec_vatan (vd va : VReg) (s : State) : exec (.vatan vd va) s = laneUnary fAtan vd va s := rfl

theorem exec_vpow (vd va vb : VReg) (s : State) :
    exec (.vpow vd va vb) s = laneBinary tuPow vd va vb s := rfl

theorem exec_vatan2 (vd va vb : VReg) (s : State) :
    exec (.vatan2 vd va vb) s = laneBinary tuAtan2 vd va vb s := rfl

theorem exec_vsincos (vd va vb : VReg) (s : State) :
    exec (.vsincos vd va vb) s = lanePair fSincos vd vb va s := rfl

/-- The sine of R158, with its constant written out. -/
theorem tuSin_eq : tuSin = fun x => fCos (fsub 0x3FC90FDB#32 x) := rfl

/-- Settles O22: each command is the lane-wise map of its approximator. -/
theorem laneWiseUnary : Obligations.LaneWiseUnary := by
  intro vd va s done
  refine ⟨exec_vlog2 vd va s, exec_vexp2 vd va s, ?sine, exec_vcos vd va s, exec_vatan vd va s⟩
  case sine => rw [exec_vsin, tuSin_eq]; rfl

/-- The atan2 of R153 with its constant written out. -/
theorem tuAtan2_eq (y x : F32) :
    tuAtan2 y x =
      if feq y 0#32 && feq x 0#32 then 0#32
      else if x.getLsbD 31 then
        (if y.getLsbD 31 then fsub (fAtan (fdiv y x)) 0x40490FDB#32
          else fadd (fAtan (fdiv y x)) 0x40490FDB#32)
      else fAtan (fdiv y x) := rfl

theorem tuPow_eq (x y : F32) :
    tuPow x y = if isNaN x || fle x 0#32 then 0#32 else fExp2 (fmul y (fLog2 x)) := rfl

/-- Settles O23: each command is the lane-wise map of its two-argument function. -/
theorem laneWiseBinary : Obligations.LaneWiseBinary := by
  intro vd va vb s done
  refine ⟨?pow, ?atan2⟩
  case pow => simp only [exec_vpow, ← tuPow_eq]; rfl
  case atan2 => simp only [exec_vatan2, ← tuAtan2_eq]; rfl

/-! ### The sign of a sine -/

theorem sineSign_eq (x : F32) :
    sineSign x = ((reduceAngle x).k % 2 != 0 ^^ signbit (reduceAngle x).r) := by
  unfold sineSign Reduced.odd
  exact bne_comm

/-- The sine of a finite angle has the sign of R160, whatever its field holds. -/
theorem signbit_fSine (x : F32) (hx : isFinite x = true) : signbit (fSine x) = sineSign x := by
  unfold fSine
  rw [if_pos hx, signbit_withSign]

/-- Settles O24: the pair of writes in their order, and the sign that every sine is given. -/
theorem sincosWritesBoth : Obligations.SincosWritesBoth := by
  refine ⟨fun vd va vb s => exec_vsincos vd va vb s, fun x hx => ?_⟩
  rw [← sineSign_eq]
  exact signbit_fSine x hx

end Sys2Proof.Machine
end

section
/-!
The reference log2, exp2 and atan at their special inputs (40_simd_math.md R142 to R152).
-/
namespace Sys2Proof.Machine

/-! ### log2: the exponent and the mantissa from the sign-free code (R142, R144) -/

/-- The fraction bits of a pattern as a number of `[1, 2)`: the mantissa of `refLog2`. -/
def mantissa (x : F32) : F32 := signed false (127 * 2 ^ 23 + low x % 2 ^ 23)

theorem mantissa_eq (x : F32) : (x &&& 0x007FFFFF#32) ||| 0x3F800000#32 = mantissa x := by
  have hfrac : x.toNat &&& 0x7FFFFF = low x % 2 ^ 23 := by
    rw [show 0x7FFFFF = 2 ^ 23 - 1 from rfl, Nat.and_two_pow_sub_one_eq_mod, low]
    omega
  have hlt : low x % 2 ^ 23 < 2 ^ 23 := Nat.mod_lt _ (by norm_num)
  apply BitVec.eq_of_toNat_eq
  rw [mantissa, signed_toNat _ _ (by omega), BitVec.toNat_or, BitVec.toNat_and]
  simp only [BitVec.toNat_ofNat, Nat.reducePow, Nat.reduceMod, Bool.false_eq_true, if_false, zero_add]
  rw [hfrac, Nat.or_comm, show 0x3F800000 = 2 ^ 23 * 127 from rfl, ← Nat.two_pow_add_eq_or_of_lt hlt]
  omega

theorem refLog2_eq (c : Coeffs 6) (x : F32) :
    refLog2 c x = fadd (fl32Int (((low x / 2 ^ 23 : Nat) : Int) - 127)) (c.eval (mantissa x)) := by
  rw [refLog2, exponent_toNat, mantissa_eq]

/-- The value of a mantissa: 1 and the fraction. -/
theorem mantissa_value (x : F32) :
    isFinite (mantissa x) = true ∧ ratOf (mantissa x) = 1 + ((low x % 2 ^ 23 : Nat) : ℚ) / 2 ^ 23 := by
  have hlt : low x % 2 ^ 23 < 2 ^ 23 := Nat.mod_lt _ (by norm_num)
  have hlow : low (mantissa x) = 126 * 2 ^ 23 + (2 ^ 23 + low x % 2 ^ 23) := by
    rw [mantissa, low_signed _ _ (by omega)]; omega
  have hfin : isFinite (mantissa x) = true := by rw [isFinite_iff, hlow]; omega
  refine ⟨hfin, ?_⟩
  have hsign : signbit (mantissa x) = false := signbit_signed _ _ (by omega)
  rw [ratOf_finite _ hfin, hsign, if_neg Bool.false_ne_true, hlow,
    mag_code _ _ (by omega) (.inl (by omega)), show ((126 : Nat) : Int) - 149 = -23 by norm_num, pow2_eq]
  push_cast
  ring

theorem mantissa_bounds (x : F32) : 1 ≤ ratOf (mantissa x) ∧ ratOf (mantissa x) < 2 := by
  have hlt : ((low x % 2 ^ 23 : Nat) : ℚ) < 2 ^ 23 := by
    exact_mod_cast Nat.mod_lt (low x) (by norm_num : 0 < 2 ^ 23)
  have h1 : ((low x % 2 ^ 23 : Nat) : ℚ) / 2 ^ 23 < 1 := by rwa [div_lt_one (by norm_num)]
  have h0 : 0 ≤ ((low x % 2 ^ 23 : Nat) : ℚ) / 2 ^ 23 := by positivity
  rw [(mantissa_value x).2]
  constructor <;> linarith

/-- The mantissa is above 1 where a fraction bit is set. -/
theorem one_lt_mantissa (x : F32) (h : low x % 2 ^ 23 ≠ 0) : 1 < ratOf (mantissa x) := by
  have h0 : (0 : ℚ) < ((low x % 2 ^ 23 : Nat) : ℚ) / 2 ^ 23 :=
    div_pos (by exact_mod_cast Nat.pos_of_ne_zero h) (by norm_num)
  rw [(mantissa_value x).2]
  linarith

theorem mantissa_of_fraction_zero (x : F32) (h : low x % 2 ^ 23 = 0) : mantissa x = one := by
  rw [mantissa, h]; rfl

theorem isNormal_iff (x : F32) : isNormal x = true ↔ isFinite x = true ∧ low x / 2 ^ 23 ≠ 0 := by
  unfold isNormal
  rw [Bool.and_eq_true, bne_iff_ne, ne_eq, ← BitVec.toNat_inj, exponent_toNat]
  rfl

theorem exponent_of_not_normal (x : F32) (hx : isFinite x = true) (hn : isNormal x = false) :
    low x / 2 ^ 23 = 0 := by
  by_contra hex
  rw [(isNormal_iff x).2 ⟨hx, hex⟩] at hn
  exact Bool.noConfusion hn

/-- A normal number is its mantissa times the power of its exponent. -/
theorem ratOf_normal (x : F32) (hx : isNormal x = true) (hs : signbit x = false) :
    ratOf x = 2 ^ (((low x / 2 ^ 23 : Nat) : Int) - 127) * ratOf (mantissa x) := by
  obtain ⟨hfin, hex⟩ := (isNormal_iff x).1 hx
  rw [ratOf_finite x hfin, hs, if_neg Bool.false_ne_true, (mantissa_value x).2,
    binary32.mag_normal (low x) hex, show binary32.fracBits = 23 from rfl,
    show binary32.ulpExp = -149 from rfl, pow2_eq]
  generalize low x / 2 ^ 23 = e
  rw [show (e : Int) - 1 + -149 = (e : Int) - 127 + -23 by ring, zpow_add₀ (by norm_num)]
  push_cast
  ring

/-- A subnormal number is its fraction times the power of the smallest exponent. -/
theorem ratOf_subnormal (x : F32) (hex : low x / 2 ^ 23 = 0) (hs : signbit x = false) :
    ratOf x = 2 ^ (-126 : Int) * (ratOf (mantissa x) - 1) := by
  have hfin : isFinite x = true := by rw [isFinite_iff]; omega
  have hmag : binary32.mag (low x) = ((low x % 2 ^ 23 : Nat) : ℚ) * pow2 (-149) := by
    rw [FloatFormat.mag, FloatFormat.units, show binary32.fracBits = 23 from rfl, if_pos hex]; rfl
  rw [ratOf_finite x hfin, hs, if_neg Bool.false_ne_true, (mantissa_value x).2, hmag, pow2_eq]
  norm_num
  ring

theorem signbit_of_ratOf_pos (x : F32) (hfin : isFinite x = true) (h : 0 < ratOf x) :
    signbit x = false := by
  by_contra hs
  rw [ratOf_finite x hfin, if_pos (eq_true_of_ne_false hs)] at h
  linarith [binary32.mag_nonneg (low x)]

theorem refLog2_fneg (c : Coeffs 6) (x : F32) : refLog2 c (fneg x) = refLog2 c x := by
  rw [refLog2_eq, refLog2_eq, mantissa, mantissa, fneg_low]

theorem refLog2_zero (c : Coeffs 6) (x : F32) (hx : low x = 0) :
    refLog2 c x = fadd (fl32Int (-127)) (c.eval one) := by
  rw [refLog2_eq, mantissa_of_fraction_zero x (by rw [hx]; rfl), hx]; rfl

theorem refLog2_infinity (c : Coeffs 6) (x : F32) (hx : low x = 0x7F800000) :
    refLog2 c x = fadd (fl32Int 128) (c.eval one) := by
  rw [refLog2_eq, mantissa_of_fraction_zero x (by rw [hx]; rfl), hx]; rfl

/-- A NaN has the exponent of an infinity and a fraction bit set. -/
theorem refLog2_nan (c : Coeffs 6) (x : F32) (hx : isNaN x = true) :
    refLog2 c x = fadd (fl32Int 128) (c.eval (mantissa x)) ∧ 1 < ratOf (mantissa x) := by
  have hlow := (isNaN_iff x).1 hx
  have hlt := low_lt x
  have hex : low x / 2 ^ 23 = 255 := by omega
  exact ⟨by rw [refLog2_eq, hex]; rfl, one_lt_mantissa x (by omega)⟩

/-! ### exp2: inside the clamps, and at the integers (R145 to R147) -/

theorem exp2Bounds_value : ratOf exp2Hi = 128 ∧ ratOf exp2Lo = -126 := by decide +kernel

theorem exp2Bounds_finite : isFinite exp2Hi = true ∧ isFinite exp2Lo = true := by decide

/-- From −126 up to below 128 no clamp of exp2 acts. -/
theorem exp2_unclamped (x : F32) (hx : isFinite x = true) (hlo : -126 ≤ ratOf x) (hhi : ratOf x < 128) :
    isNaN x = false ∧ fle exp2Hi x = false ∧ flt x exp2Lo = false := by
  obtain ⟨vhi, vlo⟩ := exp2Bounds_value
  obtain ⟨fhi, flo⟩ := exp2Bounds_finite
  refine ⟨isNaN_of_isFinite x hx, ?_, ?_⟩
  · rw [← Bool.not_eq_true, fle_iff, key_le_iff _ _ fhi hx, vhi]
    exact fun h => absurd h.2.2 (not_le.2 hhi)
  · rw [← Bool.not_eq_true, flt_iff, key_lt_iff _ _ hx flo, vlo]
    exact fun h => absurd h.2.2 (not_lt.2 hlo)

theorem refExp2_of_unclamped (c : Coeffs 5) (x : F32)
    (h : isNaN x = false ∧ fle exp2Hi x = false ∧ flt x exp2Lo = false) :
    refExp2 c x = refExp2Core c x := by
  obtain ⟨hnan, hhi, hlo⟩ := h
  simp [refExp2, hnan, hhi, hlo]

theorem not_isNaN_of_fle {x y : F32} (h : fle x y = true) : isNaN x = false ∧ isNaN y = false :=
  ⟨((fle_iff x y).1 h).1, ((fle_iff x y).1 h).2.1⟩

/-- Below −126 is not from 128 up. -/
theorem fle_exp2Hi_of_flt (x : F32) (h : flt x exp2Lo = true) : isNaN x = false ∧ fle exp2Hi x = false := by
  obtain ⟨hnan, -, hkey⟩ := (flt_iff _ _).1 h
  refine ⟨hnan, ?_⟩
  rw [← Bool.not_eq_true, fle_iff]
  have hbounds : key exp2Lo < key exp2Hi := by decide
  exact fun hle => absurd (hkey.trans hbounds) (not_lt.2 hle.2.2)

theorem refExp2_high (c : Coeffs 5) (x : F32) (h : fle exp2Hi x = true) :
    refExp2 c x = infinity false := by
  simp [refExp2, (not_isNaN_of_fle h).2, h]

theorem refExp2_low (c : Coeffs 5) (x : F32) (h : flt x exp2Lo = true) : refExp2 c x = zero := by
  obtain ⟨hnan, hhi⟩ := fle_exp2Hi_of_flt x h
  simp [refExp2, hnan, hhi, h]

theorem pow2F32_value (k : Int) (hlo : -126 ≤ k) (hhi : k ≤ 127) :
    isFinite (pow2F32 k) = true ∧ ratOf (pow2F32 k) = 2 ^ k := by
  obtain ⟨j, hj⟩ : ∃ j : Nat, k = j - 126 := ⟨(k + 126).toNat, by omega⟩
  have hcode : pow2F32 k = signed false (j * 2 ^ 23 + 2 ^ 23) := by
    unfold pow2F32 signed
    rw [show (k + 127).toNat = j + 1 by omega, Nat.add_mul, Nat.one_mul]; rfl
  have hlow : low (pow2F32 k) = j * 2 ^ 23 + 2 ^ 23 := by rw [hcode, low_signed _ _ (by omega)]
  have hsign : signbit (pow2F32 k) = false := by rw [hcode, signbit_signed _ _ (by omega)]
  have hfin : isFinite (pow2F32 k) = true := by rw [isFinite_iff, hlow]; omega
  refine ⟨hfin, ?_⟩
  rw [ratOf_finite _ hfin, hsign, if_neg Bool.false_ne_true, hlow,
    mag_code j _ (by norm_num) (.inl le_rfl), show ((2 ^ 23 : Nat) : ℚ) = pow2 (23 : Nat) by
      rw [pow2_natCast]; norm_num, ← pow2_add, pow2_eq, hj]
  congr 1
  push_cast
  ring

theorem ffloor_of_integer (x : F32) (k : Int) (h : ratOf x = k) : ffloor x = k := by
  rw [ffloor, h]; exact Rat.floor_intCast k

/-- At an integer the reduced argument is a zero and the polynomial its first coefficient. -/
theorem refExp2_integer (c : Coeffs 5) (x : F32) (k : Int) (hc : c.vec[0] = one) (hlo : -126 ≤ k)
    (hhi : k ≤ 127) (hx : isFinite x = true) (hk : ratOf x = k) : refExp2 c x = pow2F32 k := by
  have hlo' : (-126 : ℚ) ≤ k := by exact_mod_cast hlo
  have hhi' : (k : ℚ) < 128 := by exact_mod_cast (by omega : k < 128)
  obtain ⟨hkfin, hkval⟩ := fl32Int_exact k (by omega)
  have hzero : low (fsub x (fl32Int k)) = 0 := low_fsub_of_ratOf_eq x _ hx hkfin (hk.trans hkval.symm)
  have heval : c.eval (fsub x (fl32Int k)) = one := by
    rw [← hc]; exact c.eval_zero _ hzero (by rw [hc]; decide)
  rw [refExp2_of_unclamped c x (exp2_unclamped x hx (by rwa [hk]) (by rwa [hk])), refExp2Core,
    ffloor_of_integer x k hk, heval]
  exact fmul_one_left _ (isNaN_of_isFinite _ (pow2F32_value k hlo hhi).1)

/-! ### atan (R150, R152) -/

theorem refAtan_direct (p : Coeffs 6) (q : Coeffs 7) (x : F32) (h : flt one (fabs x) = false) :
    refAtan p q x = copysign (fdiv (p.eval (fabs x)) (q.eval (fabs x))) x := by
  simp [refAtan, h]

theorem refAtan_inverted (p : Coeffs 6) (q : Coeffs 7) (x : F32) (h : flt one (fabs x) = true) :
    refAtan p q x =
      copysign (fsub pio2 (fdiv (p.eval (fdiv one (fabs x))) (q.eval (fdiv one (fabs x))))) x := by
  simp [refAtan, h]

/-- The quotient of the polynomials at a zero is a zero. -/
theorem low_quotient_zero (p : Coeffs 6) (q : Coeffs 7) (t : F32) (hp : p.vec[0] = zero)
    (hq : feq q.vec[0] zero = false) (ht : low t = 0) : low (fdiv (p.eval t) (q.eval t)) = 0 := by
  have hq0 : low q.vec[0] ≠ 0 := by rwa [← Bool.not_eq_true, feq_zero_iff] at hq
  have hqne : q.vec[0] ≠ 0x80000000#32 := fun h => hq0 (by rw [h]; rfl)
  rw [p.eval_zero t ht (by rw [hp]; decide), q.eval_zero t ht hqne, hp]
  exact low_fdiv_zero_left _ _ rfl q.isFinite_first hq0

theorem refAtan_zero (p : Coeffs 6) (q : Coeffs 7) (x : F32) (hp : p.vec[0] = zero)
    (hq : feq q.vec[0] zero = false) (hx : low x = 0) : refAtan p q x = x := by
  have habs : fabs x = zero := (fabs_eq_iff _ _).2 ⟨rfl, hx⟩
  rw [refAtan_direct p q x (by rw [habs]; decide), habs]
  exact copysign_self ((low_quotient_zero p q zero hp hq rfl).trans hx.symm)

theorem refAtan_infinity (p : Coeffs 6) (q : Coeffs 7) (x : F32) (hp : p.vec[0] = zero)
    (hq : feq q.vec[0] zero = false) (hx : low x = 0x7F800000) : refAtan p q x = copysign pio2 x := by
  have habs : fabs x = infinity false := (fabs_eq_iff _ _).2 ⟨rfl, hx⟩
  have hzero : low (fdiv one (fabs x)) = 0 := low_fdiv_infinity _ _ isFinite_one ((low_fabs x).trans hx)
  rw [refAtan_inverted p q x (by rw [habs]; decide),
    fsub_zero_right pio2 _ (by decide) (by decide) (low_quotient_zero p q _ hp hq hzero)]

theorem isNaN_refAtan (p : Coeffs 6) (q : Coeffs 7) (x : F32) (hx : isNaN x = true) :
    isNaN (refAtan p q x) = true := by
  have habs : isNaN (fabs x) = true := by rwa [isNaN_congr (low_fabs x)]
  have hflt : flt one (fabs x) = false := by simp [flt, habs]
  rw [refAtan_direct p q x hflt, p.eval_nan _ habs, fdiv_nan_left _ _ isNaN_qnan,
    isNaN_congr (low_copysign _ _)]
  exact isNaN_qnan

theorem refAtan_one (p : Coeffs 6) (q : Coeffs 7) (x : F32) (hx : fabs x = one) :
    refAtan p q x = copysign (fdiv (p.eval one) (q.eval one)) x := by
  rw [refAtan_direct p q x (by rw [hx]; decide), hx]

/-! ### The three functions together -/

/-- Settles O26: log2 by its exponent and mantissa, exp2 by its clamps and the integers, atan by the
class of its operand. -/
theorem referenceInstancesExactPoints : Obligations.ReferenceInstancesExactPoints := by
  refine ⟨?log2, fun c x hc => ?exp2, fun p q x hp hq => ?atan⟩
  case log2 =>
    intro c x sum
    obtain ⟨hfinm, -⟩ := mantissa_value x
    obtain ⟨hone, htwo⟩ := mantissa_bounds x
    refine ⟨refLog2_fneg c x, fun h => refLog2_zero c x ((fabs_eq_iff _ _).1 h).2,
      fun h => refLog2_infinity c x ((fabs_eq_iff _ _).1 h).2, fun h => ?nan, fun hfin hpos => ?positive⟩
    case nan =>
      obtain ⟨hsum, hlt⟩ := refLog2_nan c x h
      exact ⟨mantissa x, hfinm, hlt, htwo, hsum⟩
    case positive =>
      have hs := signbit_of_ratOf_pos x hfin hpos
      refine ⟨_, mantissa x, hfinm, hone, htwo, refLog2_eq c x, fun hn => ratOf_normal x hn hs,
        fun hn => ?subnormal⟩
      case subnormal =>
        have hex := exponent_of_not_normal x hfin hn
        exact ⟨by rw [hex]; rfl, ratOf_subnormal x hex hs⟩
  case exp2 =>
    exact ⟨fun h => if_pos h, refExp2_high c x, refExp2_low c x,
      fun k hlo hhi hx hk => refExp2_integer c x k hc hlo hhi hx hk⟩
  case atan =>
    exact ⟨fun h => refAtan_zero p q x hp hq ((fabs_eq_iff _ _).1 h).2,
      fun h => refAtan_infinity p q x hp hq ((fabs_eq_iff _ _).1 h).2,
      isNaN_refAtan p q x, refAtan_one p q x⟩

end Sys2Proof.Machine
end

section
/-!
What every approximator gives, whatever is configured in its field (40_simd_math.md R148, R153, R162, R163).
-/
namespace Sys2Proof.Machine

/-! ### exp2 and pow -/

theorem fExp2_of_fixed (x y : F32) (h : exp2Fixed x = some y) : fExp2 x = y := by
  unfold fExp2; rw [h]

theorem fExp2_nan (x : F32) (h : isNaN x = true) : fExp2 x = zero :=
  fExp2_of_fixed x _ (if_pos h)

theorem fExp2_high (x : F32) (h : fle exp2Hi x = true) : fExp2 x = infinity false := by
  apply fExp2_of_fixed
  simp [exp2Fixed, (not_isNaN_of_fle h).2, h]

theorem fExp2_low (x : F32) (h : flt x exp2Lo = true) : fExp2 x = zero := by
  obtain ⟨hnan, hhi⟩ := fle_exp2Hi_of_flt x h
  apply fExp2_of_fixed
  simp [exp2Fixed, hnan, hhi, h]

/-- Between the clamps only the integers are fixed. -/
theorem exp2Fixed_of_unclamped (x : F32)
    (h : isNaN x = false ∧ fle exp2Hi x = false ∧ flt x exp2Lo = false) :
    exp2Fixed x = if ((ffloor x : Int) : ℚ) = ratOf x then some (pow2F32 (ffloor x)) else none := by
  obtain ⟨hnan, hhi, hlo⟩ := h
  simp [exp2Fixed, hnan, hhi, hlo]

theorem fExp2_integer (x : F32) (k : Int) (hx : isFinite x = true) (hk : ratOf x = k)
    (hlo : -126 ≤ k) (hhi : k ≤ 127) : fExp2 x = pow2F32 k := by
  have hlo' : (-126 : ℚ) ≤ k := by exact_mod_cast hlo
  have hhi' : (k : ℚ) < 128 := by exact_mod_cast (by omega : k < 128)
  apply fExp2_of_fixed
  rw [exp2Fixed_of_unclamped x (exp2_unclamped x hx (by rwa [hk]) (by rwa [hk])),
    ffloor_of_integer x k hk, if_pos hk.symm]

/-- The bound of R163 for `F_exp2`: exact at the integers, and elsewhere that of the field. -/
theorem fExp2_precise : Exp2Precise fExp2 := by
  intro x hx hlo hhi
  by_cases hint : ((ffloor x : Int) : ℚ) = ratOf x
  · rw [← hint] at hlo hhi ⊢
    have hlo' : -126 ≤ ffloor x := by exact_mod_cast hlo
    have hhi' : ffloor x < 128 := by exact_mod_cast hhi
    obtain ⟨hfin, hval⟩ := pow2F32_value (ffloor x) hlo' (by omega)
    rw [fExp2_integer x _ hx hint.symm hlo' (by omega)]
    refine ⟨hfin, ?_⟩
    rw [hval]
    push_cast
    rw [Real.rpow_intCast, sub_self, abs_zero]
    positivity
  · have hnone : exp2Fixed x = none := by
      rw [exp2Fixed_of_unclamped x (exp2_unclamped x hx hlo hhi), if_neg hint]
    have hfield : fExp2 x = exp2Field.replacement.getD (refExp2 exp2Field.cExp2) x := by
      unfold fExp2; rw [hnone]
    rw [hfield]
    exact exp2Field.precise x hx hlo hhi

theorem tuPow_zero (x y : F32) (h : fle x zero = true ∨ isNaN x = true ∨ isNaN y = true) :
    tuPow x y = zero := by
  unfold tuPow
  split
  · rfl
  · next hbase =>
    have hy : isNaN y = true := by
      rw [Bool.or_eq_true, not_or] at hbase
      exact (h.resolve_left hbase.2).resolve_left hbase.1
    rw [fmul_nan_left y _ hy, fExp2_nan _ isNaN_qnan]

/-! ### atan2 -/

/-- A NaN of the atan stays a NaN through the move by ±PI32. -/
theorem isNaN_atan2With (f : F32 → F32) (y x : F32) (hzero : ¬(low y = 0 ∧ low x = 0))
    (h : isNaN (f (fdiv y x)) = true) : isNaN (atan2With f y x) = true := by
  unfold atan2With
  rw [if_neg (by rwa [Bool.and_eq_true, feq_zero_iff, feq_zero_iff])]
  simp only [fsub_nan_left _ _ h, fadd_nan_left _ _ h]
  split
  · rw [ite_self]; exact isNaN_qnan
  · exact h

theorem isNaN_tuAtan2 (y x : F32) (hzero : ¬(low y = 0 ∧ low x = 0))
    (h : fdiv y x = Config.qnan) : isNaN (tuAtan2 y x) = true :=
  isNaN_atan2With fAtan y x hzero (by rw [h]; exact atanField.keepsNaN)

theorem tuAtan2_zeros (y x : F32) (hy : low y = 0) (hx : low x = 0) : tuAtan2 y x = zero := by
  unfold tuAtan2 atan2With
  rw [if_pos (by rw [Bool.and_eq_true, feq_zero_iff, feq_zero_iff]; exact ⟨hy, hx⟩)]

theorem isNaN_tuAtan2_of_nan (y x : F32) (h : isNaN y = true ∨ isNaN x = true) :
    isNaN (tuAtan2 y x) = true := by
  apply isNaN_tuAtan2
  · rw [isNaN_iff, isNaN_iff] at h; omega
  · exact h.elim (fdiv_nan_left y x) (fdiv_nan_right y x)

theorem isNaN_tuAtan2_of_infinities (y x : F32) (hy : low y = 0x7F800000) (hx : low x = 0x7F800000) :
    isNaN (tuAtan2 y x) = true :=
  isNaN_tuAtan2 y x (by omega) (fdiv_infinities y x hy hx)

/-! ### The sine of sincos -/

theorem fSine_precise : SinPrecise trigField.trigMax fSine := by
  intro x hx hmax
  have hsine : fSine x = withSign (trigField.sine.getD (refSine trigField.cCos) x) (sineSign x) :=
    if_pos hx
  rw [hsine]
  exact trigField.sinePrecise x hx hmax

/-! ### All requirements -/

/-- Settles O25: the points that the model fixes for every field, and for the rest what the types of
the configuration fields ask. -/
theorem approximatorsMeetRequirements : Obligations.ApproximatorsMeetRequirements := by
  refine ⟨⟨fExp2_nan, fExp2_high, fExp2_low, fun k hlo hhi => ?integer⟩, tuPow_zero,
    fun y x => ⟨fun hy hx => ?zeros, isNaN_tuAtan2_of_nan y x, fun hy hx => ?infinities⟩,
    atanField.monotone, ?precise, ?targets⟩
  case integer =>
    obtain ⟨hfin, hval⟩ := fl32Int_exact k (by omega)
    exact fExp2_integer _ k hfin hval hlo hhi
  case zeros => exact tuAtan2_zeros y x ((fabs_eq_iff _ _).1 hy).2 ((fabs_eq_iff _ _).1 hx).2
  case infinities =>
    exact isNaN_tuAtan2_of_infinities y x ((fabs_eq_iff _ _).1 hy).2 ((fabs_eq_iff _ _).1 hx).2
  case precise =>
    exact ⟨log2Field.precise, fExp2_precise, atanField.precise, atanField.precise2,
      trigField.cosPrecise, trigField.sinPrecise, fSine_precise, trigField.cosPrecise⟩
  case targets =>
    exact ⟨log2Field.target, exp2Field.target, atanField.target, trigField.target⟩

end Sys2Proof.Machine
end

section
/-!
The reference cos and sincos: the reduced angle, its nearest cycle count, and the values at ±0 and at
PI32 (40_simd_math.md R155, R157, R160, R161).
-/
namespace Sys2Proof.Machine

/-! ### The cycle count -/

/-- `roundTiesEven` of a signed value is a nearest integer, an even one at a tie. -/
theorem fround_near (x : F32) :
    |(fround x : ℚ) - ratOf x| ≤ 1 / 2 ∧ (|(fround x : ℚ) - ratOf x| = 1 / 2 → fround x % 2 = 0) := by
  by_cases h : ratOf x < 0
  · obtain ⟨hnear, htie⟩ := roundTiesEven_near (-ratOf x) (by linarith)
    have hdist : |(fround x : ℚ) - ratOf x| = |(roundTiesEven (-ratOf x) : ℚ) - -ratOf x| := by
      rw [fround, if_pos h, ← abs_neg]
      push_cast
      ring_nf
    rw [hdist]
    refine ⟨hnear, fun heq => ?_⟩
    have heven := htie heq
    rw [fround, if_pos h]
    omega
  · obtain ⟨hnear, htie⟩ := roundTiesEven_near (ratOf x) (not_lt.1 h)
    rw [fround_of_nonneg x (not_lt.1 h)]
    exact ⟨by exact_mod_cast hnear, fun heq => by exact_mod_cast htie (by exact_mod_cast heq)⟩

theorem mag_invPi32_le_one : binary32.mag (low invPi32) ≤ 1 := by
  rw [← mag_one]
  exact binary32.mag_strictMono.monotone (by decide)

/-- The quotient by π of a finite angle is finite. -/
theorem isFinite_fmul_invPi32 (x : F32) (hx : isFinite x = true) :
    isFinite (fmul x invPi32) = true := by
  have hmag : binary32.mag (low x) ≤ maxFinite := by
    rw [isFinite_iff] at hx
    rw [← mag_maxFinite]
    exact binary32.mag_strictMono.monotone (by omega)
  rw [fmul_finite x _ hx (by decide), isFinite_iff, low_roundSigned]
  exact roundMag_finite _ (mul_nonneg (binary32.mag_nonneg _) (binary32.mag_nonneg _))
    ((mul_le_of_le_one_right (binary32.mag_nonneg _) mag_invPi32_le_one).trans hmag)

/-! ### The reduced angle at ±0 and at PI32 -/

theorem reduceAngle_zero (x : F32) (hx : low x = 0) : reduceAngle x = ⟨0, x, zero⟩ := by
  have hcases : x = 0x00000000#32 ∨ x = 0x80000000#32 := by
    obtain ⟨hfin, hval⟩ := ratOf_eq_zero x hx
    exact (zero_cases x hfin (by rw [hval, ratOf_zero, abs_zero])).2
  rcases hcases with rfl | rfl <;> decide +kernel

theorem reduceAngle_pi32 : reduceAngle pi32 = ⟨1, zero, zero⟩ := by decide +kernel

/-! ### cos and sincos from the reduced angle -/

theorem refCos_finite (c : Coeffs 6) (x : F32) (hx : isFinite x = true) :
    refCos c x =
      if (reduceAngle x).k % 2 = 0 then c.eval (reduceAngle x).s else fneg (c.eval (reduceAngle x).s) := by
  simp only [refCos, hx, Reduced.odd, Bool.not_true, Bool.false_eq_true, if_false]
  by_cases hk : (reduceAngle x).k % 2 = 0 <;> simp [hk]

theorem refSine_finite (c : Coeffs 6) (x : F32) (hx : isFinite x = true) :
    refSine c x = withSign (refSineMag c x) (sineSign x) := by
  simp [refSine, hx]

/-- Where the reduced angle is a zero the sine's magnitude is 0. -/
theorem low_refSine_of_zero (c : Coeffs 6) (x : F32) (hx : isFinite x = true)
    (hr : low (reduceAngle x).r = 0) (hs : (reduceAngle x).s = zero) : low (refSine c x) = 0 := by
  have hthreshold : flt sincosThreshold zero = false := by decide
  rw [refSine_finite c x hx, low_withSign, refSineMag]
  simp only [hs, hthreshold, Bool.false_eq_true, if_false, low_fabs, hr]

theorem refSincos_zero (c : Coeffs 6) (x : F32) (hc : c.vec[0] ≠ 0x80000000#32) (hx : low x = 0) :
    refCos c x = c.vec[0] ∧ refSine c x = x := by
  have hfin := (ratOf_eq_zero x hx).1
  have hred := reduceAngle_zero x hx
  constructor
  · rw [refCos_finite c x hfin, hred, if_pos (Int.zero_emod 2)]
    exact c.eval_zero zero rfl hc
  · apply ext_low
    · rw [refSine_finite c x hfin, signbit_withSign, sineSign_eq, hred]; exact Bool.false_xor _
    · rw [low_refSine_of_zero c x hfin (by rw [hred]; exact hx) (by rw [hred]), hx]

theorem refSincos_pi32 (c : Coeffs 6) (hc : c.vec[0] ≠ 0x80000000#32) :
    refCos c pi32 = fneg c.vec[0] ∧ refSine c pi32 = 0x80000000#32 := by
  have hfin : isFinite pi32 = true := ratOf_pi32.1
  have hred := reduceAngle_pi32
  constructor
  · rw [refCos_finite c pi32 hfin, hred, if_neg (by decide), c.eval_zero zero rfl hc]
  · apply ext_low
    · rw [refSine_finite c pi32 hfin, signbit_withSign, sineSign_eq, hred]; rfl
    · rw [low_refSine_of_zero c pi32 hfin (by rw [hred]; rfl) (by rw [hred])]; rfl

theorem odd_eq_decide (k : Int) : (k % 2 != 0) = decide (k % 2 ≠ 0) := by
  rw [Bool.eq_iff_iff, bne_iff_ne, decide_eq_true_iff]

theorem refSincos_eq (c : Coeffs 6) (x : F32) : refSincos c x = (refSine c x, refCos c x) := rfl

/-- Off the finite numbers both results are QNAN. -/
theorem refSincos_not_finite (c : Coeffs 6) (x : F32) (hx : isFinite x = false) :
    refCos c x = Config.qnan ∧ refSine c x = Config.qnan := by
  simp [refCos, refSine, hx]

theorem fabs_refSine (c : Coeffs 6) (x : F32) (hx : isFinite x = true) :
    fabs (refSine c x) = fabs (refSineMag c x) := by
  rw [refSine_finite c x hx, fabs_withSign]

/-- Settles O27: the values off the finite numbers, at ±0 and at PI32, and for a finite angle the
cosine, sign and magnitude from the reduced angle. -/
theorem referenceSincosValues : Obligations.ReferenceSincosValues := by
  intro c x
  refine ⟨fun hx => ?notFinite, fun hc => ⟨fun hx => ?zero, ?pi⟩, fun hx => ?finite⟩
  case notFinite =>
    obtain ⟨hcos, hsine⟩ := refSincos_not_finite c x hx
    exact ⟨hcos, by rw [refSincos_eq, hcos, hsine]⟩
  case zero =>
    obtain ⟨hcos, hsine⟩ := refSincos_zero c x hc ((fabs_eq_iff _ _).1 hx).2
    exact ⟨hcos, by rw [refSincos_eq, hcos, hsine]⟩
  case pi =>
    obtain ⟨hcos, hsine⟩ := refSincos_pi32 c hc
    exact ⟨hcos, (refSincos_eq c pi32).trans (by rw [hcos, hsine])⟩
  case finite =>
    obtain ⟨hnear, htie⟩ := fround_near (fmul x invPi32)
    refine ⟨(reduceAngle x).k, isFinite_fmul_invPi32 x hx, hnear, htie, refCos_finite c x hx, rfl,
      ?sign, ?magnitude⟩
    case sign =>
      rw [refSincos_eq, refSine_finite c x hx, signbit_withSign, sineSign_eq, Bool.xor_comm]
      exact congrArg _ (odd_eq_decide _)
    case magnitude =>
      rw [refSincos_eq, fabs_refSine c x hx, refSineMag, apply_ite fabs, fabs_fabs]
      rfl

end Sys2Proof.Machine
end

section
/-!
WRCFG, the vector accesses and the vector form of the unit commands: each check with its error, and
the state in which each completes (41_bitdepth_pixel_io.md R201 to R204).
-/
namespace Sys2Proof.Machine

open Sys2Proof.Safety

/-- A checked command that raises ends in error entry, written out (60_exceptions.md R470). -/
theorem finish_of_error {c : Check State} {e : Error} (s : State) (h : c = .error e) :
    finish c s = .next (erring e.name.code e.info s) := by
  rw [h, finish_error, errorEntry_eq_erring]

/-! ### WRCFG (R204) -/

theorem exec_wrcfg (va : VReg) (index : BitVec 4) (s : State) :
    exec (.wrcfg va index) s = finish (writeCfg va index s) s := rfl

theorem exec_wrcfg_of_set {va : VReg} {index : BitVec 4} {s : State} {c : Cfg}
    (h : s.cfg.set index.toNat (s.vreg va).r = some c) :
    exec (.wrcfg va index) s = .next { s with cfg := c, cp := s.cp + 4 } := by
  rw [exec_wrcfg, writeCfg, h]
  rfl

/-- Settles O17: at each index `Cfg.set` gives CFG with the one register of R122 replaced. -/
theorem wrcfgWritesLaneZero : Obligations.WrcfgWritesLaneZero := by
  intro va s w
  exact ⟨exec_wrcfg_of_set rfl, exec_wrcfg_of_set rfl, exec_wrcfg_of_set rfl, exec_wrcfg_of_set rfl,
    exec_wrcfg_of_set rfl, exec_wrcfg_of_set rfl⟩

/-! ### VLD and VST: their checks (R202, R203) -/

theorem exec_vld (vd : VReg) (imm : BitVec 14) (s : State) :
    exec (.vld vd imm) s = finish (loadVector vd imm s) s := rfl

theorem inBounds_eq_false_iff (map : Ranges) (addr n : Nat) :
    inBounds map addr n = false ↔
      ¬(addr + n ≤ 2 ^ 32 ∧ ∀ x, addr ≤ x → x < addr + n → map.mem x = true) := by
  rw [← inBounds_iff, Bool.not_eq_true]

section
variable (vd va : VReg) {imm : BitVec 14} {s : State}

theorem loadVector_misaligned (ha : loadAddr s imm % 4 ≠ 0) :
    loadVector vd imm s = .error ⟨.align, BitVec.ofNat 32 (loadAddr s imm)⟩ := by
  simp [loadVector, checkAlign_of_not_dvd _ _ ha]

theorem loadVector_unmapped (ha : loadAddr s imm % 4 = 0)
    (hb : inBounds s.memMap (loadAddr s imm) 16 = false) :
    loadVector vd imm s = .error ⟨.bus, BitVec.ofNat 32 (loadAddr s imm)⟩ := by
  simp [loadVector, checkAlign_of_dvd _ _ ha, checkBounds_of_false _ _ _ hb]

theorem exec_vld_of_mapped (ha : loadAddr s imm % 4 = 0)
    (hb : inBounds s.memMap (loadAddr s imm) 16 = true) :
    exec (.vld vd imm) s = .next (s.setVreg vd (readQuad s.mem (loadAddr s imm))).advance := by
  rw [exec_vld, loadVector_ok vd imm s ha hb, finish_ok]

theorem storeVector_misaligned (ha : storeAddr s imm % 4 ≠ 0) :
    storeVector va imm s = .error ⟨.align, BitVec.ofNat 32 (storeAddr s imm)⟩ := by
  simp [storeVector, checkAlign_of_not_dvd _ _ ha]

theorem storeVector_unmapped (ha : storeAddr s imm % 4 = 0)
    (hb : inBounds s.memMap (storeAddr s imm) 16 = false) :
    storeVector va imm s = .error ⟨.bus, BitVec.ofNat 32 (storeAddr s imm)⟩ := by
  simp [storeVector, checkAlign_of_dvd _ _ ha, checkBounds_of_false _ _ _ hb]

end

/-! ### VLD: its lanes (R202) -/

/-- Settles O18: alignment, then bounds, then the four words byte by byte. -/
theorem vldLoadsLanes : Obligations.VldLoadsLanes := by
  intro vd imm s a m mapped word
  refine ⟨fun ha => ?align, fun ha hb => ?bus, fun ha hb => ?load⟩
  case align => exact finish_of_error s (loadVector_misaligned vd ha)
  case bus => exact finish_of_error s (loadVector_unmapped vd ha ((inBounds_eq_false_iff _ _ _).2 hb))
  case load =>
    have hquad : readQuad m a = ⟨word a, word (a + 4), word (a + 8), word (a + 12)⟩ := by
      rw [readQuad, readWord_eq_append, readWord_eq_append, readWord_eq_append, readWord_eq_append]
    rw [exec_vld_of_mapped vd ha ((inBounds_iff _ _ _).2 hb), ← hquad]
    rfl

/-! ### VST: its bytes (R203) -/

/-- A stored vector is a stored pixel of four 32-bit elements. -/
theorem writeQuad_eq_writeElements (m : Memory) (a : Nat) (q : Quad) :
    writeQuad m a q = writeElements m a 4 0 (q.map BitVec.toNat) := rfl

theorem ofNat_div_eq_extractLsb' (w : Word) (k : Nat) :
    BitVec.ofNat 8 (w.toNat / 256 ^ k) = w.extractLsb' (8 * k) 8 := by
  apply BitVec.eq_of_toNat_eq
  rw [BitVec.toNat_ofNat, BitVec.extractLsb'_toNat, Nat.shiftRight_eq_div_pow, pow_mul,
    show (2 : Nat) ^ 8 = 256 from rfl]

/-- The bytes of a stored vector: each lane, least significant byte first (20_memory.md R72). -/
theorem byte_writeQuad (m : Memory) (a : Nat) (q : Quad) (j : Fin 4) (k : Nat) (hk : k < 4) :
    (writeQuad m a q).byte (a + 4 * j.val + k) = (channel q j).extractLsb' (8 * k) 8 := by
  have haddr : a + 4 * j.val + k = elementAddr a 4 0 j.val + k := by unfold elementAddr; omega
  rw [haddr, writeQuad_eq_writeElements, byte_writeElements _ _ _ _ _ _ _ hk, channel_map,
    ofNat_div_eq_extractLsb']

/-- Settles O19: alignment, then bounds, then the stored state by its bytes and its write set. -/
theorem vstStoresLanes : Obligations.VstStoresLanes := by
  intro va imm s a mapped
  refine ⟨fun ha => ?align, fun ha hb => ?bus, fun ha hb => ?store⟩
  case align => exact finish_of_error s (storeVector_misaligned va ha)
  case bus => exact finish_of_error s (storeVector_unmapped va ha ((inBounds_eq_false_iff _ _ _).2 hb))
  case store =>
    exact ⟨writeQuad s.mem a (s.vreg va), s.ws.add a (a + 16),
      exec_vst_stored va imm s ha ((inBounds_iff _ _ _).2 hb),
      fun j k hk => byte_writeQuad s.mem a (s.vreg va) j k hk,
      fun x hx => byte_writeQuad_outside s.mem a x (s.vreg va) hx,
      fun x => Ranges.mem_add s.ws a (a + 16) x⟩

/-- Settles O20: the load's address is the store's, so it reads the vector just written. -/
theorem storeThenLoadReturnsVector : Obligations.StoreThenLoadReturnsVector := by
  intro va vd imm s hptr ha hb
  have haddr : loadAddr (s.stored va imm) imm = storeAddr s imm := by
    unfold loadAddr storeAddr State.stored
    rw [hptr]
  have hload := exec_vld_of_mapped vd (s := s.stored va imm) (imm := imm) (by rw [haddr]; exact ha)
    (by rw [haddr]; exact hb)
  have hquad : readQuad (s.stored va imm).mem (storeAddr s imm) = s.vreg va :=
    readQuad_writeQuad s.mem (storeAddr s imm) (s.vreg va)
  rw [haddr, hquad] at hload
  exact ⟨_, _, exec_vst_stored va imm s ha hb, hload, rfl, rfl⟩

/-! ### The unit commands, by unit (R196, R201) -/

/-- The frame takes a unit's id from the unit itself. -/
theorem infoOf_id (id : UnitId) (s : State) : (infoOf id s).id = id := by cases id <;> rfl

theorem exec_vectorOf (id : UnitId) (vd va : VReg) (s : State) :
    exec (vectorOf id vd va) s =
      finish (unitVector (infoOf id s) (unitFun id .f32 s) vd va s) s := by
  cases id <;> rfl

theorem exec_applyOf (id : UnitId) (s : State) :
    exec (applyOf id) s =
      finish (applyFrame (infoOf id s) (unitFun id (infoOf id s).outBd s) s) s := by
  cases id <;> rfl

theorem exec_vectorOf_not_configured (id : UnitId) (vd va : VReg) (s : State)
    (h : (infoOf id s).valid = false) :
    exec (vectorOf id vd va) s = .next (erring 0x09 id.word s) := by
  have herr := unitVector_invalid (infoOf id s) (unitFun id .f32 s) vd va s h
  rw [infoOf_id] at herr
  rw [exec_vectorOf]
  exact finish_of_error s herr

/-- Settles O33: the check of `valid`, then the one register written. -/
theorem vectorUnitCommands : Obligations.VectorUnitCommands := by
  intro id vd va s unitId
  have hid : unitId = id.word := by cases id <;> rfl
  refine ⟨fun h => ?configured, fun h => ?unconfigured⟩
  case configured =>
    rw [exec_vectorOf, unitVector_valid _ _ vd va s h]
    rfl
  case unconfigured =>
    rw [hid]
    exact exec_vectorOf_not_configured id vd va s h

end Sys2Proof.Machine
end

section
/-!
The APPLY frame: its checks in their order, each with its error, and the memory in which a frame with
every check passed leaves the run (41_bitdepth_pixel_io.md R196 to R200).
-/
namespace Sys2Proof.Machine

open Sys2Proof.Safety

/-! ### How an APPLY ends -/

theorem exec_applyOf_of_error {id : UnitId} {s : State} {e : Error}
    (h : applyChecks (infoOf id s) s = .error e) :
    exec (applyOf id) s = .next (erring e.name.code e.info s) := by
  rw [exec_applyOf]
  exact finish_of_error s (applyFrame_error _ _ s e h)

theorem exec_applyOf_of_ok {id : UnitId} {s : State} {n : Nat}
    (h : applyChecks (infoOf id s) s = .ok n) :
    exec (applyOf id) s = .next { s with
      mem := applyPixels (infoOf id s) (unitFun id (infoOf id s).outBd s) s.cfg.inPtr.toNat
        s.cfg.outPtr.toNat n 0 s.mem
      ws := s.ws.add s.cfg.outPtr.toNat (s.cfg.outPtr.toNat + outBytes id s n)
      cp := s.cp + 4 } := by
  rw [exec_applyOf, applyFrame_ok _ _ s n h]
  rfl

/-! ### The unit and the pixel count (R196 steps 1 to 3) -/

/-- A pixel count that is not negative is its unsigned value. -/
theorem toInt_eq_toNat_of_nonneg (w : Word) (h : 0 ≤ w.toInt) : w.toInt = w.toNat := by
  have := w.isLt
  rw [BitVec.toInt_eq_toNat_cond] at h ⊢
  split_ifs at h ⊢ <;> omega

section
variable {u : UnitInfo} {s : State}

theorem applyChecks_not_configured (hv : u.valid = false) :
    applyChecks u s = .error ⟨.notConfigured, u.id.word⟩ := by
  simp [applyChecks, hv]

theorem applyChecks_negative (hv : u.valid = true) (hn : s.cfg.nPix.toInt < 0) :
    applyChecks u s = .error ⟨.npix, s.cfg.nPix⟩ := by
  simp [applyChecks, hv, not_le.2 hn]

theorem applyChecks_no_pixel (hv : u.valid = true) (hn : s.cfg.nPix = 0) :
    applyChecks u s = .ok 0 := by
  simp [applyChecks, hv, hn]

/-- With a configured unit and a positive count, the checks of the buffers are left. -/
theorem applyChecks_positive (hv : u.valid = true) (hn : 0 < s.cfg.nPix.toInt) :
    applyChecks u s = (do checkBuffers u s s.cfg.nPix.toNat; return s.cfg.nPix.toNat) := by
  have hpos : s.cfg.nPix.toNat ≠ 0 := by
    have := toInt_eq_toNat_of_nonneg _ hn.le
    omega
  simp [applyChecks, hv, hn.le, hpos]

end

/-! ### The buffers (R196 steps 4 to 7, R198) -/

/-- Both buffers of `n` pixels are aligned to their elements and in the map (R196 steps 4 and 5). -/
structure BuffersMapped (id : UnitId) (s : State) (n : Nat) : Prop where
  inAligned : s.cfg.inPtr.toNat % (infoOf id s).inBd.esize = 0
  outAligned : s.cfg.outPtr.toNat % (infoOf id s).outBd.esize = 0
  inMapped : inBounds s.memMap s.cfg.inPtr.toNat (inBytes id s n) = true
  outMapped : inBounds s.memMap s.cfg.outPtr.toNat (outBytes id s n) = true

theorem esize_pos (bd : BitDepth) : 0 < bd.esize := by cases bd <;> decide

section
variable {id : UnitId} {s : State} {n : Nat}

theorem buffersApart_iff :
    buffersApart id s n ↔
      s.cfg.inPtr.toNat + inBytes id s n ≤ s.cfg.outPtr.toNat ∨
        s.cfg.outPtr.toNat + outBytes id s n ≤ s.cfg.inPtr.toNat ∨
        (s.cfg.inPtr.toNat = s.cfg.outPtr.toNat ∧
          (infoOf id s).inBd.esize = (infoOf id s).outBd.esize) := by
  rw [BitVec.toNat_inj]
  rfl

/-- The overlap check of R198 says that the buffers are apart. -/
theorem overlapOk_iff_buffersApart (hn : 0 < n) :
    overlapOk s.cfg.inPtr.toNat (inBytes id s n) s.cfg.outPtr.toNat (outBytes id s n)
      (infoOf id s).inBd.esize (infoOf id s).outBd.esize = true ↔ buffersApart id s n := by
  have hin : 0 < inBytes id s n := Nat.mul_pos (by omega) (esize_pos _)
  have hout : 0 < outBytes id s n := Nat.mul_pos (by omega) (esize_pos _)
  exact (overlapOk_iff _ _ _ _ _ _ hin hout).trans buffersApart_iff.symm

theorem checkBuffers_in_misaligned (hi : s.cfg.inPtr.toNat % (infoOf id s).inBd.esize ≠ 0) :
    checkBuffers (infoOf id s) s n = .error ⟨.align, s.cfg.inPtr⟩ := by
  simp [checkBuffers, checkAlign_of_not_dvd _ _ hi]

theorem checkBuffers_out_misaligned (hi : s.cfg.inPtr.toNat % (infoOf id s).inBd.esize = 0)
    (ho : s.cfg.outPtr.toNat % (infoOf id s).outBd.esize ≠ 0) :
    checkBuffers (infoOf id s) s n = .error ⟨.align, s.cfg.outPtr⟩ := by
  simp [checkBuffers, checkAlign_of_dvd _ _ hi, checkAlign_of_not_dvd _ _ ho]

/-- With both pointers aligned, the bounds, the overlap and the codes are left. -/
theorem checkBuffers_aligned (hi : s.cfg.inPtr.toNat % (infoOf id s).inBd.esize = 0)
    (ho : s.cfg.outPtr.toNat % (infoOf id s).outBd.esize = 0) :
    checkBuffers (infoOf id s) s n = (do
      checkBounds s.memMap s.cfg.inPtr.toNat (inBytes id s n)
      checkBounds s.memMap s.cfg.outPtr.toNat (outBytes id s n)
      require (overlapOk s.cfg.inPtr.toNat (inBytes id s n) s.cfg.outPtr.toNat (outBytes id s n)
        (infoOf id s).inBd.esize (infoOf id s).outBd.esize) .overlap s.cfg.outPtr
      checkCodes s.mem (infoOf id s).inBd s.cfg.inPtr.toNat n) := by
  simp only [checkBuffers, checkAlign_of_dvd _ _ hi, checkAlign_of_dvd _ _ ho, check_ok_bind]
  rfl

theorem checkBuffers_in_unmapped (hi : s.cfg.inPtr.toNat % (infoOf id s).inBd.esize = 0)
    (ho : s.cfg.outPtr.toNat % (infoOf id s).outBd.esize = 0)
    (hbi : inBounds s.memMap s.cfg.inPtr.toNat (inBytes id s n) = false) :
    checkBuffers (infoOf id s) s n = .error ⟨.bus, s.cfg.inPtr⟩ := by
  simp [checkBuffers_aligned hi ho, checkBounds_of_false _ _ _ hbi]

theorem checkBuffers_out_unmapped (hi : s.cfg.inPtr.toNat % (infoOf id s).inBd.esize = 0)
    (ho : s.cfg.outPtr.toNat % (infoOf id s).outBd.esize = 0)
    (hbi : inBounds s.memMap s.cfg.inPtr.toNat (inBytes id s n) = true)
    (hbo : inBounds s.memMap s.cfg.outPtr.toNat (outBytes id s n) = false) :
    checkBuffers (infoOf id s) s n = .error ⟨.bus, s.cfg.outPtr⟩ := by
  simp [checkBuffers_aligned hi ho, checkBounds_of_true _ _ _ hbi, checkBounds_of_false _ _ _ hbo]

theorem checkBuffers_mapped (h : BuffersMapped id s n) :
    checkBuffers (infoOf id s) s n = (do
      require (overlapOk s.cfg.inPtr.toNat (inBytes id s n) s.cfg.outPtr.toNat (outBytes id s n)
        (infoOf id s).inBd.esize (infoOf id s).outBd.esize) .overlap s.cfg.outPtr
      checkCodes s.mem (infoOf id s).inBd s.cfg.inPtr.toNat n) := by
  rw [checkBuffers_aligned h.inAligned h.outAligned, checkBounds_of_true _ _ _ h.inMapped,
    checkBounds_of_true _ _ _ h.outMapped, check_ok_bind, check_ok_bind]

theorem checkBuffers_overlapping (h : BuffersMapped id s n) (hn : 0 < n)
    (hover : ¬buffersApart id s n) :
    checkBuffers (infoOf id s) s n = .error ⟨.overlap, s.cfg.outPtr⟩ := by
  rw [← overlapOk_iff_buffersApart hn, Bool.not_eq_true] at hover
  rw [checkBuffers_mapped h, hover, require_false, check_error_bind]

/-- With the buffers apart, the codes are left. -/
theorem checkBuffers_apart (h : BuffersMapped id s n) (hn : 0 < n) (hapart : buffersApart id s n) :
    checkBuffers (infoOf id s) s n = checkCodes s.mem (infoOf id s).inBd s.cfg.inPtr.toNat n := by
  rw [checkBuffers_mapped h, (overlapOk_iff_buffersApart hn).2 hapart, require_true, check_ok_bind]

/-- The error names the first element that does not fit. -/
theorem checkCodes_of_not_fits (hc : (infoOf id s).inBd.checked = true) {k : Nat} (hk : k < 4 * n)
    (hbad : ¬codeFits id s k) (hfirst : ∀ j, j < k → codeFits id s j) :
    checkCodes s.mem (infoOf id s).inBd s.cfg.inPtr.toNat n =
      .error ⟨.codeRange, BitVec.ofNat 32 (s.cfg.inPtr.toNat + 2 * k)⟩ := by
  have hsome := (badElement_some s.mem s.cfg.inPtr.toNat (infoOf id s).inBd.range (4 * n) 0 _).2
    ⟨k, by omega, by omega, rfl, not_le.1 hbad, fun j _ hj => hfirst j hj⟩
  rw [checkCodes, if_pos hc, hsome]

theorem checkCodes_of_fits
    (h : (infoOf id s).inBd.checked = true → ∀ k, k < 4 * n → codeFits id s k) :
    checkCodes s.mem (infoOf id s).inBd s.cfg.inPtr.toNat n = .ok () := by
  unfold checkCodes
  split
  · next hc =>
    have hnone := (badElement_none s.mem s.cfg.inPtr.toNat (infoOf id s).inBd.range (4 * n) 0).2
      fun k _ hk => h hc k (by omega)
    rw [hnone]
  · rfl

end

/-! ### The checks in their order -/

/-- Settles O32: the unit, the count, then each check of the buffers with all before it passed. -/
theorem applyChecksInOrder : Obligations.ApplyChecksInOrder := by
  intro id s u inP outP n raises unitId
  have hid : unitId = u.id.word := by rw [infoOf_id]; cases id <;> rfl
  refine ⟨fun hv => ?unconfigured, fun hv => ⟨fun hneg => ?negative, fun hzero => ?none,
    fun hpos => ?buffers⟩⟩
  case unconfigured =>
    rw [hid]
    exact exec_applyOf_of_error (applyChecks_not_configured hv)
  case negative => exact exec_applyOf_of_error (applyChecks_negative hv hneg)
  case none =>
    have hrange : outBytes id s 0 = 0 := by simp [outBytes]
    rw [exec_applyOf_of_ok (applyChecks_no_pixel hv hzero), hrange, Nat.add_zero, Ranges.add_empty]
    rfl
  case buffers =>
    have hn : 0 < n := by
      have := toInt_eq_toNat_of_nonneg _ hpos.le
      omega
    have hraise {e : Error} (h : checkBuffers u s n = .error e) : raises e.name.code e.info := by
      refine exec_applyOf_of_error ?_
      rw [applyChecks_positive hv hpos, h, check_error_bind]
    refine ⟨fun hi => hraise (checkBuffers_in_misaligned hi), fun hi =>
      ⟨fun ho => hraise (checkBuffers_out_misaligned hi ho), fun ho =>
      ⟨fun hbi => hraise (checkBuffers_in_unmapped hi ho hbi), fun hbi =>
      ⟨fun hbo => hraise (checkBuffers_out_unmapped hi ho hbi hbo), fun hbo => ?mapped⟩⟩⟩⟩
    have hmapped : BuffersMapped id s n := ⟨hi, ho, hbi, hbo⟩
    exact ⟨fun hover => hraise (checkBuffers_overlapping hmapped hn hover),
      fun hapart hc k hk hbad hfirst => hraise
        ((checkBuffers_apart hmapped hn hapart).trans (checkCodes_of_not_fits hc hk hbad hfirst))⟩

/-! ### The pixels (R196 step 8, R197) -/

/-- Every check passes. -/
theorem applyChecks_of_fits {id : UnitId} {s : State} {n : Nat} (hv : (infoOf id s).valid = true)
    (hn : s.cfg.nPix.toInt = n) (hmapped : BuffersMapped id s n) (hapart : buffersApart id s n)
    (hcodes : (infoOf id s).inBd.checked = true → ∀ k, k < 4 * n → codeFits id s k) :
    applyChecks (infoOf id s) s = .ok n := by
  have hnat : s.cfg.nPix.toNat = n := by
    have := toInt_eq_toNat_of_nonneg s.cfg.nPix (by omega)
    omega
  rcases Nat.eq_zero_or_pos n with rfl | hpos
  · exact applyChecks_no_pixel hv (BitVec.eq_of_toNat_eq hnat)
  · rw [applyChecks_positive hv (by omega), hnat, checkBuffers_apart hmapped hpos hapart,
      checkCodes_of_fits hcodes, check_ok_bind, check_pure]

/-- Settles O31: with the checks passed, the pixels that step 8 writes do not meet those it has still
to read. -/
theorem applyWritesEveryPixel : Obligations.ApplyWritesEveryPixel := by
  intro id s n hv hn hi ho hbi hbo hapart hcodes
  have hsep : Separate s.cfg.inPtr.toNat (infoOf id s).inBd.esize s.cfg.outPtr.toNat
      (infoOf id s).outBd.esize 0 (0 + n) := by
    rw [Nat.zero_add]
    exact separate_of_apart _ _ _ _ n (buffersApart_iff.1 hapart)
  refine ⟨_, _, exec_applyOf_of_ok (applyChecks_of_fits hv hn ⟨hi, ho, hbi, hbo⟩ hapart hcodes),
    fun p c k hp hk => ?pixel, fun a ha => ?outside, fun a => Ranges.mem_add _ _ _ a⟩
  case pixel => exact applyPixels_byte _ _ _ _ n 0 s.mem hsep p c k (by omega) (by omega) hk
  case outside =>
    refine applyPixels_outside _ _ _ _ n 0 a s.mem ?_
    rw [Nat.mul_zero, Nat.zero_mul, Nat.add_zero, Nat.zero_add]
    exact ha

end Sys2Proof.Machine
end

section
/-!
Pixel elements in and out: normalisation of every bit depth, the stored element, and integer codes that
survive both (41_bitdepth_pixel_io.md R191, R192, R195).
-/
namespace Sys2Proof.Machine

/-! ### Rounded products -/

theorem signed_mul_signed (p q : Bool) (a b : ℚ) :
    (if p then -a else a) * (if q then -b else b) = if p != q then -(a * b) else a * b := by
  cases p <;> cases q <;> simp

/-- A product in range: finite, and within half a unit in the last place. -/
theorem fmul_near (x y : F32) (hx : isFinite x = true) (hy : isFinite y = true)
    (h : |ratOf x * ratOf y| ≤ maxFinite) :
    isFinite (fmul x y) = true ∧
      |ratOf (fmul x y) - ratOf x * ratOf y| ≤ |ratOf x * ratOf y| / 2 ^ 24 + 1 / 2 ^ 150 := by
  have hnonneg := mul_nonneg (binary32.mag_nonneg (low x)) (binary32.mag_nonneg (low y))
  have hprod : ratOf x * ratOf y = if signbit x != signbit y
      then -(binary32.mag (low x) * binary32.mag (low y))
      else binary32.mag (low x) * binary32.mag (low y) := by
    rw [ratOf_finite x hx, ratOf_finite y hy, signed_mul_signed]
  have habs : |ratOf x * ratOf y| = binary32.mag (low x) * binary32.mag (low y) := by
    rw [hprod]
    split
    · rw [abs_neg, abs_of_nonneg hnonneg]
    · exact abs_of_nonneg hnonneg
  rw [habs] at h ⊢
  rw [hprod, fmul_finite x y hx hy]
  exact roundSigned_near _ _ hnonneg h

/-! ### Integer depths -/

/-- The integer depths with their ranges, as a number and in binary32 (R190). -/
def integerDepths : List (BitDepth × Nat × F32) :=
  [(.u8, 255, 0x437F0000#32), (.u10, 1023, 0x447FC000#32), (.u12, 4095, 0x457FF000#32),
    (.u16, 65535, 0x477FFF00#32)]

theorem integerDepths_row : ∀ row ∈ integerDepths,
    row.1.isFloat = false ∧ row.2.1 = row.1.range ∧ row.2.2 = fl32Int row.1.range := by
  decide +kernel

section
variable {bd : BitDepth} (hbd : bd.isFloat = false)
include hbd

/-- A code up to the range is normalised to its quotient by the range, rounded once. -/
theorem normalise_code {k : Nat} (hk : k ≤ bd.range) :
    normalise bd k = fl32 ((k : ℚ) / bd.range) := by
  have hmod : k % (bd.range + 1) = k := Nat.mod_eq_of_lt (Nat.lt_succ_of_le hk)
  match bd, hbd with
  | .u8, _ | .u16, _ => rfl
  | .u10, _ | .u12, _ => simp only [normalise, hmod]

/-- A normalised result is scaled by the range in one rounded product. -/
theorem storeElement_norm_integer (y : F32) :
    storeElement bd (.norm y) = castTo bd (fmul y (fl32Int bd.range)) := by
  rw [storeElement, hbd]
  rfl

/-- A value nearer than one half to a code is cast to that code (R193). -/
theorem castTo_of_near (z : F32) (hz : isFinite z = true) {k : Nat} (hk : k ≤ bd.range)
    (h : |ratOf z - k| < 1 / 2) : castTo bd z = k := by
  obtain ⟨-, hlo, hhi, hmid⟩ := castTo_integer_depth bd z hbd
  obtain ⟨hfin, hval⟩ := fl32Int_range bd
  have hnan := isNaN_of_isFinite z hz
  have hnan' := isNaN_of_isFinite _ hfin
  have hbelow := key_le_iff z zero hz isFinite_zero
  have habove := key_le_iff (fl32Int bd.range) z hfin hz
  rw [ratOf_zero] at hbelow
  rw [hval] at habove
  obtain ⟨hk1, hk2⟩ := abs_lt.1 h
  rcases le_or_gt (key z) (key zero) with h0 | h0
  · have hneg := hbelow.1 h0
    have hk0 : (k : ℚ) < 1 := by linarith
    rw [hlo ((fle_iff _ _).2 ⟨hnan, by decide, h0⟩)]
    exact (Nat.lt_one_iff.1 (by exact_mod_cast hk0)).symm
  rcases le_or_gt (key (fl32Int bd.range)) (key z) with hr | hr
  · have htop := habove.1 hr
    have hkr : (bd.range : ℚ) < ((k + 1 : Nat) : ℚ) := by push_cast; linarith
    rw [hhi ((fle_iff _ _).2 ⟨hnan', hnan, hr⟩)]
    exact le_antisymm (Nat.le_of_lt_succ (by exact_mod_cast hkr)) hk
  · obtain ⟨hcast, hnonneg⟩ := hmid ((flt_iff _ _).2 ⟨by decide, hnan, h0⟩)
      ((flt_iff _ _).2 ⟨hnan, hnan', hr⟩)
    obtain ⟨hr1, hr2⟩ := abs_le.1 (roundTiesEven_near (ratOf z) hnonneg).1
    rw [hcast]
    have h1 : (roundTiesEven (ratOf z) : ℚ) < ((k + 1 : Nat) : ℚ) := by push_cast; linarith
    have h2 : (k : ℚ) < ((roundTiesEven (ratOf z) + 1 : Nat) : ℚ) := by push_cast; linarith
    exact le_antisymm (Nat.le_of_lt_succ (by exact_mod_cast h1))
      (Nat.le_of_lt_succ (by exact_mod_cast h2))

/-- The two roundings move a code by far less than one half, so it is stored back as it was. -/
theorem storeElement_normalise {k : Nat} (hk : k ≤ bd.range) :
    storeElement bd (.norm (normalise bd k)) = k := by
  obtain ⟨hfin, hval⟩ := fl32Int_range bd
  have hrange : 0 < bd.range ∧ bd.range < 2 ^ 16 := by cases bd <;> decide
  have hr0 : (0 : ℚ) < bd.range := by exact_mod_cast hrange.1
  have hr1 : (bd.range : ℚ) < 2 ^ 16 := by exact_mod_cast hrange.2
  have hkr : (k : ℚ) ≤ bd.range := by exact_mod_cast hk
  have hq0 : 0 ≤ (k : ℚ) / bd.range := by positivity
  have hq1 : (k : ℚ) / bd.range ≤ 1 := (div_le_one hr0).2 hkr
  have hmax : (2 : ℚ) ^ 17 ≤ maxFinite := by norm_num [maxFinite]
  obtain ⟨hyfin, hy⟩ := fl32_near ((k : ℚ) / bd.range) (by rw [abs_of_nonneg hq0]; linarith)
  rw [normalise_code hbd hk, storeElement_norm_integer hbd]
  generalize fl32 ((k : ℚ) / bd.range) = y at *
  rw [abs_of_nonneg hq0] at hy
  have hscaled : |ratOf y * bd.range - k| ≤ 1 / 2 ^ 7 := by
    have heq : ratOf y * bd.range - k = (ratOf y - k / bd.range) * bd.range := by
      rw [sub_mul, div_mul_cancel₀ _ hr0.ne']
    have hy' : |ratOf y - k / bd.range| ≤ 1 / 2 ^ 23 := by
      refine hy.trans ?_
      linarith [show (1 : ℚ) / 2 ^ 150 ≤ 1 / 2 ^ 24 by norm_num]
    rw [heq, abs_mul, abs_of_pos hr0]
    calc |ratOf y - k / bd.range| * bd.range ≤ 1 / 2 ^ 23 * 2 ^ 16 :=
          mul_le_mul hy' hr1.le hr0.le (by norm_num)
      _ = 1 / 2 ^ 7 := by norm_num
  have hsize : |ratOf y * bd.range| ≤ 2 ^ 17 := by
    obtain ⟨h1, h2⟩ := abs_le.1 hscaled
    exact abs_le.2 ⟨by linarith, by linarith⟩
  obtain ⟨hzfin, hz⟩ := fmul_near y (fl32Int bd.range) hyfin hfin (by rw [hval]; linarith)
  rw [hval] at hz
  refine castTo_of_near hbd _ hzfin hk ?_
  have hz' := hz.trans (add_le_add_left (div_le_div_of_nonneg_right hsize (by norm_num)) _)
  calc _ ≤ _ := abs_sub_le _ (ratOf y * bd.range) _
    _ < 1 / 2 := by norm_num at hz' hscaled ⊢; linarith

end

/-- On a depth with unused bits only the bits of the code count. -/
theorem normalise_mod {bd : BitDepth} (h : bd.checked = true) (e : Nat) :
    normalise bd e = normalise bd (e % (bd.range + 1)) := by
  match bd, h with
  | .u10, _ | .u12, _ => simp only [normalise, Nat.mod_mod]

/-! ### binary16 -/

theorem normalise_f16 (h : Nat) : normalise .f16 h = half32 h := rfl

theorem getLsbD_fraction_mask : ∀ i < 32, 23 ≤ i → (0x007FFFFF#32).getLsbD i = false := by decide

/-- A pattern with every exponent bit set and a fraction bit set is a NaN. -/
theorem isNaN_of_fraction (s f : F32) (hf : f &&& 0x007FFFFF#32 ≠ 0#32) :
    isNaN (s ||| 0x7F800000#32 ||| f) = true := by
  have hexponent : (s ||| 0x7F800000#32 ||| f).extractLsb' 23 8 = 0xFF#8 := by
    ext i hi
    interval_cases i <;> simp
  have hfraction : (s ||| 0x7F800000#32 ||| f).extractLsb' 0 23 ≠ 0#23 := by
    intro hzero
    refine hf (BitVec.eq_of_getLsbD_eq fun i hi => ?_)
    rcases Nat.lt_or_ge i 23 with hlow | hhigh
    · have hbit := congrArg (fun v => v.getLsbD i) hzero
      simp [hlow] at hbit
      simp [hbit]
    · simp [getLsbD_fraction_mask i hi hhigh]
  rw [isNaN, hexponent]
  simp [hfraction]

theorem isNaN_halfNan (h : F16) : isNaN (Config.halfNan h) = true := by
  refine isNaN_of_fraction _ _ ?_
  split
  · decide
  · next hne => rwa [BitVec.and_assoc, BitVec.and_self]

/-- A binary16 code by its sign bit and its sign-free code. -/
theorem toNat_ofNat_16 {k : Nat} (hk : k < 0x10000) :
    (BitVec.ofNat 16 k).toNat =
      (if decide (0x8000 ≤ k) then 2 ^ (binary16.fracBits + binary16.expBits) else 0) +
        k % 0x8000 := by
  rw [BitVec.toNat_ofNat, show 2 ^ (binary16.fracBits + binary16.expBits) = 0x8000 from rfl]
  simp only [decide_eq_true_eq]
  split <;> omega

/-- A finite code is converted exactly, its sign kept. -/
theorem half32_finite {k : Nat} (hk : k < 0x10000) (h : k % 0x8000 < 0x7C00) :
    half32 k = roundSigned (decide (0x8000 ≤ k)) (binary16.mag (k % 0x8000)) := by
  have hval := binary16.value_finite (decide (0x8000 ≤ k)) (k % 0x8000) h
  unfold half32 f16ToF32
  rw [toNat_ofNat_16 hk, hval]

theorem half32_infinite {k : Nat} (hk : k < 0x10000) (h : k % 0x8000 = 0x7C00) :
    half32 k = infinity (decide (0x8000 ≤ k)) := by
  have hval := binary16.value_inf (decide (0x8000 ≤ k))
  unfold half32 f16ToF32
  rw [toNat_ofNat_16 hk, h, ← infCode_binary16, hval]

theorem half32_nan {k : Nat} (hk : k < 0x10000) (h : 0x7C00 < k % 0x8000) :
    isNaN (half32 k) = true := by
  have hval : binary16.value (BitVec.ofNat 16 k).toNat = .nan := by
    have hex : k / 2 ^ binary16.fracBits % 2 ^ binary16.expBits = 2 ^ binary16.expBits - 1 := by
      show k / 2 ^ 10 % 2 ^ 5 = 2 ^ 5 - 1
      omega
    have hfrac : k % 2 ^ binary16.fracBits ≠ 0 := by
      show k % 2 ^ 10 ≠ 0
      omega
    rw [BitVec.toNat_ofNat, Nat.mod_eq_of_lt hk]
    unfold FloatFormat.value
    simp only [hex, hfrac, if_true, if_false]
  unfold half32 f16ToF32
  rw [hval]
  exact isNaN_halfNan _

theorem mag_binary16_subnormal {c : Nat} (h : c < 0x400) :
    binary16.mag c = (c : ℚ) * 2 ^ (-24 : Int) := by
  have hlow := binary16.mag_of_significand 0 c (by show c ≤ 2 * 2 ^ 10; omega) (.inr rfl)
  rw [Nat.zero_mul, Nat.zero_add, pow2_eq] at hlow
  exact hlow

theorem mag_binary16_normal {c : Nat} (h : 0x400 ≤ c) :
    binary16.mag c = (0x400 + (c % 0x400 : Nat) : ℚ) * 2 ^ (((c / 0x400 : Nat) : Int) - 25) := by
  have hex : c / 2 ^ binary16.fracBits ≠ 0 := by
    show c / 2 ^ 10 ≠ 0
    omega
  have hexp : ((c / 2 ^ binary16.fracBits : Nat) : Int) - 1 + binary16.ulpExp =
      ((c / 0x400 : Nat) : Int) - 25 := by
    show ((c / 2 ^ 10 : Nat) : Int) - 1 + -24 = _
    omega
  rw [binary16.mag_normal c hex, pow2_eq, hexp, show 2 ^ binary16.fracBits = 0x400 from rfl,
    Nat.cast_add]
  rfl

/-- The value and the sign of a finite code. -/
theorem half32_value {k : Nat} (hk : k < 0x10000) (h : k % 0x8000 < 0x7C00) :
    isFinite (half32 k) = true ∧
      ratOf (half32 k) = (if k < 0x8000 then 1 else -1) * binary16.mag (k % 0x8000) ∧
      signbit (half32 k) = decide (0x8000 ≤ k) := by
  rw [ratOf_half32 k hk h, half32_finite hk h]
  refine ⟨(roundSigned_mag_binary16 _ _ h).1, ?_, signbit_roundSigned _ _⟩
  rcases Nat.lt_or_ge k 0x8000 with hpos | hneg
  · rw [if_neg (not_le.2 hpos), if_pos hpos, one_mul]
  · rw [if_pos hneg, if_neg (not_lt.2 hneg), neg_one_mul]

/-! ### All depths -/

/-- Settles O30: the integer depths, binary16 by the class of its code, and the depths that need no
product. -/
theorem pixelElementsConvert : Obligations.PixelElementsConvert := by
  refine ⟨fun bd range range32 hrow => ?integer, fun h hh => ?half, fun w => ?single,
    fun od z => rfl, fun od y hod => ?float⟩
  case integer =>
    obtain ⟨hbd, rfl, rfl⟩ : bd.isFloat = false ∧ range = bd.range ∧ range32 = fl32Int bd.range :=
      integerDepths_row _ hrow
    refine ⟨fun k hk => ⟨normalise_code hbd hk, storeElement_normalise hbd hk⟩, fun hcode e => ?_,
      fun y => storeElement_norm_integer hbd y⟩
    have hchecked : bd.checked = true := by rcases hcode with rfl | rfl <;> rfl
    exact normalise_mod hchecked e
  case half =>
    intro x sign ex frac
    have hexponent : ex = h % 0x8000 / 0x400 := by omega
    have hfraction : frac = h % 0x8000 % 0x400 := by omega
    have hvalue (hfin : ex < 0x1F) := half32_value hh (show h % 0x8000 < 0x7C00 by omega)
    refine ⟨fun h0 => ?subnormal, fun h0 h1 => ?normal, fun h1 => ?sign, fun h1 h0 => ?infinity,
      fun h1 h0 => half32_nan hh (show 0x7C00 < h % 0x8000 by omega)⟩
    case subnormal =>
      obtain ⟨hfin, hrat, -⟩ := hvalue (by omega)
      rw [mag_binary16_subnormal (by omega), show h % 0x8000 = frac by omega] at hrat
      exact ⟨hfin, hrat⟩
    case normal =>
      obtain ⟨hfin, hrat, -⟩ := hvalue h1
      rw [mag_binary16_normal (by omega), ← hexponent, ← hfraction] at hrat
      exact ⟨hfin, hrat⟩
    case sign =>
      obtain ⟨-, -, hsign⟩ := hvalue h1
      exact hsign
    case infinity =>
      rw [show x = _ from half32_infinite hh (show h % 0x8000 = 0x7C00 by omega)]
      rcases Nat.lt_or_ge h 0x8000 with hpos | hneg
      · rw [decide_eq_false (not_le.2 hpos), if_pos hpos]
        rfl
      · rw [decide_eq_true hneg, if_neg (not_lt.2 hneg)]
        rfl
  case single => rw [normalise, BitVec.ofNat_toNat, BitVec.setWidth_eq]
  case float => rcases hod with rfl | rfl <;> rfl

end Sys2Proof.Machine
end

section
/-!
The matrix unit: the kind that a descriptor's binary64 values select, and the unit function of each
kind, channel by channel (42_matrix.md R233 to R235, R239).
-/
namespace Sys2Proof.Machine
open Sys2Proof.Safety

/-! ### Binary64 zeros -/

/-- A code is the number 0 exactly when its exponent and fraction fields are 0: a normal code has a
significand above 0, an infinity or a NaN is no number. -/
theorem FloatFormat.value_eq_zero_iff (f : FloatFormat) (hf : 0 < f.expBits) (code : Nat) :
    (∃ neg, f.value code = .fin neg 0) ↔
      code / 2 ^ f.fracBits % 2 ^ f.expBits = 0 ∧ code % 2 ^ f.fracBits = 0 := by
  have hpow (e : Int) : pow2 e ≠ 0 := (pow2_pos e).ne'
  have htop : 2 ^ f.expBits - 1 ≠ 0 := by
    have := Nat.one_lt_two_pow hf.ne'
    omega
  unfold value
  generalize code / 2 ^ f.fracBits % 2 ^ f.expBits = ex
  by_cases hex : ex = 2 ^ f.expBits - 1
  · by_cases hfrac : code % 2 ^ f.fracBits = 0 <;> simp [hex, hfrac, htop]
  · by_cases hsub : ex = 0
    · subst hsub
      simp [hex, hpow]
    · have hsignificand : 2 ^ f.fracBits + code % 2 ^ f.fracBits ≠ 0 := by positivity
      simp only [hex, hsub, if_false, FloatVal.fin.injEq, mul_eq_zero, Nat.cast_eq_zero,
        hsignificand, hpow, or_false, and_false, exists_false, false_and]

theorem val64_eq_zero_iff (x : F64) : (∃ neg, val64 x = .fin neg 0) ↔ x.toNat % 2 ^ 63 = 0 := by
  have hfields : x.toNat / 2 ^ 52 % 2 ^ 11 = 0 ∧ x.toNat % 2 ^ 52 = 0 ↔ x.toNat % 2 ^ 63 = 0 := by
    omega
  exact (binary64.value_eq_zero_iff (by decide) x.toNat).trans hfields

theorem ratOfF64_eq_zero_iff (x : F64) : ratOfF64 x = some 0 ↔ ∃ neg, val64 x = .fin neg 0 := by
  rw [ratOfF64_eq]
  constructor
  · rintro ⟨neg, m, hval, hm⟩
    have hzero : m = 0 := by cases neg <;> simpa [eq_comm] using hm
    exact ⟨neg, hzero ▸ hval⟩
  · rintro ⟨neg, hval⟩
    exact ⟨neg, 0, hval, by simp⟩

/-- Only the patterns +0 and −0 compare equal to 0 (R233). -/
theorem f64Eq_zero_iff (x : F64) :
    f64Eq x 0 = true ↔ x = 0x0000000000000000#64 ∨ x = 0x8000000000000000#64 := by
  have hx := x.isLt
  rw [f64Eq, beq_iff_eq, ratOfF64_eq_zero_iff, val64_eq_zero_iff, ← BitVec.toNat_inj,
    ← BitVec.toNat_inj]
  simp only [BitVec.toNat_ofNat]
  omega

/-! ### Kind selection -/

theorem MatOpData.isDiagonal_iff (d : MatOpData) : d.isDiagonal = true ↔
    ∀ r c : Fin 4, r ≠ c → f64Eq (channel (channel d.m r) c) 0 = true := by
  unfold isDiagonal
  simp [Fin.forall_fin_succ, channel, and_assoc]

theorem MatOpData.hasOffsets_iff (d : MatOpData) : d.hasOffsets = true ↔
    ∃ r : Fin 4, ¬f64Eq (channel d.off r) 0 = true := by
  unfold hasOffsets Lanes.toList
  simp [Fin.exists_fin_succ, channel]

/-- Settles O35: the four kinds are the four cases of the two tests. -/
theorem matrixKindSelection : Obligations.MatrixKindSelection := by
  intro d isZero diagonal offsets
  have hdiag : diagonal ↔ d.isDiagonal = true := by
    simp only [diagonal, isZero, d.isDiagonal_iff, f64Eq_zero_iff]
  have hoff : offsets ↔ d.hasOffsets = true := by
    simp only [offsets, isZero, d.hasOffsets_iff, f64Eq_zero_iff]
  rw [hdiag, hoff]
  unfold MatOpData.kind
  cases d.isDiagonal <;> cases d.hasOffsets <;> simp

/-! ### Evaluation -/

theorem channel_map2 {α β γ : Type} (f : α → β → γ) (x : Lanes α) (y : Lanes β) (c : Fin 4) :
    channel (x.map2 f y) c = f (channel x c) (channel y c) := by
  fin_cases c <;> rfl

theorem ext_channel {α : Type} {x y : Lanes α} (h : ∀ c : Fin 4, channel x c = channel y c) : x = y := by
  obtain ⟨xr, xg, xb, xa⟩ := x
  obtain ⟨yr, yg, yb, ya⟩ := y
  obtain rfl : xr = yr := h 0
  obtain rfl : xg = yg := h 1
  obtain rfl : xb = yb := h 2
  obtain rfl : xa = ya := h 3
  rfl

theorem channel_matDiag (c : Lanes (Lanes F32)) (x : Quad) (r : Fin 4) :
    channel (matDiag c x) r = fmul (channel (channel c r) r) (channel x r) := by
  fin_cases r <;> rfl

/-- The diagonal kind without offsets: one product per channel. -/
theorem matEval_diag {u : MatUnit} (h : u.kind = .diag) (x : Quad) : matEval u x = matDiag u.c x := by
  unfold matEval; rw [h]

/-- Settles O36: each kind's row through the channels of `matDiag` and of the full rows; with a diagonal of
ones every product is `1.0 · x`, which is `x`. -/
theorem matrixEvaluation : Obligations.MatrixEvaluation := by
  refine ⟨fun u x r => ⟨channel_map _ _ r, ?rows⟩, fun u x hkind hone hnan => ?identity⟩
  case rows =>
    unfold matEval
    cases u.kind with
    | diag => exact channel_matDiag u.c x r
    | diagOff => exact (channel_map2 _ _ _ r).trans (congrArg (fadd · _) (channel_matDiag u.c x r))
    | full => exact channel_map _ _ r
    | fullOff => exact (channel_map2 _ _ _ r).trans (congrArg (fadd · _) (channel_map _ _ r))
  case identity =>
    rw [matEval_diag hkind]
    refine ext_channel fun r => ?_
    rw [channel_matDiag, hone r]
    exact fmul_one_left _ (hnan r)

end Sys2Proof.Machine
end

section
/-!
Rational intervals that hold a real value (43_log.md R264): what the interval operations hold, and the
value that the rounding of narrowing intervals gives.
-/
namespace Sys2Proof.Machine
open Sys2Proof.Safety

/-! ### Interval operations -/

section
variable {i j : Ival} {r t : ℝ}

theorem holds_exact (q : ℚ) : Holds (Ival.exact q) q := ⟨le_rfl, le_rfl⟩

theorem holds_add (hi : Holds i r) (hj : Holds j t) : Holds (i.add j) (r + t) := by
  obtain ⟨hil, hih⟩ := hi
  obtain ⟨hjl, hjh⟩ := hj
  constructor
  · simp only [Ival.add, Rat.cast_add]; linarith
  · simp only [Ival.add, Rat.cast_add]; linarith

theorem holds_sub (hi : Holds i r) (hj : Holds j t) : Holds (i.sub j) (r - t) := by
  have hneg : Holds j.neg (-t) := by
    obtain ⟨hl, hh⟩ := hj
    constructor
    · simpa [Ival.neg] using hh
    · simpa [Ival.neg] using hl
  rw [sub_eq_add_neg]
  exact holds_add hi hneg

/-- A product with one factor in an interval lies between the products with its ends. -/
theorem mul_between_ends {a b x : ℝ} (hax : a ≤ x) (hxb : x ≤ b) (c : ℝ) :
    min (a * c) (b * c) ≤ x * c ∧ x * c ≤ max (a * c) (b * c) := by
  rcases le_total 0 c with hc | hc
  · exact ⟨(min_le_left _ _).trans (mul_le_mul_of_nonneg_right hax hc),
      (mul_le_mul_of_nonneg_right hxb hc).trans (le_max_right _ _)⟩
  · exact ⟨(min_le_right _ _).trans (mul_le_mul_of_nonpos_right hxb hc),
      (mul_le_mul_of_nonpos_right hax hc).trans (le_max_left _ _)⟩

theorem holds_mul (hi : Holds i r) (hj : Holds j t) : Holds (i.mul j) (r * t) := by
  obtain ⟨hil, hih⟩ := hi
  obtain ⟨hjl, hjh⟩ := hj
  have hr := mul_between_ends hil hih t
  have hlo := mul_between_ends hjl hjh i.lo
  have hhi := mul_between_ends hjl hjh i.hi
  simp only [mul_comm t, mul_comm (j.lo : ℝ), mul_comm (j.hi : ℝ)] at hlo hhi
  constructor
  · simp only [Ival.mul, Rat.cast_min, Rat.cast_mul]
    exact (min_le_min hlo.1 hhi.1).trans hr.1
  · simp only [Ival.mul, Rat.cast_max, Rat.cast_mul]
    exact hr.2.trans (max_le_max hlo.2 hhi.2)

/-- The reciprocal, of an interval whose lower end is above 0. -/
theorem holds_inv (hi : Holds i r) (hpos : 0 < i.lo) : Holds i.inv (1 / r) := by
  obtain ⟨hl, hh⟩ := hi
  have hlo : (0 : ℝ) < i.lo := by exact_mod_cast hpos
  rw [one_div]
  constructor
  · simpa only [Ival.inv, Rat.cast_inv] using inv_anti₀ (hlo.trans_le hl) hh
  · simpa only [Ival.inv, Rat.cast_inv] using inv_anti₀ hlo hl

theorem holds_scale (q : ℚ) (hi : Holds i r) : Holds (i.scale q) (q * r) := by
  obtain ⟨hl, hh⟩ := hi
  unfold Ival.scale
  split
  · next hq =>
    have hq' : (0 : ℝ) ≤ q := by exact_mod_cast hq
    constructor
    · simpa only [Rat.cast_mul] using mul_le_mul_of_nonneg_left hl hq'
    · simpa only [Rat.cast_mul] using mul_le_mul_of_nonneg_left hh hq'
  · next hq =>
    have hq' : (q : ℝ) ≤ 0 := by exact_mod_cast (not_le.1 hq).le
    constructor
    · simpa only [Rat.cast_mul] using mul_le_mul_of_nonpos_left hh hq'
    · simpa only [Rat.cast_mul] using mul_le_mul_of_nonpos_left hl hq'

theorem holds_div (hi : Holds i r) (hj : Holds j t) (hpos : 0 < j.lo) : Holds (i.div j) (r / t) := by
  rw [div_eq_mul_one_div]
  exact holds_mul hi (holds_inv hj hpos)

/-- The product of two intervals above 0 is above 0. -/
theorem Ival.mul_lo_pos (hi : Holds i r) (hj : Holds j t) (hil : 0 < i.lo) (hjl : 0 < j.lo) :
    0 < (i.mul j).lo := by
  have hih : 0 < i.hi := hil.trans_le (by exact_mod_cast hi.1.trans hi.2)
  have hjh : 0 < j.hi := hjl.trans_le (by exact_mod_cast hj.1.trans hj.2)
  simp only [Ival.mul, lt_min_iff]
  exact ⟨⟨mul_pos hil hjl, mul_pos hil hjh⟩, mul_pos hih hjl, mul_pos hih hjh⟩

end

/-! ### Rounding by narrowing intervals -/

@[simp] theorem signbit_fl32 (q : ℚ) : signbit (fl32 q) = decide (q < 0) := signbit_roundSigned _ _

/-- Where the ends of an interval round alike, each real value in it is so rounded. -/
theorem correctlyRounded_of_ends {i : Ival} {r : ℝ} (hi : Holds i r) (h : fl32 i.lo = fl32 i.hi) :
    CorrectlyRounded r (fl32 i.lo) := by
  obtain ⟨hl, hh⟩ := hi
  refine ⟨fun a b ha hb => ⟨?_, ?_⟩, ?_⟩
  · rw [h]
    exact key_fl32_mono a i.hi (by exact_mod_cast ha.trans hh)
  · exact key_fl32_mono i.lo b (by exact_mod_cast hl.trans hb)
  · have hsign : i.lo < 0 ↔ i.hi < 0 := by
      simpa using congrArg signbit h
    rw [signbit_fl32, decide_eq_true_iff]
    constructor
    · intro hlo
      exact hh.trans_lt (by exact_mod_cast hsign.1 hlo)
    · intro hr
      exact_mod_cast hl.trans_lt hr

/-- The first of the precisions `p`, `2·p`, ... at which the ends round alike decides; where none up to
the last does, the result is the free value. -/
theorem fl32Real_cases (f : Nat → Ival) (fuel p : Nat) :
    (∃ n, fl32 (f n).lo = fl32 (f n).hi ∧ fl32Real f fuel p = fl32 (f n).lo) ∨
      (∀ k ≤ fuel, fl32 (f (p * 2 ^ k)).lo ≠ fl32 (f (p * 2 ^ k)).hi) ∧
        fl32Real f fuel p = Config.roundingOpen (f (p * 2 ^ fuel)).lo (f (p * 2 ^ fuel)).hi := by
  induction fuel generalizing p with
  | zero =>
    by_cases h : fl32 (f p).lo = fl32 (f p).hi
    · exact .inl ⟨p, h, by simp [fl32Real, h]⟩
    · refine .inr ⟨fun k hk => ?_, by simp [fl32Real, h]⟩
      rw [Nat.le_zero.1 hk, pow_zero, mul_one]
      exact h
  | succ fuel ih =>
    by_cases h : fl32 (f p).lo = fl32 (f p).hi
    · exact .inl ⟨p, h, by simp [fl32Real, h]⟩
    · have hnext : fl32Real f (fuel + 1) p = fl32Real f fuel (2 * p) := by simp [fl32Real, h]
      have hdouble (k : Nat) : 2 * p * 2 ^ k = p * 2 ^ (k + 1) := by ring
      rw [hnext]
      refine (ih (2 * p)).imp_right fun ⟨hne, hopen⟩ => ⟨fun k hk => ?_, by rwa [hdouble] at hopen⟩
      cases k with
      | zero => simpa using h
      | succ k => rw [← hdouble]; exact hne k (by omega)

/-- The constant computed from intervals that hold a real value is the model's rounding of it. -/
theorem rounded_roundReal {f : Nat → Ival} {r : ℝ} (h : ∀ p, Holds (f p) r) :
    Rounded f r (roundReal f) := by
  refine ⟨h, ?_⟩
  rcases fl32Real_cases f maxDoublings 96 with ⟨n, hends, hval⟩ | hopen
  · left
    rw [roundReal, hval]
    exact correctlyRounded_of_ends (h n) hends
  · exact .inr hopen

/-- One of the precisions used decides: the constant is the real value correctly rounded. -/
theorem correctlyRounded_roundReal {f : Nat → Ival} {r : ℝ} (h : ∀ p, Holds (f p) r)
    (hdecides : ∃ k, k ≤ 128 ∧ fl32 (f (96 * 2 ^ k)).lo = fl32 (f (96 * 2 ^ k)).hi) :
    CorrectlyRounded r (roundReal f) := by
  obtain ⟨k, hk, hends⟩ := hdecides
  exact (rounded_roundReal h).2.resolve_right fun ⟨hne, _⟩ => hne k hk hends

end Sys2Proof.Machine
end

section
/-!
The intervals of the real logarithms (43_log.md R264): the bits of log2 of a mantissa by repeated
squaring, with the error of each truncation, and the series of ln 2 with its tail.
-/
namespace Sys2Proof.Machine
open Sys2Proof.Safety

/-! ### The scaled mantissa of the bit loops -/

/-- log2 of a mantissa that is scaled by `2^w`. -/
noncomputable def scaledLog (w : Nat) (x : ℝ) : ℝ := Real.logb 2 (x / 2 ^ w)

section
variable {w : Nat} {x y : ℝ}

theorem scaledLog_mono (hx : 0 < x) (h : x ≤ y) : scaledLog w x ≤ scaledLog w y :=
  Real.logb_le_logb_of_le one_lt_two (by positivity) (by gcongr)

theorem scaledLog_mul (x : ℝ) : scaledLog w (x * 2 ^ w) = Real.logb 2 x := by
  rw [scaledLog, mul_div_cancel_right₀ _ (by positivity)]

/-- Squaring doubles the logarithm. -/
theorem scaledLog_sq (x : ℝ) : scaledLog w (x * x / 2 ^ w) = 2 * scaledLog w x := by
  have h : x * x / 2 ^ w / 2 ^ w = (x / 2 ^ w) ^ 2 := by ring
  rw [scaledLog, h, Real.logb_pow, scaledLog, Nat.cast_ofNat]

/-- Halving subtracts 1. -/
theorem scaledLog_half (hx : 0 < x) : scaledLog w (x / 2) = scaledLog w x - 1 := by
  have h : x / 2 / 2 ^ w = x / 2 ^ w / 2 := by ring
  rw [scaledLog, h, Real.logb_div (by positivity) two_ne_zero, Real.logb_self_eq_one one_lt_two, scaledLog]

theorem scaledLog_nonneg (h : 2 ^ w ≤ x) : 0 ≤ scaledLog w x :=
  Real.logb_nonneg one_lt_two ((one_le_div (by positivity)).2 h)

theorem scaledLog_le_one (hx : 0 < x) (h : x ≤ 2 * 2 ^ w) : scaledLog w x ≤ 1 := by
  have hle := scaledLog_mono (w := w) hx h
  rwa [scaledLog_mul 2, Real.logb_self_eq_one one_lt_two] at hle

/-- One unit more in the mantissa, from `2^w` up, adds at most `2 / 2^w`. -/
theorem scaledLog_add_one (h : 2 ^ w ≤ x) : scaledLog w (x + 1) ≤ scaledLog w x + 2 / 2 ^ w := by
  have hw : (0 : ℝ) < 2 ^ w := by positivity
  have hx : 0 < x := hw.trans_le h
  have hsplit : (x + 1) / 2 ^ w = x / 2 ^ w * (1 + 1 / x) := by field_simp
  have hlog : Real.log (1 + 1 / x) ≤ 1 / 2 ^ w :=
    calc Real.log (1 + 1 / x) ≤ (1 + 1 / x) - 1 := Real.log_le_sub_one_of_pos (by positivity)
      _ = 1 / x := by ring
      _ ≤ 1 / 2 ^ w := one_div_le_one_div_of_le hw h
  have hsmall : Real.logb 2 (1 + 1 / x) ≤ 2 / 2 ^ w := by
    rw [Real.logb, div_le_iff₀ (Real.log_pos one_lt_two)]
    calc Real.log (1 + 1 / x) ≤ 1 / 2 ^ w := hlog
      _ = 2 / 2 ^ w * (1 / 2) := by ring
      _ ≤ 2 / 2 ^ w * Real.log 2 := by gcongr; linarith [Real.log_two_gt_d9]
  rw [scaledLog, hsplit, Real.logb_mul (by positivity) (by positivity)]
  exact add_le_add_right hsmall _

end

/-! ### Integer mantissas -/

/-- A mantissa in [1, 2], scaled by `2^w`. -/
def Mantissa (w x : Nat) : Prop := 2 ^ w ≤ x ∧ x ≤ 2 * 2 ^ w

section
variable {w n d x : Nat}

theorem Mantissa.pos (h : Mantissa w x) : (0 : ℝ) < x := by
  exact_mod_cast (Nat.two_pow_pos w).trans_le h.1

theorem Mantissa.scaledLog_mem (h : Mantissa w x) : 0 ≤ scaledLog w x ∧ scaledLog w x ≤ 1 :=
  ⟨scaledLog_nonneg (by exact_mod_cast h.1), scaledLog_le_one h.pos (by exact_mod_cast h.2)⟩

/-- A truncated quotient is a mantissa again and loses at most `2 / 2^w`. -/
theorem mantissa_floor (hd : 0 < d) (hlo : 2 ^ w * d ≤ n) (hhi : n ≤ 2 * 2 ^ w * d) :
    Mantissa w (n / d) ∧ scaledLog w (n / d : Nat) ≤ scaledLog w (n / d) ∧
      scaledLog w (n / d) ≤ scaledLog w (n / d : Nat) + 2 / 2 ^ w := by
  have hm : Mantissa w (n / d) := ⟨(Nat.le_div_iff_mul_le hd).2 hlo, Nat.div_le_of_le_mul (by linarith)⟩
  have hle : ((n / d : Nat) : ℝ) ≤ n / d := Nat.cast_div_le
  have hlt : (n : ℝ) / d ≤ (n / d : Nat) + 1 := by
    rw [div_le_iff₀ (by exact_mod_cast hd)]
    have := Nat.lt_div_mul_add (a := n) hd
    exact_mod_cast (by linarith : n ≤ (n / d + 1) * d)
  exact ⟨hm, scaledLog_mono hm.pos hle,
    (scaledLog_mono (hm.pos.trans_le hle) hlt).trans (scaledLog_add_one (by exact_mod_cast hm.1))⟩

/-- A quotient rounded up is a mantissa again and gains at most `2 / 2^w`. -/
theorem mantissa_ceil (hd : 0 < d) (hlo : 2 ^ w * d ≤ n) (hhi : n ≤ 2 * 2 ^ w * d) :
    Mantissa w ((n + d - 1) / d) ∧ scaledLog w (n / d) ≤ scaledLog w ((n + d - 1) / d : Nat) ∧
      scaledLog w ((n + d - 1) / d : Nat) ≤ scaledLog w (n / d) + 2 / 2 ^ w := by
  have hd' : (0 : ℝ) < d := by exact_mod_cast hd
  have hquot : (2 : ℝ) ^ w ≤ n / d := (le_div_iff₀ hd').2 (by exact_mod_cast hlo)
  have hm : Mantissa w ((n + d - 1) / d) :=
    ⟨(Nat.le_div_iff_mul_le hd).2 (by omega),
      Nat.le_of_lt_succ ((Nat.div_lt_iff_lt_mul hd).2 (by rw [Nat.succ_mul]; omega))⟩
  have hle : (n : ℝ) / d ≤ ((n + d - 1) / d : Nat) := by
    rw [div_le_iff₀ hd']
    have := Nat.lt_div_mul_add (a := n + d - 1) hd
    exact_mod_cast (by omega : n ≤ (n + d - 1) / d * d)
  have hge : (((n + d - 1) / d : Nat) : ℝ) ≤ n / d + 1 := by
    rw [div_add_one hd'.ne', le_div_iff₀ hd']
    have := Nat.div_mul_le_self (n + d - 1) d
    exact_mod_cast (by omega : (n + d - 1) / d * d ≤ n + d)
  have hpos : (0 : ℝ) < n / d := lt_of_lt_of_le (by positivity) hquot
  exact ⟨hm, scaledLog_mono hpos hle, (scaledLog_mono hm.pos hge).trans (scaledLog_add_one hquot)⟩

/-! ### The bit loops -/

/-- A square from 2 up, halved: the next bit is 1. -/
theorem square_halved (h : Mantissa w x) (hy : 2 * 4 ^ w ≤ x * x) :
    2 ^ w * 2 ^ (w + 1) ≤ x * x ∧ x * x ≤ 2 * 2 ^ w * 2 ^ (w + 1) ∧
      scaledLog w ((x * x : Nat) / (2 ^ (w + 1) : Nat)) = 2 * scaledLog w x - 1 := by
  have hfour : (4 : Nat) ^ w = 2 ^ w * 2 ^ w := Nat.mul_pow 2 2 w
  have hsplit : ((x * x : Nat) : ℝ) / (2 ^ (w + 1) : Nat) = x * x / 2 ^ w / 2 := by
    push_cast; rw [pow_succ]; field_simp
  have hpos := h.pos
  refine ⟨by rw [pow_succ]; linarith, ?_, ?_⟩
  · rw [pow_succ]
    linarith [Nat.mul_le_mul h.2 h.2]
  · rw [hsplit, scaledLog_half (by positivity), scaledLog_sq]

/-- A square below 2: the next bit is 0. -/
theorem square_kept (h : Mantissa w x) (hy : ¬2 * 4 ^ w ≤ x * x) :
    2 ^ w * 2 ^ w ≤ x * x ∧ x * x ≤ 2 * 2 ^ w * 2 ^ w ∧
      scaledLog w ((x * x : Nat) / (2 ^ w : Nat)) = 2 * scaledLog w x := by
  have hfour : (4 : Nat) ^ w = 2 ^ w * 2 ^ w := Nat.mul_pow 2 2 w
  refine ⟨Nat.mul_le_mul h.1 h.1, by linarith, ?_⟩
  push_cast
  exact scaledLog_sq _

/-- One step of the lower loop: the digit and the next mantissa stand for at most twice the logarithm. -/
theorem logBitsLo_succ (n acc : Nat) (h : Mantissa w x) :
    ∃ b x', logBitsLo w (n + 1) x acc = logBitsLo w n x' (2 * acc + b) ∧ Mantissa w x' ∧
      b + scaledLog w x' ≤ 2 * scaledLog w x ∧ 2 * scaledLog w x ≤ b + scaledLog w x' + 2 / 2 ^ w := by
  by_cases hy : 2 * 4 ^ w ≤ x * x
  · obtain ⟨hlo, hhi, hlog⟩ := square_halved h hy
    obtain ⟨hm, hle, hge⟩ := mantissa_floor (by positivity) hlo hhi
    refine ⟨1, _, by simp only [logBitsLo, if_pos hy], hm, ?_⟩
    rw [hlog] at hle hge
    rw [Nat.cast_one]
    exact ⟨by linarith, by linarith⟩
  · obtain ⟨hlo, hhi, hlog⟩ := square_kept h hy
    obtain ⟨hm, hle, hge⟩ := mantissa_floor (by positivity) hlo hhi
    refine ⟨0, _, by simp only [logBitsLo, if_neg hy, Nat.add_zero], hm, ?_⟩
    rw [hlog] at hle hge
    rw [Nat.cast_zero]
    exact ⟨by linarith, by linarith⟩

/-- One step of the upper loop: the digit and the next mantissa stand for at least twice the logarithm. -/
theorem logBitsHi_succ (n acc : Nat) (h : Mantissa w x) :
    ∃ b x', logBitsHi w (n + 1) x acc = logBitsHi w n x' (2 * acc + b) ∧ Mantissa w x' ∧
      2 * scaledLog w x ≤ b + scaledLog w x' ∧ b + scaledLog w x' ≤ 2 * scaledLog w x + 2 / 2 ^ w := by
  by_cases hy : 2 * 4 ^ w ≤ x * x
  · obtain ⟨hlo, hhi, hlog⟩ := square_halved h hy
    obtain ⟨hm, hle, hge⟩ := mantissa_ceil (by positivity) hlo hhi
    refine ⟨1, _, by simp only [logBitsHi, if_pos hy], hm, ?_⟩
    rw [hlog] at hle hge
    rw [Nat.cast_one]
    exact ⟨by linarith, by linarith⟩
  · obtain ⟨hlo, hhi, hlog⟩ := square_kept h hy
    obtain ⟨hm, hle, hge⟩ := mantissa_ceil (by positivity) hlo hhi
    refine ⟨0, _, by simp only [logBitsHi, if_neg hy, Nat.add_zero], hm, ?_⟩
    rw [hlog] at hle hge
    rw [Nat.cast_zero]
    exact ⟨by linarith, by linarith⟩

/-- The lower loop gives `n` more bits of the logarithm, truncated by less than a unit and the mantissa's
error. -/
theorem logBitsLo_bounds (n acc : Nat) (h : Mantissa w x) :
    (logBitsLo w n x acc : ℝ) ≤ 2 ^ n * (acc + scaledLog w x) ∧
      2 ^ n * (acc + scaledLog w x - 2 / 2 ^ w) ≤ logBitsLo w n x acc + 1 := by
  induction n generalizing x acc with
  | zero =>
    obtain ⟨h0, h1⟩ := h.scaledLog_mem
    have heps : (0 : ℝ) < 2 / 2 ^ w := by positivity
    simp only [logBitsLo, pow_zero, one_mul]
    constructor <;> linarith
  | succ n ih =>
    obtain ⟨b, x', hstep, hm, hle, hge⟩ := logBitsLo_succ n acc h
    obtain ⟨hlo, hhi⟩ := ih (2 * acc + b) hm
    rw [hstep]
    push_cast at hlo hhi
    constructor
    · calc (logBitsLo w n x' (2 * acc + b) : ℝ) ≤ 2 ^ n * (2 * acc + b + scaledLog w x') := hlo
        _ ≤ 2 ^ n * (2 * (acc + scaledLog w x)) := by gcongr; linarith
        _ = 2 ^ (n + 1) * (acc + scaledLog w x) := by ring
    · calc (2 : ℝ) ^ (n + 1) * (acc + scaledLog w x - 2 / 2 ^ w)
          = 2 ^ n * (2 * (acc + scaledLog w x - 2 / 2 ^ w)) := by ring
        _ ≤ 2 ^ n * (2 * acc + b + scaledLog w x' - 2 / 2 ^ w) := by gcongr; linarith
        _ ≤ logBitsLo w n x' (2 * acc + b) + 1 := hhi

/-- The upper loop gives `n` more bits of the logarithm, rounded up by at most a unit and the mantissa's
error. -/
theorem logBitsHi_bounds (n acc : Nat) (h : Mantissa w x) :
    2 ^ n * (acc + scaledLog w x) ≤ (logBitsHi w n x acc : ℝ) ∧
      (logBitsHi w n x acc : ℝ) ≤ 2 ^ n * (acc + scaledLog w x + 2 / 2 ^ w) + 1 := by
  induction n generalizing x acc with
  | zero =>
    obtain ⟨h0, h1⟩ := h.scaledLog_mem
    have heps : (0 : ℝ) < 2 / 2 ^ w := by positivity
    simp only [logBitsHi, pow_zero, one_mul]
    push_cast
    constructor <;> linarith
  | succ n ih =>
    obtain ⟨b, x', hstep, hm, hle, hge⟩ := logBitsHi_succ n acc h
    obtain ⟨hlo, hhi⟩ := ih (2 * acc + b) hm
    rw [hstep]
    push_cast at hlo hhi
    constructor
    · calc (2 : ℝ) ^ (n + 1) * (acc + scaledLog w x) = 2 ^ n * (2 * (acc + scaledLog w x)) := by ring
        _ ≤ 2 ^ n * (2 * acc + b + scaledLog w x') := by gcongr; linarith
        _ ≤ logBitsHi w n x' (2 * acc + b) := hlo
    · calc (logBitsHi w n x' (2 * acc + b) : ℝ)
          ≤ 2 ^ n * (2 * acc + b + scaledLog w x' + 2 / 2 ^ w) + 1 := hhi
        _ ≤ 2 ^ n * (2 * (acc + scaledLog w x + 2 / 2 ^ w)) + 1 := by gcongr; linarith
        _ = 2 ^ (n + 1) * (acc + scaledLog w x + 2 / 2 ^ w) + 1 := by ring

end

/-! ### The interval of log2 -/

/-- The mantissa of a positive rational: `q = 2^e · m` with m in [1, 2). -/
theorem mantissa_of_pos {q : ℚ} (hq : 0 < q) :
    1 ≤ q / pow2 (floorLog2 q) ∧ q / pow2 (floorLog2 q) < 2 ∧
      Real.logb 2 q = floorLog2 q + Real.logb 2 ((q / pow2 (floorLog2 q) : ℚ) : ℝ) := by
  obtain ⟨hlo, hhi⟩ := floorLog2_spec q hq
  have hpos := pow2_pos (floorLog2 q)
  have htwo : pow2 1 = 2 := by rw [pow2_eq]; norm_num
  refine ⟨(one_le_div hpos).2 hlo, ?_, ?_⟩
  · rw [div_lt_iff₀ hpos, ← htwo, ← pow2_add, add_comm]
    exact hhi
  · have hq' : (q : ℝ) ≠ 0 := by exact_mod_cast hq.ne'
    rw [Rat.cast_div, Real.logb_div hq' (by exact_mod_cast hpos.ne'), pow2_eq]
    push_cast
    rw [← Real.rpow_intCast, Real.logb_rpow two_pos (by norm_num)]
    ring

theorem eq_natAbs_div_den {q : ℚ} (hq : 0 < q) : q = (q.num.natAbs : ℚ) / q.den := by
  rw [Nat.cast_natAbs, abs_of_pos (Rat.num_pos.2 hq)]
  exact (Rat.num_div_den q).symm

/-- The loops start at the mantissa truncated and at one unit more. -/
theorem mantissa_truncated {m : ℚ} (w : Nat) (h1 : 1 ≤ m) (h2 : m < 2) :
    let x := m.num.natAbs * 2 ^ w / m.den
    Mantissa w x ∧ Mantissa w (x + 1) ∧ scaledLog w x ≤ Real.logb 2 m ∧
      Real.logb 2 m ≤ scaledLog w (x + 1 : Nat) ∧
      scaledLog w (x + 1 : Nat) ≤ scaledLog w x + 2 / 2 ^ w := by
  intro x
  have hden : (0 : ℚ) < m.den := by exact_mod_cast m.den_pos
  have hm := eq_natAbs_div_den (zero_lt_one.trans_le h1)
  have hscaled : (m : ℝ) * 2 ^ w = (m.num.natAbs * 2 ^ w : Nat) / m.den := by
    have hcast := congrArg (Rat.cast (K := ℝ)) hm
    rw [Rat.cast_div, Rat.cast_natCast, Rat.cast_natCast] at hcast
    rw [hcast, Nat.cast_mul, Nat.cast_pow, Nat.cast_ofNat]
    ring
  have hlo : 2 ^ w * m.den ≤ m.num.natAbs * 2 ^ w := by
    rw [hm, one_le_div hden] at h1
    rw [Nat.mul_comm]
    exact Nat.mul_le_mul_right _ (by exact_mod_cast h1)
  have hhi : m.num.natAbs * 2 ^ w < 2 * 2 ^ w * m.den := by
    rw [hm, div_lt_iff₀ hden] at h2
    have h2' : m.num.natAbs < 2 * m.den := by exact_mod_cast h2
    calc m.num.natAbs * 2 ^ w < 2 * m.den * 2 ^ w := Nat.mul_lt_mul_of_pos_right h2' (by positivity)
      _ = 2 * 2 ^ w * m.den := by ring
  obtain ⟨hx, hle, -⟩ := mantissa_floor m.den_pos hlo hhi.le
  have hlt : x < 2 * 2 ^ w := (Nat.div_lt_iff_lt_mul m.den_pos).2 hhi
  have hnext : Mantissa w (x + 1) := ⟨hx.1.trans (Nat.le_succ x), hlt⟩
  have hceil : (m : ℝ) * 2 ^ w ≤ (x + 1 : Nat) := by
    rw [hscaled, div_le_iff₀ (by exact_mod_cast m.den_pos)]
    exact_mod_cast (Nat.lt_mul_of_div_lt (Nat.lt_succ_self x) m.den_pos).le
  have hmpos : (0 : ℝ) < m := by exact_mod_cast zero_lt_one.trans_le h1
  rw [← scaledLog_mul (w := w), ← hscaled] at *
  refine ⟨hx, hnext, hle, scaledLog_mono (by positivity) hceil, ?_⟩
  push_cast
  exact scaledLog_add_one (by exact_mod_cast hx.1)

theorem log2Ival_of_one {q : ℚ} (p : Nat) (h : q / pow2 (floorLog2 q) = 1) :
    log2Ival p q = Ival.exact (floorLog2 q) := by simp [log2Ival, h]

theorem log2Ival_of_ne {q : ℚ} (p : Nat) (h : q / pow2 (floorLog2 q) ≠ 1) :
    let m := q / pow2 (floorLog2 q)
    let w := 2 * p + 32
    let x := m.num.natAbs * 2 ^ w / m.den
    log2Ival p q = ⟨floorLog2 q + (logBitsLo w p x 0 : ℚ) / 2 ^ p,
      floorLog2 q + (logBitsHi w p (x + 1) 0 : ℚ) / 2 ^ p⟩ := by
  simp [log2Ival, h, Rat.mkRat_eq_div]

/-- The bits of a mantissa from below and from above enclose its logarithm, where the mantissas' errors are
below half a bit. -/
theorem logBits_enclose {m : ℚ} (p w : Nat) (h1 : 1 ≤ m) (h2 : m < 2)
    (hsmall : (2 : ℝ) ^ p * (2 / 2 ^ w) ≤ 1 / 2) :
    let x := m.num.natAbs * 2 ^ w / m.den
    (logBitsLo w p x 0 : ℝ) ≤ 2 ^ p * Real.logb 2 m ∧ 2 ^ p * Real.logb 2 m ≤ logBitsHi w p (x + 1) 0 ∧
      logBitsHi w p (x + 1) 0 ≤ logBitsLo w p x 0 + 4 := by
  intro x
  obtain ⟨hx, hnext, hbelow, habove, hstep⟩ := mantissa_truncated w h1 h2
  obtain ⟨hlo, hlo'⟩ := logBitsLo_bounds p 0 hx
  obtain ⟨hhi, hhi'⟩ := logBitsHi_bounds p 0 hnext
  rw [Nat.cast_zero, zero_add] at hlo hlo' hhi hhi'
  refine ⟨hlo.trans (by gcongr), le_trans (by gcongr) hhi, ?_⟩
  have hscaled : (2 : ℝ) ^ p * scaledLog w (x + 1 : Nat) ≤ 2 ^ p * (scaledLog w x + 2 / 2 ^ w) := by
    gcongr
  have hreal : (logBitsHi w p (x + 1) 0 : ℝ) ≤ logBitsLo w p x 0 + 4 := by linarith
  exact_mod_cast hreal

/-- With `2·p + 32` bits of mantissa the error is far below that. -/
theorem mantissa_error_small (p : Nat) : (2 : ℝ) ^ p * (2 / 2 ^ (2 * p + 32)) ≤ 1 / 2 := by
  have hpow : (1 : ℝ) ≤ 2 ^ p := one_le_pow₀ one_le_two
  have hsplit : (2 : ℝ) ^ (2 * p + 32) = 2 ^ p * 2 ^ p * 2 ^ 32 := by ring
  rw [hsplit, ← mul_div_assoc, div_le_iff₀ (by positivity)]
  nlinarith

/-- The interval of log2 of a positive rational holds it and is at most four units of the precision wide. -/
theorem log2Ival_holds (p : Nat) {q : ℚ} (hq : 0 < q) :
    Holds (log2Ival p q) (Real.logb 2 q) ∧ (log2Ival p q).hi - (log2Ival p q).lo ≤ 4 / 2 ^ p := by
  obtain ⟨h1, h2, hlog⟩ := mantissa_of_pos hq
  by_cases hm : q / pow2 (floorLog2 q) = 1
  · rw [log2Ival_of_one p hm, hlog, hm, Rat.cast_one, Real.logb_one, add_zero]
    refine ⟨by exact_mod_cast holds_exact (floorLog2 q : ℚ), ?_⟩
    simp only [Ival.exact, sub_self]
    positivity
  · obtain ⟨hlo, hhi, hwidth⟩ := logBits_enclose p (2 * p + 32) h1 h2 (mantissa_error_small p)
    have hpow : (0 : ℝ) < 2 ^ p := by positivity
    rw [log2Ival_of_ne p hm, hlog]
    generalize Real.logb 2 ((q / pow2 (floorLog2 q) : ℚ) : ℝ) = mantissaLog at hlo hhi ⊢
    refine ⟨⟨?_, ?_⟩, ?_⟩
    · push_cast
      rw [add_le_add_iff_left, div_le_iff₀' hpow]
      exact hlo
    · push_cast
      rw [add_le_add_iff_left, le_div_iff₀' hpow]
      exact hhi
    · rw [add_sub_add_left_eq_sub, ← sub_div]
      have hrat := (Nat.cast_le (α := ℚ)).2 hwidth
      rw [Nat.cast_add, Nat.cast_ofNat] at hrat
      gcongr
      linarith

/-! ### The interval of ln 2 -/

theorem ln2Sum_bounds (w n : Nat) :
    (ln2Sum w n : ℝ) ≤ 2 ^ w * ∑ k ∈ Finset.range n, (1 / 2 : ℝ) ^ (k + 1) / (k + 1) ∧
      2 ^ w * ∑ k ∈ Finset.range n, (1 / 2 : ℝ) ^ (k + 1) / (k + 1) ≤ ln2Sum w n + n := by
  induction n with
  | zero => simp [ln2Sum]
  | succ n ih =>
    have hpos : 0 < (n + 1) * 2 ^ (n + 1) := by positivity
    have hterm : (2 : ℝ) ^ w * ((1 / 2 : ℝ) ^ (n + 1) / (n + 1)) =
        (2 ^ w : Nat) / ((n + 1) * 2 ^ (n + 1) : Nat) := by
      push_cast
      rw [one_div, inv_pow]
      field_simp
    have hle : ((2 ^ w / ((n + 1) * 2 ^ (n + 1)) : Nat) : ℝ) ≤
        (2 ^ w : Nat) / ((n + 1) * 2 ^ (n + 1) : Nat) := Nat.cast_div_le
    have hge := Nat.lt_floor_add_one (((2 ^ w : Nat) : ℝ) / ((n + 1) * 2 ^ (n + 1) : Nat))
    rw [Nat.floor_div_natCast, Nat.floor_natCast] at hge
    rw [Finset.sum_range_succ, mul_add, hterm, ln2Sum, Nat.cast_add, Nat.cast_succ]
    obtain ⟨hlo, hhi⟩ := ih
    constructor <;> linarith

/-- The tail of the series after `n` terms. -/
theorem log_two_series (n : Nat) :
    ∑ k ∈ Finset.range n, (1 / 2 : ℝ) ^ (k + 1) / (k + 1) ≤ Real.log 2 ∧
      Real.log 2 ≤ ∑ k ∈ Finset.range n, (1 / 2 : ℝ) ^ (k + 1) / (k + 1) + 1 / 2 ^ n := by
  have hlog : Real.log (1 - 1 / 2) = -Real.log 2 := by
    rw [show (1 - 1 / 2 : ℝ) = 2⁻¹ by norm_num, Real.log_inv]
  have habs : |(1 / 2 : ℝ)| < 1 := by norm_num [abs_of_pos]
  have hseries := Real.hasSum_pow_div_log_of_abs_lt_one habs
  have htail := Real.abs_log_sub_add_sum_range_le habs n
  rw [hlog, neg_neg] at hseries
  rw [hlog] at htail
  have hpow : |(1 / 2 : ℝ)| ^ (n + 1) / (1 - |(1 / 2 : ℝ)|) = 1 / 2 ^ n := by
    rw [abs_of_pos (by norm_num), pow_succ, one_div, inv_pow]
    field_simp
    norm_num
  rw [hpow] at htail
  constructor
  · exact sum_le_hasSum _ (fun k _ => by positivity) hseries
  · linarith [neg_le_of_abs_le htail]

theorem ln2Ival_eq (p : Nat) :
    ln2Ival p = ⟨(ln2Sum (p + 16) (p + 16) : ℚ) / 2 ^ (p + 16),
      ((ln2Sum (p + 16) (p + 16) : ℚ) + (p + 17)) / 2 ^ (p + 16)⟩ := by
  have hcount : (p : ℚ) + 16 + 1 = p + 17 := by ring
  simp only [ln2Ival, Rat.mkRat_eq_div]
  push_cast
  rw [add_assoc, hcount]

theorem ln2Ival_holds (p : Nat) :
    Holds (ln2Ival p) (Real.log 2) ∧ (ln2Ival p).hi - (ln2Ival p).lo ≤ (p + 17) / 2 ^ (p + 16) := by
  obtain ⟨hlo, hhi⟩ := ln2Sum_bounds (p + 16) (p + 16)
  obtain ⟨hseries, htail⟩ := log_two_series (p + 16)
  have hpow : (0 : ℝ) < 2 ^ (p + 16) := by positivity
  rw [ln2Ival_eq]
  refine ⟨⟨?_, ?_⟩, ?_⟩
  · push_cast
    rw [div_le_iff₀' hpow]
    exact hlo.trans (by gcongr)
  · have hscaled := mul_le_mul_of_nonneg_left htail hpow.le
    rw [mul_add, mul_one_div_cancel hpow.ne'] at hscaled
    push_cast at hhi ⊢
    rw [le_div_iff₀' hpow]
    linarith
  · rw [← sub_div, add_sub_cancel_left]

theorem ln2Sum_mono (w : Nat) : Monotone (ln2Sum w) := monotone_nat_of_le_succ fun _ => Nat.le_add_right _ _

/-- The first term of the series is there at every precision. -/
theorem ln2Ival_lo_pos (p : Nat) : 0 < (ln2Ival p).lo := by
  have hfirst : 0 < ln2Sum (p + 16) 1 := by
    have hle : 2 ^ 1 ≤ 2 ^ (p + 16) := Nat.pow_le_pow_right two_pos (by omega)
    simpa [ln2Sum] using hle
  have hsum : 0 < ln2Sum (p + 16) (p + 16) := hfirst.trans_le (ln2Sum_mono _ (by omega))
  rw [ln2Ival_eq]
  exact div_pos (Nat.cast_pos.2 hsum) (by positivity)

end Sys2Proof.Machine
end

section
/-!
The kernels of the logarithm unit on a pixel, and the real logarithms behind its constants
(43_log.md R260, R264, R267 to R272).
-/
namespace Sys2Proof.Machine

/-- Settles O39: the unit's function channel by channel, then one kernel after the other. -/
theorem logKernels : Obligations.LogKernels := by
  refine ⟨fun u x => rfl, fun u c x => ?_⟩
  unfold logKernel
  cases u.kernel with
  | log => rfl
  | antilog => rfl
  | lin2log => rfl
  | log2lin => rfl
  | camLin2log => rfl
  | camLog2lin => rfl

/-- BASE = 10 (T-LOG-3): both constants are decided at the first precision. -/
theorem roundReal_base_ten :
    roundReal (lbIval 10) = 0x40549A78#32 ∧ roundReal (fun p => (lbIval 10 p).inv) = 0x3E9A209B#32 := by
  decide +kernel

/-- Settles O40: the enclosures of log2 and ln 2, the rounding of narrowing intervals, and BASE = 10. -/
theorem logIntervalsHoldRealValues : Obligations.LogIntervalsHoldRealValues :=
  ⟨fun p _ hq => log2Ival_holds p hq, ln2Ival_holds, fun _ _ => correctlyRounded_roundReal,
    roundReal_base_ten⟩

end Sys2Proof.Machine
end

section
/-!
The intervals of the constants of UPD.LOG (43_log.md R264): the logarithm of BASE, which is positive, the
ratio of two logarithms, found exactly where it is rational, and the camera constants built of them.
-/
namespace Sys2Proof.Machine
open Sys2Proof.Safety

/-! ### The logarithms of BASE -/

/-- The lower bound that keeps the interval positive: log2 lies above its chord from 1 to 2. -/
theorem min_sub_one_le_logb {q : ℝ} (hq : 1 < q) : min 1 (q - 1) ≤ Real.logb 2 q := by
  have hexp : (2 : ℝ) ^ min 1 (q - 1) ≤ q := calc
    (2 : ℝ) ^ min 1 (q - 1) = (1 + 1) ^ min 1 (q - 1) := by norm_num
    _ ≤ 1 + min 1 (q - 1) * 1 :=
      rpow_one_add_le_one_add_mul_self (by norm_num) (le_min zero_le_one (by linarith)) (min_le_left _ _)
    _ ≤ q := by linarith [min_le_right 1 (q - 1)]
  exact (Real.le_logb_iff_rpow_le one_lt_two (by linarith)).2 hexp

section
variable {q : ℚ} (p : Nat)

theorem lbIval_holds (hq : 1 < q) : Holds (lbIval q p) (Real.logb 2 q) := by
  obtain ⟨⟨hlo, hhi⟩, -⟩ := log2Ival_holds p (zero_lt_one.trans hq)
  refine ⟨?_, hhi⟩
  simp only [lbIval, Rat.cast_max, Rat.cast_min, Rat.cast_sub, Rat.cast_one]
  exact max_le hlo (min_sub_one_le_logb (by exact_mod_cast hq))

theorem lbIval_lo_pos (hq : 1 < q) : 0 < (lbIval q p).lo :=
  lt_max_of_lt_right (lt_min zero_lt_one (sub_pos.2 hq))

theorem lnIval_holds (hq : 1 < q) : Holds (lnIval q p) (Real.log q) := by
  have hlog : Real.log q = Real.logb 2 q * Real.log 2 :=
    (div_mul_cancel₀ _ (Real.log_pos one_lt_two).ne').symm
  rw [hlog]
  exact holds_mul (lbIval_holds p hq) (ln2Ival_holds p).1

theorem lnIval_lo_pos (hq : 1 < q) : 0 < (lnIval q p).lo :=
  Ival.mul_lo_pos (lbIval_holds p hq) (ln2Ival_holds p).1 (lbIval_lo_pos p hq) (ln2Ival_lo_pos p)

end

/-! ### Dyadic rationals: the numbers of a descriptor -/

/-- The denominator is a power of two. -/
def IsDyadic (q : ℚ) : Prop := ∃ k, q.den ∣ 2 ^ k

section
variable {q r : ℚ}

theorem isDyadic_natCast (n : Nat) : IsDyadic n := ⟨0, by simp⟩

theorem isDyadic_add (hq : IsDyadic q) (hr : IsDyadic r) : IsDyadic (q + r) := by
  obtain ⟨j, hj⟩ := hq
  obtain ⟨k, hk⟩ := hr
  exact ⟨j + k, (Rat.add_den_dvd q r).trans (by rw [pow_add]; exact Nat.mul_dvd_mul hj hk)⟩

theorem isDyadic_mul (hq : IsDyadic q) (hr : IsDyadic r) : IsDyadic (q * r) := by
  obtain ⟨j, hj⟩ := hq
  obtain ⟨k, hk⟩ := hr
  exact ⟨j + k, (Rat.mul_den_dvd q r).trans (by rw [pow_add]; exact Nat.mul_dvd_mul hj hk)⟩

theorem isDyadic_neg (hq : IsDyadic q) : IsDyadic (-q) := by
  obtain ⟨j, hj⟩ := hq
  exact ⟨j, by rwa [Rat.neg_den]⟩

theorem isDyadic_pow2 (e : Int) : IsDyadic (pow2 e) := by
  cases e with
  | ofNat n => exact isDyadic_natCast _
  | negSucc n =>
    refine ⟨n + 1, ?_⟩
    have hdvd := Rat.den_dvd 1 ((2 ^ (n + 1) : Nat) : Int)
    rw [← Rat.mkRat_eq_divInt] at hdvd
    exact Int.natCast_dvd_natCast.1 hdvd

/-- A binary64 number is its significand times a power of two. -/
theorem isDyadic_ratOfF64 {x : F64} (h : ratOfF64 x = some q) : IsDyadic q := by
  have hmag : ∀ n m, val64 x = .fin n m → IsDyadic m := by
    intro n m hval
    unfold val64 FloatFormat.value at hval
    simp only at hval
    split at hval
    · split at hval <;> cases hval
    · split at hval
      · cases hval
        exact isDyadic_mul (isDyadic_natCast _) (isDyadic_pow2 _)
      · cases hval
        exact isDyadic_mul (isDyadic_natCast _) (isDyadic_pow2 _)
  obtain ⟨n, m, hval, rfl⟩ := (ratOfF64_eq x q).1 h
  cases n
  · exact hmag _ _ hval
  · exact isDyadic_neg (hmag _ _ hval)

theorem den_eq_two_pow_log2 (hq : IsDyadic q) : q.den = 2 ^ q.den.log2 := by
  obtain ⟨k, hk⟩ := hq
  obtain ⟨m, -, hm⟩ := (Nat.dvd_prime_pow Nat.prime_two).1 hk
  rw [hm, Nat.log2_two_pow]

end

/-! ### The ratio of two logarithms -/

theorem splitOdd_spec (fuel n : Nat) : n = 2 ^ (splitOdd fuel n).1 * (splitOdd fuel n).2 := by
  induction fuel generalizing n with
  | zero => simp [splitOdd]
  | succ fuel ih =>
    by_cases h : n % 2 = 0
    · have hsplit : splitOdd (fuel + 1) n = ((splitOdd fuel (n / 2)).1 + 1, (splitOdd fuel (n / 2)).2) := by
        simp [splitOdd, h]
      rw [hsplit, pow_succ, mul_right_comm, ← ih (n / 2)]
      omega
    · simp [splitOdd, h]

theorem powerOf_spec (b fuel n k : Nat) (h : powerOf b fuel n = some k) : n = b ^ k := by
  induction fuel generalizing n k with
  | zero =>
    simp only [powerOf, ite_eq_iff, reduceCtorEq, and_false, or_false, Option.some.injEq] at h
    obtain ⟨rfl, rfl⟩ := h
    rfl
  | succ fuel ih =>
    unfold powerOf at h
    split at h
    · next hn => cases h; exact hn
    · split at h
      · next hdvd =>
        obtain ⟨j, hj, rfl⟩ := Option.map_eq_some_iff.1 h
        rw [pow_succ, ← ih _ _ hj, Nat.div_mul_cancel (Nat.dvd_of_mod_eq_zero hdvd)]
      · cases h

theorem eq_dyadicParts {u : ℚ} (hd : IsDyadic u) (hu : 0 < u) :
    u = ((dyadicParts u).1 : ℚ) * pow2 (dyadicParts u).2 := by
  have hnum := congrArg (Nat.cast (R := ℚ)) (splitOdd_spec (u.num.natAbs.log2 + 1) u.num.natAbs)
  have hden := congrArg (Nat.cast (R := ℚ)) (den_eq_two_pow_log2 hd)
  have hu' := eq_natAbs_div_den hu
  push_cast at hnum hden
  rw [hnum, hden] at hu'
  rw [dyadicParts, pow2_eq, zpow_sub₀ two_ne_zero, zpow_natCast, zpow_natCast]
  exact hu'.trans (by dsimp only; ring)

/-- log2 of a dyadic from its odd part and its power of two. -/
theorem logb_dyadicParts {u : ℚ} (hd : IsDyadic u) (hu : 0 < u) :
    (dyadicParts u).1 ≠ 0 ∧ Real.logb 2 u = Real.logb 2 (dyadicParts u).1 + (dyadicParts u).2 := by
  have hval := eq_dyadicParts hd hu
  have hodd : (dyadicParts u).1 ≠ 0 := by
    intro h0
    rw [h0, Nat.cast_zero, zero_mul] at hval
    exact hu.ne' hval
  refine ⟨hodd, ?_⟩
  have hcast : (u : ℝ) = ((dyadicParts u).1 : ℝ) * 2 ^ (dyadicParts u).2 := by
    have h := congrArg (Rat.cast (K := ℝ)) hval
    rw [pow2_eq] at h
    push_cast at h
    exact h
  rw [hcast, Real.logb_mul (by exact_mod_cast hodd) (by positivity), ← Real.rpow_intCast,
    Real.logb_rpow two_pos (by norm_num)]

/-- `u^j = b^k` gives the ratio k/j. -/
theorem ratioAt_sound {u b r : ℚ} {j : Nat} (hj : 0 < j) (hud : IsDyadic u) (hbd : IsDyadic b) (hu : 0 < u)
    (hb : 1 < b) (h : ratioAt u b j = some r) : (r : ℝ) = Real.logb 2 u / Real.logb 2 b := by
  unfold ratioAt at h
  simp only at h
  split at h
  · next k hk =>
    split at h
    · next he =>
      cases h
      obtain ⟨hu0, hulog⟩ := logb_dyadicParts hud hu
      obtain ⟨hb0, hblog⟩ := logb_dyadicParts hbd (zero_lt_one.trans hb)
      have hpow := congrArg (fun n : Nat => Real.logb 2 n) (powerOf_spec _ _ _ _ hk)
      have he' := congrArg (Int.cast (R := ℝ)) he
      push_cast at hpow he'
      rw [Real.logb_pow, Real.logb_pow] at hpow
      have hbpos : 0 < Real.logb 2 b := Real.logb_pos one_lt_two (by exact_mod_cast hb)
      rw [Rat.mkRat_eq_div, Rat.cast_div, eq_div_iff hbpos.ne', div_mul_eq_mul_div,
        div_eq_iff (by exact_mod_cast hj.ne'), hulog, hblog]
      push_cast
      linarith
    · cases h
  · cases h

theorem rationalRatio_sound {u b r : ℚ} (hud : IsDyadic u) (hbd : IsDyadic b) (hu : 0 < u)
    (hb : 1 < b) (h : rationalRatio u b = some r) : (r : ℝ) = Real.logb 2 u / Real.logb 2 b := by
  obtain ⟨j, -, hj⟩ := List.exists_of_findSome?_eq_some h
  exact ratioAt_sound (Nat.succ_pos j) hud hbd hu hb hj

theorem logRatioIval_holds {u b : ℚ} (p : Nat) (hud : IsDyadic u) (hbd : IsDyadic b) (hu : 0 < u)
    (hb : 1 < b) : Holds (logRatioIval p u b) (Real.logb 2 u / Real.logb 2 b) := by
  have hdiv : Holds ((log2Ival p u).div (lbIval b p)) (Real.logb 2 u / Real.logb 2 b) :=
    holds_div (log2Ival_holds p hu).1 (lbIval_holds p hb) (lbIval_lo_pos p hb)
  unfold logRatioIval
  split
  · exact hdiv
  · split
    · next r hr =>
      rw [← rationalRatio_sound hud hbd hu hb hr]
      exact holds_exact r
    · exact hdiv

end Sys2Proof.Machine
end

section
/-!
UPD.LOG: its errors in order, the kernel that it selects, and the constants of the configured unit
(43_log.md R262 to R265).
-/
namespace Sys2Proof.Machine
open Sys2Proof.Safety

theorem f64Eq_iff (x : F64) (r : ℚ) : f64Eq x r = true ↔ ratOfF64 x = some r := beq_iff_eq

theorem Rgb.all_toList {α : Type} (x : Rgb α) (f : α → Bool) :
    x.toList.all f = true ↔ ∀ c, f (x.get c) = true := by
  constructor
  · intro h c
    exact List.all_eq_true.1 h _ (by cases c <;> simp [Rgb.toList, Rgb.get])
  · intro h
    simpa [Rgb.toList] using ⟨h .r, h .g, h .b⟩

/-! ### The constants (43_log.md R264) -/

/-- A constant whose operands are numbers is the rounding of its value. -/
theorem logConst_of_finite {which : Nat} {base : F64} {p : LogParams} {operands : List F64}
    {value : List ℚ → Nat → Ival} {qs : List ℚ} (h : operands.mapM ratOfF64 = some qs) :
    logConst which base p operands value = roundReal (value qs) := by
  rw [logConst, h]

section
variable {q l : ℚ} {base64 : F64} {p : LogParams} (free tag : Nat)

theorem rounded_logScale (hq : 1 < q) :
    Rounded (fun prec => (lbIval q prec).inv) (1 / Real.logb 2 q)
      (roundReal fun prec => (lbIval q prec).inv) :=
  rounded_roundReal fun prec => holds_inv (lbIval_holds prec hq) (lbIval_lo_pos prec hq)

theorem rounded_log2Base (hq : 1 < q) :
    Rounded (lbIval q) (Real.logb 2 q) (roundReal (lbIval q)) :=
  rounded_roundReal fun prec => lbIval_holds prec hq

theorem logChannel_k (camera : Bool) (hq : 1 < q) (hl : ratOfF64 p.logSlope = some l) :
    Rounded (fun prec => (lbIval q prec).inv.scale l) (l / Real.logb 2 q)
      (logChannel q base64 camera free tag p).k := by
  have hk : (logChannel q base64 camera free tag p).k =
      roundReal fun prec => (lbIval q prec).inv.scale l := by
    cases camera <;> exact logConst_of_finite (qs := [l]) (by simp [hl])
  rw [hk, div_eq_mul_one_div]
  exact rounded_roundReal fun prec =>
    holds_scale l (holds_inv (lbIval_holds prec hq) (lbIval_lo_pos prec hq))

theorem logChannel_kinv (camera : Bool) (hq : 1 < q) (hl : ratOfF64 p.logSlope = some l) :
    Rounded (fun prec => (lbIval q prec).scale l⁻¹) (Real.logb 2 q / l)
      (logChannel q base64 camera free tag p).kinv := by
  have hk : (logChannel q base64 camera free tag p).kinv =
      roundReal fun prec => (lbIval q prec).scale l⁻¹ := by
    cases camera <;> exact logConst_of_finite (qs := [l]) (by simp [hl])
  rw [hk, div_eq_inv_mul, ← Rat.cast_inv]
  exact rounded_roundReal fun prec => holds_scale l⁻¹ (lbIval_holds prec hq)

end

section
variable {q m b l brk o : ℚ}

theorem linearSlopeIval_holds (prec : Nat) (hq : 1 < q) :
    Holds (linearSlopeIval q m b l brk prec)
      (l * m / (((m * brk + b : ℚ) : ℝ) * Real.log q)) := by
  have h := holds_scale (l * m / (m * brk + b))
    (holds_inv (lnIval_holds prec hq) (lnIval_lo_pos prec hq))
  have hval : ((l * m / (m * brk + b) : ℚ) : ℝ) * (1 / Real.log q) =
      l * m / (((m * brk + b : ℚ) : ℝ) * Real.log q) := by
    rw [Rat.cast_div, Rat.cast_mul, div_mul_div_comm, mul_one]
  rwa [hval] at h

theorem logBreakIval_holds (prec : Nat) (hq : 1 < q) (hqd : IsDyadic q) (hd : IsDyadic (m * brk + b))
    (hpos : 0 < m * brk + b) :
    Holds (logBreakIval q m b l o brk prec)
      (l * Real.logb 2 ((m * brk + b : ℚ) : ℝ) / Real.logb 2 q + o) := by
  rw [mul_div_assoc]
  exact holds_add (holds_scale l (logRatioIval_holds prec hd hqd hpos hq)) (holds_exact o)

theorem linearOffsetIval_holds (prec : Nat) (hq : 1 < q) (hqd : IsDyadic q) (hd : IsDyadic (m * brk + b))
    (hpos : 0 < m * brk + b) :
    Holds (linearOffsetIval q m b l o brk prec)
      (l * Real.logb 2 ((m * brk + b : ℚ) : ℝ) / Real.logb 2 q + o -
        l * m / (((m * brk + b : ℚ) : ℝ) * Real.log q) * brk) := by
  have h := holds_scale (l * m * brk / (m * brk + b))
    (holds_inv (lnIval_holds prec hq) (lnIval_lo_pos prec hq))
  have hval : ((l * m * brk / (m * brk + b) : ℚ) : ℝ) * (1 / Real.log q) =
      l * m / (((m * brk + b : ℚ) : ℝ) * Real.log q) * brk := by
    rw [Rat.cast_div, Rat.cast_mul, Rat.cast_mul, div_mul_div_comm, mul_one, div_mul_eq_mul_div]
  rw [hval] at h
  exact holds_sub (logBreakIval_holds prec hq hqd hd hpos) h

end

section
variable {q m b l brk o : ℚ} {base64 : F64} {p : LogParams} {camera : Bool} (free tag : Nat)
  (hcam : camera = true) (hm : ratOfF64 p.linSlope = some m) (hb : ratOfF64 p.linOffset = some b)
  (hl : ratOfF64 p.logSlope = some l) (hbrk : ratOfF64 p.linSideBreak = some brk)
include hcam hm hb hl hbrk

theorem logChannel_linearSlope (hq : 1 < q) :
    Rounded (linearSlopeIval q m b l brk) (l * m / (((m * brk + b : ℚ) : ℝ) * Real.log q))
      (logChannel q base64 camera free tag p).linearSlope := by
  subst hcam
  have hval : (logChannel q base64 true free tag p).linearSlope =
      roundReal (linearSlopeIval q m b l brk) := by
    exact logConst_of_finite (qs := [m, b, l, brk]) (by simp [hm, hb, hl, hbrk])
  rw [hval]
  exact rounded_roundReal fun prec => linearSlopeIval_holds prec hq

theorem logChannel_logBreak_linearOffset (hq : 1 < q) (hbase : ratOfF64 base64 = some q)
    (ho : ratOfF64 p.logOffset = some o) (hpos : 0 < m * brk + b) :
    let value : ℝ := l * Real.logb 2 ((m * brk + b : ℚ) : ℝ) / Real.logb 2 q + o
    Rounded (logBreakIval q m b l o brk) value (logChannel q base64 camera free tag p).logBreak ∧
      Rounded (linearOffsetIval q m b l o brk)
        (value - l * m / (((m * brk + b : ℚ) : ℝ) * Real.log q) * brk)
        (logChannel q base64 camera free tag p).linearOffset := by
  subst hcam
  have hqd := isDyadic_ratOfF64 hbase
  have hd : IsDyadic (m * brk + b) :=
    isDyadic_add (isDyadic_mul (isDyadic_ratOfF64 hm) (isDyadic_ratOfF64 hbrk)) (isDyadic_ratOfF64 hb)
  have hfive : [p.linSlope, p.linOffset, p.logSlope, p.logOffset, p.linSideBreak].mapM ratOfF64 =
      some [m, b, l, o, brk] := by simp [hm, hb, hl, ho, hbrk]
  have hbreak : (logChannel q base64 true free tag p).logBreak =
      roundReal (logBreakIval q m b l o brk) :=
    (logConst_of_finite hfive).trans rfl
  have hoffset : (logChannel q base64 true free tag p).linearOffset =
      roundReal (linearOffsetIval q m b l o brk) :=
    (logConst_of_finite hfive).trans rfl
  rw [hbreak, hoffset]
  exact ⟨rounded_roundReal fun prec => logBreakIval_holds prec hq hqd hd hpos,
    rounded_roundReal fun prec => linearOffsetIval_holds prec hq hqd hd hpos⟩

end

/-- The constants that are one value of the descriptor. -/
theorem logChannel_fields (q : ℚ) (base64 : F64) (camera : Bool) (free tag : Nat) (p : LogParams) :
    let ch := logChannel q base64 camera free tag p
    ch.m = fl32OfF64 p.linSlope ∧ ch.b = fl32OfF64 p.linOffset ∧ ch.logOff = fl32OfF64 p.logOffset ∧
      (camera = true → ch.linBreak = fl32OfF64 p.linSideBreak) := by
  cases camera
  · exact ⟨rfl, rfl, rfl, nofun⟩
  · exact ⟨rfl, rfl, rfl, fun _ => rfl⟩

/-! ### The validation (43_log.md R263) -/

theorem baseOk_iff (base : F64) : baseOk base = true ↔ ∃ q, ratOfF64 base = some q ∧ 1 < q := by
  unfold baseOk
  cases ratOfF64 base <;> simp

/-- Check (d) passes where the value is a number above 0. -/
theorem breakOk_of_breakPositive {p : LogParams}
    (h : breakPositive p.linSlope p.linSideBreak p.linOffset) : p.breakOk = true := by
  obtain ⟨m, hm, hval⟩ := (breakPositive_iff p).1 h
  simp [LogParams.breakOk, hval, hm]

/-- It may pass only there or at +∞. -/
theorem break_of_breakOk {p : LogParams} (h : p.breakOk = true) :
    breakPositive p.linSlope p.linSideBreak p.linOffset ∨
      breakInfinite p.linSlope p.linSideBreak p.linOffset := by
  rw [breakPositive_iff, breakInfinite_iff]
  unfold LogParams.breakOk at h
  split at h
  · cases h
  · cases h
  · next hval => exact .inr hval
  · next neg mag hval =>
    obtain ⟨rfl, hmag⟩ : neg = false ∧ 0 < mag := by simpa using h
    exact .inl ⟨mag, hmag, hval⟩

/-- Where the operands are numbers, a check that passes has a value above 0. -/
theorem break_arg_pos {p : LogParams} {m b brk : ℚ} (h : p.breakOk = true)
    (hm : ratOfF64 p.linSlope = some m) (hb : ratOfF64 p.linOffset = some b)
    (hbrk : ratOfF64 p.linSideBreak = some brk) : 0 < m * brk + b := by
  rcases break_of_breakOk h with hpos | hinf
  · obtain ⟨x, y, z, hx, hy, hz, hlt⟩ := hpos
    rw [hm] at hx; rw [hbrk] at hy; rw [hb] at hz
    cases hx; cases hy; cases hz
    exact hlt
  · obtain ⟨_, _, hmval, -⟩ := (ratOfF64_eq _ _).1 hm
    obtain ⟨_, _, hbval, -⟩ := (ratOfF64_eq _ _).1 hb
    obtain ⟨_, _, hbrkval, -⟩ := (ratOfF64_eq _ _).1 hbrk
    rw [breakInfinite_iff, LogParams.breakValue, hmval, hbval, hbrkval] at hinf
    cases hinf

section
variable {d : LogOpData} {camera : Bool}

theorem validate_base (h : baseOk d.base = false) : d.validate camera = .error ⟨.invalidOpdata, 7⟩ := by
  simp [LogOpData.validate, h]

theorem validate_logSlope (hbase : baseOk d.base = true)
    (h : (d.ch.toList.all fun p => !f64Eq p.logSlope 0) = false) :
    d.validate camera = .error ⟨.invalidOpdata, 8⟩ := by
  simp [LogOpData.validate, hbase, h]

theorem validate_linSlope (hbase : baseOk d.base = true)
    (hslope : (d.ch.toList.all fun p => !f64Eq p.logSlope 0) = true)
    (h : (d.ch.toList.all fun p => !f64Eq p.linSlope 0) = false) :
    d.validate camera = .error ⟨.invalidOpdata, 9⟩ := by
  simp only [LogOpData.validate, hbase, hslope, h, require_true, require_false, check_ok_bind, check_error_bind]

theorem validate_break (hbase : baseOk d.base = true)
    (hslope : (d.ch.toList.all fun p => !f64Eq p.logSlope 0) = true)
    (hlin : (d.ch.toList.all fun p => !f64Eq p.linSlope 0) = true) (hcam : camera = true)
    (h : ¬∀ c, (d.ch.get c).breakOk = true) : d.validate camera = .error ⟨.invalidOpdata, 10⟩ := by
  rw [← Rgb.all_toList, Bool.not_eq_true] at h
  simp only [LogOpData.validate, hbase, hslope, hlin, hcam, h, require_true, check_ok_bind,
    Bool.not_true, Bool.or_self, require_false]

theorem validate_ok (hbase : baseOk d.base = true)
    (hslope : (d.ch.toList.all fun p => !f64Eq p.logSlope 0) = true)
    (hlin : (d.ch.toList.all fun p => !f64Eq p.linSlope 0) = true)
    (h : camera = true → ∀ c, (d.ch.get c).breakOk = true) : d.validate camera = .ok () := by
  have hpass : (!camera || d.ch.toList.all LogParams.breakOk) = true := by
    rw [Bool.or_eq_true, Bool.not_eq_true', Rgb.all_toList]
    exact (Bool.eq_false_or_eq_true camera).elim (fun hcam => .inr (h hcam)) .inl
  simp only [LogOpData.validate, hbase, hslope, hlin, hpass, require_true, check_ok_bind]

end

/-- The header of a logarithm descriptor has no reserved bit set. -/
def LogHeaderClean (s : State) : Prop :=
  (headerFlags s).extractLsb' 2 30 = 0 ∧ headerSecond s = 0

section
variable {s : State} {ib ob : BitDepth}

theorem configureLog_reserved (h : updReady s ib ob) (hr : ¬LogHeaderClean s) :
    configureLog s = .error ⟨.invalidOpdata, 12⟩ := by
  obtain ⟨hdepths, hheader⟩ := updReady_checks s ib ob h
  have hbits : ((headerFlags s).extractLsb' 2 30 == 0#30 && headerSecond s == 0#32) = false := by
    simpa [LogHeaderClean, not_and] using hr
  simp [configureLog, hdepths, hheader, hbits]

theorem configureLog_clean (h : updReady s ib ob) (hc : LogHeaderClean s) :
    configureLog s = (do
      checkDescriptor s 136
      (readLogOpData s).validate (logCamera (headerFlags s))
      return (readLogOpData s).unit (headerFlags s) ib ob s.free) := by
  obtain ⟨hdepths, hheader⟩ := updReady_checks s ib ob h
  obtain ⟨hflags, hsecond⟩ := hc
  simp [configureLog, hdepths, hheader, hflags, hsecond]

theorem configureLog_unmapped (h : updReady s ib ob) (hc : LogHeaderClean s)
    (hbus : ¬descriptorMapped s 136) : configureLog s = .error ⟨.bus, s.cfg.opdataPtr⟩ := by
  rw [configureLog_clean h hc, checkDescriptor_error s 136 hbus, check_error_bind]

theorem configureLog_invalid {e : Error} (h : updReady s ib ob) (hc : LogHeaderClean s)
    (hmapped : descriptorMapped s 136)
    (hv : (readLogOpData s).validate (logCamera (headerFlags s)) = .error e) :
    configureLog s = .error e := by
  rw [configureLog_clean h hc, checkDescriptor_ok s 136 hmapped, check_ok_bind, hv, check_error_bind]

theorem exec_updLog_of_valid (h : updReady s ib ob) (hc : LogHeaderClean s)
    (hmapped : descriptorMapped s 136)
    (hv : (readLogOpData s).validate (logCamera (headerFlags s)) = .ok ()) :
    exec .updLog s = .next { s with
      log := (readLogOpData s).unit (headerFlags s) ib ob s.free
      free := s.free + 1
      cp := s.cp + 4 } := by
  have hunit : configureLog s = .ok ((readLogOpData s).unit (headerFlags s) ib ob s.free) := by
    rw [configureLog_clean h hc, checkDescriptor_ok s 136 hmapped, check_ok_bind, hv, check_ok_bind,
      check_pure]
  rw [exec_updLog, execUpdLog, hunit]
  rfl

end

/-! ### The kernel (43_log.md R262) -/

theorem LogParams.isIdentity_iff (p : LogParams) : p.isIdentity = true ↔
    ratOfF64 p.linSlope = some 1 ∧ ratOfF64 p.linOffset = some 0 ∧ ratOfF64 p.logSlope = some 1 ∧
      ratOfF64 p.logOffset = some 0 := by
  simp only [LogParams.isIdentity, Bool.and_eq_true, f64Eq_iff, and_assoc]

theorem LogOpData.kernel_camera (d : LogOpData) {flags : Word} (h : logCamera flags = true) :
    d.kernel flags = if logInverse flags then .camLog2lin else .camLin2log := if_pos h

theorem LogOpData.kernel_identity (d : LogOpData) {flags : Word} (h : logCamera flags = false)
    (hid : ∀ c, (d.ch.get c).isIdentity = true) :
    d.kernel flags = if logInverse flags then .antilog else .log := by
  simp [LogOpData.kernel, h, (Rgb.all_toList _ _).2 hid]

theorem LogOpData.kernel_general (d : LogOpData) {flags : Word} (h : logCamera flags = false)
    (hid : ¬∀ c, (d.ch.get c).isIdentity = true) :
    d.kernel flags = if logInverse flags then .log2lin else .lin2log := by
  rw [← Rgb.all_toList, Bool.not_eq_true] at hid
  simp [LogOpData.kernel, h, hid]

/-! ### The configured unit -/

/-- Each channel of the unit has the constants of that channel's parameters. -/
theorem LogOpData.unit_channel (d : LogOpData) {q : ℚ} (h : ratOfF64 d.base = some q) (flags : Word)
    (ib ob : BitDepth) (free : Nat) (c : Chan) :
    ∃ tag, (d.unit flags ib ob free).ch.get c =
      logChannel q d.base (logCamera flags) free tag (d.ch.get c) := by
  have hbase : (ratOfF64 d.base).getD 2 = q := by rw [h, Option.getD_some]
  subst hbase
  cases c
  · exact ⟨0, rfl⟩
  · exact ⟨1, rfl⟩
  · exact ⟨2, rfl⟩

theorem LogOpData.unit_scales (d : LogOpData) {q : ℚ} (h : ratOfF64 d.base = some q) (flags : Word)
    (ib ob : BitDepth) (free : Nat) :
    (d.unit flags ib ob free).logScale = roundReal (fun prec => (lbIval q prec).inv) ∧
      (d.unit flags ib ob free).log2Base = roundReal (lbIval q) := by
  have hbase : (ratOfF64 d.base).getD 2 = q := by rw [h, Option.getD_some]
  subst hbase
  exact ⟨rfl, rfl⟩

/-- The five values of channel `c` in the descriptor. -/
theorem readLogOpData_channel (s : State) (c : Chan) :
    let field (k : Nat) : F64 :=
      readF64 s.mem (s.cfg.opdataPtr.toNat + 16 +
        40 * (match c with | .r => 0 | .g => 1 | .b => 2) + 8 * k)
    (readLogOpData s).ch.get c = ⟨field 0, field 1, field 2, field 3, field 4⟩ := by
  have h (a k : Nat) : descF64 s (16 + 40 * a + 8 * k) =
      readF64 s.mem (s.cfg.opdataPtr.toNat + 16 + 40 * a + 8 * k) := by
    rw [descF64, Nat.add_assoc, Nat.add_assoc, Nat.add_assoc]
  cases c
  · simp only [← h]; rfl
  · simp only [← h]; rfl
  · simp only [← h]; rfl

/-- No channel has 0 in a field. -/
theorem all_ne_zero_iff (x : Rgb LogParams) (f : LogParams → F64) :
    (x.toList.all fun p => !f64Eq (f p) 0) = true ↔ ∀ c, ¬ratOfF64 (f (x.get c)) = some 0 := by
  rw [Rgb.all_toList]
  exact forall_congr' fun c => by rw [Bool.not_eq_true', ← Bool.not_eq_true, f64Eq_iff]

/-- Settles O41: the checks in order, then the unit: its kernel, and each constant by the interval that
holds its real value. -/
theorem updLogConfigures : Obligations.UpdLogConfigures := by
  intro s ib ob hready fails flags inverse camera clean base baseGood field isNum identity slopesGood
    linGood breakGood breakOpen configured
  set d := readLogOpData s
  have hch (c : Chan) : d.ch.get c = ⟨field c 0, field c 1, field c 2, field c 3, field c 4⟩ :=
    readLogOpData_channel s c
  have hslopes : slopesGood ↔ (d.ch.toList.all fun p => !f64Eq p.logSlope 0) = true := by
    rw [all_ne_zero_iff]
    exact forall_congr' fun c => by rw [hch c]
  have hlins : linGood ↔ (d.ch.toList.all fun p => !f64Eq p.linSlope 0) = true := by
    rw [all_ne_zero_iff]
    exact forall_congr' fun c => by rw [hch c]
  have hidentity : identity ↔ ∀ c, (d.ch.get c).isIdentity = true :=
    forall_congr' fun c => by rw [hch c, LogParams.isIdentity_iff]
  have hraises {e : Error} (h : configureLog s = .error e) :
      ∃ t, exec .updLog s = .next t ∧ failedUpdate .log e.name.code e.info s t :=
    exec_upd_of_raises (id := .log) h
  refine ⟨fun hr => hraises (configureLog_reserved hready hr),
    fun hc hbus => hraises (configureLog_unmapped hready hc hbus), fun hc hmapped => ?_⟩
  have hinvalid {e : Error} (hv : d.validate camera = .error e) :=
    hraises (configureLog_invalid hready hc hmapped hv)
  have hbaseOk : baseGood ↔ baseOk d.base = true := (baseOk_iff base).symm
  rw [hbaseOk, hslopes, hlins]
  refine ⟨fun hbase => hinvalid (validate_base (Bool.eq_false_iff.2 hbase)),
    fun hbase hslope => hinvalid (validate_logSlope hbase (Bool.eq_false_iff.2 hslope)),
    fun hbase hslope hlin => hinvalid (validate_linSlope hbase hslope (Bool.eq_false_iff.2 hlin)),
    fun hbase hslope hlin => ?_⟩
  have hfails (hcam : camera = true) (hbrk : ¬∀ c, (d.ch.get c).breakOk = true) : fails 0x08 10 :=
    hinvalid (validate_break hbase hslope hlin hcam hbrk)
  have hconfigured (hbrk : camera = true → ∀ c, (d.ch.get c).breakOk = true) : configured := by
    have hvalid := validate_ok hbase hslope hlin hbrk
    refine ⟨d.unit flags ib ob s.free, exec_updLog_of_valid hready hc hmapped hvalid, rfl, rfl, rfl,
      d.kernel_camera, fun hcam hid => d.kernel_identity hcam (hidentity.1 hid),
      fun hcam hid => d.kernel_general hcam (mt hidentity.2 hid), fun q hq => ?_⟩
    have hq1 : 1 < q := by
      obtain ⟨q', hq', hlt⟩ := (baseOk_iff d.base).1 hbase
      rwa [Option.some.inj (hq.symm.trans hq')]
    obtain ⟨hscale, hlb⟩ := d.unit_scales hq flags ib ob s.free
    refine ⟨by rw [hscale]; exact rounded_logScale hq1, by rw [hlb]; exact rounded_log2Base hq1,
      fun c => ?_⟩
    obtain ⟨tag, htag⟩ := d.unit_channel hq flags ib ob s.free c
    have hok := fun hcam => hbrk hcam c
    rw [hch c] at htag hok
    rw [htag]
    obtain ⟨hm, hb, hoff, hbreak⟩ := logChannel_fields q d.base camera s.free tag
      ⟨field c 0, field c 1, field c 2, field c 3, field c 4⟩
    refine ⟨hm, hb, hoff, hbreak, fun l hl => ⟨logChannel_k _ tag camera hq1 hl,
      logChannel_kinv _ tag camera hq1 hl, fun m b brk hcam hm hb hbrk => ?_⟩⟩
    have hpos := break_arg_pos (hok hcam) hm hb hbrk
    exact ⟨logChannel_linearSlope _ tag hcam hm hb hl hbrk hq1,
      fun o ho => logChannel_logBreak_linearOffset _ tag hcam hm hb hl hbrk hq1 hq ho hpos⟩
  refine ⟨fun hcam ⟨c, hnot, hnot'⟩ => hfails hcam fun hok => ?notBreak, fun hcam _ => ?openBreak,
    fun h => hconfigured fun hcam c => ?goodBreak⟩
  case notBreak =>
    have hbrk := break_of_breakOk (hok c)
    rw [hch c] at hbrk
    exact hbrk.elim hnot hnot'
  case openBreak =>
    by_cases hok : ∀ c, (d.ch.get c).breakOk = true
    · exact .inr (hconfigured fun _ => hok)
    · exact .inl (hfails hcam hok)
  case goodBreak =>
    have hgood := h.resolve_left (by rw [hcam]; exact Bool.noConfusion)
    exact breakOk_of_breakPositive (by rw [hch c]; exact hgood c)

end Sys2Proof.Machine
end

section
/-!
The table of UPD.LUT and the unit it configures: raw-half entries, the entries in address order, the
mode with its inverse data (44_lut1d_forward.md R301 to R303; 45_lut1d_inverse.md R350).
-/
namespace Sys2Proof.Machine

open Sys2Proof.Safety

/-! ### One entry (44_lut1d_forward.md R302) -/

/-- A raw-half code is the integer, in range, that a finite value equals. -/
theorem rawHalfCode_eq_some_iff (w : F32) (k : Nat) :
    rawHalfCode w = some k ↔ isFinite w = true ∧ ratOf w = k ∧ k ≤ 65535 := by
  simp only [rawHalfCode, Option.ite_none_right_eq_some, Option.some.injEq, Bool.and_eq_true,
    beq_iff_eq, decide_eq_true_eq, and_assoc]
  constructor
  · rintro ⟨hfin, hden, hnonneg, hle, rfl⟩
    refine ⟨hfin, ?_, by omega⟩
    calc ratOf w = (ratOf w).num := (Rat.coe_int_num_of_den_eq_one hden).symm
      _ = ((ratOf w).num.toNat : ℤ) := by rw [Int.toNat_of_nonneg hnonneg]
      _ = _ := Int.cast_natCast _
  · rintro ⟨hfin, hval, hle⟩
    rw [hval, Rat.num_natCast, Rat.den_natCast]
    exact ⟨hfin, rfl, by omega, by omega, Int.toNat_natCast k⟩

theorem tableEntry_raw_of_code {w : F32} {k : Nat} (h : rawHalfCode w = some k) :
    tableEntry true w = .ok (half32 k) := by
  rw [tableEntry, if_pos rfl, h]

theorem tableEntry_raw_of_none {w : F32} (h : rawHalfCode w = none) :
    tableEntry true w = .error ⟨.invalidOpdata, 5⟩ := by
  rw [tableEntry, if_pos rfl, h]

/-- Settles O43: plain mode keeps the value; raw-half mode goes by the integer that it equals. -/
theorem rawHalfEntries : Obligations.RawHalfEntries := by
  refine fun w => ⟨rfl, fun k hfin hval hle => ?integer, fun hno => ?other⟩
  case integer => exact tableEntry_raw_of_code ((rawHalfCode_eq_some_iff w k).2 ⟨hfin, hval, hle⟩)
  case other =>
    refine tableEntry_raw_of_none (Option.eq_none_iff_forall_ne_some.2 fun k hk => ?_)
    exact hno ⟨k, (rawHalfCode_eq_some_iff w k).1 hk⟩

/-! ### The entries in address order -/

section
variable {s : State} {raw : Bool}

/-- Channel `c` of entry `i` in the descriptor. -/
def lutValue (s : State) (i c : Nat) : F32 :=
  readWord s.mem (s.cfg.opdataPtr.toNat + 8 + 4 * (3 * i + c))

theorem readLutEntry_ok_iff (i : Nat) (e : Rgb F32) :
    readLutEntry s raw i = .ok e ↔ tableEntry raw (lutValue s i 0) = .ok e.r ∧
      tableEntry raw (lutValue s i 1) = .ok e.g ∧ tableEntry raw (lutValue s i 2) = .ok e.b := by
  have hword (c : Nat) : descWord s (8 + 4 * (3 * i + c)) = lutValue s i c := by
    rw [descWord, lutValue, Nat.add_assoc]
  simp only [readLutEntry, ← hword, check_bind_ok, check_pure, Except.ok.injEq]
  constructor
  · rintro ⟨r, hr, g, hg, b, hb, rfl⟩
    exact ⟨hr, hg, hb⟩
  · rintro ⟨hr, hg, hb⟩
    exact ⟨_, hr, _, hg, _, hb, rfl⟩

/-- A run of entries reads as the list of their values. -/
theorem readLutEntries_eq_map {f : Nat → Rgb F32} {count i : Nat}
    (h : ∀ k, i ≤ k → k < i + count → readLutEntry s raw k = .ok (f k)) :
    readLutEntries s raw count i = .ok ((List.range' i count).map f) := by
  induction count generalizing i with
  | zero => rfl
  | succ n ih =>
    have hfirst := h i le_rfl (by omega)
    have hrest := ih (i := i + 1) fun k hlo hhi => h k (by omega) (by omega)
    simp [readLutEntries, hfirst, hrest, List.range'_succ]

/-- A run that reads has no entry that is refused. -/
theorem exists_readLutEntry_of_readLutEntries {count i : Nat} {es : List (Rgb F32)}
    (h : readLutEntries s raw count i = .ok es) {k : Nat} (hlo : i ≤ k) (hhi : k < i + count) :
    ∃ e, readLutEntry s raw k = .ok e := by
  induction count generalizing i es with
  | zero => omega
  | succ n ih =>
    simp only [readLutEntries, check_bind_ok] at h
    obtain ⟨e, hfirst, rest, hrest, -⟩ := h
    rcases hlo.eq_or_lt with rfl | hlt
    · exact ⟨e, hfirst⟩
    · exact ih hrest hlt (by omega)

/-- A list is its entries in order. -/
theorem map_entry_range' (w : List F32) : (List.range' 0 w.length).map (entry w) = w := by
  refine List.ext_getElem (by simp) fun i hi hi' => ?_
  simp [entry, hi']

theorem readTable_of_entries {n : Nat} {v : Rgb (List F32)} (hr : v.r.length = n)
    (hg : v.g.length = n) (hb : v.b.length = n)
    (h : ∀ i, i < n → tableEntry raw (lutValue s i 0) = .ok (entry v.r i) ∧
      tableEntry raw (lutValue s i 1) = .ok (entry v.g i) ∧
      tableEntry raw (lutValue s i 2) = .ok (entry v.b i)) :
    readTable s raw n = .ok v := by
  have hentries : readLutEntries s raw n 0 =
      .ok ((List.range' 0 n).map fun i => ⟨entry v.r i, entry v.g i, entry v.b i⟩) :=
    readLutEntries_eq_map fun k _ hk => (readLutEntry_ok_iff k _).2 (h k (by omega))
  have hcol {w : List F32} (hw : w.length = n) : (List.range' 0 n).map (entry w) = w := by
    rw [← hw, map_entry_range']
  simp only [readTable, hentries, check_ok_bind, check_pure, List.map_map]
  exact congrArg Except.ok (congr (congr (congrArg Rgb.mk (hcol hr)) (hcol hg)) (hcol hb))

/-- One entry that raw-half mode refuses is the table's error. -/
theorem readTable_of_bad_entry {n i c : Nat} (hi : i < n) (hc : c < 3)
    (h : ¬∃ v, tableEntry raw (lutValue s i c) = .ok v) :
    readTable s raw n = .error ⟨.invalidOpdata, 5⟩ := by
  cases htable : readTable s raw n with
  | error e => rw [readTable_error s raw n e htable]
  | ok v =>
    simp only [readTable, check_bind_ok] at htable
    obtain ⟨es, hes, -⟩ := htable
    obtain ⟨e, he⟩ := exists_readLutEntry_of_readLutEntries hes (Nat.zero_le i) (by omega)
    obtain ⟨hr, hg, hb⟩ := (readLutEntry_ok_iff i e).1 he
    refine absurd ?_ h
    interval_cases c
    · exact ⟨_, hr⟩
    · exact ⟨_, hg⟩
    · exact ⟨_, hb⟩

end

/-! ### The mode -/

theorem lutMode_fwd {flags : Word} (n : Nat) (v : Rgb (List F32)) (h : lutInverse flags = false) :
    lutMode flags n v = .ok .fwd := by
  rw [lutMode, h]
  rfl

theorem lutMode_inverse_error {flags : Word} (n : Nat) {v : Rgb (List F32)} {e : Error}
    (h : lutInverse flags = true) (hv : buildInverse (lutHalfDomain flags) v = .error e) :
    lutMode flags n v = .error e := by
  rw [lutMode, h, hv]
  rfl

theorem lutMode_inverse_ok {flags : Word} (n : Nat) {v : Rgb (List F32)} {inv : InverseData}
    (h : lutInverse flags = true) (hv : buildInverse (lutHalfDomain flags) v = .ok inv) :
    lutMode flags n v =
      .ok (if lutQuality flags = 0 then .invFast inv (buildFast n v inv) else .invExact inv) := by
  rw [lutMode, h, hv]
  simp only [Bool.not_true, Bool.false_eq_true, if_false, check_ok_bind, check_pure]
  split <;> rfl

/-! ### UPD.LUT -/

/-- A header that passes steps 4 to 7 of R303. -/
theorem checkLutHeader_of_good {flags : Word} {n : Nat} (hc : flags.extractLsb' 11 21 = 0#21)
    (henc : LutEncodings flags) (h2 : 2 ≤ n) (hle : n ≤ 65536)
    (hhalf : lutHalfDomain flags = true → n = 65536) : checkLutHeader flags n = .ok () := by
  have hlast : (!flags.getLsbD 1 || n == 65536) = true := by
    rw [Bool.or_eq_true, Bool.not_eq_true', beq_iff_eq, ← Bool.not_eq_true]
    exact not_or_of_imp hhalf
  rw [checkLutHeader_two_le hc henc h2, decide_eq_true hle, hlast]
  rfl

section
variable {s : State} {ib ob : BitDepth} {v : Rgb (List F32)}

/-- With its header good and its descriptor in the map, UPD.LUT reads the table and finds the mode. -/
theorem configureLut_of_mapped (hready : updReady s ib ob)
    (hheader : checkLutHeader (headerFlags s) (headerSecond s).toNat = .ok ())
    (hmapped : descriptorMapped s (8 + 12 * (headerSecond s).toNat)) :
    configureLut s = (do
      let v ← readTable s (lutRawHalfs (headerFlags s)) (headerSecond s).toNat
      let mode ← lutMode (headerFlags s) (headerSecond s).toNat v
      return ⟨true, ib, ob, mode, (headerSecond s).toNat, lutHalfDomain (headerFlags s),
        if lutHue (headerFlags s) = 1 then .dw3 else .none, v⟩) := by
  obtain ⟨hdepths, hread⟩ := updReady_checks s ib ob hready
  simp only [configureLut, hdepths, hread, check_ok_bind, hheader, checkDescriptor_ok s _ hmapped]

section
variable (hready : updReady s ib ob)
  (hheader : checkLutHeader (headerFlags s) (headerSecond s).toNat = .ok ())
  (hmapped : descriptorMapped s (8 + 12 * (headerSecond s).toNat))
include hready hheader hmapped

theorem configureLut_table_error {e : Error}
    (h : readTable s (lutRawHalfs (headerFlags s)) (headerSecond s).toNat = .error e) :
    configureLut s = .error e := by
  rw [configureLut_of_mapped hready hheader hmapped, h, check_error_bind]

theorem configureLut_mode_error {e : Error}
    (hv : readTable s (lutRawHalfs (headerFlags s)) (headerSecond s).toNat = .ok v)
    (h : lutMode (headerFlags s) (headerSecond s).toNat v = .error e) :
    configureLut s = .error e := by
  rw [configureLut_of_mapped hready hheader hmapped, hv, check_ok_bind, h, check_error_bind]

theorem exec_updLut_of_mode {mode : LutMode}
    (hv : readTable s (lutRawHalfs (headerFlags s)) (headerSecond s).toNat = .ok v)
    (h : lutMode (headerFlags s) (headerSecond s).toNat v = .ok mode) :
    exec .updLut s = .next { s with
      lut := ⟨true, ib, ob, mode, (headerSecond s).toNat, lutHalfDomain (headerFlags s),
        if lutHue (headerFlags s) = 1 then .dw3 else .none, v⟩
      cp := s.cp + 4 } := by
  rw [exec_updLut, execUpdLut, configureLut_of_mapped hready hheader hmapped, hv, check_ok_bind, h,
    check_ok_bind]
  rfl

end

end

/-- Settles O44: the table, refused or read, then the mode and the whole unit. -/
theorem updLutConfigures : Obligations.UpdLutConfigures := by
  intro s ib ob hready fails flags n raw half quality value good hclean hhue hquality hfile h2 hle
    hhalf hmapped
  have hheader := checkLutHeader_of_good hclean ⟨hhue, hquality, hfile⟩ h2 hle hhalf
  have hraise {e : Error} (h : configureLut s = .error e) : fails e.name.code e.info :=
    exec_upd_of_raises (id := .lut) h
  refine ⟨fun ⟨i, c, hi, hc, hbad⟩ => hraise
    (configureLut_table_error hready hheader hmapped (readTable_of_bad_entry hi hc hbad)), ?_⟩
  intro v hr hg hb hentries configured
  have htable := readTable_of_entries hr hg hb hentries
  have hconfigured {mode : LutMode} (hmode : lutMode flags n v = .ok mode) : configured mode :=
    exec_updLut_of_mode hready hheader hmapped htable hmode
  refine ⟨fun hfwd => hconfigured (lutMode_fwd n v hfwd), fun hinv => ⟨fun e he => ?_,
    fun inv hdata => hconfigured (lutMode_inverse_ok n hinv hdata)⟩⟩
  obtain rfl := buildInverse_error half v e he
  exact hraise (configureLut_mode_error hready hheader hmapped htable
    (lutMode_inverse_error n hinv he))

end Sys2Proof.Machine
end

section
/-!
Forward evaluation of a 1D LUT: rounded differences and quotients at the points between two entries, and
the interpolation of both domains (44_lut1d_forward.md R304 to R308).
-/
namespace Sys2Proof.Machine

/-! ### Finite values -/

theorem ratOf_of_signbit_false {x : F32} (hx : isFinite x = true) (hs : signbit x = false) :
    ratOf x = binary32.mag (low x) := by
  rw [ratOf_finite x hx, hs, if_neg Bool.false_ne_true]

theorem ratOf_of_signbit_true {x : F32} (hx : isFinite x = true) (hs : signbit x = true) :
    ratOf x = -binary32.mag (low x) := by
  rw [ratOf_finite x hx, hs, if_pos rfl]

theorem signbit_of_ratOf_neg {x : F32} (hx : isFinite x = true) (h : ratOf x < 0) :
    signbit x = true := by
  by_contra hs
  rw [ratOf_of_signbit_false hx (Bool.eq_false_iff.2 hs)] at h
  linarith [binary32.mag_nonneg (low x)]

theorem abs_ratOf {x : F32} (hx : isFinite x = true) : |ratOf x| = binary32.mag (low x) := by
  have h := binary32.mag_nonneg (low x)
  rw [ratOf_finite x hx]
  split
  · rw [abs_neg, abs_of_nonneg h]
  · exact abs_of_nonneg h

/-- Between two finite patterns lie finite patterns only. -/
theorem isFinite_of_between {a x b : F32} (ha : isFinite a = true) (hb : isFinite b = true)
    (hax : flt a x = true) (hxb : flt x b = true) :
    isFinite x = true ∧ ratOf a < ratOf x ∧ ratOf x < ratOf b := by
  obtain ⟨-, -, hlo⟩ := (flt_iff _ _).1 hax
  obtain ⟨-, -, hhi⟩ := (flt_iff _ _).1 hxb
  have hx : isFinite x = true := by
    rw [isFinite_iff, ← natAbs_key] at *
    omega
  exact ⟨hx, (key_lt_iff a x ha hx).1 hlo, (key_lt_iff x b hx hb).1 hhi⟩

/-- Patterns of one key are equal, but for the zeros. -/
theorem eq_of_key_eq {x y : F32} (h : key x = key y) (h0 : key y ≠ 0) : x = y := by
  refine ext_low x y ?_ (by rw [← natAbs_key, h, natAbs_key])
  rcases lt_or_gt_of_ne h0 with hneg | hpos
  · rw [signbit_of_key_neg x (by omega), signbit_of_key_neg y hneg]
  · rw [signbit_of_key_pos x (by omega), signbit_of_key_pos y hpos]

theorem flt_or_eq_of_fle {x y : F32} (h : fle x y = true) (h0 : key y ≠ 0) :
    flt x y = true ∨ x = y := by
  obtain ⟨hx, hy, hkey⟩ := (fle_iff _ _).1 h
  rcases hkey.lt_or_eq with hlt | heq
  · exact .inl ((flt_iff _ _).2 ⟨hx, hy, hlt⟩)
  · exact .inr (eq_of_key_eq heq h0)

theorem flt_of_fle_of_flt {x y z : F32} (hxy : fle x y = true) (hyz : flt y z = true) :
    flt x z = true := by
  obtain ⟨hx, -, hle⟩ := (fle_iff _ _).1 hxy
  obtain ⟨-, hz, hlt⟩ := (flt_iff _ _).1 hyz
  exact (flt_iff _ _).2 ⟨hx, hz, by omega⟩

theorem flt_of_flt_of_fle {x y z : F32} (hxy : flt x y = true) (hyz : fle y z = true) :
    flt x z = true := by
  obtain ⟨hx, -, hlt⟩ := (flt_iff _ _).1 hxy
  obtain ⟨-, hz, hle⟩ := (fle_iff _ _).1 hyz
  exact (flt_iff _ _).2 ⟨hx, hz, by omega⟩

/-- A clamp to an interval that holds the value, ends included, keeps it bit for bit. -/
theorem clampf_eq_self_of_mem {t lo hi : F32} (hlohi : flt lo hi = true)
    (hlo : flt lo t = true ∨ lo = t) (hhi : flt t hi = true ∨ t = hi) : clampf t lo hi = t := by
  rcases hlo with hlo | rfl
  · rw [clampf, if_pos hlo]
    rcases hhi with hhi | rfl
    · exact if_pos hhi
    · exact ite_self _
  · have hnot : ¬flt lo lo = true := fun h => lt_irrefl _ ((flt_iff _ _).1 h).2.2
    rw [clampf, if_neg hnot]

/-! ### Significands -/

/-- The magnitude of a finite code is an integer of 24 bits times a power of two. -/
theorem exists_significand {c : Nat} (hc : c < 0x7F800000) :
    ∃ (m : Nat) (z : Int), m < 2 ^ 24 ∧ -149 ≤ z ∧ z ≤ 104 ∧ binary32.mag c = m * pow2 z := by
  rcases Nat.lt_or_ge c (2 ^ 23) with hsub | hnormal
  · have hmag := mag_code 0 c (by omega) (.inr rfl)
    rw [Nat.zero_mul, Nat.zero_add] at hmag
    exact ⟨c, _, by omega, by norm_num, by norm_num, hmag⟩
  · have hmag := mag_code (c / 2 ^ 23 - 1) (2 ^ 23 + c % 2 ^ 23) (by omega) (.inl (by omega))
    rw [show (c / 2 ^ 23 - 1) * 2 ^ 23 + (2 ^ 23 + c % 2 ^ 23) = c by omega] at hmag
    exact ⟨_, _, by omega, by omega, by omega, hmag⟩

/-- The exponent of such a product that is at least 1. -/
theorem neg_23_le_of_one_le {m : Nat} {z : Int} (hm : m < 2 ^ 24) (h : 1 ≤ (m : ℚ) * pow2 z) :
    -23 ≤ z := by
  by_contra hz
  have hm' : (m : ℚ) < 2 ^ 24 := by exact_mod_cast hm
  have h24 : pow2 (-24) = 1 / 2 ^ 24 := by rw [pow2_eq]; norm_num
  have hlt : (m : ℚ) * pow2 z < 1 :=
    calc (m : ℚ) * pow2 z < 2 ^ 24 * pow2 z := mul_lt_mul_of_pos_right hm' (pow2_pos z)
      _ ≤ 2 ^ 24 * pow2 (-24) := mul_le_mul_of_nonneg_left (pow2_le _ _ (by omega)) (by norm_num)
      _ = 1 := by rw [h24]; norm_num
  linarith

/-- A rational is an integer multiple of a power of two. -/
def MultipleOfPow2 (z : Int) (q : ℚ) : Prop := ∃ k : Int, q = k * pow2 z

/-- Two different multiples of a power of two are at least that power apart. -/
theorem MultipleOfPow2.pow2_le_sub {z : Int} {q r : ℚ} (hq : MultipleOfPow2 z q)
    (hr : MultipleOfPow2 z r) (h : q < r) : pow2 z ≤ r - q := by
  obtain ⟨k, rfl⟩ := hq
  obtain ⟨l, rfl⟩ := hr
  have hkl : k < l := by exact_mod_cast lt_of_mul_lt_mul_right h (pow2_pos z).le
  have hone : (1 : ℚ) ≤ l - k := by exact_mod_cast (by omega : (1 : Int) ≤ l - k)
  calc pow2 z = 1 * pow2 z := (one_mul _).symm
    _ ≤ (l - k) * pow2 z := mul_le_mul_of_nonneg_right hone (pow2_pos z).le
    _ = _ := sub_mul _ _ _

/-- Every finite value is a multiple of 2^-149, and from magnitude 1 on of 2^-23. -/
theorem multipleOfPow2_ratOf {x : F32} (hx : isFinite x = true) {z : Int}
    (h : z = -149 ∨ z = -23 ∧ 1 ≤ |ratOf x|) : MultipleOfPow2 z (ratOf x) := by
  obtain ⟨m, y, hm, hy, -, hmag⟩ := exists_significand ((isFinite_iff x).1 hx)
  rw [abs_ratOf hx, hmag] at h
  have hzy : z ≤ y := by
    rcases h with rfl | ⟨rfl, hone⟩
    · exact hy
    · exact neg_23_le_of_one_le hm hone
  have hmul : binary32.mag (low x) = ((m * 2 ^ (y - z).toNat : Int) : ℚ) * pow2 z := by
    have hsplit : pow2 y = pow2 (y - z).toNat * pow2 z := by
      rw [← pow2_add]
      exact congrArg pow2 (by omega)
    rw [hmag, hsplit, pow2_natCast]
    push_cast
    ring
  cases hs : signbit x
  · exact ⟨_, (ratOf_of_signbit_false hx hs).trans hmul⟩
  · refine ⟨-(m * 2 ^ (y - z).toNat), ?_⟩
    rw [ratOf_of_signbit_true hx hs, hmul]
    push_cast
    ring

/-! ### Rounding between values of the format -/

theorem FloatFormat.mag_roundMag_le (f : FloatFormat) {q : ℚ} {c : Nat} (hc : c < f.infCode)
    (hq : 0 ≤ q) (h : q ≤ f.mag c) : f.mag (f.roundMag q) ≤ f.mag c := by
  have hround := f.roundMag_mono q _ hq h
  rw [f.roundMag_mag c hc] at hround
  exact f.mag_strictMono.monotone hround

theorem FloatFormat.le_mag_roundMag (f : FloatFormat) {q : ℚ} {c : Nat} (hc : c < f.infCode)
    (h : f.mag c ≤ q) : f.mag c ≤ f.mag (f.roundMag q) := by
  have hround := f.roundMag_mono _ q (f.mag_nonneg c) h
  rw [f.roundMag_mag c hc] at hround
  exact f.mag_strictMono.monotone hround

/-- Between two neighbouring codes a magnitude rounds to one of them. -/
theorem FloatFormat.roundMag_between (f : FloatFormat) {q : ℚ} {c : Nat} (hc : c + 1 < f.infCode)
    (hlo : f.mag c ≤ q) (hhi : q ≤ f.mag (c + 1)) : f.roundMag q = c ∨ f.roundMag q = c + 1 := by
  have h1 := f.roundMag_mono _ q (f.mag_nonneg c) hlo
  have h2 := f.roundMag_mono q _ ((f.mag_nonneg c).trans hlo) hhi
  rw [f.roundMag_mag c (by omega)] at h1
  rw [f.roundMag_mag (c + 1) hc] at h2
  omega

/-! ### Differences and quotients -/

/-- A positive difference is rounded once. -/
theorem fsub_of_lt {x y : F32} (hx : isFinite x = true) (hy : isFinite y = true)
    (h : ratOf y < ratOf x) : fsub x y = roundSigned false (ratOf x - ratOf y) := by
  have hpos : 0 < ratOf x - ratOf y := sub_pos.2 h
  unfold fsub
  rw [fadd_finite x _ hx ((isFinite_congr (fneg_low y)).trans hy), ratOf_fneg y hy, ← sub_eq_add_neg,
    if_neg hpos.ne', fl32, abs_of_pos hpos, decide_eq_false (not_lt.2 hpos.le)]

/-- The quotient of finite patterns is one rounding of the exact quotient. -/
theorem fdiv_finite {x y : F32} (hx : isFinite x = true) (hy : isFinite y = true) (hy0 : low y ≠ 0) :
    fdiv x y =
      roundSigned (signbit x != signbit y) (binary32.mag (low x) / binary32.mag (low y)) := by
  unfold fdiv
  rw [val_finite x hx, val_finite y hy]
  exact if_neg fun h => hy0 ((binary32.mag_eq_zero _).1 h)

/-- The quotient of two rounded differences is no zero where the first is not too small for the second:
the codes `d` and `e` bound them, and their quotient does not underflow. -/
theorem low_fdiv_ne_zero {a b : ℚ} {d e : Nat} (hd : d < 0x7F800000) (he : e < 0x7F800000)
    (hda : binary32.mag d ≤ a) (hab : a ≤ b) (hbe : b ≤ binary32.mag e) (hd0 : 0 < d)
    (hde : binary32.mag 1 ≤ binary32.mag d / binary32.mag e) :
    low (fdiv (roundSigned false a) (roundSigned false b)) ≠ 0 := by
  have hdpos := binary32.mag_pos d hd0
  have hlo := binary32.le_mag_roundMag hd hda
  have hhi := binary32.mag_roundMag_le he (by linarith) hbe
  have hpos : 0 < binary32.mag (binary32.roundMag b) :=
    hdpos.trans_le (binary32.le_mag_roundMag hd (hda.trans hab))
  have hle := binary32.mag_roundMag_le he (by linarith) (hab.trans hbe)
  have hfin {q : ℚ} (hq : binary32.mag (binary32.roundMag q) ≤ binary32.mag e) :
      isFinite (roundSigned false q) = true := by
    rw [isFinite_iff, low_roundSigned]
    exact (binary32.mag_strictMono.le_iff_le.1 hq).trans_lt he
  rw [fdiv_finite (hfin hle) (hfin hhi) (by
    rw [low_roundSigned]
    exact fun h => hpos.ne' ((binary32.mag_eq_zero _).2 h))]
  simp only [low_roundSigned]
  have hquotient : binary32.mag 1 ≤
      binary32.mag (binary32.roundMag a) / binary32.mag (binary32.roundMag b) :=
    hde.trans (div_le_div₀ (binary32.mag_nonneg _) hlo hpos hhi)
  have hone := binary32.roundMag_mono _ _ (binary32.mag_nonneg 1) hquotient
  rw [binary32.roundMag_mag 1 (by rw [infCode_eq]; norm_num)] at hone
  omega

/-- The fraction of a value between two others is no zero where these are at most 1 apart, or from
magnitude 1 on at most 2^16 apart. -/
theorem low_fraction_ne_zero {lo x hi : F32} (hlo : isFinite lo = true) (hx : isFinite x = true)
    (hhi : isFinite hi = true) (hlox : ratOf lo < ratOf x) (hxhi : ratOf x < ratOf hi)
    (h : ratOf hi - ratOf lo ≤ 1 ∨
      1 ≤ |ratOf lo| ∧ 1 ≤ |ratOf x| ∧ ratOf hi - ratOf lo ≤ 2 ^ 16) :
    low (fdiv (fsub x lo) (fsub hi lo)) ≠ 0 := by
  rw [fsub_of_lt hx hlo hlox, fsub_of_lt hhi hlo (hlox.trans hxhi)]
  have hle : ratOf x - ratOf lo ≤ ratOf hi - ratOf lo := by linarith
  rcases h with hgap | ⟨hlo1, hx1, hgap⟩
  · have hstep := (multipleOfPow2_ratOf hlo (.inl rfl)).pow2_le_sub
      (multipleOfPow2_ratOf hx (.inl rfl)) hlox
    have hd : binary32.mag 1 = pow2 (-149) := by decide +kernel
    have he : binary32.mag 0x3F800000 = 1 := by decide +kernel
    refine low_fdiv_ne_zero (d := 1) (e := 0x3F800000) (by norm_num) (by norm_num) ?_ hle ?_
      (by norm_num) ?_
    · rwa [hd]
    · rwa [he]
    · rw [he, div_one]
  · have hstep := (multipleOfPow2_ratOf hlo (.inr ⟨rfl, hlo1⟩)).pow2_le_sub
      (multipleOfPow2_ratOf hx (.inr ⟨rfl, hx1⟩)) hlox
    have hd : binary32.mag 0x34000000 = pow2 (-23) := by decide +kernel
    have he : binary32.mag 0x47800000 = 2 ^ 16 := by decide +kernel
    refine low_fdiv_ne_zero (d := 0x34000000) (e := 0x47800000) (by norm_num) (by norm_num) ?_ hle ?_
      (by norm_num) (by decide +kernel)
    · rwa [hd]
    · rwa [he]

/-- The distance of a positive value from the integer below it is exact. -/
theorem ratOf_fsub_floor {s : F32} {i : Nat} (hs : isFinite s = true) (hi : i < 2 ^ 24)
    (hlo : (i : ℚ) < ratOf s) (hhi : ratOf s < i + 1) :
    isFinite (fsub s (fl32Int i)) = true ∧ ratOf (fsub s (fl32Int i)) = ratOf s - i := by
  obtain ⟨hif, hiv⟩ := fl32Int_exact i (by simpa using hi)
  rw [Int.cast_natCast] at hiv
  have hpos : 0 < ratOf s := lt_of_le_of_lt (Nat.cast_nonneg i) hlo
  obtain ⟨m, z, hm, hz, hz', hmag⟩ := exists_significand ((isFinite_iff s).1 hs)
  rw [← ratOf_of_signbit_false hs (signbit_of_ratOf_pos s hs hpos)] at hmag
  have hzneg : z < 0 := by
    by_contra hge
    obtain ⟨k, rfl⟩ := Int.eq_ofNat_of_zero_le (not_lt.1 hge)
    rw [hmag, pow2_natCast] at hlo hhi
    have h1 : i < m * 2 ^ k := by exact_mod_cast hlo
    have h2 : m * 2 ^ k < i + 1 := by exact_mod_cast hhi
    omega
  obtain ⟨j, rfl⟩ : ∃ j : Nat, z = -j := ⟨(-z).toNat, by omega⟩
  have hcancel : pow2 j * pow2 (-j) = 1 := by rw [← pow2_add, add_neg_cancel]; simp [pow2_eq]
  have hone : (i : ℚ) = (i * 2 ^ j : Nat) * pow2 (-j) := by
    rw [Nat.cast_mul, mul_assoc, Nat.cast_pow, Nat.cast_ofNat, ← pow2_natCast, hcancel, mul_one]
  have hle : i * 2 ^ j ≤ m := by
    have := hlo.le
    rw [hone, hmag] at this
    exact_mod_cast le_of_mul_le_mul_right this (pow2_pos _)
  have hdiff : ratOf s - i = (m - i * 2 ^ j : Nat) * pow2 (-j) := by
    rw [Nat.cast_sub hle, sub_mul, ← hmag, ← hone]
  obtain ⟨hfin, hval⟩ := roundSigned_exact false (m - i * 2 ^ j) (-j) (by omega) hz hz'
  rw [fsub_of_lt hs hif (by rw [hiv]; exact hlo), hiv, hdiff]
  exact ⟨hfin, (ratOf_of_signbit_false hfin (signbit_roundSigned _ _)).trans hval⟩

/-! ### Interpolation (44_lut1d_forward.md R304) -/

theorem lerp32_of_zero {t : F32} (a b : F32) (h : low t = 0) : lerp32 a b t = a := by
  rw [lerp32, if_pos ((feq_zero_iff t).2 h)]

theorem lerp32_of_ne_zero {t : F32} (a b : F32) (h : low t ≠ 0) :
    lerp32 a b t = fadd (fmul (fsub one t) a) (fmul t b) := by
  rw [lerp32, if_neg (mt (feq_zero_iff t).1 h)]

/-! ### The normal domain (44_lut1d_forward.md R305) -/

/-- The operand of the normal-domain kernel: the value scaled by N - 1 and clamped to the table. -/
def normalOperand (n : Nat) (x : F32) : F32 :=
  clampf (fmul x (fl32Int (n - 1 : Nat))) zero (fl32Int (n - 1 : Nat))

section
variable {n : Nat} {v : List F32} {x idx : F32}

theorem fwdNormal_of_operand {i : Nat} (h : normalOperand n x = idx) (hi : (i : ℚ) ≤ ratOf idx)
    (hi' : ratOf idx < i + 1) :
    fwdNormal n v x =
      lerp32 (entry v i) (entry v (min (i + 1) (n - 1))) (fsub idx (fl32Int i)) := by
  have hfloor : (ffloor idx).toNat = i := by
    have hint : ⌊ratOf idx⌋ = (i : Int) :=
      Int.floor_eq_iff.2 ⟨by exact_mod_cast hi, by exact_mod_cast hi'⟩
    rw [ffloor, show (ratOf idx).floor = i from hint, Int.toNat_natCast]
  rw [normalOperand] at h
  simp only [fwdNormal, h, hfloor]

/-- At an integer the result is its entry. -/
theorem fwdNormal_of_integer {i : Nat} (h : normalOperand n x = idx) (hfin : isFinite idx = true)
    (hidx : ratOf idx = i) (hi : i < 2 ^ 24) : fwdNormal n v x = entry v i := by
  obtain ⟨hif, hiv⟩ := fl32Int_exact i (by simpa using hi)
  rw [fwdNormal_of_operand h hidx.ge (by rw [hidx]; linarith)]
  exact lerp32_of_zero _ _ (low_fsub_of_ratOf_eq _ _ hfin hif (by rw [hidx, hiv, Int.cast_natCast]))

/-- Between two integers it is the interpolation of their entries. -/
theorem fwdNormal_of_fraction {i : Nat} (h : normalOperand n x = idx) (hfin : isFinite idx = true) (hi : (i : ℚ) < ratOf idx)
    (hi' : ratOf idx < i + 1) (hle : ratOf idx ≤ (n - 1 : Nat)) (hn : n ≤ 65536) :
    ratOf (fsub idx (fl32Int i)) = ratOf idx - i ∧
      fwdNormal n v x = fadd (fmul (fsub one (fsub idx (fl32Int i))) (entry v i))
        (fmul (fsub idx (fl32Int i)) (entry v (i + 1))) := by
  have hlast : i + 1 ≤ n - 1 := by
    have : (i : ℚ) < (n - 1 : Nat) := hi.trans_le hle
    exact_mod_cast this
  obtain ⟨-, hval⟩ := ratOf_fsub_floor hfin (by omega) hi hi'
  have hne : low (fsub idx (fl32Int i)) ≠ 0 := by
    intro h0
    rw [(ratOf_eq_zero _ h0).2] at hval
    linarith
  refine ⟨hval, ?_⟩
  rw [fwdNormal_of_operand h hi.le hi', min_eq_left hlast, lerp32_of_ne_zero _ _ hne]

end

theorem low_ne_zero_of_one_le {top : F32} (hone : 1 ≤ ratOf top) : low top ≠ 0 := by
  intro h
  rw [(ratOf_eq_zero top h).2] at hone
  linarith

section
variable {x top : F32} (htop : isFinite top = true) (hone : 1 ≤ ratOf top)
include htop hone

theorem signbit_of_one_le : signbit top = false :=
  signbit_of_ratOf_pos top htop (by linarith)

theorem flt_zero_of_one_le : flt zero top = true := by
  rw [flt_iff, key_lt_iff _ _ isFinite_zero htop, ratOf_zero]
  exact ⟨rfl, isNaN_of_isFinite top htop, by linarith⟩

theorem fmul_scale_finite (hx : isFinite x = true) :
    fmul x top = roundSigned (signbit x) (binary32.mag (low x) * ratOf top) := by
  have hs := signbit_of_one_le htop hone
  rw [fmul_finite x top hx htop, hs, Bool.bne_false, ratOf_of_signbit_false htop hs]

theorem fmul_scale_infinity (hx : low x = 0x7F800000) : fmul x top = x := by
  have hzero := mt (binary32.mag_eq_zero _).1 (low_ne_zero_of_one_le hone)
  have hprod : fmul x top = infinity (signbit x) := by
    simp [fmul, val_infinite x hx, val_finite top htop, hzero, signbit_of_one_le htop hone]
  rw [hprod, infinity, ← hx]
  exact (eq_signed x).symm

/-- Scaling keeps the sign of a number. -/
theorem fmul_scale_sign (hx : isNaN x = false) :
    isNaN (fmul x top) = false ∧ signbit (fmul x top) = signbit x := by
  rcases class_cases x with hfin | hinf | hnan
  · rw [fmul_scale_finite htop hone hfin]
    exact ⟨isNaN_roundSigned _ _, signbit_roundSigned _ _⟩
  · rw [fmul_scale_infinity htop hone hinf]
    exact ⟨hx, rfl⟩
  · exact absurd hnan (by simp [hx])

/-- The scaled value of a NaN or of a value up to 0 is clamped to +0. -/
theorem clampf_scale_nonpos (h : isNaN x = true ∨ fle x zero = true) :
    clampf (fmul x top) zero top = zero := by
  rcases h with hnan | hle
  · exact clampf_of_nan _ _ _ (by rw [fmul_nan_left x top hnan]; exact isNaN_qnan)
  · obtain ⟨hnum, -, hkey⟩ := (fle_iff _ _).1 hle
    obtain ⟨hnum', hsign⟩ := fmul_scale_sign htop hone hnum
    refine clampf_eq_lo _ _ _ ((fle_iff _ _).2 ⟨hnum', rfl, ?_⟩)
    have hzero : key zero = 0 := by decide
    rw [key_eq, hzero] at hkey
    rw [key_eq, hzero, hsign]
    by_cases hs : signbit x = true
    · rw [if_pos hs]
      omega
    · rw [if_neg hs] at hkey ⊢
      obtain ⟨hfin, -⟩ := ratOf_eq_zero x (by omega)
      rw [fmul_scale_finite htop hone hfin, show low x = 0 by omega, FloatFormat.mag_zero, zero_mul,
        low_roundSigned, FloatFormat.roundMag_zero]
      rfl

/-- The scaled value of a value from 1 on is clamped to the scale. -/
theorem clampf_scale_one_le (h : fle one x = true) : clampf (fmul x top) zero top = top := by
  obtain ⟨-, hnum, hkey⟩ := (fle_iff _ _).1 h
  obtain ⟨hnum', hsign⟩ := fmul_scale_sign htop hone hnum
  have hs := signbit_of_one_le htop hone
  have hkeyone : key one = low one ∧ 0 < key one := by decide
  have hsx := signbit_of_key_pos x (by omega)
  refine clampf_eq_hi _ _ _ (flt_zero_of_one_le htop hone)
    ((fle_iff _ _).2 ⟨isNaN_of_isFinite top htop, hnum', ?_⟩)
  rw [key_eq x, hsx] at hkey
  rw [key_eq, key_eq, hs, hsign, hsx]
  simp only [Bool.false_eq_true, if_false] at hkey ⊢
  rcases class_cases x with hfin | hinf | hnan
  · have hmag : 1 ≤ binary32.mag (low x) := by
      rw [← mag_one]
      exact binary32.mag_strictMono.monotone (by omega)
    have hround := binary32.roundMag_mono (binary32.mag (low top))
      (binary32.mag (low x) * binary32.mag (low top)) (binary32.mag_nonneg _)
      (le_mul_of_one_le_left (binary32.mag_nonneg _) hmag)
    rw [binary32.roundMag_mag _ ((isFinite_iff top).1 htop)] at hround
    rw [fmul_scale_finite htop hone hfin, low_roundSigned, ratOf_of_signbit_false htop hs]
    exact_mod_cast hround
  · rw [fmul_scale_infinity htop hone hinf, hinf]
    exact_mod_cast ((isFinite_iff top).1 htop).le
  · exact absurd hnan (by simp [hnum])

/-- The scaled value of a value between 0 and 1 lies above 0 and at most at the scale, and the clamp
keeps it. -/
theorem scale_between (h0 : flt zero x = true) (h1 : flt x one = true) :
    isFinite (fmul x top) = true ∧ 0 < ratOf (fmul x top) ∧ ratOf (fmul x top) ≤ ratOf top ∧
      clampf (fmul x top) zero top = fmul x top := by
  obtain ⟨hx, hpos, hlt⟩ := isFinite_of_between isFinite_zero isFinite_one h0 h1
  rw [ratOf_zero] at hpos
  rw [ratOf_one] at hlt
  have hsx := signbit_of_ratOf_pos x hx hpos
  have htop' := (isFinite_iff top).1 htop
  have hvalue := ratOf_of_signbit_false htop (signbit_of_one_le htop hone)
  rw [ratOf_of_signbit_false hx hsx] at hpos hlt
  set s := fmul x top with hs
  rw [fmul_scale_finite htop hone hx, hsx] at hs
  have hup : binary32.mag (low s) ≤ ratOf top := by
    rw [hs, low_roundSigned, hvalue]
    exact binary32.mag_roundMag_le htop' (mul_nonneg hpos.le (binary32.mag_nonneg _))
      (mul_le_of_le_one_left (binary32.mag_nonneg _) hlt.le)
  have hdown : binary32.mag (low x) ≤ binary32.mag (low s) := by
    rw [hs, low_roundSigned]
    exact binary32.le_mag_roundMag ((isFinite_iff x).1 hx) (le_mul_of_one_le_right hpos.le hone)
  have hsfin : isFinite s = true := by
    rw [isFinite_iff]
    exact (binary32.mag_strictMono.le_iff_le.1 (hup.trans hvalue.le)).trans_lt htop'
  have hsvalue : ratOf s = binary32.mag (low s) :=
    ratOf_of_signbit_false hsfin (by rw [hs]; exact signbit_roundSigned _ _)
  have hspos : 0 < ratOf s := by linarith
  have hsle : ratOf s ≤ ratOf top := by linarith
  refine ⟨hsfin, hspos, hsle, clampf_eq_self_of_mem (flt_zero_of_one_le htop hone) (.inl ?_)
    (flt_or_eq_of_fle ?_ ?_)⟩
  · rw [flt_iff, key_lt_iff _ _ isFinite_zero hsfin, ratOf_zero]
    exact ⟨rfl, isNaN_of_isFinite s hsfin, hspos⟩
  · rw [fle_iff, key_le_iff _ _ hsfin htop]
    exact ⟨isNaN_of_isFinite s hsfin, isNaN_of_isFinite top htop, hsle⟩
  · exact mt (key_eq_zero_iff top).1 (low_ne_zero_of_one_le hone)

end

/-- Settles O45: the clamp of the scaled value by its three cases, then the integer below it. -/
theorem forwardLutInterpolates : Obligations.ForwardLutInterpolates := by
  intro n v x h2 hn
  obtain ⟨htop, hvalue⟩ := fl32Int_exact (n - 1 : Nat) (by omega)
  rw [Int.cast_natCast] at hvalue
  have hone : 1 ≤ ratOf (fl32Int (n - 1 : Nat)) := by
    rw [hvalue]
    exact_mod_cast (by omega : 1 ≤ n - 1)
  refine ⟨fun h => ?_, fun h => ?_, fun h0 h1 => ?_⟩
  · exact fwdNormal_of_integer (clampf_scale_nonpos htop hone h) isFinite_zero
      (by rw [ratOf_zero, Nat.cast_zero]) (by omega)
  · exact fwdNormal_of_integer (clampf_scale_one_le htop hone h) htop hvalue (by omega)
  · obtain ⟨hfin, hpos, hle, hclamp⟩ := scale_between htop hone h0 h1
    rw [hvalue] at hle
    refine ⟨hpos, hle, fun i hi hi' => ⟨fun heq => ?_, fun hne => ?_⟩⟩
    · have hle' : i ≤ n - 1 := by exact_mod_cast hi.trans hle
      exact fwdNormal_of_integer hclamp hfin heq (by omega)
    · exact fwdNormal_of_fraction hclamp hfin (lt_of_le_of_ne hi (Ne.symm hne)) hi' hle hn

/-! ### The half domain (44_lut1d_forward.md R306 to R308) -/

theorem half32_positive {c : Nat} (hc : c < 0x7C00) :
    isFinite (half32 c) = true ∧ ratOf (half32 c) = binary16.mag c := by
  obtain ⟨hfin, hval, -⟩ := half32_value (k := c) (by omega) (by omega)
  rw [if_pos (by omega), one_mul, Nat.mod_eq_of_lt (by omega)] at hval
  exact ⟨hfin, hval⟩

theorem half32_negative {c : Nat} (hc : c < 0x7C00) :
    isFinite (half32 (0x8000 + c)) = true ∧ ratOf (half32 (0x8000 + c)) = -binary16.mag c := by
  obtain ⟨hfin, hval, -⟩ := half32_value (k := 0x8000 + c) (by omega) (by omega)
  rw [if_neg (by omega), neg_one_mul, show (0x8000 + c) % 0x8000 = c by omega] at hval
  exact ⟨hfin, hval⟩

/-- The value of a finite code converts back to that code, its sign kept. -/
theorem f32ToF16_half32 {h : Nat} (hh : h < 0x10000) (hfin : h % 0x8000 < 0x7C00) :
    (f32ToF16 (half32 h)).toNat = h := by
  obtain ⟨hfinite, -, hsign⟩ := half32_value hh hfin
  rw [f32ToF16_finite_toNat _ hfinite, hsign, half32_finite hh hfin,
    (roundSigned_mag_binary16 _ _ hfin).2, binary16.roundMag_mag _ hfin]
  simp only [decide_eq_true_eq]
  split <;> omega

theorem half32_ends : half32 0 = zero ∧ half32 0x7BFF = halfMax ∧ half32 0xFBFF = fneg halfMax := by
  decide +kernel

theorem flt_ends : flt (fneg halfMax) halfMax = true := by decide

/-- Every finite code has its value between the ends. -/
theorem half32_between_ends {h : Nat} (hh : h < 0x10000) (hfin : h % 0x8000 < 0x7C00) :
    fle (fneg halfMax) (half32 h) = true ∧ fle (half32 h) halfMax = true := by
  obtain ⟨hfinite, hval, -⟩ := half32_value hh hfin
  obtain ⟨-, hmax, hmin⟩ := half32_ends
  obtain ⟨hmaxfin, hmaxval⟩ := half32_positive (c := 0x7BFF) (by norm_num)
  obtain ⟨hminfin, hminval⟩ := half32_negative (c := 0x7BFF) (by norm_num)
  rw [hmax] at hmaxfin hmaxval
  rw [show 0x8000 + 0x7BFF = 0xFBFF from rfl, hmin] at hminfin hminval
  have hle := binary16.mag_strictMono.monotone (show h % 0x8000 ≤ 0x7BFF by omega)
  have hnonneg := binary16.mag_nonneg (h % 0x8000)
  simp only [fle_iff, isNaN_of_isFinite _ hfinite, isNaN_of_isFinite _ hmaxfin,
    isNaN_of_isFinite _ hminfin, true_and, key_le_iff _ _ hminfin hfinite,
    key_le_iff _ _ hfinite hmaxfin, hminval, hmaxval, hval]
  split <;> constructor <;> linarith

/-- The operand of the half-domain kernel: the value of a NaN is +0, and every other value is clamped to
the finite range of binary16 (R307). -/
def halfOperand (x : F32) : F32 := clampf (if isNaN x then zero else x) (fneg halfMax) halfMax

theorem halfOperand_of_nan {x : F32} (h : isNaN x = true) : halfOperand x = half32 0 := by
  rw [halfOperand, if_pos h, half32_ends.1]
  decide

theorem halfOperand_of_number {x : F32} (h : isNaN x = false) :
    halfOperand x = clampf x (fneg halfMax) halfMax := by
  rw [halfOperand, if_neg (by simp [h])]

theorem halfOperand_high {x : F32} (h : fle halfMax x = true) : halfOperand x = half32 0x7BFF := by
  rw [halfOperand_of_number ((fle_iff _ _).1 h).2.1, clampf_eq_hi _ _ _ flt_ends h, half32_ends.2.1]

theorem halfOperand_low {x : F32} (h : fle x (fneg halfMax) = true) :
    halfOperand x = half32 0xFBFF := by
  rw [halfOperand_of_number ((fle_iff _ _).1 h).1, clampf_eq_lo _ _ _ h, half32_ends.2.2]

theorem halfOperand_half32 {h : Nat} (hh : h < 0x10000) (hfin : h % 0x8000 < 0x7C00) :
    halfOperand (half32 h) = half32 h := by
  obtain ⟨hlo, hhi⟩ := half32_between_ends hh hfin
  have hne : key (fneg halfMax) ≠ 0 ∧ key halfMax ≠ 0 := by decide
  rw [halfOperand_of_number ((fle_iff _ _).1 hhi).1]
  refine clampf_eq_self_of_mem flt_ends ?_ (flt_or_eq_of_fle hhi hne.2)
  obtain ⟨hnan, hnum, hkey⟩ := (fle_iff _ _).1 hlo
  rcases hkey.lt_or_eq with hlt | heq
  · exact .inl ((flt_iff _ _).2 ⟨hnan, hnum, hlt⟩)
  · exact .inr (eq_of_key_eq heq.symm hne.1).symm

/-- An operand that is the value of a code gives that code's entry. -/
theorem fwdHalf_of_code (v : List F32) {x : F32} {h : Nat} (hh : h < 0x10000)
    (hfin : h % 0x8000 < 0x7C00) (hx : halfOperand x = half32 h) : fwdHalf v x = entry v h := by
  have hnan := isNaN_of_isFinite _ (half32_value hh hfin).1
  have hself : feq (half32 h) (half32 h) = true := (feq_iff _ _).2 ⟨hnan, hnan, rfl⟩
  rw [halfOperand] at hx
  simp only [fwdHalf, hx, f32ToF16_half32 hh hfin, hself, if_true]

/-- Two neighbouring finite codes of one sign, the first of the lower value. -/
def HalfNeighbours (lo hi : Nat) : Prop :=
  (hi = lo + 1 ∧ hi ≤ 0x7BFF) ∨ (lo = hi + 1 ∧ 0x8000 ≤ hi ∧ lo ≤ 0xFBFF)

section
variable {lo hi : Nat} (hn : HalfNeighbours lo hi)
include hn

/-- Neighbours are two successive sign-free codes with one sign. -/
theorem HalfNeighbours.exists_code : ∃ c, c + 1 < 0x7C00 ∧
    ((lo = c ∧ hi = c + 1) ∨ (lo = 0x8000 + (c + 1) ∧ hi = 0x8000 + c)) := by
  rcases hn with ⟨rfl, hle⟩ | ⟨rfl, hge, hle⟩
  · exact ⟨lo, by omega, .inl ⟨rfl, rfl⟩⟩
  · exact ⟨hi - 0x8000, by omega, .inr ⟨by omega, by omega⟩⟩

theorem HalfNeighbours.finite :
    (lo < 0x10000 ∧ lo % 0x8000 < 0x7C00) ∧ hi < 0x10000 ∧ hi % 0x8000 < 0x7C00 := by
  obtain ⟨c, hc, ⟨rfl, rfl⟩ | ⟨rfl, rfl⟩⟩ := hn.exists_code <;> omega

theorem HalfNeighbours.next : nextUp16 lo = hi ∧ nextDown16 hi = lo := by
  obtain ⟨c, hc, ⟨rfl, rfl⟩ | ⟨rfl, rfl⟩⟩ := hn.exists_code
  · rw [nextUp16, if_pos (by omega), nextDown16, if_neg (by omega)]
    exact ⟨rfl, rfl⟩
  · rw [nextUp16, if_neg (by omega), nextDown16, if_pos (by omega)]
    exact ⟨rfl, rfl⟩

section
variable {x : F32} (hlo : ratOf (half32 lo) < ratOf x) (hhi : ratOf x < ratOf (half32 hi))
include hlo hhi

/-- A value between two neighbours converts to one of them. -/
theorem HalfNeighbours.f32ToF16_eq (hx : isFinite x = true) :
    (f32ToF16 x).toNat = lo ∨ (f32ToF16 x).toNat = hi := by
  rw [f32ToF16_finite_toNat x hx]
  obtain ⟨c, hc, ⟨rfl, rfl⟩ | ⟨rfl, rfl⟩⟩ := hn.exists_code
  · rw [(half32_positive (by omega)).2] at hlo hhi
    have hsign := signbit_of_ratOf_pos x hx ((binary16.mag_nonneg lo).trans_lt hlo)
    rw [ratOf_of_signbit_false hx hsign] at hlo hhi
    have hround := binary16.roundMag_between hc hlo.le hhi.le
    simp only [hsign, Bool.false_eq_true, if_false]
    omega
  · rw [(half32_negative (by omega)).2] at hlo hhi
    have hsign := signbit_of_ratOf_neg hx (by linarith [binary16.mag_nonneg c])
    rw [ratOf_of_signbit_true hx hsign, neg_lt_neg_iff] at hlo hhi
    have hround := binary16.roundMag_between hc hhi.le hlo.le
    simp only [hsign, if_true]
    omega

/-- Below magnitude 1 neighbours are at most 1 apart; the others have magnitude 1 or more. -/
theorem HalfNeighbours.gap_le : ratOf (half32 hi) - ratOf (half32 lo) ≤ 1 ∨
    1 ≤ |ratOf (half32 lo)| ∧ 1 ≤ |ratOf x| ∧ ratOf (half32 hi) - ratOf (half32 lo) ≤ 2 ^ 16 := by
  obtain ⟨c, hc, hcode⟩ := hn.exists_code
  have hmagone : binary16.mag 0x3C00 = 1 := by decide +kernel
  have hnonneg := binary16.mag_nonneg c
  have hstep := binary16.mag_strictMono (Nat.lt_succ_self c)
  have hmax := binary16.mag_strictMono.monotone (show c + 1 ≤ 0x7BFF by omega)
  rw [mag_binary16_maxFinite] at hmax
  rcases Nat.lt_or_ge c 0x3C00 with hsmall | hlarge
  · have hle := binary16.mag_strictMono.monotone (show c + 1 ≤ 0x3C00 by omega)
    rw [hmagone] at hle
    left
    rcases hcode with ⟨rfl, rfl⟩ | ⟨rfl, rfl⟩
    · rw [(half32_positive (by omega)).2, (half32_positive (by omega)).2]
      linarith
    · rw [(half32_negative (by omega)).2, (half32_negative (by omega)).2]
      linarith
  · have hge := binary16.mag_strictMono.monotone hlarge
    rw [hmagone] at hge
    right
    rcases hcode with ⟨rfl, rfl⟩ | ⟨rfl, rfl⟩
    · rw [(half32_positive (by omega)).2] at hlo hhi ⊢
      rw [(half32_positive (by omega)).2]
      exact ⟨le_abs.2 (.inl hge), le_abs.2 (.inl (by linarith)), by linarith⟩
    · rw [(half32_negative (by omega)).2] at hlo hhi ⊢
      rw [(half32_negative (by omega)).2]
      exact ⟨le_abs.2 (.inr (by linarith)), le_abs.2 (.inr (by linarith)), by linarith⟩

end

/-- Between two neighbours the result is the interpolation of their entries. -/
theorem fwdHalf_between (v : List F32) {x : F32} (hlo : flt (half32 lo) x = true)
    (hhi : flt x (half32 hi) = true) : fwdHalf v x = lerpHalf v x lo hi := by
  obtain ⟨⟨hlolt, hlofin⟩, hhilt, hhifin⟩ := hn.finite
  obtain ⟨hup, hdown⟩ := hn.next
  have hoperand : halfOperand x = x := by
    rw [halfOperand_of_number ((flt_iff _ _).1 hlo).2.1]
    exact clampf_eq_self _ _ _ (flt_of_fle_of_flt (half32_between_ends hlolt hlofin).1 hlo)
      (flt_of_flt_of_fle hhi (half32_between_ends hhilt hhifin).2)
  obtain ⟨hx, hlox, hxhi⟩ := isFinite_of_between (half32_value hlolt hlofin).1
    (half32_value hhilt hhifin).1 hlo hhi
  have hne {a : F32} (h : key a ≠ key x) : feq a x = false :=
    Bool.eq_false_iff.2 fun heq => h ((feq_iff _ _).1 heq).2.2
  have hlokey := ((flt_iff _ _).1 hlo).2.2
  have hhikey := ((flt_iff _ _).1 hhi).2.2
  rw [halfOperand] at hoperand
  rcases hn.f32ToF16_eq hlox hxhi hx with hcode | hcode
  · simp only [fwdHalf, hoperand, hcode, hne hlokey.ne, hlo, hup, Bool.false_eq_true, if_false, if_true]
  · have hnot : flt (half32 hi) x = false :=
      Bool.eq_false_iff.2 fun h => absurd ((flt_iff _ _).1 h).2.2 (by omega)
    simp only [fwdHalf, hoperand, hcode, hne hhikey.ne', hnot, hdown, Bool.false_eq_true, if_false]

end

/-- Settles O46: the operand that is a code's value, and the operand between two neighbours. -/
theorem halfDomainInterpolates : Obligations.HalfDomainInterpolates := by
  refine fun v => ⟨fun h hh hfin => fwdHalf_of_code v hh hfin (halfOperand_half32 hh hfin), fun x =>
    ⟨fun hnan => fwdHalf_of_code v (by norm_num) (by norm_num) (halfOperand_of_nan hnan),
      fun hhigh => fwdHalf_of_code v (by norm_num) (by norm_num) (halfOperand_high hhigh),
      fun hlow => fwdHalf_of_code v (by norm_num) (by norm_num) (halfOperand_low hlow),
      fun lo hi hn hlo hhi => ?_⟩⟩
  obtain ⟨⟨hlolt, hlofin⟩, hhilt, hhifin⟩ := HalfNeighbours.finite hn
  have hlofinite := (half32_value hlolt hlofin).1
  have hhifinite := (half32_value hhilt hhifin).1
  obtain ⟨hx, hlox, hxhi⟩ := isFinite_of_between hlofinite hhifinite hlo hhi
  have hgap := HalfNeighbours.gap_le hn hlox hxhi
  rw [fwdHalf_between hn v hlo hhi]
  exact lerp32_of_ne_zero _ _ (low_fraction_ne_zero hlofinite hx hhifinite hlox hxhi hgap)

end Sys2Proof.Machine
end

section
/-!
The hue order and its fixup, and the evaluation of an inverse LUT: the channel inverses, the unit's
function by its mode, and the fast table (44_lut1d_forward.md R309, R310, R314; 45_lut1d_inverse.md R359
to R365).
-/
namespace Sys2Proof.Machine

/-! ### The hue order (44_lut1d_forward.md R309) -/

/-- The key of R309: the three strict comparisons as the bits of a number. -/
def hueKey (x : Rgb F32) : Nat :=
  4 * (if flt x.g x.r then 1 else 0) + 2 * (if flt x.b x.g then 1 else 0) +
    (if flt x.b x.r then 1 else 0)

/-- R309's table of orders, by key. -/
def hueTable : List HueOrder :=
  [⟨.b, .g, .r⟩, ⟨.b, .g, .r⟩, ⟨.g, .b, .r⟩, ⟨.g, .r, .b⟩, ⟨.b, .r, .g⟩, ⟨.r, .b, .g⟩, ⟨.b, .g, .r⟩,
    ⟨.r, .g, .b⟩]

theorem hueOrder_of_nan {x : Rgb F32}
    (h : isNaN x.r = true ∨ isNaN x.g = true ∨ isNaN x.b = true) : hueOrder x = ⟨.b, .g, .r⟩ := by
  rw [hueOrder, if_pos (by simpa [or_assoc] using h)]

section
variable {x : Rgb F32} (hr : isNaN x.r = false) (hg : isNaN x.g = false) (hb : isNaN x.b = false)
include hr hg hb

theorem hueTable_hueKey : hueTable[hueKey x]? = some (hueOrder x) := by
  rw [hueOrder, if_neg (by simp [hr, hg, hb]), hueKey]
  cases flt x.g x.r <;> cases flt x.b x.g <;> cases flt x.b x.r <;> rfl

/-- The order sorts the channels; the keys 1 and 6, which no three numbers have, are contradictory. -/
theorem hueOrder_sorted :
    fle (x.get (hueOrder x).imin) (x.get (hueOrder x).imid) = true ∧
      fle (x.get (hueOrder x).imid) (x.get (hueOrder x).imax) = true := by
  have hnumber (c : Chan) : isNaN (x.get c) = false := by
    cases c
    · exact hr
    · exact hg
    · exact hb
  simp only [fle_iff, hnumber, true_and]
  rw [hueOrder, if_neg (by simp [hr, hg, hb])]
  simp only [flt, hr, hg, hb, Bool.not_false, Bool.true_and]
  split <;> next hgr hbg hbr =>
    simp only [decide_eq_true_eq, decide_eq_false_iff_not] at hgr hbg hbr
    simp only [Rgb.get]
    omega

end

/-- An order of R309 names each channel once. -/
theorem hueOrder_distinct (x : Rgb F32) : (hueOrder x).imin ≠ (hueOrder x).imid ∧
    (hueOrder x).imid ≠ (hueOrder x).imax ∧ (hueOrder x).imin ≠ (hueOrder x).imax := by
  have hrows : ∀ o ∈ hueTable, o.imin ≠ o.imid ∧ o.imid ≠ o.imax ∧ o.imin ≠ o.imax := by decide
  refine hrows _ ?_
  by_cases hnan : isNaN x.r = true ∨ isNaN x.g = true ∨ isNaN x.b = true
  · rw [hueOrder_of_nan hnan]
    decide
  · simp only [not_or, Bool.not_eq_true] at hnan
    obtain ⟨hr, hg, hb⟩ := hnan
    exact List.mem_of_getElem? (hueTable_hueKey hr hg hb)

/-! ### The hue fixup (44_lut1d_forward.md R310) -/

theorem Rgb.get_set {α : Type} (x : Rgb α) (c d : Chan) (v : α) :
    (x.set c v).get d = if d = c then v else x.get d := by
  cases c <;> cases d <;> rfl

theorem hueAdjust_dw3_get (x y : Rgb F32) (c : Chan) :
    (hueAdjust .dw3 x y).get c = if c = (hueOrder x).imid then
        fadd (fmul (hueFactor x) (fsub (y.get (hueOrder x).imax) (y.get (hueOrder x).imin)))
          (y.get (hueOrder x).imin)
      else y.get c :=
  Rgb.get_set ..

/-- Settles O47: the order by R309's table, and a fixup that sets the middle channel. -/
theorem hueOrderAndFixup : Obligations.HueOrderAndFixup := by
  refine ⟨fun x => ⟨fun hr hg hb => ?_, hueOrder_of_nan⟩, fun x y => ⟨rfl, ?_⟩⟩
  · obtain ⟨hlo, hhi⟩ := hueOrder_sorted hr hg hb
    obtain ⟨hminmid, hmidmax, hminmax⟩ := hueOrder_distinct x
    exact ⟨hlo, hhi, hminmid, hmidmax, hminmax, hueTable_hueKey hr hg hb⟩
  · obtain ⟨hminmid, hmidmax, -⟩ := hueOrder_distinct x
    exact ⟨(hueAdjust_dw3_get x y _).trans (if_neg hmidmax.symm),
      (hueAdjust_dw3_get x y _).trans (if_neg hminmid),
      (hueAdjust_dw3_get x y _).trans (if_pos rfl)⟩

/-! ### The channel inverses (45_lut1d_inverse.md R359, R361) -/

/-- One half of the half-domain inverse: the interpolation between the two codes that its search
finds, which start at `base`. -/
def halfSide (u : List F32) (first last base : Nat) (flip x : F32) : F32 :=
  let f := search u first last (fmul flip x)
  fadd (half32 (base + f.lo)) (fmul f.delta (fsub (half32 (base + f.hi)) (half32 (base + f.lo))))

theorem invHalf_eq_halfSide (c : HalfInverse) (x : F32) :
    invHalf c x = if fle (fmul c.flip c.bisectPoint) (fmul c.flip x) then
        halfSide c.uP c.startDomain c.endDomain 0 c.flip x
      else halfSide c.uQ (c.negStartDomain - 0x8000) (c.negEndDomain - 0x8000) 0x8000 (fneg c.flip) x := by
  cases h : fle (fmul c.flip c.bisectPoint) (fmul c.flip x) <;>
    simp only [invHalf, halfSide, h, if_true, Bool.false_eq_true, if_false]

/-! ### The fast table (45_lut1d_inverse.md R362 to R364) -/

/-- The exact inverse of one channel for an output of a given range. -/
def InverseData.channel (inv : InverseData) (n range : Nat) (c : Chan) (x : F32) : F32 :=
  match inv with
  | .normal d => invNormal n range (d.get c) x
  | .half d => invHalf (d.get c) x

theorem outside01_iff (x : F32) :
    outside01 x = true ↔ flt x 0#32 = true ∨ flt 0x3F800000#32 x = true := Bool.or_eq_true_iff

theorem Rgb.any_map2 {α β : Type} (f : α → β → Bool) (x : Rgb α) (y : Rgb β) :
    (Rgb.map2 f x y).toList.any id = true ↔ ∃ c, f (x.get c) (y.get c) = true := by
  constructor
  · intro h
    simp only [Rgb.map2, Rgb.toList, List.any_cons, List.any_nil, Bool.or_false, Bool.or_eq_true,
      id] at h
    rcases h with h | h | h
    · exact ⟨.r, h⟩
    · exact ⟨.g, h⟩
    · exact ⟨.b, h⟩
  · rintro ⟨c, h⟩
    exact List.any_eq_true.2 ⟨_, by cases c <;> simp [Rgb.toList, Rgb.map2, Rgb.get], h⟩

theorem extended_normal_iff (v : Rgb (List F32)) (d : Rgb NormalInverse) :
    extended v (.normal d) = true ↔
      ∃ c, outside01 (entry (v.get c) (d.get c).startDomain) = true ∨
        outside01 (entry (v.get c) (d.get c).endDomain) = true := by
  simp only [extended, Rgb.any_map2, normalExtended, Bool.or_eq_true]

theorem extended_half_iff (v : Rgb (List F32)) (d : Rgb HalfInverse) :
    extended v (.half d) = true ↔
      ∃ c, outside01 (entry (v.get c) (d.get c).startDomain) = true ∨
        outside01 (entry (v.get c) (d.get c).endDomain) = true ∨
        outside01 (entry (v.get c) (d.get c).negStartDomain) = true ∨
        outside01 (entry (v.get c) (d.get c).negEndDomain) = true := by
  simp only [extended, Rgb.any_map2, halfExtended, Bool.or_eq_true, or_assoc]

theorem length_fastChannel (half : Bool) (fN : Nat) (g : F32 → F32) :
    (fastChannel half fN g).length = fN := by simp [fastChannel]

theorem entry_fastChannel (half : Bool) {fN i : Nat} (g : F32 → F32) (h : i < fN) :
    entry (fastChannel half fN g) i = g (fastSample half i) := by
  simp [entry, fastChannel, h]

theorem buildFast_channel (n : Nat) (v : Rgb (List F32)) (inv : InverseData) (c : Chan) :
    (buildFast n v inv).fv.get c =
      fastChannel (extended v inv) (buildFast n v inv).fN (inv.channel n 1 c) := by
  cases inv <;> cases c <;> rfl

/-- The sizes, the domain and the entries of the fast table, by whether the range is extended. -/
theorem buildFast_spec {n : Nat} {v : Rgb (List F32)} {inv : InverseData} {half : Bool}
    (h : extended v inv = half) :
    let fN := if half then 65536 else 4096
    (buildFast n v inv).fN = fN ∧ (buildFast n v inv).fhalf = half ∧
      ∀ c, ((buildFast n v inv).fv.get c).length = fN ∧
        ∀ j, j < fN → entry ((buildFast n v inv).fv.get c) j = inv.channel n 1 c (fastSample half j) := by
  intro fN
  subst h
  refine ⟨rfl, rfl, fun c => ?_⟩
  rw [buildFast_channel]
  exact ⟨length_fastChannel _ _ _, fun j hj => entry_fastChannel _ _ hj⟩

/-! ### The unit's function (44_lut1d_forward.md R314; 45_lut1d_inverse.md R360, R365) -/

section
variable {u : LutUnit} (od : BitDepth) (x : Quad)

theorem lutFun_fwd (h : u.mode = .fwd) : lutFun u od x = (tableEval u.table u.hue x).map .norm := by
  rw [lutFun, h]

theorem lutFun_invFast {inv : InverseData} {fast : FastTable} (h : u.mode = .invFast inv fast) :
    lutFun u od x = (tableEval fast.table u.hue x).map .norm := by
  rw [lutFun, h]

theorem lutFun_invExact {inv : InverseData} (h : u.mode = .invExact inv) :
    lutFun u od x = invExact inv u.n od.range u.hue x := by
  rw [lutFun, h]

end

/-- Settles O52: the channel inverses, the function of each mode, and the fast table by its extent. -/
theorem inverseLutEvaluation : Obligations.InverseLutEvaluation := by
  refine ⟨fun n range c x => rfl, fun c x => invHalf_eq_halfSide c x, fun u od x => ?modes,
    fun n v inv => ?fast⟩
  case modes =>
    exact ⟨lutFun_fwd od x, fun inv fast h => lutFun_invFast od x h,
      fun c h => lutFun_invExact od x h, fun c h => lutFun_invExact od x h⟩
  case fast =>
    intro outside wide inverse t
    have hwide : wide ↔ extended v inv = true := by
      cases inv with
      | normal d =>
        rw [extended_normal_iff]
        exact exists_congr fun c => or_congr (outside01_iff _).symm (outside01_iff _).symm
      | half d =>
        rw [extended_half_iff]
        exact exists_congr fun c => or_congr (outside01_iff _).symm (or_congr (outside01_iff _).symm
          (or_congr (outside01_iff _).symm (outside01_iff _).symm))
    have hinverse : inverse = inv.channel n 1 := by cases inv <;> rfl
    rw [hwide, hinverse, Bool.not_eq_true]
    exact ⟨fun h => buildFast_spec h, fun h => buildFast_spec h⟩

end Sys2Proof.Machine
end

section
/-!
The inverse of a 1D LUT: the monotonised copy as a running maximum, its effective domain, the inverse
data that a table has, and the search (45_lut1d_inverse.md R350 to R358).
-/
namespace Sys2Proof.Machine

open Sys2Proof.Safety

/-! ### Entries of a channel -/

theorem entry_map {f : F32 → F32} {w : List F32} {i : Nat} (h : i < w.length) :
    entry (w.map f) i = f (entry w i) := by simp [entry, h]

theorem entry_map_range {f : Nat → F32} {n i : Nat} (h : i < n) :
    entry ((List.range n).map f) i = f i := by simp [entry, h]

theorem drop_eq_entry_cons {w : List F32} {i : Nat} (h : i < w.length) :
    w.drop i = entry w i :: w.drop (i + 1) := by
  rw [List.drop_eq_getElem_cons h]
  simp [entry, h]

/-- A channel reads 0 outside its entries, so no index reads a NaN. -/
theorem isNaN_entry {w : List F32} (h : NoNaN w) (i : Nat) : isNaN (entry w i) = false := by
  rcases Nat.lt_or_ge i w.length with hi | hi
  · exact h _ (by simp [entry, hi])
  · rw [show entry w i = 0 by simp [entry, hi]]
    decide

theorem all_not_isNaN_iff (w : List F32) : (w.all fun x => !isNaN x) = true ↔ NoNaN w := by
  simp [NoNaN]

/-! ### The order of binary32 without a NaN -/

theorem feq_false_of_flt {x y : F32} (h : flt x y = true) : feq x y = false := by
  obtain ⟨-, -, hkey⟩ := (flt_iff x y).1 h
  exact Bool.eq_false_iff.2 fun heq => hkey.ne ((feq_iff x y).1 heq).2.2

theorem flt_of_not_fle {x y : F32} (hx : isNaN x = false) (hy : isNaN y = false)
    (h : fle x y = false) : flt y x = true := by
  refine (flt_iff y x).2 ⟨hy, hx, ?_⟩
  by_contra hkey
  exact Bool.eq_false_iff.1 h ((fle_iff x y).2 ⟨hx, hy, not_lt.1 hkey⟩)

theorem maxf_eq_or (x y : F32) : maxf x y = x ∨ maxf x y = y := by
  unfold maxf
  split
  · exact .inr rfl
  · exact .inl rfl

/-- A maximum lies at or above both of its operands. -/
theorem fle_maxf {x y : F32} (hx : isNaN x = false) (hy : isNaN y = false) :
    fle x (maxf x y) = true ∧ fle y (maxf x y) = true := by
  simp only [fle_iff, hx, hy, maxf_not_nan x y hx, true_and]
  unfold maxf
  split
  · next hlt => exact ⟨((flt_iff x y).1 hlt).2.2.le, le_rfl⟩
  · next hlt => exact ⟨le_rfl, not_lt.1 fun hkey => hlt ((flt_iff x y).2 ⟨hx, hy, hkey⟩)⟩

/-- A maximum that differs from its first operand lies above it. -/
theorem flt_maxf_of_feq_false {x y : F32} (hx : isNaN x = false)
    (h : feq x (maxf x y) = false) : flt x (maxf x y) = true := by
  rcases Bool.eq_false_or_eq_true (flt x y) with hlt | hlt
  · rwa [maxf, if_pos hlt]
  · rw [maxf, if_neg (by simp [hlt]), (feq_iff x x).2 ⟨hx, hx, rfl⟩] at h
    contradiction

/-! ### The flip (R352) -/

theorem flipOf_eq_flipFor (increasing : Bool) : flipOf increasing = flipFor increasing := rfl

theorem fneg_flipFor (increasing : Bool) : fneg (flipFor increasing) = flipFor !increasing := by
  cases increasing <;> decide

theorem isNaN_fmul_flipFor (increasing : Bool) {x : F32} (h : isNaN x = false) :
    isNaN (fmul (flipFor increasing) x) = false := by
  cases increasing with
  | true => rwa [show flipFor true = one from rfl, fmul_one_left x h]
  | false =>
    rw [show flipFor false = fneg one from rfl, fmul_neg_one_left x h]
    exact (isNaN_congr (low_signed _ _ (low_lt x))).trans h

/-! ### The running maximum (R352) -/

/-- Each entry of a running maximum that stands after its first is the larger of the entry before it
and the entry it meets. -/
theorem entry_runningMax (first : F32) {w : List F32} {i : Nat} (h : i < w.length) :
    entry (first :: runningMax first w) (i + 1) =
      maxf (entry (first :: runningMax first w) i) (entry w i) := by
  induction w generalizing first i with
  | nil => simp at h
  | cons x t ih =>
    cases i with
    | zero => rfl
    | succ i => exact ih (maxf first x) (Nat.lt_of_succ_lt_succ h)

theorem runningCopy_monotoneCopy (flip : F32) (w : List F32) :
    RunningCopy flip w (monotoneCopy flip w) := by
  refine ⟨monotoneCopy_length flip w, ?first, ?next⟩
  case first =>
    cases w with
    | nil => simp
    | cons x t => exact fun _ => rfl
  case next =>
    intro i hi
    cases w with
    | nil => simp at hi
    | cons x t =>
      have hi : i < t.length := Nat.lt_of_succ_lt_succ hi
      have hentry : entry (t.map (fmul flip)) i = fmul flip (entry (x :: t) (i + 1)) := entry_map hi
      rw [← hentry]
      exact entry_runningMax (fmul flip x) (by simpa using hi)

section
variable {flip : F32} {w u : List F32} (hu : RunningCopy flip w u)
  (hnum : ∀ i, isNaN (fmul flip (entry w i)) = false)
include hu hnum

theorem runningCopy_isNaN_entry {i : Nat} (h : i < w.length) : isNaN (entry u i) = false := by
  obtain ⟨-, hfirst, hnext⟩ := hu
  induction i with
  | zero => rw [hfirst h]; exact hnum 0
  | succ i ih => rw [hnext i h]; exact maxf_not_nan _ _ (ih (by omega))

/-- A running copy does not fall. -/
theorem runningCopy_fle_succ {i : Nat} (h : i + 1 < w.length) :
    fle (entry u i) (entry u (i + 1)) = true := by
  have ⟨_, _, hnext⟩ := hu
  rw [hnext i h]
  exact (fle_maxf (runningCopy_isNaN_entry hu hnum (by omega)) (hnum _)).1

/-- It lies at or above the flipped table. -/
theorem runningCopy_fle_flipped {i : Nat} (h : i < w.length) :
    fle (fmul flip (entry w i)) (entry u i) = true := by
  have ⟨_, hfirst, hnext⟩ := hu
  cases i with
  | zero => rw [hfirst h]; exact (fle_iff _ _).2 ⟨hnum 0, hnum 0, le_rfl⟩
  | succ i => rw [hnext i h]; exact (fle_maxf (runningCopy_isNaN_entry hu hnum (by omega)) (hnum _)).2

theorem runningCopy_key_first_le {i : Nat} (h : i < w.length) : key (entry u 0) ≤ key (entry u i) := by
  induction i with
  | zero => exact le_rfl
  | succ i ih =>
    obtain ⟨-, -, hkey⟩ := (fle_iff _ _).1 (runningCopy_fle_succ hu hnum h)
    exact (ih (by omega)).trans hkey

/-- A running copy changes exactly where some flipped entry is above the first. -/
theorem runningCopy_changes_iff_rises :
    (∃ i, i + 1 < u.length ∧ feq (entry u i) (entry u (i + 1)) = false) ↔ Rises flip w := by
  have ⟨hlen, hfirst, hnext⟩ := hu
  rw [hlen]
  constructor
  · rintro ⟨i, hi, hchange⟩
    rw [hnext i hi] at hchange
    have hrise := flt_maxf_of_feq_false (runningCopy_isNaN_entry hu hnum (by omega)) hchange
    obtain ⟨hnan, -, hkey⟩ := (flt_iff _ _).1 hrise
    have hmax : maxf (entry u i) (fmul flip (entry w (i + 1))) = fmul flip (entry w (i + 1)) :=
      (maxf_eq_or _ _).resolve_left fun heq => by rw [heq] at hkey; exact lt_irrefl _ hkey
    have hstart := runningCopy_key_first_le hu hnum (show i < w.length by omega)
    rw [hmax] at hkey
    rw [hfirst (by omega)] at hstart
    exact ⟨i + 1, hi, (flt_iff _ _).2 ⟨hnum 0, hnum _, hstart.trans_lt hkey⟩⟩
  · rintro ⟨i, hi, hrise⟩
    by_contra! hflat
    have hkey (k : Nat) (hk : k < w.length) : key (entry u k) = key (entry u 0) := by
      induction k with
      | zero => rfl
      | succ k ih =>
        have heq := Bool.eq_true_of_not_eq_false (hflat k hk)
        rw [← ((feq_iff _ _).1 heq).2.2]
        exact ih (by omega)
    have habove := flt_of_flt_of_fle hrise (runningCopy_fle_flipped hu hnum hi)
    rw [← hfirst (by omega)] at habove
    exact ((flt_iff _ _).1 habove).2.2.ne (hkey i hi).symm

end

/-- Settles O48: the copy is a running maximum of numbers. -/
theorem monotoneCopyRises : Obligations.MonotoneCopyRises := by
  intro w increasing hne hnan flip u
  have hu : RunningCopy flip w u := runningCopy_monotoneCopy flip w
  have hnum (i : Nat) : isNaN (fmul flip (entry w i)) = false :=
    isNaN_fmul_flipFor increasing (isNaN_entry hnan i)
  have ⟨hlen, hfirst, hnext⟩ := hu
  refine ⟨hlen, hfirst (List.length_pos_iff.2 hne), fun i hi =>
    ⟨runningCopy_fle_succ hu hnum hi, runningCopy_fle_flipped hu hnum hi, ?_⟩⟩
  rw [hnext i hi]
  exact maxf_eq_or _ _

/-! ### The effective domain (R353) -/

theorem firstChange_iff_isLeast (u : List F32) (b : Nat) : firstChange 0 u = some b ↔
    IsLeast { i | i + 1 < u.length ∧ feq (entry u i) (entry u (i + 1)) = false } b := by
  rw [firstChange_eq]
  simp only [Nat.sub_zero, Nat.zero_add, Nat.zero_le, true_and, forall_const]
  constructor
  · rintro ⟨hb, hchange, hbefore⟩
    refine ⟨⟨hb, hchange⟩, fun i hi => not_lt.1 fun hlt => ?_⟩
    exact Bool.eq_false_iff.1 hi.2 (hbefore i hlt)
  · rintro ⟨⟨hb, hchange⟩, hleast⟩
    refine ⟨hb, hchange, fun i hlt => Bool.eq_true_of_not_eq_false fun h => ?_⟩
    exact absurd (hleast ⟨by omega, h⟩) (not_le.2 hlt)

theorem lastChange_iff_isGreatest (u : List F32) (e : Nat) : lastChange 0 u = some e ↔
    IsGreatest { j | 1 ≤ j ∧ j < u.length ∧ feq (entry u (j - 1)) (entry u j) = false } e := by
  rw [lastChange_eq]
  simp only [Nat.sub_zero, Nat.zero_add]
  constructor
  · rintro ⟨hpos, he, hchange, hafter⟩
    refine ⟨⟨hpos, he, hchange⟩, fun j ⟨_, hj, hdiffer⟩ => not_lt.1 fun hlt => ?_⟩
    exact Bool.eq_false_iff.1 hdiffer (hafter j hlt hj)
  · rintro ⟨⟨hpos, he, hchange⟩, hgreatest⟩
    refine ⟨hpos, he, hchange, fun j hlt hj => Bool.eq_true_of_not_eq_false fun h => ?_⟩
    exact absurd (hgreatest ⟨by omega, hj, h⟩) (not_le.2 hlt)

theorem effectiveDomain_eq_some_iff (u : List F32) (b e : Nat) :
    effectiveDomain u = some (b, e) ↔ EffectiveEnds u b e := by
  rw [EffectiveEnds, ← firstChange_iff_isLeast, ← lastChange_iff_isGreatest, effectiveDomain]
  cases firstChange 0 u <;> cases lastChange 0 u <;> simp

/-- Settles O49: the two searches for a change find the least and the greatest. -/
theorem effectiveDomainEnds : Obligations.EffectiveDomainEnds := effectiveDomain_eq_some_iff

/-- A copy that changes has a first and a last change. -/
theorem exists_effectiveEnds {u : List F32} {i : Nat} (hi : i + 1 < u.length)
    (h : feq (entry u i) (entry u (i + 1)) = false) : ∃ b e, EffectiveEnds u b e := by
  have hbound : BddAbove { j | 1 ≤ j ∧ j < u.length ∧ feq (entry u (j - 1)) (entry u j) = false } :=
    ⟨u.length, fun _ ⟨_, hj, _⟩ => hj.le⟩
  exact ⟨_, _, ⟨Nat.sInf_mem ⟨i, hi, h⟩, fun _ hj => Nat.sInf_le hj⟩,
    Nat.sSup_mem ⟨i + 1, by omega, hi, h⟩ hbound, fun _ hj => le_csSup hbound hj⟩

theorem exists_effectiveDomain_iff (u : List F32) : (∃ b e, effectiveDomain u = some (b, e)) ↔
    ∃ i, i + 1 < u.length ∧ feq (entry u i) (entry u (i + 1)) = false := by
  simp only [effectiveDomain_eq_some_iff]
  exact ⟨fun ⟨b, _, ⟨⟨hb, hchange⟩, _⟩, _⟩ => ⟨b, hb, hchange⟩,
    fun ⟨_, hi, h⟩ => exists_effectiveEnds hi h⟩

/-- The copy of a table of numbers has an effective domain exactly where the table rises. -/
theorem exists_effectiveDomain_monotoneCopy (increasing : Bool) {w : List F32} (h : NoNaN w) :
    (∃ b e, effectiveDomain (monotoneCopy (flipFor increasing) w) = some (b, e)) ↔
      Rises (flipFor increasing) w :=
  (exists_effectiveDomain_iff _).trans (runningCopy_changes_iff_rises (runningCopy_monotoneCopy _ w)
    fun i => isNaN_fmul_flipFor increasing (isNaN_entry h i))

/-- The domain of a half, (0, 0) where there is no change (R356). -/
theorem halfEnds_effectiveDomain (u : List F32) :
    HalfEnds u ((effectiveDomain u).getD (0, 0)).1 ((effectiveDomain u).getD (0, 0)).2 := by
  cases h : effectiveDomain u with
  | some p => exact .inl ((effectiveDomain_eq_some_iff u p.1 p.2).1 h)
  | none =>
    refine .inr ⟨fun i hi => Bool.eq_true_of_not_eq_false fun hchange => ?_, rfl, rfl⟩
    obtain ⟨b, e, hsome⟩ := (exists_effectiveDomain_iff u).2 ⟨i, hi, hchange⟩
    rw [h] at hsome
    contradiction

/-! ### One channel in the normal domain (R351 to R354, R357) -/

/-- The copy of a channel in its direction (R352). -/
def normalCopy (w : List F32) : List F32 := monotoneCopy (flipFor (upTo w (w.length - 1))) w

/-- The data of a normal-domain channel of a given domain. -/
def normalInverseOf (w : List F32) (b e : Nat) : NormalInverse where
  isIncreasing := upTo w (w.length - 1)
  flip := flipFor (upTo w (w.length - 1))
  startDomain := b
  endDomain := e
  bisectPoint := entry w 0
  u := normalCopy w

theorem buildNormal_ok_iff (w : List F32) (d : NormalInverse) : buildNormal w = .ok d ↔
    NoNaN w ∧ ∃ b e, effectiveDomain (normalCopy w) = some (b, e) ∧ normalInverseOf w b e = d := by
  have hup : fle (entry w 0) (entry w (w.length - 1)) = upTo w (w.length - 1) := rfl
  simp only [buildNormal, check_bind_ok, require_ok_iff, all_not_isNaN_iff, exists_and_left,
    exists_const, hup, flipOf_eq_flipFor]
  refine and_congr_right fun _ => ?_
  simp only [normalInverseOf, normalCopy]
  generalize monotoneCopy (flipFor (upTo w (w.length - 1))) w = u
  cases effectiveDomain u <;> simp [Prod.ext_iff]

theorem exists_buildNormal_iff (w : List F32) :
    (∃ d, buildNormal w = .ok d) ↔ InvertibleNormal w := by
  constructor
  · rintro ⟨d, hd⟩
    obtain ⟨hnan, b, e, hdomain, -⟩ := (buildNormal_ok_iff w d).1 hd
    exact ⟨hnan, (exists_effectiveDomain_monotoneCopy _ hnan).1 ⟨b, e, hdomain⟩⟩
  · rintro ⟨hnan, hrises⟩
    obtain ⟨b, e, hdomain⟩ := (exists_effectiveDomain_monotoneCopy _ hnan).2 hrises
    exact ⟨_, (buildNormal_ok_iff w _).2 ⟨hnan, b, e, hdomain, rfl⟩⟩

theorem normalData_of_buildNormal {w : List F32} {d : NormalInverse} (h : buildNormal w = .ok d) :
    NormalData w d := by
  obtain ⟨-, b, e, hdomain, rfl⟩ := (buildNormal_ok_iff w d).1 h
  exact ⟨rfl, rfl, runningCopy_monotoneCopy _ _, (effectiveDomain_eq_some_iff _ _ _).1 hdomain, rfl⟩

/-! ### One channel in the half domain (R351, R355 to R357) -/

theorem positiveHalf_eq_positiveCodes {w : List F32} (h : w.length = 65536) :
    positiveHalf w = positiveCodes w := by
  refine List.ext_getElem (by simp [positiveHalf, positiveCodes, h]) fun i hi _ => ?_
  have hi : i < 0x7C00 := by simp [positiveHalf] at hi; omega
  simp [positiveHalf, positiveCodes, entry, show i < w.length by omega]

theorem negativeHalf_eq_negativeCodes {w : List F32} (h : w.length = 65536) :
    negativeHalf w = negativeCodes w := by
  refine List.ext_getElem (by simp [negativeHalf, negativeCodes, h]) fun i hi _ => ?_
  have hi : i < 0x7C00 := by simp [negativeHalf] at hi; omega
  simp [negativeHalf, negativeCodes, entry, show 0x8000 + i < w.length by omega]

/-- The copy of the finite codes of one sign, the negative ones with the flip reversed (R355, R356). -/
def positiveCopy (w : List F32) : List F32 :=
  monotoneCopy (flipFor (upTo w 0x7BFF)) (positiveCodes w)
def negativeCopy (w : List F32) : List F32 :=
  monotoneCopy (flipFor !upTo w 0x7BFF) (negativeCodes w)

/-- The data of a half-domain channel from the domains of its halves, (0, 0) for none. -/
def halfInverseOf (w : List F32) : HalfInverse :=
  let p := (effectiveDomain (positiveCopy w)).getD (0, 0)
  let q := (effectiveDomain (negativeCopy w)).getD (0, 0)
  { isIncreasing := upTo w 0x7BFF
    flip := flipFor (upTo w 0x7BFF)
    startDomain := p.1
    endDomain := p.2
    negStartDomain := 0x8000 + q.1
    negEndDomain := 0x8000 + q.2
    bisectPoint := entry w 0
    uP := positiveCopy w
    uQ := negativeCopy w }

theorem halfData_halfInverseOf (w : List F32) : HalfData w (halfInverseOf w) := by
  simp only [HalfData, halfInverseOf, positiveCopy, negativeCopy, true_and, and_true]
  exact ⟨runningCopy_monotoneCopy _ _, halfEnds_effectiveDomain _, runningCopy_monotoneCopy _ _,
    _, _, halfEnds_effectiveDomain _, rfl, rfl⟩

theorem buildHalf_ok_iff {w : List F32} (hw : w.length = 65536) (d : HalfInverse) :
    buildHalf w = .ok d ↔ NoNaN (positiveCodes w ++ negativeCodes w) ∧
      ((∃ b e, effectiveDomain (positiveCopy w) = some (b, e)) ∨
        ∃ b e, effectiveDomain (negativeCopy w) = some (b, e)) ∧ halfInverseOf w = d := by
  have hflip : fneg (flipOf (upTo w 0x7BFF)) = flipFor !upTo w 0x7BFF := fneg_flipFor _
  have hup : fle (entry w 0) (entry w 0x7BFF) = upTo w 0x7BFF := rfl
  simp only [buildHalf, check_bind_ok, require_ok_iff, all_not_isNaN_iff, exists_and_left,
    exists_const, positiveHalf_eq_positiveCodes hw, negativeHalf_eq_negativeCodes hw, hup, hflip]
  refine and_congr_right fun _ => ?_
  simp only [halfInverseOf, positiveCopy, negativeCopy, flipOf_eq_flipFor]
  generalize monotoneCopy (flipFor (upTo w 0x7BFF)) (positiveCodes w) = uP
  generalize monotoneCopy (flipFor !upTo w 0x7BFF) (negativeCodes w) = uQ
  cases effectiveDomain uP <;> cases effectiveDomain uQ <;> simp [Prod.ext_iff]

theorem noNaN_append_iff (v w : List F32) : NoNaN (v ++ w) ↔ NoNaN v ∧ NoNaN w := by
  simp only [NoNaN, List.forall_mem_append]

theorem exists_buildHalf_iff {w : List F32} (hw : w.length = 65536) :
    (∃ d, buildHalf w = .ok d) ↔ InvertibleHalf w := by
  simp only [buildHalf_ok_iff hw, exists_and_left, exists_eq', and_true, noNaN_append_iff, and_assoc,
    InvertibleHalf]
  refine and_congr_right fun hpos => and_congr_right fun hneg => ?_
  rw [positiveCopy, negativeCopy, exists_effectiveDomain_monotoneCopy _ hpos,
    exists_effectiveDomain_monotoneCopy _ hneg]

theorem halfData_of_buildHalf {w : List F32} (hw : w.length = 65536) {d : HalfInverse}
    (h : buildHalf w = .ok d) : HalfData w d := by
  obtain ⟨-, -, rfl⟩ := (buildHalf_ok_iff hw d).1 h
  exact halfData_halfInverseOf w

/-! ### The three channels (R350) -/

theorem Rgb.check_ok_iff {α β : Type} (f : α → Check β) (x : Rgb α) (y : Rgb β) :
    Rgb.check f x = .ok y ↔ ∀ c, f (x.get c) = .ok (y.get c) := by
  constructor
  · intro h c
    obtain ⟨hr, hg, hb⟩ := rgb_check_ok f x y h
    cases c
    · exact hr
    · exact hg
    · exact hb
  · intro h
    have hr : f x.r = .ok y.r := h .r
    have hg : f x.g = .ok y.g := h .g
    have hb : f x.b = .ok y.b := h .b
    simp only [Rgb.check, hr, hg, hb, check_ok_bind, check_pure]

theorem Rgb.exists_check_iff {α β : Type} (f : α → Check β) (x : Rgb α) :
    (∃ y, Rgb.check f x = .ok y) ↔ ∀ c, ∃ z, f (x.get c) = .ok z := by
  simp only [Rgb.check_ok_iff]
  refine ⟨fun ⟨y, h⟩ c => ⟨y.get c, h c⟩, fun h => ?_⟩
  choose z hz using h
  exact ⟨⟨z .r, z .g, z .b⟩, fun c => by cases c <;> exact hz _⟩

theorem buildInverse_normal_ok_iff (v : Rgb (List F32)) (d : InverseData) :
    buildInverse false v = .ok d ↔ ∃ x, Rgb.check buildNormal v = .ok x ∧ .normal x = d :=
  check_map_ok ..

theorem buildInverse_half_ok_iff (v : Rgb (List F32)) (d : InverseData) :
    buildInverse true v = .ok d ↔ ∃ x, Rgb.check buildHalf v = .ok x ∧ .half x = d :=
  check_map_ok ..

/-- Settles O50: the channels one by one, a copy having a domain exactly where its table rises. -/
theorem inverseDataBuilt : Obligations.InverseDataBuilt := by
  intro v
  refine ⟨?normal_iff, ?normal_data, fun hlen => ⟨?half_iff, ?half_data⟩,
    fun half e h => buildInverse_error half v e h⟩
  case normal_iff =>
    simp only [← exists_buildNormal_iff, ← Rgb.exists_check_iff, buildInverse_normal_ok_iff]
    exact ⟨fun ⟨_, x, h, _⟩ => ⟨x, h⟩, fun ⟨x, h⟩ => ⟨_, x, h, rfl⟩⟩
  case normal_data =>
    intro d hd
    obtain ⟨x, hx, rfl⟩ := (buildInverse_normal_ok_iff v d).1 hd
    exact ⟨x, rfl, fun c => normalData_of_buildNormal ((Rgb.check_ok_iff _ v x).1 hx c)⟩
  case half_iff =>
    simp only [← exists_buildHalf_iff (hlen _), ← Rgb.exists_check_iff, buildInverse_half_ok_iff]
    exact ⟨fun ⟨_, x, h, _⟩ => ⟨x, h⟩, fun ⟨x, h⟩ => ⟨_, x, h, rfl⟩⟩
  case half_data =>
    intro d hd
    obtain ⟨x, hx, rfl⟩ := (buildInverse_half_ok_iff v d).1 hd
    exact ⟨x, rfl, fun c => halfData_of_buildHalf (hlen c) ((Rgb.check_ok_iff _ v x).1 hx c)⟩

/-! ### The search (R358) -/

theorem lowerBound_drop (u : List F32) (cv : F32) (stop : Nat) {k : Nat} (h : k < u.length) :
    lowerBound cv stop k (u.drop k) =
      if fle cv (entry u k) || stop ≤ k then k else lowerBound cv stop (k + 1) (u.drop (k + 1)) := by
  rw [drop_eq_entry_cons h, lowerBound]

/-- From an index on, the first one up to `stop` whose entry is not below `cv`, or `stop`. -/
theorem lowerBound_spec (u : List F32) (cv : F32) {start stop : Nat} (hle : start ≤ stop)
    (hstop : stop < u.length) :
    let k := lowerBound cv stop start (u.drop start)
    start ≤ k ∧ k ≤ stop ∧ (fle cv (entry u k) = true ∨ k = stop) ∧
      ∀ i, start ≤ i → i < k → fle cv (entry u i) = false := by
  induction hle using Nat.decreasingInduction with
  | self =>
    have hk : lowerBound cv stop stop (u.drop stop) = stop := by
      rw [lowerBound_drop u cv stop hstop, if_pos (by simp)]
    rw [hk]
    exact ⟨le_rfl, le_rfl, .inr rfl, fun i _ _ => by omega⟩
  | of_succ start hlt ih =>
    rw [lowerBound_drop u cv stop (by omega)]
    rcases Bool.eq_false_or_eq_true (fle cv (entry u start)) with hfound | hbelow
    · rw [if_pos (by simp [hfound])]
      exact ⟨le_rfl, hlt.le, .inl hfound, fun i _ _ => by omega⟩
    · rw [if_neg (by simp [hbelow, hlt])]
      obtain ⟨hstart, hend, hfound, hbefore⟩ := ih
      refine ⟨by omega, hend, hfound, fun i hi hik => ?_⟩
      rcases hi.eq_or_lt with rfl | hi
      · exact hbelow
      · exact hbefore i hi hik

/-- The ends of a domain that does not fall are in order. -/
theorem key_entry_le {u : List F32} {b e : Nat} (hle : b ≤ e)
    (h : ∀ i, b ≤ i → i < e → fle (entry u i) (entry u (i + 1)) = true) :
    key (entry u b) ≤ key (entry u e) := by
  induction e, hle using Nat.le_induction with
  | base => exact le_rfl
  | succ e hbe ih =>
    obtain ⟨-, -, hkey⟩ := (fle_iff _ _).1 (h e hbe e.lt_succ_self)
    exact (ih fun i hi hie => h i hi (by omega)).trans hkey

/-- The index that a search takes its two neighbours from. -/
def searchIndex (u : List F32) (start stop : Nat) (t : F32) : Nat :=
  lowerBound (clampf t (entry u start) (entry u stop)) stop start (u.drop start)

theorem search_of_searchIndex_eq {u : List F32} {start stop : Nat} {t : F32}
    (h : searchIndex u start stop t = start) : search u start stop t = ⟨start, start, zero⟩ :=
  if_neg (not_lt.2 h.le)

theorem search_of_lt_searchIndex {u : List F32} {start stop k : Nat} {t : F32}
    (h : searchIndex u start stop t = k) (hlt : start < k) :
    search u start stop t = ⟨k - 1, k, fdiv
      (fsub (clampf t (entry u start) (entry u stop)) (entry u (k - 1)))
      (fsub (entry u k) (entry u (k - 1)))⟩ := by
  subst h
  exact if_pos hlt

/-- Settles O51: the clamped value is at most the domain's last entry, so the lower bound is an entry
that is not below it. -/
theorem searchBrackets : Obligations.SearchBrackets := by
  intro u b e t hbe he hnum hmono cv f
  obtain ⟨hcv, -, hcve⟩ := clampf_bounds t _ _ (hnum b le_rfl hbe) (hnum e hbe le_rfl)
    (key_entry_le hbe hmono)
  have hlast : fle cv (entry u e) = true := (fle_iff _ _).2 ⟨hcv, hnum e hbe le_rfl, hcve⟩
  obtain ⟨hbk, hke, hfound, hbefore⟩ := lowerBound_spec u cv hbe he
  obtain ⟨k, hk⟩ : ∃ k, searchIndex u b e t = k := ⟨_, rfl⟩
  rw [show lowerBound cv e b (u.drop b) = k from hk] at hbk hke hfound hbefore
  have habove : fle cv (entry u k) = true := hfound.elim id fun h => h ▸ hlast
  rcases hbk.eq_or_lt with rfl | hlt
  · rw [show f = _ from search_of_searchIndex_eq hk]
    exact .inl ⟨rfl, rfl, rfl, habove⟩
  · rw [show f = _ from search_of_lt_searchIndex hk hlt]
    have hsucc : k = k - 1 + 1 := by omega
    refine .inr ⟨Nat.le_sub_one_of_lt hlt, hsucc, hke, habove, fun i hi hik => ?_, rfl⟩
    have hik : i ≤ k - 1 := hik
    exact flt_of_not_fle hcv (hnum i hi (by omega)) (hbefore i hi (by omega))

end Sys2Proof.Machine
end

section
/-!
The tone curves channel by channel, and what the reference functions and the OPEN curves keep
(46_tone_curves.md R400 to R412 and R416).
-/
namespace Sys2Proof.Machine

/-! ### The constants of ST 2084 (R408, R409): the model writes them as quotients of integers -/

theorem pqM1_eq : pqM1 = fl32 0.1593017578125 := congrArg fl32 (by norm_num)

theorem pqM2_eq : pqM2 = fl32 78.84375 := congrArg fl32 (by norm_num)

theorem pqC1_eq : pqC1 = fl32 0.8359375 := congrArg fl32 (by norm_num)

theorem pqC2_eq : pqC2 = fl32 18.8515625 := congrArg fl32 (by norm_num)

theorem pqC3_eq : pqC3 = fl32 18.6875 := congrArg fl32 (by norm_num)

theorem pqIm1_eq : pqIm1 = fl32 (1 / 0.1593017578125) := congrArg fl32 (by norm_num)

theorem pqIm2_eq : pqIm2 = fl32 (1 / 78.84375) := congrArg fl32 (by norm_num)

/-! ### The formulas -/

/-- Settles O54: the PQ curves are the model's once the constants are decimals; every other style
applies its rule's operations as the model has them. -/
theorem curveFormulas : Obligations.CurveFormulas := by
  intro u x y atLeast surroundOf tone m1 m2 c1 c2 c3 im1 im2 pq pqInv
  have hpq : linToPq = pq := by
    funext c
    rw [linToPq, linToPqWith, pqM1_eq, pqM2_eq, pqC1_eq, pqC2_eq, pqC3_eq]
    rfl
  have hpqInv : pqToLin = pqInv := by
    funext c
    rw [pqToLin, pqToLinWith, pqC1_eq, pqC2_eq, pqC3_eq, pqIm1_eq, pqIm2_eq]
    rfl
  refine ⟨rfl, rfl, ?_⟩
  show curveRgb u x.rgb = _
  rw [← hpq, ← hpqInv]
  unfold curveRgb
  cases u.style with
  | darkToDimFwd | darkToDimInv | rec2100Fwd | rec2100Inv => rfl
  | linToPq | pqToLin => rfl
  | linToGammaLog | gammaLogToLin | linToDoubleLog | doubleLogToLin => rfl
  | tonescale => rfl

/-! ### What the functions keep -/

/-- A surround with exponent 0 scales by 1.0 whatever the luminance, which is a finite number or +Inf
(R406, R416(b)). -/
theorem surround_zero_exponent (w x : Rgb F32) (hr : isNaN x.r = false) (hg : isNaN x.g = false)
    (hb : isNaN x.b = false) : surround w zero x = x := by
  have hfac : refPow (luminance w x) zero = one :=
    refPow_zero_right _ _ (luminance_cases w x) (by decide)
  simp [surround, hfac, Rgb.map, fmul_one_right, hr, hg, hb]

theorem curveEval_rec2100Fwd (u : CrvUnit) (x : Quad) (h : u.style = .rec2100Fwd) :
    curveEval u x = (surround r2100W u.p[0] x.rgb).withAlpha x.a := by
  unfold curveEval curveRgb
  rw [h]

/-- Settles O55: the exact points are those of `exactPow`, the bounds and the round trips are what the
type of each field holds, and the surround with exponent 0 scales by 1.0. -/
theorem curveFunctionsMeetRequirements : Obligations.CurveFunctionsMeetRequirements := by
  refine ⟨fun x y hx => ⟨fun hy => ?powZero, refPow_zero_left y⟩,
    ⟨refMath.powPrecise, refLogs.log2Precise, refLogs.logPrecise⟩,
    refMath.pqRoundTrip, gammaLog.roundTrip, doubleLog.roundTrip,
    fun u x hstyle hp hr hg hb => ?identity⟩
  case powZero =>
    exact refPow_zero_right x y hx ((feq_zero_iff y).1 hy)
  case identity =>
    rw [curveEval_rec2100Fwd u x hstyle, hp]
    exact congrArg (·.withAlpha x.a) (surround_zero_exponent r2100W x.rgb hr hg hb)

end Sys2Proof.Machine
end

section
/-!
How every command ends: it completes with its effect, it is HALT, or it enters an error that it can
raise, with no effect but that of a failing UPD on its own unit (60_exceptions.md R460, R465, R470,
R471).
-/
namespace Sys2Proof.Machine

open Sys2Proof.Safety

/-! ### The ends of a command -/

/-- The command completes: its effect, and `cp` advanced. -/
def Completes (i : Instr) (s t : State) : Prop := i ≠ .halt ∧ ∃ u, Effect s i u ∧ t = u.advance

/-- The command is HALT and ends the run. -/
def Halts (i : Instr) (s t : State) : Prop :=
  i = .halt ∧ t = { s with status := s.status.halted }

/-- The command enters an error that it can raise; it has no effect and is no UPD. -/
def Fails (i : Instr) (s t : State) : Prop :=
  (∀ id, i ≠ updOf id) ∧ ∃ e : Error, (e.name.code ∈ raises i ∨ i.wellFormed = false) ∧
    t = errorEntry e s

/-- The command is an UPD and enters an error that it can raise; only its unit changes. -/
def FailsUpdate (i : Instr) (s t : State) : Prop :=
  ∃ (id : UnitId) (e : Error), i = updOf id ∧ e.name.code ∈ raises i ∧
    failedUpdate id e.name.code e.info s t

/-- The four ends of a command. Unlike `Answers`, they say that an error comes without an effect, but
for a failing UPD's own unit, and which errors the command can raise. -/
def EndsIn (i : Instr) (s t : State) : Prop :=
  Completes i s t ∨ Halts i s t ∨ Fails i s t ∨ FailsUpdate i s t

/-- `r` is a next state in which the command ends. -/
def EndsWell (i : Instr) (s : State) (r : Result) : Prop := ∃ t, r = .next t ∧ EndsIn i s t

/-- The codes of the errors that a check names are those that the command can raise. -/
theorem code_mem_raises {i : Instr} {e : Error} {names : List ErrName} (he : e.name ∈ names)
    (h : raises i = names.map ErrName.code) : e.name.code ∈ raises i :=
  h ▸ List.mem_map_of_mem he

/-! ### NOP and HALT (47_control.md R443, R444) -/

theorem exec_nop (s : State) : exec .nop s = .next s.advance := rfl

theorem exec_halt (s : State) : exec .halt s = .next { s with status := s.status.halted } := rfl

/-- Settles O16: the two end states written out. -/
theorem nopAndHalt : Obligations.NopAndHalt := fun s => ⟨exec_nop s, exec_halt s⟩

/-! ### Commands that cannot fail -/

theorem setVreg_endsWell {i : Instr} {r : VReg} (s : State) (q : Quad) (hi : i ≠ .halt)
    (hr : r ∈ destinations i) : EndsWell i s (.next (s.setVreg r q).advance) :=
  ⟨_, rfl, .inl ⟨hi, _, .vector (.none i) r q hr, rfl⟩⟩

/-! ### Checked commands -/

theorem ne_updOf {i : Instr} (hmat : i ≠ .updMat) (hlog : i ≠ .updLog) (hlut : i ≠ .updLut)
    (hcrv : i ≠ .updCrv) : ∀ id, i ≠ updOf id
  | .mat => hmat
  | .log => hlog
  | .lut => hlut
  | .crv => hcrv

theorem finish_endsWell {i : Instr} {c : Check State} {s : State} (hi : i ≠ .halt)
    (hupd : ∀ id, i ≠ updOf id) (hok : ∀ u, c = .ok u → Effect s i u)
    (herr : ∀ e, c = .error e → e.name.code ∈ raises i ∨ i.wellFormed = false) :
    EndsWell i s (finish c s) := by
  cases c with
  | ok u => exact ⟨_, finish_ok s u, .inl ⟨hi, u, hok u rfl, rfl⟩⟩
  | error e => exact ⟨_, finish_error s e, .inr (.inr (.inl ⟨hupd, e, herr e rfl, rfl⟩))⟩

/-- WRCFG raises only at an index that no encoding has (30_encoding.md R105). -/
theorem wellFormed_of_writeCfg_error {va : VReg} {index : BitVec 4} {s : State} {e : Error}
    (h : writeCfg va index s = .error e) : (Instr.wrcfg va index).wellFormed = false := by
  obtain ⟨c, -, hc⟩ | ⟨hlt, -⟩ := writeCfg_cases va index s
  · cases hc.symm.trans h
  · exact decide_eq_false (by omega)

theorem exec_wrcfg_endsWell (va : VReg) (index : BitVec 4) (s : State) :
    EndsWell (.wrcfg va index) s (exec (.wrcfg va index) s) :=
  finish_endsWell nofun (ne_updOf nofun nofun nofun nofun) (writeCfg_effect va index s)
    fun _ h => .inr (wellFormed_of_writeCfg_error h)

/-! ### The errors that the checks of a command name (60_exceptions.md R465) -/

theorem loadVector_error_name {vd : VReg} {imm : BitVec 14} {s : State} {e : Error}
    (h : loadVector vd imm s = .error e) : e.name ∈ [ErrName.align, .bus] := by
  obtain ⟨q, hq⟩ | ⟨e', he', hname⟩ := loadVector_cases vd imm s
  · cases hq.symm.trans h
  · cases he'.symm.trans h
    simpa using hname

theorem storeVector_error_name {va : VReg} {imm : BitVec 14} {s : State} {e : Error}
    (h : storeVector va imm s = .error e) : e.name ∈ [ErrName.align, .bus] := by
  obtain ⟨-, -, hq⟩ | ⟨e', he', hname⟩ := storeVector_cases va imm s
  · cases hq.symm.trans h
  · cases he'.symm.trans h
    simpa using hname

theorem unitVector_error_name {u : UnitInfo} {f : Quad → Lanes ChanOut} {vd va : VReg} {s : State}
    {e : Error} (h : unitVector u f vd va s = .error e) : e.name ∈ [ErrName.notConfigured] := by
  obtain ⟨q, hq⟩ | ⟨e', he', hname⟩ := unitVector_cases u f vd va s
  · cases hq.symm.trans h
  · cases he'.symm.trans h
    simpa using hname

theorem applyFrame_error_name {u : UnitInfo} {f : Quad → Lanes ChanOut} {s : State} {e : Error}
    (h : applyFrame u f s = .error e) :
    e.name ∈ [ErrName.notConfigured, .npix, .align, .bus, .overlap, .codeRange] := by
  obtain ⟨n, -, hq⟩ | ⟨e', hchecks, he'⟩ := applyFrame_cases u f s
  · cases hq.symm.trans h
  · cases he'.symm.trans h
    exact applyChecks_error u s e hchecks

/-! ### The configuration of a unit -/

theorem configureRaises_code {id : UnitId} {s : State} {e : Error} (h : ConfigureRaises id s e) :
    e.name.code ∈ raises (updOf id) := by
  cases id with
  | mat => exact code_mem_raises (configureMat_error_name s e h) rfl
  | log => exact code_mem_raises (configureLog_error_name s e h) rfl
  | lut => exact code_mem_raises (configureLut_error_name s e h) rfl
  | crv => exact code_mem_raises (configureCrv_error_name s e h) rfl

/-- A UPD whose configuration raises nothing completes with its unit configured. -/
theorem exec_updOf_cases (id : UnitId) (s : State) :
    (∃ e, ConfigureRaises id s e) ∨ ∃ u, exec (updOf id) s = .next u.advance ∧ Effect s (updOf id) u := by
  cases id with
  | mat =>
    cases h : configureMat s with
    | error e => exact .inl ⟨e, h⟩
    | ok unit => exact .inr ⟨_, by rw [updOf, exec_updMat, execUpdMat, h], .mat unit s.free⟩
  | log =>
    cases h : configureLog s with
    | error e => exact .inl ⟨e, h⟩
    | ok unit => exact .inr ⟨_, by rw [updOf, exec_updLog, execUpdLog, h], .log _ _⟩
  | lut =>
    cases h : configureLut s with
    | error e => exact .inl ⟨e, h⟩
    | ok unit =>
      exact .inr ⟨_, by rw [updOf, exec_updLut, execUpdLut, h],
        .lut unit s.free (configureLut_ok s unit h)⟩
  | crv =>
    cases h : configureCrv s with
    | error e => exact .inl ⟨e, h⟩
    | ok unit => exact .inr ⟨_, by rw [updOf, exec_updCrv, execUpdCrv, h], .crv _ _⟩

theorem exec_updOf_endsWell (id : UnitId) (s : State) :
    EndsWell (updOf id) s (exec (updOf id) s) := by
  obtain ⟨e, he⟩ | ⟨u, hu, heffect⟩ := exec_updOf_cases id s
  · obtain ⟨t, ht, hfailed⟩ := exec_upd_of_raises he
    exact ⟨t, ht, .inr (.inr (.inr ⟨id, e, rfl, configureRaises_code he, hfailed⟩))⟩
  · exact ⟨_, hu, .inl ⟨by cases id <;> nofun, u, heffect, rfl⟩⟩

/-! ### The vector accesses and the two forms of a unit command -/

theorem exec_vld_endsWell (vd : VReg) (imm : BitVec 14) (s : State) :
    EndsWell (.vld vd imm) s (exec (.vld vd imm) s) :=
  finish_endsWell nofun (ne_updOf nofun nofun nofun nofun) (loadVector_effect vd imm s)
    fun _ h => .inl (code_mem_raises (loadVector_error_name h) rfl)

theorem exec_vst_endsWell (va : VReg) (imm : BitVec 14) (s : State) :
    EndsWell (.vst va imm) s (exec (.vst va imm) s) :=
  finish_endsWell nofun (ne_updOf nofun nofun nofun nofun) (storeVector_effect va imm s)
    fun _ h => .inl (code_mem_raises (storeVector_error_name h) rfl)

theorem exec_vectorOf_endsWell (id : UnitId) (vd va : VReg) (s : State) :
    EndsWell (vectorOf id vd va) s (exec (vectorOf id vd va) s) := by
  rw [exec_vectorOf]
  refine finish_endsWell ?_ ?_ (unitVector_effect id _ _ vd va s)
    fun e h => .inl (code_mem_raises (unitVector_error_name h) ?_)
  · cases id <;> nofun
  · cases id <;> exact ne_updOf nofun nofun nofun nofun
  · cases id <;> rfl

theorem exec_applyOf_endsWell (id : UnitId) (s : State) :
    EndsWell (applyOf id) s (exec (applyOf id) s) := by
  rw [exec_applyOf]
  refine finish_endsWell ?_ ?_ (applyFrame_effect id _ s)
    fun e h => .inl (code_mem_raises (applyFrame_error_name h) ?_)
  · cases id <;> nofun
  · cases id <;> exact ne_updOf nofun nofun nofun nofun
  · cases id <;> rfl

/-! ### Every command -/

/-- Every command answers a next state in which it ends. -/
theorem exec_endsWell (i : Instr) (s : State) : EndsWell i s (exec i s) := by
  have hd {vd : VReg} {l : List VReg} : vd ∈ vd :: l := List.mem_cons_self
  cases i with
  | nop => exact ⟨_, exec_nop s, .inl ⟨nofun, s, .none _, rfl⟩⟩
  | halt => exact ⟨_, exec_halt s, .inr (.inl ⟨rfl, rfl⟩)⟩
  | wrcfg va index => exact exec_wrcfg_endsWell va index s
  | vld vd imm => exact exec_vld_endsWell vd imm s
  | vst va imm => exact exec_vst_endsWell va imm s
  | vlog2 vd va => exact setVreg_endsWell s _ nofun hd
  | vexp2 vd va => exact setVreg_endsWell s _ nofun hd
  | vpow vd va vb => exact setVreg_endsWell s _ nofun hd
  | vsin vd va => exact setVreg_endsWell s _ nofun hd
  | vcos vd va => exact setVreg_endsWell s _ nofun hd
  | vsincos vd va vb =>
    exact ⟨_, rfl, .inl ⟨nofun, _,
      ((Effect.none _).vector vd _ hd).vector vb _ (by simp [destinations]), rfl⟩⟩
  | vatan vd va => exact setVreg_endsWell s _ nofun hd
  | vatan2 vd va vb => exact setVreg_endsWell s _ nofun hd
  | updMat => exact exec_updOf_endsWell .mat s
  | applyMat => exact exec_applyOf_endsWell .mat s
  | vmat vd va => exact exec_vectorOf_endsWell .mat vd va s
  | updLog => exact exec_updOf_endsWell .log s
  | applyLog => exact exec_applyOf_endsWell .log s
  | vlogk vd va => exact exec_vectorOf_endsWell .log vd va s
  | updLut => exact exec_updOf_endsWell .lut s
  | applyLut => exact exec_applyOf_endsWell .lut s
  | vlut vd va => exact exec_vectorOf_endsWell .lut vd va s
  | updCrv => exact exec_updOf_endsWell .crv s
  | applyCrv => exact exec_applyOf_endsWell .crv s
  | vcrv vd va => exact exec_vectorOf_endsWell .crv vd va s

theorem exec_endsIn {i : Instr} {s t : State} (h : exec i s = .next t) : EndsIn i s t := by
  obtain ⟨t', ht', hends⟩ := exec_endsWell i s
  cases ht'.symm.trans h
  exact hends

/-! ### What the ends leave as it was -/

/-- The effect of a command leaves `cp`, STATUS and the error registers to its end. -/
theorem Effect.keeps_control {i : Instr} {s u : State} (h : Effect s i u) :
    u.cp = s.cp ∧ u.status = s.status ∧ u.errCp = s.errCp ∧ u.errInfo = s.errInfo := by
  induction h with
  | vector _ _ _ _ ih => exact ih
  | none | cfg | store | mat | log | lut | crv => exact ⟨rfl, rfl, rfl, rfl⟩

/-- A failed UPD enters the error as any command does (60_exceptions.md R470). -/
theorem failedUpdate_control {id : UnitId} {code : BitVec 8} {info : Word} {s t : State}
    (h : failedUpdate id code info s t) :
    t.cp = s.cp ∧ t.errCp = cpWord s.cp ∧ t.status = ⟨false, s.status.done, true, code⟩ := by
  cases id <;> obtain ⟨_, -, rfl⟩ := h <;> exact ⟨rfl, rfl, rfl⟩

/-- Settles O56: the three ways are the ends of the command. -/
theorem everyCommandAnswersNext : Obligations.EveryCommandAnswersNext := by
  intro i s
  obtain ⟨t, ht, hends⟩ := exec_endsWell i s
  refine ⟨t, ht, ?_⟩
  obtain hcompletes | hhalts | hfails | hfailsUpdate := hends
  · obtain ⟨hi, u, hu, rfl⟩ := hcompletes
    obtain ⟨hcp, hstatus, herrCp, herrInfo⟩ := hu.keeps_control
    exact .inl ⟨hi, congrArg (· + 4) hcp, hstatus, herrCp, herrInfo⟩
  · obtain ⟨rfl, rfl⟩ := hhalts
    exact .inr (.inl ⟨rfl, rfl, rfl, rfl, rfl⟩)
  · obtain ⟨-, e, he, rfl⟩ := hfails
    exact .inr (.inr ⟨rfl, rfl, rfl, rfl, rfl, he⟩)
  · obtain ⟨id, e, -, he, hfailed⟩ := hfailsUpdate
    obtain ⟨hcp, herrCp, hstatus⟩ := failedUpdate_control hfailed
    rw [hstatus]
    exact .inr (.inr ⟨hcp, herrCp, rfl, rfl, rfl, .inl he⟩)

/-- Settles O57: with ERR clear before, a command that completes or halts leaves it clear; an error
comes without an effect, but for the unit of a failing UPD. -/
theorem errorsArePrecise : Obligations.ErrorsArePrecise := by
  intro i s t hclear hexec herr
  obtain hcompletes | hhalts | hfails | hfailsUpdate := exec_endsIn hexec
  · obtain ⟨-, u, hu, rfl⟩ := hcompletes
    obtain ⟨-, hstatus, -, -⟩ := hu.keeps_control
    rw [advance_status, hstatus, hclear] at herr
    cases herr
  · obtain ⟨-, rfl⟩ := hhalts
    rw [halted_err, hclear] at herr
    cases herr
  · obtain ⟨hupd, e, -, rfl⟩ := hfails
    have hmat : i ≠ .updMat := hupd .mat
    have hlog : i ≠ .updLog := hupd .log
    have hlut : i ≠ .updLut := hupd .lut
    have hcrv : i ≠ .updCrv := hupd .crv
    rw [if_neg hmat, if_neg hlog, if_neg hlut, if_neg hcrv]
    exact ⟨rfl, rfl, rfl, rfl, rfl, rfl, rfl, rfl, rfl, rfl, rfl, rfl, rfl, rfl, rfl, rfl, rfl⟩
  · obtain ⟨id, e, rfl, -, hfailed⟩ := hfailsUpdate
    cases id <;> obtain ⟨unit, hunit, rfl⟩ := hfailed <;> simp [updOf, erring, hunit]

end Sys2Proof.Machine
end

section
/-!
The engine's turn: while idle and in a run, the outcomes of the command fetch, and that every run ends
(47_control.md R440 to R442, R445; 70_reset_and_hazards.md R502).
-/
namespace Sys2Proof.Machine

open Sys2Proof.Safety

/-! ### Who acts in a step -/

theorem step_no_input (s : State) (h : s.inputs = []) : step s = engineTurn s := by
  unfold step; rw [h]

theorem step_engine (s : State) (rest : List Input) (h : s.inputs = .engine :: rest) :
    step s = engineTurn { s with inputs := rest } := by
  unfold step; rw [h]

theorem engineTurn_idle (s : State) (h : s.status.busy = false) : engineTurn s = .next s :=
  if_neg (ne_true_of_eq_false h)

theorem engineTurn_busy (s : State) (h : s.status.busy = true) : engineTurn s = engineCommand s :=
  if_pos h

/-- Settles O8: an idle turn is no move, whoever scheduled it. -/
theorem idleEngineKeepsState : Obligations.IdleEngineKeepsState := by
  intro s hidle
  refine ⟨fun h => ?_, fun rest h => ?_⟩
  · rw [step_no_input s h, engineTurn_idle s hidle]
  · rw [step_engine s rest h]
    exact engineTurn_idle { s with inputs := rest } hidle

/-! ### The command of a run -/

/-- A turn of a run ends in error entry from the fetch or the decode, or executes the command. -/
theorem engineCommand_cases (s : State) :
    (∃ e, engineCommand s = .next (errorEntry e s)) ∨
      ∃ w i, fetch s = .ok w ∧ decode w = .ok i ∧ engineCommand s = exec i s := by
  cases hfetch : fetch s with
  | error e => exact .inl ⟨e, by simp [engineCommand, hfetch]⟩
  | ok w =>
    cases hdec : decode w with
    | error e => exact .inl ⟨⟨.illegal, w⟩, by simp [engineCommand, hfetch, hdec]⟩
    | ok i => exact .inr ⟨w, i, rfl, hdec, by simp [engineCommand, hfetch, hdec]⟩

theorem engineTurn_of_decoded {s : State} {i : Instr} (hbusy : s.status.busy = true)
    (hmap : inBounds s.memMap s.cp.toNat 4 = true)
    (hclean : s.ws.meets s.cp.toNat (s.cp.toNat + 4) = false)
    (hdec : decode (readWord s.mem s.cp.toNat) = .ok i) : engineTurn s = exec i s := by
  simp only [engineTurn_busy s hbusy, engineCommand, fetch_clean s hmap hclean, hdec]

/-- Settles O5: the engine's turn, at the state with its entry of `inputs` used up. -/
theorem stepRunsDecodedCommand : Obligations.StepRunsDecodedCommand := by
  intro s i hbusy hmap hclean hdec
  refine ⟨fun h => ?_, fun rest h => ?_⟩
  · rw [step_no_input s h]
    exact engineTurn_of_decoded hbusy hmap hclean hdec
  · rw [step_engine s rest h]
    exact engineTurn_of_decoded (s := { s with inputs := rest }) hbusy hmap hclean hdec

/-! ### The command fetch (R442; 20_memory.md R83) -/

theorem Ranges.meets_eq_false_iff (r : Ranges) (lo hi : Nat) :
    r.meets lo hi = false ↔ ∀ x, lo ≤ x → x < hi → r.mem x = false := by
  rw [← Bool.not_eq_true, Ranges.meets_iff]
  simp only [not_exists, not_and, Bool.not_eq_true]

/-- A fetch that leaves the space or the map enters ERR_BUS. -/
theorem step_fetch_unmapped (s : State) (hin : s.inputs = []) (hbusy : s.status.busy = true)
    (h : 2 ^ 32 < s.cp.toNat + 4 ∨
      ∃ x, s.cp.toNat ≤ x ∧ x < s.cp.toNat + 4 ∧ s.memMap.mem x = false) :
    step s = .next (erring 0x03 (cpWord s.cp) s) := by
  have hmap : inBounds s.memMap s.cp.toNat 4 = false := by
    rw [inBounds_eq_false_iff]
    rintro ⟨hle, hall⟩
    obtain hlt | ⟨x, hlo, hhi, habsent⟩ := h
    · omega
    · rw [hall x hlo hhi] at habsent
      cases habsent
  exact step_of_fetch_error s _ hin hbusy (fetch_unmapped s hmap)

/-- Settles O6: the bounds, then the write set, then the word by its bytes. -/
theorem fetchOutcome : Obligations.FetchOutcome := by
  intro s lo
  refine ⟨fun hin hbusy => ⟨fun htop => ?top, fun hlt habsent => ?bus, fun hle hall hmeets => ?smc⟩,
    fun hle hall hclean => ?word⟩
  case top =>
    exact ⟨_, _, step_fetch_unmapped s hin hbusy (.inl (show 2 ^ 32 < lo + 4 by omega))⟩
  case bus =>
    rw [← cpWord_of_lt s.cp hlt]
    exact step_fetch_unmapped s hin hbusy habsent
  case smc =>
    have hfetch := fetch_written s ((inBounds_iff _ _ _).2 ⟨hle, hall⟩)
      ((Ranges.meets_iff _ _ _).2 hmeets)
    rw [cpWord_of_lt s.cp (show lo < 2 ^ 32 by omega)] at hfetch
    exact step_of_fetch_error s _ hin hbusy hfetch
  case word =>
    rw [fetch_clean s ((inBounds_iff _ _ _).2 ⟨hle, hall⟩) ((Ranges.meets_eq_false_iff _ _ _).2 hclean),
      readWord_eq_append]

/-! ### Every run ends (47_control.md R440) -/

/-- A turn of a run goes on to the next command of the space, or ends the run. -/
theorem engineCommand_advances_or_idle (s : State) :
    ∃ t, engineCommand s = .next t ∧
      (t.status.busy = false ∨
        (s.cp.toNat + 4 ≤ 2 ^ 32 ∧ t.cp = s.cp + 4 ∧ t.inputs = s.inputs)) := by
  obtain ⟨e, he⟩ | ⟨w, i, hfetch, -, hexec⟩ := engineCommand_cases s
  · exact ⟨_, he, .inl rfl⟩
  · obtain ⟨t, ht, hends⟩ := exec_endsWell i s
    refine ⟨t, hexec.trans ht, ?_⟩
    obtain ⟨-, u, hu, rfl⟩ | ⟨-, rfl⟩ | ⟨-, e, -, rfl⟩ | ⟨id, e, -, -, hfailed⟩ := hends
    · obtain ⟨hcp, -, -, -⟩ := hu.keeps_control
      exact .inr ⟨fetch_ok_le s w hfetch, congrArg (· + 4) hcp, hu.framed.inputs⟩
    · exact .inl rfl
    · exact .inl rfl
    · obtain ⟨-, -, hstatus⟩ := failedUpdate_control hfailed
      exact .inl (congrArg Status.busy hstatus)

/-- So does a step in which the engine acts. -/
theorem step_advances_or_idle (s : State) (hin : s.inputs = []) :
    ∃ t, step s = .next t ∧
      (t.status.busy = false ∨
        (s.cp.toNat + 4 ≤ 2 ^ 32 ∧ t.cp = s.cp + 4 ∧ t.inputs = s.inputs)) := by
  rw [step_no_input s hin]
  cases hbusy : s.status.busy with
  | false => exact ⟨s, engineTurn_idle s hbusy, .inl hbusy⟩
  | true =>
    rw [engineTurn_busy s hbusy]
    exact engineCommand_advances_or_idle s

theorem run_succ_of_step {s t : State} (k : Nat) (h : step s = .next t) :
    Host.Core.run Sys2Proof.core (k + 1) s = Host.Core.run Sys2Proof.core k t := by
  have hcore : Sys2Proof.core.step s = .next t := h
  simp only [Host.Core.run, hcore]

/-- With at most `n` commands between `cp` and the end of the space, a run has at most `n + 1` turns:
the last one's fetch would leave the space. -/
theorem run_reaches_idle (n : Nat) (s : State) (hin : s.inputs = [])
    (hspace : 2 ^ 32 ≤ s.cp.toNat + 4 * n) :
    ∃ (k : Nat) (t : State), k ≤ n + 1 ∧ Host.Core.run Sys2Proof.core k s = .next t ∧
      t.status.busy = false := by
  induction n using Nat.strongRecOn generalizing s with
  | ind n ih =>
    obtain ⟨t, hstep, hidle | ⟨hle, hcp, hinputs⟩⟩ := step_advances_or_idle s hin
    · exact ⟨1, t, by omega, run_succ_of_step 0 hstep, hidle⟩
    · have hnext : t.cp.toNat = s.cp.toNat + 4 := by rw [hcp, toNat_add_four s.cp hle]
      obtain ⟨k, t', hk, hrun, hidle⟩ :=
        ih (n - 1) (by omega) t (hinputs.trans hin) (by omega)
      exact ⟨k + 1, t', by omega, (run_succ_of_step k hstep).trans hrun, hidle⟩

/-- Settles O60: the space holds 2^30 commands, whatever the state; the invariant adds nothing. -/
theorem everyRunEnds : Obligations.EveryRunEnds :=
  fun s _ hin => run_reaches_idle (2 ^ 30) s hin (by omega)

end Sys2Proof.Machine
end

section
/-!
What a reset gives, between commands and during one (70_reset_and_hazards.md R500, R501).
-/
namespace Sys2Proof.Machine

open Sys2Proof.Safety

theorem step_reset (s : State) (mid : Bool) (rest : List Input)
    (h : s.inputs = .host (.reset mid) :: rest) :
    step s = .next (if mid then resetDuringCommand { s with inputs := rest }
      else resetInstance { s with inputs := rest }) :=
  step_host s _ rest h

theorem word_status_reset : State.reset.status.word = 0 := by decide

/-- No register of the block has another reset value than 0. -/
theorem hostRead_resetInstance (s : State) (index : Fin 64) : hostRead (resetInstance s) index = 0 := by
  unfold hostRead
  split
  · exact word_status_reset
  all_goals rfl

theorem atReset_resetInstance (s : State) : atReset (resetInstance s) := by
  refine ⟨fun i => ?_, rfl, rfl, hostRead_resetInstance s, rfl, rfl, rfl, rfl, rfl, rfl, rfl, rfl,
    fun _ => rfl⟩
  simp [State.reset]

/-- The machine's reset state is what a reset makes of it. -/
theorem resetInstance_reset : resetInstance State.reset = State.reset := rfl

/-- Settles O13: both states are a `resetInstance`. -/
theorem resetValues : Obligations.ResetValues := by
  refine ⟨?_, fun s rest h => ?_⟩
  · rw [← resetInstance_reset]
    exact atReset_resetInstance _
  · exact ⟨_, step_reset s false rest h, atReset_resetInstance _, rfl, rfl, rfl⟩

theorem byte_scramble_outside (m : Memory) (free a n x : Nat) (h : ¬(a ≤ x ∧ x < a + n)) :
    (scramble m free a n).byte x = m.byte x := by
  refine Memory.byte_setBytes_outside _ _ _ _ ?_
  rw [List.length_map, List.length_range]
  omega

/-- The schedule has no say in what a reset interrupts. -/
theorem interruptedTarget_with_inputs (s : State) (rest : List Input) :
    interruptedTarget { s with inputs := rest } = interruptedTarget s := rfl

end Sys2Proof.Machine

namespace Sys2Proof

open Sys2Proof.Machine

/-- Settles O14: the state is reset after its memory is scrambled over the interrupted target. -/
theorem resetDuringCommand : Obligations.ResetDuringCommand := by
  intro s rest h
  refine ⟨_, step_reset s true rest h, atReset_resetInstance _, rfl, rfl, fun a ha => ?_⟩
  rw [← interruptedTarget_with_inputs s rest] at ha
  exact byte_scramble_outside s.mem s.free _ _ a ha

end Sys2Proof
end

section
/-!
An APPLY or a vector command of a unit behaves alike whatever the registers that only an UPD reads
hold: its depths are latched and its descriptor is a snapshot (70_reset_and_hazards.md R508, R509).
-/
namespace Sys2Proof.Machine

open Sys2Proof.Safety

/-- The state with other values of the three registers that only an UPD reads. -/
def State.withUpdRegisters (inBd outBd opdataPtr : Word) (s : State) : State :=
  { s with cfg := { s.cfg with inBd := inBd, outBd := outBd, opdataPtr := opdataPtr } }

section
variable (x y z : Word) (s : State)

/-! ### What does not depend on the registers -/

theorem infoOf_withUpdRegisters (id : UnitId) : infoOf id (s.withUpdRegisters x y z) = infoOf id s := by
  cases id <;> rfl

theorem unitFun_withUpdRegisters (id : UnitId) (od : BitDepth) :
    unitFun id od (s.withUpdRegisters x y z) = unitFun id od s := by
  cases id <;> rfl

theorem applyChecks_withUpdRegisters (u : UnitInfo) :
    applyChecks u (s.withUpdRegisters x y z) = applyChecks u s := rfl

/-! ### The change of the registers and the two forms of a unit command -/

theorem applyFrame_withUpdRegisters (u : UnitInfo) (f : Quad → Lanes ChanOut) :
    applyFrame u f (s.withUpdRegisters x y z) =
      (applyFrame u f s).map (State.withUpdRegisters x y z) := by
  have hchecks := applyChecks_withUpdRegisters x y z s u
  obtain ⟨n, hn, hok⟩ | ⟨e, he, herr⟩ := applyFrame_cases u f s
  · rw [hok, applyFrame_ok u f _ n (hchecks.trans hn)]
    rfl
  · rw [herr, applyFrame_error u f _ e (hchecks.trans he)]
    rfl

theorem unitVector_withUpdRegisters (u : UnitInfo) (f : Quad → Lanes ChanOut) (vd va : VReg) :
    unitVector u f vd va (s.withUpdRegisters x y z) =
      (unitVector u f vd va s).map (State.withUpdRegisters x y z) := by
  cases hvalid : u.valid with
  | true => rw [unitVector_valid _ _ _ _ _ hvalid, unitVector_valid _ _ _ _ _ hvalid]; rfl
  | false => rw [unitVector_invalid _ _ _ _ _ hvalid, unitVector_invalid _ _ _ _ _ hvalid]; rfl

/-- The end of a checked command neither reads nor writes the registers. -/
theorem finish_map_withUpdRegisters {c : Check State} {t : State} (h : finish c s = .next t) :
    finish (c.map (State.withUpdRegisters x y z)) (s.withUpdRegisters x y z) =
      .next (t.withUpdRegisters x y z) := by
  obtain ⟨u, rfl, rfl⟩ | ⟨e, rfl, rfl⟩ := finish_next c s t h
  · rfl
  · rfl

end

/-- Settles O34: the change of the registers passes through the checks, the unit's function and the
end of either form. -/
theorem applyIgnoresUpdRegisters : Obligations.ApplyIgnoresUpdRegisters := by
  intro id vd va s x y z change
  refine ⟨fun t h => ?apply, fun t h => ?vector⟩
  case apply =>
    show exec (applyOf id) (s.withUpdRegisters x y z) = .next (t.withUpdRegisters x y z)
    rw [exec_applyOf] at h ⊢
    rw [infoOf_withUpdRegisters, unitFun_withUpdRegisters, applyFrame_withUpdRegisters]
    exact finish_map_withUpdRegisters x y z s h
  case vector =>
    show exec (vectorOf id vd va) (s.withUpdRegisters x y z) = .next (t.withUpdRegisters x y z)
    rw [exec_vectorOf] at h ⊢
    rw [infoOf_withUpdRegisters, unitFun_withUpdRegisters, unitVector_withUpdRegisters]
    exact finish_map_withUpdRegisters x y z s h

end Sys2Proof.Machine
end
